-- ==== Sys2Proof/Word.lean ====
section
/-! DEFINITION. The word types of the part: bytes, addresses and the identifiers that requests carry, and the indices of its tables. -/

namespace Sys2Proof

/-- A byte on a data beat or on the management port. -/
abbrev Byte := BitVec 8

/-- A 40-bit byte address (00 section 4). -/
abbrev Addr := BitVec 40

/-- A requester ID, 0 to 15 (R33). -/
abbrev Requester := BitVec 4

/-- A transaction tag, 0 to 15 (R33). -/
abbrev Tag := BitVec 4

/-- A surface index, 0 to 3 (R1). -/
abbrev SurfaceIx := Fin 4

/-- An aperture index, 0 to 7 (R16). -/
abbrev ApertureIx := Fin 8

/-- A profile slot number, 0 to 12 (R154). -/
abbrev SlotIx := Fin 13

/-- A read tracking entry, 0 to 31 (R124). -/
abbrev EntryIx := Fin 32

/-- The position of a fragment read in its entry's list, 0 to 63 (R39, R63). -/
abbrev ReadPos := Fin 64

end Sys2Proof
end

