-- ==== Sys2Proof/Syntax.lean ====
section
/-! DEFINITION. The commands of the block: one constructor of `Instr` for each row of the table of operations and events, with the requests and choices they carry. -/

namespace Sys2Proof

/-- Burst kinds (R33). -/
inductive Burst where
  | incrementing
  | fixed
  | wrapping
  deriving DecidableEq, Repr

/-- One byte of a write's data beats with its strobe (R33). -/
structure WByte where
  strobe : Bool
  data : Byte
  deriving DecidableEq, Repr

/-- An upstream write request (R33). `lenM1` is the number of beats less 1.
`bytes` holds the bytes of the beats in beat order, byte 0 of a beat first. -/
structure WriteReq where
  addr : Addr
  burst : Burst
  lenM1 : Fin 16
  requester : Requester
  tag : Tag
  bytes : List WByte
  deriving DecidableEq, Repr

/-- An upstream read request (R33). `lenM1` is the number of beats less 1. -/
structure ReadReq where
  addr : Addr
  burst : Burst
  lenM1 : Fin 16
  requester : Requester
  tag : Tag
  deriving DecidableEq, Repr

/-- The blocks that hand writes to the downstream port (R39). -/
inductive WriteSource where
  | writeChannel
  | holdQueue
  deriving DecidableEq, Repr

/-- Which read response is given: that of a tracking entry, or that of the refused read (R131). -/
inductive Responder where
  | entry (e : EntryIx)
  | refused
  deriving DecidableEq, Repr

/-- What a transaction whose command has not executed has given the part: the whole bytes received since CSN fell, and
whether CSN has risen (R145). -/
structure OpenBytes where
  received : List Byte
  ended : Bool
  deriving DecidableEq, Repr

/-- The commands. Parameter bytes of the management commands are given as they cross the port (R144). -/
inductive Instr where
  /-- POWER_ON. `cut` says how many items of the load phase are handled before the next command comes (none: all of them; log entry 6). -/
  | powerOn (cut : Option Nat)
  /-- POWER_LOSS. -/
  | powerLoss
  /-- RESETN_FALL. -/
  | resetnFall
  /-- RESETN_RISE, `cut` as in POWER_ON. -/
  | resetnRise (cut : Option Nat)
  /-- LOAD_PHASE_END. -/
  | loadPhaseEnd
  /-- HEAD_WRITE_CONSIDERED, of the write that stands at the head of the write channel. -/
  | headWriteConsidered (w : WriteReq)
  /-- WAITING_WRITE_RECONSIDERED. -/
  | waitingWriteReconsidered
  /-- WRITE_RESPONSE. -/
  | writeResponse
  /-- HEAD_READ_CONSIDERED, of the read that stands at the head of the read channel; `pick` chooses among the free entries (R125, log entry 7). -/
  | headReadConsidered (r : ReadReq) (pick : Nat)
  /-- HEAD_READ_RECONSIDERED, `pick` as above. -/
  | headReadReconsidered (pick : Nat)
  /-- FRAGMENT_READ_ISSUE. -/
  | fragmentReadIssue
  /-- DOWNSTREAM_WRITE_ISSUE, of the request of one forming block. -/
  | downstreamWriteIssue (src : WriteSource)
  /-- DOWNSTREAM_READ_RETURN: the read tag (entry and position), the status, the bytes of the returned beats. -/
  | downstreamReadReturn (entry : EntryIx) (pos : ReadPos) (error : Bool) (data : List Byte)
  /-- DOWNSTREAM_WRITE_RESPONSE: the status. -/
  | downstreamWriteResponse (error : Bool)
  /-- READ_RESPONSE. -/
  | readResponse (who : Responder)
  /-- SCAN_TIMER_EXPIRY of one surface. -/
  | scanTimerExpiry (surface : SurfaceIx)
  /-- PROFILE_PROGRAMMING_COMPLETE: whether the check code matches at read-back (R156, log entry 8). -/
  | profileProgrammingComplete (verifies : Bool)
  /-- SHORT_TRANSACTION: the bytes of a transaction whose command has not executed (R145); while CSN has not risen, the
  transaction stays open (R153, log entry 17). -/
  | shortTransaction (bytes : OpenBytes)
  /-- UNKNOWN_COMMAND: the command byte. -/
  | unknownCommand (code : Byte)
  /-- IDENT. -/
  | ident
  /-- MODE_SET: the mode byte. -/
  | modeSet (mode : Byte)
  /-- MODE_READ. -/
  | modeRead
  /-- SURFACE_WRITE: index, 27 record bytes. -/
  | surfaceWrite (index : Byte) (record : List Byte)
  /-- SURFACE_READ: index. -/
  | surfaceRead (index : Byte)
  /-- BAND_SET: index, 7 bytes of band block. -/
  | bandSet (index : Byte) (block : List Byte)
  /-- SCAN_READ: index. -/
  | scanRead (index : Byte)
  /-- APERTURE_WRITE: index, 18 record bytes. -/
  | apertureWrite (index : Byte) (record : List Byte)
  /-- APERTURE_READ: index. -/
  | apertureRead (index : Byte)
  /-- APERTURE_OPEN: index. -/
  | apertureOpen (index : Byte)
  /-- APERTURE_CLOSE: index. -/
  | apertureClose (index : Byte)
  /-- WINDOW_SET: index, 8 window bytes. -/
  | windowSet (index : Byte) (window : List Byte)
  /-- CURSOR_READ: index. -/
  | cursorRead (index : Byte)
  /-- HOLD_READ. -/
  | holdRead
  /-- EVENT_READ. -/
  | eventRead
  /-- EVENT_COUNT. -/
  | eventCount
  /-- ALERT_MASK_READ: ALERT-MASK with action 00h, and the mask bytes that are ignored. -/
  | alertMaskRead (mask : BitVec 16)
  /-- ALERT_MASK_WRITE: ALERT-MASK with any other action byte (01h writes), and the mask bytes. -/
  | alertMaskWrite (action : Byte) (mask : BitVec 16)
  /-- PROFILE_SAVE: slot number. -/
  | profileSave (slot : Byte)
  /-- PROFILE_READ. -/
  | profileRead
  /-- SOFT_RESET. -/
  | softReset
  /-- SOFT_RESET_FLUSH: stage 3 of the sequence begins. -/
  | softResetFlush
  /-- SOFT_RESET_RESUME: stages 4 and 5 of the sequence. -/
  | softResetResume
  deriving DecidableEq, Repr

end Sys2Proof
end

