-- ==== Sys2Proof/Decode.lean ====
section
/-! DEFINITION. Commands as they are spelled: by a word of the table of operations and events (none is), and by the bytes of a transaction on the management port (section 11.6). -/

namespace Sys2Proof

/-- The command that a word of `nbits` bits spells by the table's bits: none, since no row gives any. -/
def decodeTableWord (_nbits _w : Nat) : Option Instr := none

/-! The management port -/

/-- The command codes of the code table and the number of parameter bytes of each (section 11.6). -/
def commandCodes : List (Byte × Nat) :=
  [(0x01#8, 0), (0x10#8, 1), (0x11#8, 0), (0x20#8, 28), (0x21#8, 1), (0x22#8, 8), (0x23#8, 1)] ++
  [(0x30#8, 19), (0x31#8, 1), (0x32#8, 1), (0x33#8, 1), (0x34#8, 9), (0x35#8, 1)] ++
  [(0x40#8, 0), (0x50#8, 0), (0x51#8, 0), (0x52#8, 3), (0x60#8, 1), (0x61#8, 0), (0x7E#8, 0)]

/-- The number of parameter bytes that a code fixes, none for an unknown code (R144 item 1). -/
def paramCount (code : Byte) : Option Nat := (commandCodes.find? fun row => row.1 == code).map (·.2)

/-- A transaction is short when its bytes end before the last parameter byte of its command (R145).
An unknown code executes with its first byte, so no transaction that starts with one is short. -/
def shortBytes : List Byte → Bool
  | [] => true
  | code :: params =>
    match paramCount code with
    | some n => params.length < n
    | none => false

/-- The command that a code selects, with its parameter bytes in the order of the layouts (R144 items 1 and 2, section 11.6).
ALERT-MASK is the row ALERT_MASK_READ for action 00h and ALERT_MASK_WRITE for every other action (log entry 32). -/
def selectCommand (code : Byte) (params : List Byte) : Instr :=
  let p (k : Nat) : Byte := params.getD k 0
  match code.toNat with
  | 0x01 => .ident
  | 0x10 => .modeSet (p 0)
  | 0x11 => .modeRead
  | 0x20 => .surfaceWrite (p 0) (params.drop 1)
  | 0x21 => .surfaceRead (p 0)
  | 0x22 => .bandSet (p 0) (params.drop 1)
  | 0x23 => .scanRead (p 0)
  | 0x30 => .apertureWrite (p 0) (params.drop 1)
  | 0x31 => .apertureRead (p 0)
  | 0x32 => .apertureOpen (p 0)
  | 0x33 => .apertureClose (p 0)
  | 0x34 => .windowSet (p 0) (params.drop 1)
  | 0x35 => .cursorRead (p 0)
  | 0x40 => .holdRead
  | 0x50 => .eventRead
  | 0x51 => .eventCount
  | 0x52 => if p 0 = 0 then .alertMaskRead (p 1 ++ p 2) else .alertMaskWrite (p 0) (p 1 ++ p 2)
  | 0x60 => .profileSave (p 0)
  | 0x61 => .profileRead
  | 0x7E => .softReset
  | _ => .unknownCommand code

/-- The command that the bytes of a transaction, from CSN's fall on, are: bytes past the last parameter byte are ignored, and
too few of them are a short transaction (R144, R145). -/
def decodeTransaction (bytes : List Byte) : Instr :=
  match bytes with
  | [] => .shortTransaction ⟨[], true⟩
  | code :: params =>
    if shortBytes bytes then .shortTransaction ⟨bytes, true⟩
    else selectCommand code (params.take ((paramCount code).getD 0))

/-- A two-byte parameter, most significant byte first (R144 item 2). -/
def word2 (v : BitVec 16) : List Byte := [(v >>> 8).setWidth 8, v.setWidth 8]

/-- The bytes of a command's transaction up to its execution: the command byte and the parameter bytes
(section 11.6); empty for a command that does not come over the management port. -/
def Instr.wire : Instr → List Byte
  | .shortTransaction bytes => bytes.received
  | .unknownCommand code => [code]
  | .ident => [0x01]
  | .modeSet mode => [0x10, mode]
  | .modeRead => [0x11]
  | .surfaceWrite index record => 0x20 :: index :: record
  | .surfaceRead index => [0x21, index]
  | .bandSet index block => 0x22 :: index :: block
  | .scanRead index => [0x23, index]
  | .apertureWrite index record => 0x30 :: index :: record
  | .apertureRead index => [0x31, index]
  | .apertureOpen index => [0x32, index]
  | .apertureClose index => [0x33, index]
  | .windowSet index window => 0x34 :: index :: window
  | .cursorRead index => [0x35, index]
  | .holdRead => [0x40]
  | .eventRead => [0x50]
  | .eventCount => [0x51]
  | .alertMaskRead mask => 0x52 :: 0x00 :: word2 mask
  | .alertMaskWrite action mask => 0x52 :: action :: word2 mask
  | .profileSave slot => [0x60, slot]
  | .profileRead => [0x61]
  | .softReset => [0x7E]
  | _ => []

end Sys2Proof
end

