-- ==== Sys2Proof/Config.lean ====
section
/-! DEFINITION. What the part fixes as sizes, and the one value that nothing fixes. -/

namespace Sys2Proof.Config

/-- Entries of the hold queue (R109). -/
abbrev holdCapacity : Nat := 256

/-- Records of the event queue (R138). -/
abbrev eventCapacity : Nat := 32

/-- FREE VALUE. Byte `i` of a downstream read return that carries fewer bytes than its read asked for.
The spec has no such return (R40); nothing in the model fixes the byte. Log entry 20. -/
opaque missingReturnByte : Nat → Byte

end Sys2Proof.Config
end

