-- ==== Sys2Proof/Machine/State.lean ====
section
/-! DEFINITION. The state of the part as plain data, the reasons a step could stop (none that the spec gives), and the state right after power-on. -/

namespace Sys2Proof.Machine

/-! Records and contexts -/

/-- Stored pixel formats (R80). -/
inductive StoredFormat where
  | s16
  | s32
  deriving DecidableEq, Repr

/-- Upstream pixel formats (R80). -/
inductive UpFormat where
  | u16
  | u32
  deriving DecidableEq, Repr

/-- Tear policies (R6). -/
inductive TearPolicy where
  | pass
  | trail
  deriving DecidableEq, Repr

/-- Expansion policies (R83). -/
inductive Expansion where
  | zero
  | replicate
  | greyLock
  deriving DecidableEq, Repr

/-- Reduction policies (R85). -/
inductive Reduction where
  | truncate
  | round
  deriving DecidableEq, Repr

/-- Overflow policies of a stream aperture (R69). -/
inductive Overflow where
  | discard
  | wrap
  deriving DecidableEq, Repr

/-- A band (R8). -/
structure Band where
  top : Nat
  height : Nat
  offset : Nat
  deriving DecidableEq, Repr

/-- A surface record (R1). -/
structure SurfaceRec where
  defined : Bool
  base : Addr
  pitch : Nat
  width : Nat
  height : Nat
  format : StoredFormat
  scanner : Option Requester
  firstRow : Nat
  lastRow : Nat
  policy : TearPolicy
  timeout : Nat
  notify : Bool
  band : Option Band
  deriving DecidableEq, Repr

/-- The cleared surface record (R9). -/
def SurfaceRec.cleared : SurfaceRec where
  defined := false
  base := 0
  pitch := 64
  width := 1
  height := 1
  format := .s16
  scanner := none
  firstRow := 0
  lastRow := 0
  policy := .pass
  timeout := 0
  notify := false
  band := none

/-- Lifecycle states of an aperture: CLOSED, OPEN, DRAINING (R16). -/
inductive ApertureState where
  | closed
  | opened
  | draining
  deriving DecidableEq, Repr

/-- Kinds of aperture (R16). -/
inductive ApertureKind where
  | mapped
  | stream
  deriving DecidableEq, Repr

/-- The window of an aperture: view columns and rows, both ends included (R16). -/
structure Window where
  colFirst : Nat
  colLast : Nat
  rowFirst : Nat
  rowLast : Nat
  deriving DecidableEq, Repr

/-- The fields of an aperture record that software writes and that a profile slot keeps (R16, R155). -/
structure ApertureFields where
  kind : ApertureKind
  base : Addr
  surface : SurfaceIx
  exchange : Bool
  flipH : Bool
  flipV : Bool
  format : UpFormat
  expansion : Expansion
  reduction : Reduction
  overflow : Overflow
  window : Window
  filter : Option (List Requester)
  openAtStart : Bool
  deriving DecidableEq, Repr

/-- The fields of the cleared aperture record (R19). -/
def ApertureFields.cleared : ApertureFields where
  kind := .mapped
  base := 0
  surface := 0
  exchange := false
  flipH := false
  flipV := false
  format := .u16
  expansion := .zero
  reduction := .truncate
  overflow := .discard
  window := ⟨0, 0, 0, 0⟩
  filter := none
  openAtStart := false

/-- An aperture record with its two read-only fields, state and held count (R16). -/
structure Aperture where
  state : ApertureState
  held : Nat
  fields : ApertureFields
  deriving DecidableEq, Repr

/-- The cleared aperture record (R19). -/
def Aperture.cleared : Aperture := ⟨.closed, 0, ApertureFields.cleared⟩

/-- A cursor context (R66); `exhausted` is the status (RUNNING when false). -/
structure Cursor where
  col : Nat
  row : Nat
  exhausted : Bool
  dropReported : Bool
  deriving DecidableEq, Repr

/-- The cursor at a window's start after a cursor reset (R66). -/
def Cursor.start (w : Window) : Cursor := ⟨w.colFirst, w.rowFirst, false, false⟩

/-- Scan states (R91). -/
inductive ScanState where
  | idle
  | scanning
  | blanking
  | stalled
  deriving DecidableEq, Repr

/-- What waits for the next frame opening (R91). -/
inductive PendingBand where
  | none
  | band (b : Band)
  | remove
  deriving DecidableEq, Repr

/-- A scan context (R91). `timer` is the remaining time in REFCLK periods, none while stopped (log entry 3). -/
structure ScanCtx where
  state : ScanState
  frame : BitVec 16
  c : Nat
  active : Option Band
  pendingBand : PendingBand
  timer : Option Nat
  deriving DecidableEq, Repr

/-- The context that a reset or an installed record leaves, with the record's band active (R105, R107). -/
def ScanCtx.fresh (band : Option Band) : ScanCtx := ⟨.idle, 0, 0, band, .none, none⟩

/-! Fragments and the hold queue -/

/-- Where a fragment came from (R60). -/
inductive Origin where
  | aperture (a : ApertureIx)
  | backing
  deriving DecidableEq, Repr

/-- The 32 byte positions of a block: the byte where the mask has the position, none elsewhere (R60, R119). -/
abbrev Cells := Vector (Option Byte) 32

/-- A write fragment, and an entry of the hold queue (R60, R109). -/
structure Frag where
  surface : SurfaceIx
  row : Nat
  block : Addr
  cells : Cells
  origin : Origin
  requester : Requester
  deriving DecidableEq, Repr

/-- A fragment of an accepted write with its hold decision, not yet issued or joined (R60, R111). -/
structure PendingFrag where
  hold : Bool
  frag : Frag
  deriving DecidableEq, Repr

/-- What a release or flush of the hold queue serves (R117, R118). -/
inductive Work where
  /-- Rows passed by a scan step to display row `d` of the scanner read in `entry` (R96). -/
  | step (surface : SurfaceIx) (entry : EntryIx) (d : Nat)
  /-- Early restart at `d` by the scanner read in `entry` (R97). -/
  | restart (surface : SurfaceIx) (entry : EntryIx) (d : Nat)
  /-- Frame finish (R99). -/
  | finish (surface : SurfaceIx)
  /-- Expiry of the scan timer (R101). -/
  | stall (surface : SurfaceIx)
  /-- The full flush of the soft reset sequence (R118, R151). -/
  | fullFlush
  deriving DecidableEq, Repr

/-- A release or flush in progress: what it serves, how many entries it has issued,
and the apertures that those entries came from (R117; the last for APERTURE-READ, R32). -/
structure Release where
  work : Work
  issued : Nat
  origins : List ApertureIx
  deriving DecidableEq, Repr

/-- A release or flush that is ordered and waits for the work in progress (R110). -/
inductive Order where
  | finish (surface : SurfaceIx)
  | stall (surface : SurfaceIx)
  | fullFlush
  deriving DecidableEq, Repr

/-! Ports -/

/-- Response status on the upstream port (R35, R37). -/
inductive RespStatus where
  | okay
  | refused
  deriving DecidableEq, Repr

/-- A write response (R35). -/
structure WriteResp where
  requester : Requester
  tag : Tag
  status : RespStatus
  deriving DecidableEq, Repr

/-- A read response: the bytes of its beats in beat order (R37). -/
structure ReadResp where
  requester : Requester
  tag : Tag
  status : RespStatus
  data : List Byte
  deriving DecidableEq, Repr

/-- The accepted write that the write channel is handling (R34, R60). -/
inductive WriteJob where
  | transparent (w : WriteReq)
  | fragments (requester : Requester) (tag : Tag) (todo : List PendingFrag)
  deriving DecidableEq, Repr

/-- A byte lane of a downstream write: its strobe, and its data where a rule gives the lane any (R39). -/
structure Lane where
  strobe : Bool
  data : Option Byte
  deriving DecidableEq, Repr

/-- A downstream write as the port presents it to the memory controller (R39). `surface` is the unit of an error that memory
reports for it, none for a transparent write (R49). -/
structure DsWrite where
  addr : Addr
  burst : Burst
  lenM1 : Fin 16
  requester : Requester
  lanes : List Lane
  surface : Option SurfaceIx
  deriving DecidableEq, Repr

/-- The blocks that form downstream requests (R39). -/
inductive Former where
  | writeChannel
  | holdQueue
  | readTracker
  deriving DecidableEq, Repr

/-- The transaction in progress on the management port (R153): the bytes received since CSN fell and, after execution, the
response being clocked out. -/
inductive Port where
  /-- None: CSN has risen after the last transaction, or none has begun. -/
  | idle
  /-- Open, and its command has not executed. With every parameter byte received, the command waits to execute (log entry 36). -/
  | receiving (received : List Byte)
  /-- Open since a time when RESETN was low: nothing of it takes effect until CSN falls again. -/
  | ignored
  /-- Executed: the bytes up to execution, and the status byte with the response bytes behind it (R144 item 4). -/
  | responding (received response : List Byte)
  deriving DecidableEq, Repr

/-! Read tracking -/

/-- Routes of accepted reads (R124). -/
inductive Route where
  | transparent
  | mapped
  | stream
  | backing
  | scanner
  deriving DecidableEq, Repr

/-- Conversion fields of a mapped or stream read (R124). -/
structure Conv where
  up : UpFormat
  stored : StoredFormat
  expansion : Expansion
  reduction : Reduction
  deriving DecidableEq, Repr

/-- Where one upstream pixel lands: view coordinates, memory row and column, memory address (R56). -/
structure Place where
  x : Nat
  y : Nat
  row : Nat
  col : Nat
  addr : Nat
  deriving DecidableEq, Repr

/-- An entry of a placement list: the offset of the pixel's byte 0 in the aperture (R52; none in a stream list, whose entries
have no offset, R68), the byte of the request where the pixel begins (beat `off / 8`, byte `off % 8`)
and its place, none for an exhausted entry (R56, R68). -/
structure PlaceEntry where
  offset : Option Nat
  off : Nat
  place : Option Place
  deriving DecidableEq, Repr

/-- Status of a fragment read (R124). -/
inductive ReadStatus where
  | unissued
  | issued
  | returned
  deriving DecidableEq, Repr

/-- A fragment read (R124). `mask` is the byte mask of a 32-byte block read.
`finishes` marks the fragment read of a tracked scanner read that covers the finishing byte (R99). -/
structure FragRead where
  addr : Addr
  burst : Burst
  beats : Nat
  mask : Option (BitVec 32)
  finishes : Bool
  status : ReadStatus
  snapshot : Option Cells
  data : Option (List Byte)
  deriving DecidableEq, Repr

/-- States of a tracking entry (R125). -/
inductive EntryState where
  | issuing
  | waiting
  | responding
  deriving DecidableEq, Repr

/-- An entry in use of the read tracking table (R124). -/
structure Entry where
  req : ReadReq
  route : Route
  aperture : Option ApertureIx
  surface : Option SurfaceIx
  conv : Option Conv
  placement : List PlaceEntry
  reads : List FragRead
  error : Bool
  state : EntryState
  deriving DecidableEq, Repr

/-! Events -/

/-- The thirteen kinds of event, kind number 0 first (section 10.2). -/
inductive EventKind where
  | apertureClosed
  | accessRefused
  | partialPixel
  | streamExhausted
  | frameOpen
  | scanRestart
  | scanStall
  | holdFull
  | downstreamError
  | profileDone
  | loadFault
  | lineReset
  | softResetDone
  deriving DecidableEq, Repr

/-- Unit class and number of an event (R136). -/
inductive EventUnit where
  | aperture (a : ApertureIx)
  | surface (s : SurfaceIx)
  | slot (k : SlotIx)
  deriving DecidableEq, Repr

/-- Detail codes by name, and numbers (R136, section 11.6). -/
inductive Detail where
  | closeImmediate
  | closeDrained
  | draining
  | beyondView
  | crossesEdge
  | filtered
  | burstKind
  | misaligned
  | convert
  | stream
  | windowEnd
  | read
  | write
  | unknownTag
  | saved
  | saveFailed
  | damaged
  | surfaceOverlap
  | openRefused
  | number (n : Nat)
  deriving DecidableEq, Repr

/-- What a block raises, before the event queue numbers it (R136). -/
structure EventBody where
  kind : EventKind
  unit : Option EventUnit
  addr : Option Addr
  requester : Option Requester
  frame : Option (BitVec 16)
  detail : Detail
  deriving DecidableEq, Repr

/-- A stored event record (R136). -/
structure EventRec where
  seq : BitVec 16
  body : EventBody
  dropped : Nat
  deriving DecidableEq, Repr

/-! Profile store -/

/-- Part modes (R41). -/
inductive Mode where
  | bypass
  | engaged
  deriving DecidableEq, Repr

/-- The settings that slot 12 keeps (R155). -/
structure Settings where
  mode : Mode
  mask : BitVec 13
  deriving DecidableEq, Repr

/-- A profile slot: use count, image, and whether the check code matches the image (R154). -/
structure Slot (α : Type) where
  uses : Nat
  image : Option α
  checkOk : Bool
  deriving DecidableEq, Repr

/-- A slot as it leaves the factory: use count 0 (R154). That it holds no image and a check code that does not match is the
model's choice, which nothing reads (log entry 37). -/
def Slot.blank {α : Type} : Slot α := ⟨0, none, false⟩

/-! The machine -/

/-- Stages of the soft reset sequence (R151): stop and drain, flush, flush complete with the count of entries issued. -/
inductive SoftStage where
  | drain
  | flush
  | flushed (count : Nat)
  deriving DecidableEq, Repr

/-- Where the part stands. In `loading`, `next` is the item of the load phase that comes next:
0 to 12 a slot, 13 to 20 the opening at start of an aperture, 21 none left (R158, R159). -/
inductive Phase where
  | off
  | resetLow
  | loading (next : Nat)
  | running
  | softReset (stage : SoftStage)
  deriving DecidableEq, Repr

/-- The state of the part. INVENTORY.md names the rule of each field. -/
structure State where
  phase : Phase
  mode : Mode
  surfaces : Vector SurfaceRec 4
  apertures : Vector Aperture 8
  cursors : Vector Cursor 8
  scans : Vector ScanCtx 4
  queue : List Frag
  highWater : Nat
  episode : Bool
  release : Option Release
  orders : List Order
  headWrite : Option WriteReq
  writeJob : Option WriteJob
  writeResp : Option WriteResp
  headRead : Option ReadReq
  refusedRead : Option ReadReq
  table : Vector (Option Entry) 32
  taken : List EntryIx
  handed : List (List Former)
  outstanding : List DsWrite
  abandonedTags : List (EntryIx × ReadPos)
  abandonedWrites : Nat
  events : List EventRec
  seqCounter : BitVec 16
  alertMask : BitVec 13
  apSlots : Vector (Slot ApertureFields) 8
  sfSlots : Vector (Slot SurfaceRec) 4
  setSlot : Slot Settings
  saving : Option SlotIx
  discarded : Nat
  port : Port
  upWrite : Option WriteResp
  upRead : Option ReadResp
  pending : List Instr
  deriving DecidableEq, Repr

/-- Faults: none. The spec lets nothing stop the part; every error is answered or reported by an event. -/
inductive Fault where
  deriving DecidableEq, Repr

/-- Refusals. -/
inductive Refusal where
  /-- Raised by an arm of `exec` for a command that has no meaning yet; safe. No arm raises it now. -/
  | notModelled (mnemonic : String)
  deriving DecidableEq, Repr

/-- The default alert mask: every enable on but those of FRAME-OPEN (4) and STREAM-EXHAUSTED (3) (R141). -/
def defaultMask : BitVec 13 := 0x1FE7

/-- The state right after power is applied to a part whose slots are all BLANK: the load phase has handled
every slot and has not ended (R158; log entry 4). -/
def State.reset : State where
  phase := .loading 21
  mode := .bypass
  surfaces := Vector.replicate 4 SurfaceRec.cleared
  apertures := Vector.replicate 8 Aperture.cleared
  cursors := Vector.replicate 8 (Cursor.start ⟨0, 0, 0, 0⟩)
  scans := Vector.replicate 4 (ScanCtx.fresh none)
  queue := []
  highWater := 0
  episode := false
  release := none
  orders := []
  headWrite := none
  writeJob := none
  writeResp := none
  headRead := none
  refusedRead := none
  table := Vector.replicate 32 none
  taken := []
  handed := []
  outstanding := []
  abandonedTags := []
  abandonedWrites := 0
  events := []
  seqCounter := 0
  alertMask := defaultMask
  apSlots := Vector.replicate 8 Slot.blank
  sfSlots := Vector.replicate 4 Slot.blank
  setSlot := Slot.blank
  saving := none
  discarded := 0
  port := .idle
  upWrite := none
  upRead := none
  pending := []

end Sys2Proof.Machine
end

