-- ==== Sys2Proof/Machine/Ops.lean ====
section
/-! DEFINITION. The named operations over the tables of the state, and the way a management command executes. -/

namespace Sys2Proof.Machine

/-- Applies `f` to every element of a table. -/
def mapTable {α β : Type} {n : Nat} (f : α → β) (v : Vector α n) : Vector β n :=
  ⟨(v.toList.map f).toArray, by simp⟩

/-! Table updates -/

def State.setSurface (s : State) (i : SurfaceIx) (r : SurfaceRec) : State :=
  { s with surfaces := s.surfaces.set i r }

def State.setAperture (s : State) (a : ApertureIx) (r : Aperture) : State :=
  { s with apertures := s.apertures.set a r }

def State.setCursor (s : State) (a : ApertureIx) (c : Cursor) : State :=
  { s with cursors := s.cursors.set a c }

def State.setScan (s : State) (i : SurfaceIx) (c : ScanCtx) : State :=
  { s with scans := s.scans.set i c }

def State.setEntry (s : State) (e : EntryIx) (r : Option Entry) : State :=
  { s with table := s.table.set e r }

def State.setPort (s : State) (p : Port) : State :=
  { s with port := p }

/-- Cursor reset of R66, to the window start of the aperture's record as it stands. -/
def State.resetCursor (s : State) (a : ApertureIx) : State :=
  s.setCursor a (Cursor.start s.apertures[a].fields.window)

/-- Cursor reset of every aperture (R78). -/
def State.resetCursors (s : State) : State :=
  { s with cursors := mapTable (fun r => Cursor.start r.fields.window) s.apertures }

/-! Indices that cross the management port as a byte (R146 step 2) -/

def surfaceIx (b : Byte) : Option SurfaceIx :=
  if h : b.toNat < 4 then some ⟨b.toNat, h⟩ else none

def apertureIx (b : Byte) : Option ApertureIx :=
  if h : b.toNat < 8 then some ⟨b.toNat, h⟩ else none

def slotIx (b : Byte) : Option SlotIx :=
  if h : b.toNat < 13 then some ⟨b.toNat, h⟩ else none

/-! Management commands -/

/-- Status codes (R146). -/
inductive Status where
  | done
  | busy
  | state
  | range
  | unknown
  | exhausted
  deriving DecidableEq, Repr

/-- The code of a status (R146). -/
def Status.code : Status → Byte
  | .done => 0x00
  | .busy => 0x01
  | .state => 0x02
  | .range => 0x03
  | .unknown => 0x04
  | .exhausted => 0x05

/-- What an executed command answers: its status, its response bytes, and the state it leaves. -/
structure Answer where
  status : Status
  bytes : List Byte
  state : State

/-- A command refused with a status: no response bytes, no change (R146). -/
def State.refuse (s : State) (st : Status) : Answer := ⟨st, [], s⟩

/-- A command carried out. -/
def State.done (s : State) (bytes : List Byte := []) : Answer := ⟨.done, bytes, s⟩

/-- The busy gate: the load phase and the soft reset sequence (R146). -/
def State.busy (s : State) : Bool :=
  match s.phase with
  | .loading _ => true
  | .softReset _ => true
  | _ => false

/-- The answer of an executed command goes out: the bytes that brought it, its status byte, its response bytes (R144 item 4). -/
def Answer.sent (a : Answer) (received : List Byte) : State :=
  a.state.setPort (.responding received (a.status.code :: a.bytes))

/-- A transaction on the management port that brings command `c`. Unpowered, there is no port; while RESETN is low bytes are
ignored (R153); a transaction whose parameters are incomplete does nothing (R145); a gated command in the busy
periods is answered BUSY (R146); a command that `waits` for an accepted write keeps its bytes in the port until it executes
(R12, R29, R42; log entry 36); otherwise the command executes, and the port clocks out its answer (R144).
A transaction that was still open has ended with CSN's rise before this one, so what was not executed of it is discarded (R145). -/
def State.command (s : State) (c : Instr) (gated complete waits : Bool) (body : Answer) : State :=
  match s.phase with
  | .off => s
  | .resetLow => s.setPort .ignored
  | _ =>
    if !complete then s.setPort .idle
    else if gated && s.busy then (s.refuse .busy).sent c.wire
    else if waits then s.setPort (.receiving c.wire)
    else body.sent c.wire

/-- Bytes of a transaction that has not executed, and whether CSN has risen (R145). One that was open while RESETN was low
stays ignored until CSN falls again (R153). -/
def State.gather (s : State) (received : List Byte) (ended : Bool) : State :=
  match s.phase with
  | .off => s
  | .resetLow => s.setPort (if ended then .idle else .ignored)
  | _ =>
    s.setPort (if ended then .idle else if s.port = .ignored then .ignored
      else if shortBytes received then .receiving received else .idle)

/-- What RESETN's fall leaves of the transaction in progress: it is ended, and bytes still to come of it are ignored (R153). A
transaction that has executed counts as in progress, unless a SHORT_TRANSACTION with `ended` true has brought CSN's rise since:
no row of the table brings that rise by itself, and the model's choice is that it has not come (log entry 17). -/
def Port.cut : Port → Port
  | .idle => .idle
  | _ => .ignored

/-- The byte that SDO carries `k` bytes after execution; 0FFh before execution and past the response (R144). -/
def State.sdoByte (s : State) (k : Nat) : Byte :=
  match s.port with
  | .responding _ response => response.getD k 0xFF
  | _ => 0xFF

end Sys2Proof.Machine
end

