-- ==== Sys2Proof/Machine/Flags.lean ====
section
/-! DEFINITION. The event queue and the ALERT line. -/

namespace Sys2Proof.Machine

/-- Kind numbers (section 10.2). -/
def EventKind.number : EventKind → Nat
  | .apertureClosed => 0
  | .accessRefused => 1
  | .partialPixel => 2
  | .streamExhausted => 3
  | .frameOpen => 4
  | .scanRestart => 5
  | .scanStall => 6
  | .holdFull => 7
  | .downstreamError => 8
  | .profileDone => 9
  | .loadFault => 10
  | .lineReset => 11
  | .softResetDone => 12

/-- Values of the detail codes (section 11.6, Event record). -/
def Detail.code : Detail → Nat
  | .closeImmediate => 1
  | .closeDrained => 2
  | .draining => 1
  | .beyondView => 2
  | .crossesEdge => 3
  | .filtered => 4
  | .burstKind => 5
  | .misaligned => 6
  | .convert => 1
  | .stream => 2
  | .windowEnd => 1
  | .read => 1
  | .write => 2
  | .unknownTag => 3
  | .saved => 1
  | .saveFailed => 2
  | .damaged => 1
  | .surfaceOverlap => 2
  | .openRefused => 3
  | .number n => n

/-- Counts a dropped event on the newest stored record, at most 255 (R139). -/
def countDropped : List EventRec → List EventRec
  | [] => []
  | [r] => [{ r with dropped := min 255 (r.dropped + 1) }]
  | r :: rs => r :: countDropped rs

/-- Takes a raised event: numbers it, and stores it or counts it as dropped (R138, R139). -/
def State.raise (s : State) (b : EventBody) : State :=
  { s with
    seqCounter := s.seqCounter + 1
    events :=
      if s.events.length < Config.eventCapacity then s.events ++ [⟨s.seqCounter, b, 0⟩]
      else countDropped s.events }

/-- Takes an event if there is one to take. -/
def State.raiseIf (s : State) (cond : Bool) (b : EventBody) : State :=
  if cond then s.raise b else s

/-- Whether the mask enables a kind (R141). -/
def enabledIn (mask : BitVec 13) (k : EventKind) : Bool := mask.getLsbD k.number

/-- ALERT is asserted exactly while a stored record's kind is enabled (R142). -/
def State.alert (s : State) : Bool :=
  s.events.any (fun r => enabledIn s.alertMask r.body.kind)

end Sys2Proof.Machine
end

