-- ==== Sys2Proof/Machine/Operands.lean ====
section
/-! DEFINITION. What requests cover, and the byte layouts of everything that crosses the management port. -/

namespace Sys2Proof.Machine

/-! Upstream requests -/

/-- The fields of a request that the route classifier reads (R33). -/
structure Access where
  write : Bool
  addr : Nat
  burst : Burst
  len : Nat
  requester : Requester
  deriving DecidableEq, Repr

/-- Number of beats of a write. -/
def writeLen (w : WriteReq) : Nat := w.lenM1.val + 1

/-- Number of beats of a read. -/
def readLen (r : ReadReq) : Nat := r.lenM1.val + 1

def writeAccess (w : WriteReq) : Access := ⟨true, w.addr.toNat, w.burst, writeLen w, w.requester⟩

def readAccess (r : ReadReq) : Access := ⟨false, r.addr.toNat, r.burst, readLen r, r.requester⟩

/-- First byte of the covered range (R33). -/
def Access.low (q : Access) : Nat :=
  match q.burst with
  | .incrementing => q.addr / 8 * 8
  | .fixed => q.addr / 8 * 8
  | .wrapping => q.addr / (8 * q.len) * (8 * q.len)

/-- Number of bytes of the covered range (R33). -/
def Access.size (q : Access) : Nat :=
  match q.burst with
  | .incrementing => 8 * q.len
  | .fixed => 8
  | .wrapping => 8 * q.len

/-- Last byte of the covered range (R33). -/
def Access.high (q : Access) : Nat := q.low + q.size - 1

/-- The number of addresses of the 40-bit space. -/
abbrev addrSpace : Nat := 1099511627776

/-- Malformed requests (R33). -/
def Access.malformed (q : Access) : Bool :=
  match q.burst with
  | .incrementing => addrSpace ≤ q.high
  | .fixed => false
  | .wrapping => !(q.len == 2 || q.len == 4 || q.len == 8 || q.len == 16)

/-- Byte `j` of a write's beats with its strobe; a byte the request does not hold is not strobed. -/
def writeByte (w : WriteReq) (j : Nat) : WByte := w.bytes.getD j ⟨false, 0⟩

/-! Numbers on the management port: most significant byte first (R144) -/

/-- `n` as `k` bytes. -/
def beBytes : Nat → Nat → List Byte
  | 0, _ => []
  | k + 1, n => BitVec.ofNat 8 (n / 256 ^ k) :: beBytes k n

/-- The number that bytes spell. -/
def beNat (l : List Byte) : Nat := l.foldl (fun n b => n * 256 + b.toNat) 0

/-- The number in bytes `start` to `start + len - 1` of a layout. -/
def field (l : List Byte) (start len : Nat) : Nat := beNat ((l.drop start).take len)

/-- Bit `i` of byte `k` of a layout. -/
def bitOf (l : List Byte) (k i : Nat) : Bool := (l.getD k 0).getLsbD i

/-- A bit as a number, at place `i`. -/
def bitAt (b : Bool) (i : Nat) : Nat := if b then 2 ^ i else 0

/-! Band block -/

/-- What a band block says (section 11.6). -/
inductive BandBlock where
  | absent
  | band (b : Band)
  | remove
  | bad
  deriving DecidableEq, Repr

/-- Reads a band block: kind, top, height, offset. -/
def parseBand (l : List Byte) : BandBlock :=
  match field l 0 1 with
  | 0 => .absent
  | 1 => .band ⟨field l 1 2, field l 3 2, field l 5 2⟩
  | 2 => .remove
  | _ => .bad

/-- A band block of kind 01h. -/
def bandBytes (b : Band) : List Byte :=
  beBytes 1 1 ++ beBytes 2 b.top ++ beBytes 2 b.height ++ beBytes 2 b.offset

/-- An optional band as a band block: an absent part's fields are sent as 0. -/
def optBandBytes : Option Band → List Byte
  | none => beBytes 7 0
  | some b => bandBytes b

/-- A pending band as a band block. -/
def pendingBandBytes : PendingBand → List Byte
  | .none => beBytes 7 0
  | .band b => bandBytes b
  | .remove => beBytes 1 2 ++ beBytes 6 0

/-! Surface record -/

/-- Reads an offered surface record; none when a bit marked zero is set or a band kind is not 00h or 01h.
With the defined bit clear the rest is ignored and the cleared record is offered. Log entry 26. -/
def parseSurface (l : List Byte) : Option SurfaceRec :=
  if !bitOf l 0 0 then some SurfaceRec.cleared
  else if bitOf l 0 5 || bitOf l 0 6 || bitOf l 0 7 || 16 ≤ field l 1 1 then none
  else
    let rec' (band : Option Band) : SurfaceRec :=
      { defined := true
        format := if bitOf l 0 1 then .s32 else .s16
        scanner := if bitOf l 0 2 then some (BitVec.ofNat 4 (field l 1 1)) else none
        policy := if bitOf l 0 3 then .trail else .pass
        notify := bitOf l 0 4
        base := BitVec.ofNat 40 (field l 2 5)
        pitch := field l 7 3
        width := field l 10 2
        height := field l 12 2
        firstRow := field l 14 2
        lastRow := field l 16 2
        timeout := field l 18 2
        band := band }
    match parseBand (l.drop 20) with
    | .absent => some (rec' none)
    | .band b => some (rec' (some b))
    | .remove => none
    | .bad => none

/-- A surface record as SURFACE-READ returns it, 27 bytes. -/
def surfaceBytes (r : SurfaceRec) : List Byte :=
  beBytes 1 (bitAt r.defined 0 + bitAt (r.format == .s32) 1 + bitAt r.scanner.isSome 2
    + bitAt (r.policy == .trail) 3 + bitAt r.notify 4)
  ++ beBytes 1 (r.scanner.getD 0).toNat
  ++ beBytes 5 r.base.toNat ++ beBytes 3 r.pitch ++ beBytes 2 r.width ++ beBytes 2 r.height
  ++ beBytes 2 r.firstRow ++ beBytes 2 r.lastRow ++ beBytes 2 r.timeout ++ optBandBytes r.band

/-! Window and aperture record -/

/-- Reads a window. -/
def parseWindow (l : List Byte) : Window := ⟨field l 0 2, field l 2 2, field l 4 2, field l 6 2⟩

/-- The ranges of R16 for a window. -/
def windowInRange (w : Window) : Bool :=
  w.colLast ≤ 4095 && w.rowLast ≤ 4095 && w.colFirst ≤ w.colLast && w.rowFirst ≤ w.rowLast

def windowBytes (w : Window) : List Byte :=
  beBytes 2 w.colFirst ++ beBytes 2 w.colLast ++ beBytes 2 w.rowFirst ++ beBytes 2 w.rowLast

/-- Reads the expansion code. -/
def parseExpansion : Nat → Option Expansion
  | 0 => some .zero
  | 1 => some .replicate
  | 2 => some .greyLock
  | _ => none

def expansionCode : Expansion → Nat
  | .zero => 0
  | .replicate => 1
  | .greyLock => 2

/-- The first `n` IDs of the four 4-bit fields of `v`, first ID in bits 12 to 15. -/
def filterIds (n v : Nat) : List Requester :=
  ([v / 4096, v / 256, v / 16, v].map (BitVec.ofNat 4)).take n

/-- Reads an offered aperture record; none when a field is outside its range (R18). -/
def parseAperture (l : List Byte) : Option ApertureFields :=
  let base := field l 4 5
  let window := parseWindow (l.drop 10)
  let filterLen := field l 1 1 / 16
  match parseExpansion (field l 1 1 % 16) with
  | none => none
  | some expansion =>
    if h : field l 9 1 < 4 then
      if base % 4096 == 0 && windowInRange window && filterLen ≤ 4 then
        some
          { kind := if bitOf l 0 0 then .stream else .mapped
            exchange := bitOf l 0 1
            flipH := bitOf l 0 2
            flipV := bitOf l 0 3
            format := if bitOf l 0 4 then .u32 else .u16
            reduction := if bitOf l 0 5 then .round else .truncate
            overflow := if bitOf l 0 6 then .wrap else .discard
            openAtStart := bitOf l 0 7
            expansion := expansion
            filter := if filterLen = 0 then none else some (filterIds filterLen (field l 2 2))
            base := BitVec.ofNat 40 base
            surface := ⟨field l 9 1, h⟩
            window := window }
      else none
    else none

/-- The filter's bytes: IDs in order, the fields past its length 0 (log entry 27). -/
def filterBytes (ids : List Requester) : List Byte :=
  beBytes 2 ((ids.getD 0 0).toNat * 4096 + (ids.getD 1 0).toNat * 256 + (ids.getD 2 0).toNat * 16 + (ids.getD 3 0).toNat)

def apertureStateCode : ApertureState → Nat
  | .closed => 0
  | .opened => 1
  | .draining => 2

/-- An aperture record, its state and a held count, as APERTURE-READ returns them, 21 bytes. -/
def apertureBytes (f : ApertureFields) (st : ApertureState) (held : Nat) : List Byte :=
  beBytes 1 (bitAt (f.kind == .stream) 0 + bitAt f.exchange 1 + bitAt f.flipH 2 + bitAt f.flipV 3
    + bitAt (f.format == .u32) 4 + bitAt (f.reduction == .round) 5 + bitAt (f.overflow == .wrap) 6 + bitAt f.openAtStart 7)
  ++ beBytes 1 (expansionCode f.expansion + 16 * (f.filter.getD []).length)
  ++ filterBytes (f.filter.getD [])
  ++ beBytes 5 f.base.toNat ++ beBytes 1 f.surface.val ++ windowBytes f.window
  ++ beBytes 1 (apertureStateCode st) ++ beBytes 2 held

/-! Other responses -/

def scanStateCode : ScanState → Nat
  | .idle => 0
  | .scanning => 1
  | .blanking => 2
  | .stalled => 3

/-- REFCLK periods in one unit of the scan timer: 16 microseconds at 25 MHz (R100; log entry 3). -/
abbrev refclkPerUnit : Nat := 400

/-- A running timer's remaining time in whole units, rounded up; 0 while stopped (R108). -/
def timerUnits : Option Nat → Nat
  | none => 0
  | some t => (t + (refclkPerUnit - 1)) / refclkPerUnit

/-- SCAN-READ's response, 21 bytes. -/
def scanBytes (c : ScanCtx) : List Byte :=
  beBytes 1 (scanStateCode c.state) ++ beBytes 2 c.frame.toNat ++ beBytes 2 c.c
  ++ optBandBytes c.active ++ pendingBandBytes c.pendingBand ++ beBytes 2 (timerUnits c.timer)

/-- CURSOR-READ's response, 5 bytes. Bits 2 to 7 of the last, which the layout gives no meaning, are sent as 0: the model's
choice (log entry 39). -/
def cursorBytes (c : Cursor) : List Byte :=
  beBytes 2 c.col ++ beBytes 2 c.row ++ beBytes 1 (bitAt c.exhausted 0 + bitAt c.dropReported 1)

/-- The unit byte of an event record: class in bits 6 to 7, number in bits 0 to 3. Bits 4 and 5, which the layout gives no
meaning, are sent as 0: the model's choice (log entry 39). -/
def unitByte : Option EventUnit → Nat
  | none => 0
  | some (.aperture a) => 64 + a.val
  | some (.surface i) => 128 + i.val
  | some (.slot k) => 192 + k.val

/-- An event record, 16 bytes; the field of an absent part is sent as 0. Bits 4 to 7 of the presence byte, which the layout
gives no meaning, are sent as 0: the model's choice (log entry 39). -/
def eventBytes (r : EventRec) : List Byte :=
  beBytes 2 r.seq.toNat ++ beBytes 1 r.body.kind.number
  ++ beBytes 1 (bitAt r.body.unit.isSome 0 + bitAt r.body.addr.isSome 1 + bitAt r.body.requester.isSome 2
    + bitAt r.body.frame.isSome 3)
  ++ beBytes 1 (unitByte r.body.unit) ++ beBytes 5 (r.body.addr.getD 0).toNat ++ beBytes 1 (r.body.requester.getD 0).toNat
  ++ beBytes 2 (r.body.frame.getD 0).toNat ++ beBytes 2 r.body.detail.code ++ beBytes 1 r.dropped

end Sys2Proof.Machine
end

