-- ==== Sys2Proof/Machine/Geometry.lean ====
section
/-! DEFINITION. What surface and aperture records say about addresses: backing ranges, views, spans, bands. -/

namespace Sys2Proof.Machine

/-! Surfaces -/

/-- Stored pixel size in bytes (R2). -/
def StoredFormat.size : StoredFormat → Nat
  | .s16 => 2
  | .s32 => 4

/-- Upstream pixel size in bytes (R16). -/
def UpFormat.size : UpFormat → Nat
  | .u16 => 2
  | .u32 => 4

/-- Pixel bytes of a row (section 1.6). -/
def SurfaceRec.rowBytes (r : SurfaceRec) : Nat := r.width * r.format.size

/-- First address of the backing range (R3). -/
def SurfaceRec.low (r : SurfaceRec) : Nat := r.base.toNat

/-- The address after the last of the backing range (R3). -/
def SurfaceRec.stop (r : SurfaceRec) : Nat := r.base.toNat + r.pitch * r.height

/-- Whether an address lies in the backing range of a DEFINED surface (R3, R9). -/
def SurfaceRec.owns (r : SurfaceRec) (a : Nat) : Bool := r.defined && r.low ≤ a && a < r.stop

/-- The row of an address (R3, R92). -/
def SurfaceRec.rowOf (r : SurfaceRec) (a : Nat) : Nat := (a - r.low) / r.pitch

/-- The byte-in-row of an address (R3). -/
def SurfaceRec.byteInRow (r : SurfaceRec) (a : Nat) : Nat := (a - r.low) % r.pitch

/-- The address of the pixel at a memory row and column (R3, R55). -/
def SurfaceRec.pixelAddr (r : SurfaceRec) (row col : Nat) : Nat :=
  r.low + row * r.pitch + col * r.format.size

/-- Whether a row lies in the scan range (R5). -/
def SurfaceRec.inScanRange (r : SurfaceRec) (row : Nat) : Bool := r.firstRow ≤ row && row ≤ r.lastRow

/-- Whether a band satisfies R8 against the record's scan range. -/
def SurfaceRec.bandOk (r : SurfaceRec) (b : Band) : Bool :=
  2 ≤ b.height && b.height ≤ r.lastRow - r.firstRow + 1 && b.offset < b.height
    && r.firstRow ≤ b.top && b.top + b.height - 1 ≤ r.lastRow

/-- Whether an optional band satisfies R8. -/
def SurfaceRec.optBandOk (r : SurfaceRec) : Option Band → Bool
  | none => true
  | some b => r.bandOk b

/-- The constraints that a DEFINED record meets by itself (R1, R2, R3, R5, R8). -/
def SurfaceRec.fieldsOk (r : SurfaceRec) : Bool :=
  r.base.toNat % 64 == 0 && 64 ≤ r.pitch && r.pitch ≤ 65536 && r.pitch % 64 == 0
    && 1 ≤ r.width && r.width ≤ 4096 && 1 ≤ r.height && r.height ≤ 4096
    && r.rowBytes ≤ r.pitch && r.stop ≤ addrSpace
    && r.firstRow ≤ r.lastRow && r.lastRow < r.height && r.timeout < 65536
    && r.optBandOk r.band

/-! Bands -/

/-- Whether a row lies within a band. -/
def Band.covers (b : Band) (row : Nat) : Bool := b.top ≤ row && row < b.top + b.height

/-- The memory row that a display row reads under the active band (R93). -/
def memoryRow (band : Option Band) (d : Nat) : Nat :=
  match band with
  | none => d
  | some b => if b.covers d then b.top + (d - b.top + b.offset) % b.height else d

/-- The display position of a memory row under the active band (R93). -/
def displayRow (band : Option Band) (m : Nat) : Nat :=
  match band with
  | none => m
  | some b => if b.covers m then b.top + (m - b.top + b.height - b.offset) % b.height else m

/-! Apertures -/

/-- View width (R17). -/
def viewWidth (f : ApertureFields) (r : SurfaceRec) : Nat := if f.exchange then r.height else r.width

/-- View height (R17). -/
def viewHeight (f : ApertureFields) (r : SurfaceRec) : Nat := if f.exchange then r.width else r.height

/-- View extent in bytes (section 4.1). -/
def viewExtent (f : ApertureFields) (r : SurfaceRec) : Nat :=
  viewWidth f r * viewHeight f r * f.format.size

/-- Span in bytes (R17). -/
def apertureSpan (f : ApertureFields) (r : SurfaceRec) : Nat :=
  match f.kind with
  | .mapped => (viewExtent f r + 4095) / 4096 * 4096
  | .stream => 8192

/-- First address of an aperture's upstream range (R17). -/
def ApertureFields.low (f : ApertureFields) : Nat := f.base.toNat

/-- The address after the last of an aperture's upstream range (R17). -/
def apertureStop (f : ApertureFields) (r : SurfaceRec) : Nat := f.low + apertureSpan f r

/-- The record of the surface that an aperture names. -/
def State.surfaceOf (s : State) (a : ApertureIx) : SurfaceRec := s.surfaces[s.apertures[a].fields.surface]

/-- The address after the last of aperture `a`'s range, from the records as they stand. -/
def State.apertureEnd (s : State) (a : ApertureIx) : Nat := apertureStop s.apertures[a].fields (s.surfaceOf a)

/-- Whether an aperture is OPEN or DRAINING, so that it claims its range. -/
def State.claims (s : State) (a : ApertureIx) : Bool := s.apertures[a].state != .closed

/-- Whether an address lies in the range of aperture `a`, claimed or not. -/
def State.apertureHas (s : State) (a : ApertureIx) (x : Nat) : Bool :=
  s.apertures[a].fields.low ≤ x && x < s.apertureEnd a

/-- Two ranges, each from its first address to before its end, share an address (R10, R21). -/
def overlap (low1 stop1 low2 stop2 : Nat) : Bool := low1 < stop2 && low2 < stop1 && low1 < stop1 && low2 < stop2

/-- Every surface index, in order. -/
def surfaceIndices : List SurfaceIx := List.finRange 4

/-- Every aperture index, in order. -/
def apertureIndices : List ApertureIx := List.finRange 8

/-- Every entry index, in order. -/
def entryIndices : List EntryIx := List.finRange 32

/-- Whether a window lies in the view (R75). -/
def windowInView (f : ApertureFields) (r : SurfaceRec) (w : Window) : Bool :=
  w.colLast < viewWidth f r && w.rowLast < viewHeight f r

/-- Whether a backing range overlaps that of a DEFINED surface other than `i` (R10, R11). -/
def State.overlapsSurface (s : State) (i : SurfaceIx) (r : SurfaceRec) : Bool :=
  surfaceIndices.any fun j =>
    j != i && s.surfaces[j].defined && overlap r.low r.stop s.surfaces[j].low s.surfaces[j].stop

/-- Whether a backing range overlaps the range of an aperture that is OPEN or DRAINING (R10, R11). -/
def State.overlapsAperture (s : State) (r : SurfaceRec) : Bool :=
  apertureIndices.any fun a =>
    s.claims a && overlap r.low r.stop s.apertures[a].fields.low (s.apertureEnd a)

/-- The checks of APERTURE-OPEN and of the opening at start, STATE checks first (R20). -/
def State.openRefusal (s : State) (a : ApertureIx) : Option Status :=
  let f := s.apertures[a].fields
  let r := s.surfaceOf a
  if s.claims a || s.mode == .bypass then some .state
  else if !r.defined then some .range
  else if addrSpace < s.apertureEnd a then some .range
  else if apertureIndices.any (fun b =>
      b != a && s.claims b && overlap f.low (s.apertureEnd a) s.apertures[b].fields.low (s.apertureEnd b)) then
    some .range
  else if surfaceIndices.any (fun j =>
      s.surfaces[j].defined && overlap f.low (s.apertureEnd a) s.surfaces[j].low s.surfaces[j].stop) then
    some .range
  else if f.kind == .stream && !windowInView f r f.window then some .range
  else none

/-- Opens an aperture and resets its cursor (R20). -/
def State.openAperture (s : State) (a : ApertureIx) : State :=
  (s.setAperture a { s.apertures[a] with state := .opened }).resetCursor a

end Sys2Proof.Machine
end

