-- ==== Sys2Proof/Machine/Convert.lean ====
section
/-! DEFINITION. Pixel conversion (Chapter 6). -/

namespace Sys2Proof.Machine

/-- The channels of a 16-bit pixel (R80, section 11.6). -/
structure Channels where
  red : Nat
  green : Nat
  blue : Nat
  deriving DecidableEq, Repr

/-- Byte `j` of a pixel, as a number. -/
def byteNat (l : List Byte) (j : Nat) : Nat := (l.getD j 0).toNat

/-- The channels of a 16-bit pixel: bits 0 to 4 blue5, 5 to 10 green6, 11 to 15 red5. -/
def channels16 (l : List Byte) : Channels :=
  let v := byteNat l 0 + 256 * byteNat l 1
  ⟨v / 2048 % 32, v / 32 % 64, v % 32⟩

/-- The bytes of a 16-bit pixel. -/
def bytes16 (c : Channels) : List Byte :=
  let v := c.red * 2048 + c.green * 32 + c.blue
  [BitVec.ofNat 8 v, BitVec.ofNat 8 (v / 256)]

/-- The channels of a 32-bit pixel: byte 0 blue8, byte 1 green8, byte 2 red8. -/
def channels32 (l : List Byte) : Channels := ⟨byteNat l 2, byteNat l 1, byteNat l 0⟩

/-- The bytes of a 32-bit pixel whose spare byte is 0. -/
def bytes32 (c : Channels) : List Byte :=
  [BitVec.ofNat 8 c.blue, BitVec.ofNat 8 c.green, BitVec.ofNat 8 c.red, 0]

/-- REPLICATE of a 5-bit channel (R83). -/
def replicate5 (v : Nat) : Nat := v * 8 + v / 4

/-- REPLICATE of a 6-bit channel (R83). -/
def replicate6 (v : Nat) : Nat := v * 4 + v / 16

/-- Expansion of the channels (R83, R84). -/
def expand (p : Expansion) (c : Channels) : Channels :=
  match p with
  | .zero => ⟨c.red * 8, c.green * 4, c.blue * 8⟩
  | .replicate => ⟨replicate5 c.red, replicate6 c.green, replicate5 c.blue⟩
  | .greyLock =>
    if c.red = c.blue ∧ c.red = c.green / 2 then
      ⟨replicate6 c.green, replicate6 c.green, replicate6 c.green⟩
    else ⟨replicate5 c.red, replicate6 c.green, replicate5 c.blue⟩

/-- Reduction of the channels (R85). -/
def reduce (p : Reduction) (c : Channels) : Channels :=
  match p with
  | .truncate => ⟨c.red / 8, c.green / 4, c.blue / 8⟩
  | .round => ⟨min 31 ((c.red + 4) / 8), min 63 ((c.green + 2) / 4), min 31 ((c.blue + 4) / 8)⟩

/-- Whether the formats have the same width, so that conversion is identity (R81). -/
def identityFormats (c : Conv) : Bool := c.up.size == c.stored.size

/-- Converts an upstream pixel for a write (R81 to R85). -/
def toStored (c : Conv) (l : List Byte) : List Byte :=
  match c.up, c.stored with
  | .u16, .s16 => l
  | .u32, .s32 => l
  | .u16, .s32 => bytes32 (expand c.expansion (channels16 l))
  | .u32, .s16 => bytes16 (reduce c.reduction (channels32 l))

/-- Converts a stored pixel for a read (R81 to R85). -/
def toUpstream (c : Conv) (l : List Byte) : List Byte :=
  match c.up, c.stored with
  | .u16, .s16 => l
  | .u32, .s32 => l
  | .u16, .s32 => bytes16 (reduce c.reduction (channels32 l))
  | .u32, .s16 => bytes32 (expand c.expansion (channels16 l))

/-- The conversion fields of an aperture and its surface (R81). -/
def convOf (f : ApertureFields) (r : SurfaceRec) : Conv := ⟨f.format, r.format, f.expansion, f.reduction⟩

end Sys2Proof.Machine
end

