-- ==== Sys2Proof/Machine/Place.lean ====
section
/-! DEFINITION. The mapped and stream translators and the cutting of requests into fragments (Chapters 4 and 5). -/

namespace Sys2Proof.Machine

/-! Orientation -/

/-- The place of view pixel (x, y): flips first, then EXCHANGE (R54), then the memory address (R55). -/
def placeAt (f : ApertureFields) (r : SurfaceRec) (x y : Nat) : Place :=
  let x' := if f.flipH then viewWidth f r - 1 - x else x
  let y' := if f.flipV then viewHeight f r - 1 - y else y
  let row := if f.exchange then x' else y'
  let col := if f.exchange then y' else x'
  ⟨x, y, row, col, r.pixelAddr row col⟩

/-- Block address of a memory address (R55). -/
def blockOf (a : Nat) : Nat := a / 32 * 32

/-- Position in its block (R55). -/
def positionOf (a : Nat) : Nat := a % 32

/-! Placement lists -/

/-- The placement list of a mapped request: one entry for each upstream pixel, in offset order (R52, R56). -/
def mappedPlacement (f : ApertureFields) (r : SurfaceRec) (q : Access) : List PlaceEntry :=
  let ps := f.format.size
  (List.range (8 * q.len / ps)).map fun k =>
    let i := (q.low - f.low) / ps + k
    ⟨some (q.low - f.low + k * ps), k * ps, some (placeAt f r (i % viewWidth f r) (i / viewWidth f r))⟩

/-- One advance of a cursor (R69). -/
def Cursor.advance (w : Window) (ov : Overflow) (c : Cursor) : Cursor :=
  if c.exhausted then c
  else if c.col + 1 ≤ w.colLast then { c with col := c.col + 1 }
  else if c.row + 1 ≤ w.rowLast then { c with col := w.colFirst, row := c.row + 1 }
  else { c with col := w.colFirst, row := w.rowFirst, exhausted := ov == .discard }

/-- The view coordinates that `n` entries take from a cursor, none for an exhausted entry (R68). -/
def cursorWalk (w : Window) (ov : Overflow) : Nat → Cursor → List (Option (Nat × Nat))
  | 0, _ => []
  | n + 1, c => (if c.exhausted then none else some (c.col, c.row)) :: cursorWalk w ov n (c.advance w ov)

/-- The cursor after `n` entries (R67, R69). -/
def cursorAfter (w : Window) (ov : Overflow) : Nat → Cursor → Cursor
  | 0, c => c
  | n + 1, c => cursorAfter w ov n (c.advance w ov)

/-- Whether a stream request starts in the restart region (R65). -/
def inRestartRegion (f : ApertureFields) (q : Access) : Bool := q.addr < f.low + 256

/-- The cursor from which a stream request's list is formed (R67). -/
def streamCursor (f : ApertureFields) (q : Access) (c : Cursor) : Cursor :=
  if inRestartRegion f q then Cursor.start f.window else c

/-- Number of upstream pixels of a request's beats. -/
def pixelCount (f : ApertureFields) (q : Access) : Nat := 8 * q.len / f.format.size

/-- The placement list of a stream request from a cursor (R68). -/
def streamPlacement (f : ApertureFields) (r : SurfaceRec) (q : Access) (c : Cursor) : List PlaceEntry :=
  (cursorWalk f.window f.overflow (pixelCount f q) (streamCursor f q c)).mapIdx fun k xy =>
    ⟨none, k * f.format.size, xy.map fun p => placeAt f r p.1 p.2⟩

/-- The cursor that a stream request leaves, but for drop reported (R67, R69). -/
def streamCursorAfter (f : ApertureFields) (q : Access) (c : Cursor) : Cursor :=
  cursorAfter f.window f.overflow (pixelCount f q) (streamCursor f q c)

/-! Write fragments -/

/-- A block with no position covered. -/
def Cells.empty : Cells := Vector.replicate 32 none

/-- Lays bytes from a position on; a position given none keeps what it holds, a later byte replaces an earlier one (R72). -/
def Cells.lay (cells : Cells) (pos : Nat) : List (Option Byte) → Cells
  | [] => cells
  | b :: bs => (match b with
      | none => cells
      | some v => cells.setIfInBounds pos (some v)).lay (pos + 1) bs

/-- Joins a piece to the fragment of its block, or adds a fragment at the end of the list (R59).
`new` is the fragment without bytes. -/
def addPiece (new : Frag) (pos : Nat) (bytes : List (Option Byte)) : List Frag → List Frag
  | [] => [{ new with cells := new.cells.lay pos bytes }]
  | g :: gs =>
    if g.block = new.block then { g with cells := g.cells.lay pos bytes } :: gs
    else g :: addPiece new pos bytes gs

/-- Strobe classes (R57). -/
inductive StrobeClass where
  | full
  | none
  | partially
  deriving DecidableEq, Repr

/-- The bytes of the upstream pixel at byte `off` of a write. -/
def pixelBytes (w : WriteReq) (off size : Nat) : List WByte :=
  (List.range size).map fun j => writeByte w (off + j)

/-- The strobe class of a pixel's bytes (R57). -/
def strobeClass (l : List WByte) : StrobeClass :=
  if l.all (·.strobe) then .full
  else if l.all (fun b => !b.strobe) then .none
  else .partially

/-- What the bytes of a RUNNING pixel of a write place, and whether it is a dropped partial pixel (R57, R70, R88). -/
def placedBytes (kind : ApertureKind) (c : Conv) (l : List WByte) : Option (List (Option Byte)) × Bool :=
  match strobeClass l with
  | .full => (some ((toStored c (l.map (·.data))).map some), false)
  | .none => (none, false)
  | .partially =>
    if kind == .mapped && identityFormats c then
      (some (l.map fun b => if b.strobe then some b.data else none), false)
    else (none, true)

/-- What an accepted write does: its fragments in order, whether it drops partial pixels, whether it drops
pixels for exhaustion, and the cursor it leaves, for a stream write. -/
structure WritePlan where
  frags : List Frag
  partialDrop : Bool
  exhaustedDrop : Bool
  cursor : Option Cursor
  deriving DecidableEq, Repr

/-- Cuts the placed pixels of a write through aperture `a` into fragments, in list order (R59, R72). -/
def cutWrite (a : ApertureIx) (f : ApertureFields) (r : SurfaceRec) (w : WriteReq) (l : List PlaceEntry) : List Frag :=
  l.foldl (fun frags e =>
    match e.place with
    | none => frags
    | some p =>
      match (placedBytes f.kind (convOf f r) (pixelBytes w e.off f.format.size)).1 with
      | none => frags
      | some bytes =>
        addPiece ⟨f.surface, p.row, BitVec.ofNat 40 (blockOf p.addr), Cells.empty, .aperture a, w.requester⟩
          (positionOf p.addr) bytes frags) []

/-- Whether a RUNNING pixel of the list is dropped as partial (R70, R88). -/
def dropsPartial (f : ApertureFields) (r : SurfaceRec) (w : WriteReq) (l : List PlaceEntry) : Bool :=
  l.any fun e => e.place.isSome && (placedBytes f.kind (convOf f r) (pixelBytes w e.off f.format.size)).2

/-- The plan of a mapped write (R56 to R60). -/
def mappedWritePlan (a : ApertureIx) (f : ApertureFields) (r : SurfaceRec) (w : WriteReq) : WritePlan :=
  let l := mappedPlacement f r (writeAccess w)
  ⟨cutWrite a f r w l, dropsPartial f r w l, false, none⟩

/-- The plan of a stream write from the cursor as it stands (R67 to R72). Drop reported becomes yes when an
entry is exhausted (R71). -/
def streamWritePlan (a : ApertureIx) (f : ApertureFields) (r : SurfaceRec) (w : WriteReq) (c : Cursor) : WritePlan :=
  let q := writeAccess w
  let l := streamPlacement f r q c
  let dropped := l.any (fun e => e.place.isNone)
  let after := streamCursorAfter f q c
  ⟨cutWrite a f r w l, dropsPartial f r w l,
    dropped && !(streamCursor f q c).dropReported,
    some { after with dropReported := after.dropReported || dropped }⟩

/-- The fragments of a backing write: one for each block with a strobed byte, in address order (R62). -/
def backingFrags (i : SurfaceIx) (r : SurfaceRec) (w : WriteReq) : List Frag :=
  let q := writeAccess w
  (List.range q.size).foldl (fun frags j =>
    if (writeByte w j).strobe then
      let a := q.low + j
      addPiece ⟨i, r.rowOf a, BitVec.ofNat 40 (blockOf a), Cells.empty, .backing, w.requester⟩
        (positionOf a) [some (writeByte w j).data] frags
    else frags) []

/-- The plan of a backing write. -/
def backingWritePlan (i : SurfaceIx) (r : SurfaceRec) (w : WriteReq) : WritePlan :=
  ⟨backingFrags i r w, false, false, none⟩

/-! Fragment reads -/

/-- A fragment read of the 32-byte block at `block`, not yet issued (R61). -/
def blockRead (block : Nat) (mask : BitVec 32) : FragRead where
  addr := BitVec.ofNat 40 block
  burst := .incrementing
  beats := 4
  mask := some mask
  finishes := false
  status := .unissued
  snapshot := none
  data := none

/-- The mask of `len` positions from `pos` on. -/
def maskOf (pos len : Nat) : BitVec 32 := BitVec.ofNat 32 ((2 ^ len - 1) * 2 ^ pos)

/-- Joins positions to the fragment read of their block, or adds one at the end (R59). -/
def addRead (block : Nat) (mask : BitVec 32) : List FragRead → List FragRead
  | [] => [blockRead block mask]
  | g :: gs =>
    if g.addr = BitVec.ofNat 40 block then { g with mask := g.mask.map (· ||| mask) } :: gs
    else g :: addRead block mask gs

/-- The fragment reads of a mapped or stream read, from its placement list (R61, R73). -/
def cutReads (r : SurfaceRec) (l : List PlaceEntry) : List FragRead :=
  l.foldl (fun reads e =>
    match e.place with
    | none => reads
    | some p => addRead (blockOf p.addr) (maskOf (positionOf p.addr) r.format.size) reads) []

/-- The fragment reads of a backing read: one for each block of the covered range, in address order (R62). -/
def backingReads (q : Access) : List FragRead :=
  (List.range q.size).foldl (fun reads j =>
    addRead (blockOf (q.low + j)) (maskOf (positionOf (q.low + j)) 1) reads) []

/-- The single downstream read of a transparent read (R47). -/
def transparentRead (r : ReadReq) : FragRead where
  addr := r.addr
  burst := r.burst
  beats := readLen r
  mask := none
  finishes := false
  status := .unissued
  snapshot := none
  data := none

end Sys2Proof.Machine
end

