-- ==== Sys2Proof/Machine/Scan.lean ====
section
/-! DEFINITION. Scanner reads, frames, the scan timer (Chapter 7). -/

namespace Sys2Proof.Machine

/-! Scanner reads -/

/-- The display row of the first byte of a scanner read, d (R92). -/
def scanRow (r : SurfaceRec) (q : Access) : Nat := r.rowOf q.low

/-- Whether a scanner read is tracked (R92). -/
def trackedRead (r : SurfaceRec) (q : Access) : Bool := r.inScanRange (scanRow r q)

/-- Byte-in-row of the finishing byte (R99). -/
def finishByte (r : SurfaceRec) : Nat := r.rowBytes - 1

/-- The fragment read of the piece of a scanner read in display row `e`, under a band (R94).
`finishes` when the read is tracked and the piece covers the finishing byte (R99). -/
def scannerPiece (r : SurfaceRec) (band : Option Band) (q : Access) (e : Nat) : FragRead :=
  let rowLow := r.low + e * r.pitch
  let p := max q.low rowLow - rowLow
  let stop := min (q.high + 1) (rowLow + r.pitch) - rowLow
  { addr := BitVec.ofNat 40 (r.low + memoryRow band e * r.pitch + p)
    burst := .incrementing
    beats := (stop - p) / 8
    mask := none
    finishes := trackedRead r q && e == r.lastRow && p ≤ finishByte r && finishByte r < stop
    status := .unissued
    snapshot := none
    data := none }

/-- The fragment reads of a scanner read: one for each display row touched, in order (R94). -/
def scannerReads (r : SurfaceRec) (band : Option Band) (q : Access) : List FragRead :=
  (List.range (r.rowOf q.high - r.rowOf q.low + 1)).map fun k => scannerPiece r band q (r.rowOf q.low + k)

/-! The context -/

/-- The scan timer as it starts: timeout units of time, or stopped when the timeout is 0 (R7, R100). -/
def timerStart (r : SurfaceRec) : Option Nat :=
  if r.timeout = 0 then none else some (r.timeout * refclkPerUnit)

/-- The active band after a frame opening (R95 step 1). -/
def appliedBand (c : ScanCtx) : Option Band :=
  match c.pendingBand with
  | .none => c.active
  | .band b => some b
  | .remove => none

/-- The context after a frame opening at display row `d` (R95 steps 1 to 5). -/
def ScanCtx.openFrame (c : ScanCtx) (r : SurfaceRec) (d : Nat) : ScanCtx where
  state := .scanning
  frame := c.frame + 1
  c := d
  active := appliedBand c
  pendingBand := .none
  timer := timerStart r

/-- The context after a step to display row `d` (R96). -/
def ScanCtx.stepTo (c : ScanCtx) (r : SurfaceRec) (d : Nat) : ScanCtx :=
  { c with c := d, timer := timerStart r }

/-- The context after a frame finish (R99). -/
def ScanCtx.finished (c : ScanCtx) : ScanCtx := { c with state := .blanking, timer := none }

/-- The context after a stall (R101). -/
def ScanCtx.stalled (c : ScanCtx) : ScanCtx := { c with state := .stalled, timer := none }

/-- The context after a change to BYPASS (R106). -/
def ScanCtx.bypassed (c : ScanCtx) : ScanCtx := { c with state := .idle, timer := none }

/-- The context after a soft reset: the record's band active, the pending band kept (R14, R107). -/
def ScanCtx.softReset (c : ScanCtx) (r : SurfaceRec) : ScanCtx :=
  { ScanCtx.fresh r.band with pendingBand := c.pendingBand }

/-- FRAME-OPEN and SCAN-RESTART (R104). -/
def frameEvent (k : EventKind) (i : SurfaceIx) (req : ReadReq) (frame : BitVec 16) (d : Nat) : EventBody :=
  ⟨k, some (.surface i), some req.addr, some req.requester, some frame, .number d⟩

/-- SCAN-STALL (R104). -/
def stallEvent (i : SurfaceIx) (c : ScanCtx) : EventBody :=
  ⟨.scanStall, some (.surface i), none, none, some c.frame, .number c.c⟩

/-- Opens a frame of surface `i` at `d` and raises FRAME-OPEN if frame notify is yes (R95).
With `restarted`, SCAN-RESTART is raised first (R97). -/
def State.openFrame (s : State) (i : SurfaceIx) (req : ReadReq) (d : Nat) (restarted : Bool) : State :=
  let c := s.scans[i].openFrame s.surfaces[i] d
  ((s.setScan i c).raiseIf restarted (frameEvent .scanRestart i req c.frame d)).raiseIf s.surfaces[i].notify
    (frameEvent .frameOpen i req c.frame d)

/-- Forms the fragment reads of the scanner read in entry `e`, under the band now active (R94, R95). -/
def State.formScanner (s : State) (i : SurfaceIx) (e : EntryIx) : State :=
  match s.table[e] with
  | none => s
  | some en =>
    s.setEntry e (some { en with reads := scannerReads s.surfaces[i] s.scans[i].active (readAccess en.req) })

/-- One REFCLK period of a running timer. The period in which it runs out is the command SCAN_TIMER_EXPIRY, so the
remaining time does not reach 0 here (R100, R108; log entry 2). -/
def timerTick (t : Nat) : Nat := max 1 (t - 1)

/-- One REFCLK period: every running scan timer counts down (R100). -/
def State.tick (s : State) : State :=
  { s with scans := mapTable (fun c => { c with timer := c.timer.map timerTick }) s.scans }

/-- Whether a memory row of surface `i` is ahead of the scanner (R103). -/
def State.rowAhead (s : State) (i : SurfaceIx) (m : Nat) : Bool :=
  s.scans[i].state == .scanning && s.surfaces[i].inScanRange m && s.scans[i].c ≤ displayRow s.scans[i].active m

end Sys2Proof.Machine
end

