-- ==== Sys2Proof/Machine/Hold.lean ====
section
/-! DEFINITION. The hold queue: hold decisions, joining, releases and flushes, forwarding queries (Chapter 8). -/

namespace Sys2Proof.Machine

/-! Hold decisions -/

/-- Whether a list of fragments has one of the same surface and memory row (R111 line 4). -/
def sameRow (l : List Frag) (f : Frag) : Bool := l.any fun g => g.surface == f.surface && g.row == f.row

/-- The hold decision for a fragment, after the fragments `earlier` of the same write were decided held (R111). -/
def State.holdDecision (s : State) (earlier : List Frag) (f : Frag) : Bool :=
  let r := s.surfaces[f.surface]
  if r.policy == .pass || r.scanner.isNone then false
  else if s.scans[f.surface].state != .scanning then false
  else if !r.inScanRange f.row then false
  else if sameRow s.queue f || sameRow earlier f then true
  else s.rowAhead f.surface f.row

/-- The hold decisions of a write's fragments, in fragment order. -/
def State.decideAll (s : State) : List Frag → List Frag → List PendingFrag
  | _, [] => []
  | earlier, f :: fs =>
    let h := s.holdDecision earlier f
    ⟨h, f⟩ :: s.decideAll (if h then earlier ++ [f] else earlier) fs

/-- Number of fragments decided held (R114). -/
def heldNeed (l : List PendingFrag) : Nat := l.countP (·.hold)

/-- Free entries of the queue (R109). -/
def State.freeEntries (s : State) : Nat := Config.holdCapacity - s.queue.length

/-! Counts -/

/-- The fragments of the write being handled that are still to be issued or joined. -/
def State.todo (s : State) : List PendingFrag :=
  match s.writeJob with
  | some (.fragments _ _ l) => l
  | _ => []

/-- The fragments of the accepted write that are decided held and have not joined yet. HOLD-READ and APERTURE-READ see
the write whole (R144), so these count with the held ones there (log entry 14). -/
def State.joining (s : State) : List Frag := (s.todo.filter (·.hold)).map (·.frag)

/-- Changes the held count of a fragment's origin (R24). -/
def State.countHeld (s : State) (o : Origin) (change : Nat → Nat) : State :=
  match o with
  | .backing => s
  | .aperture a => s.setAperture a { s.apertures[a] with held := change s.apertures[a].held }

/-- Number of fragments of a list whose origin is aperture `a` (R112). -/
def originCount (a : ApertureIx) (l : List Frag) : Nat := l.countP fun f => f.origin == .aperture a

/-- The held fragments as HOLD-READ sees them: those in the queue and those about to join. -/
def State.heldAll (s : State) : List Frag := s.queue ++ s.joining

/-- A fragment joins at the end of the queue (R109, R121). -/
def State.join (s : State) (f : Frag) : State :=
  State.countHeld
    { s with queue := s.queue ++ [f], highWater := max s.highWater (s.queue.length + 1) } f.origin (· + 1)

/-! The form of a downstream write (R39) -/

/-- A transparent write goes downstream as it came (R39, R47). -/
def DsWrite.transparent (w : WriteReq) : DsWrite where
  addr := w.addr
  burst := w.burst
  lenM1 := w.lenM1
  requester := w.requester
  lanes := w.bytes.map fun b => ⟨b.strobe, some b.data⟩
  surface := none

/-- A fragment write: INCREMENTING, 4 beats over its block, the strobes set for exactly its byte mask (R39). -/
def DsWrite.fragment (f : Frag) : DsWrite where
  addr := f.block
  burst := .incrementing
  lenM1 := 3
  requester := f.requester
  lanes := f.cells.toList.map fun c => ⟨c.isSome, c⟩
  surface := some f.surface

/-! Releases and flushes -/

/-- Whether a release or flush takes an entry (R96, R97, R99, R101, R118). -/
def State.takes (s : State) (w : Work) (f : Frag) : Bool :=
  match w with
  | .step i _ d =>
    f.surface == i && s.scans[i].c ≤ displayRow s.scans[i].active f.row && displayRow s.scans[i].active f.row < d
  | .restart i _ _ => f.surface == i
  | .finish i => f.surface == i
  | .stall i => f.surface == i
  | .fullFlush => true

/-- What follows once a release or flush has issued its last entry (R117, R118). -/
def State.complete (s : State) (rel : Release) : State :=
  let s := { s with release := none }
  match rel.work with
  | .step i e d => (s.setScan i (s.scans[i].stepTo s.surfaces[i] d)).formScanner i e
  | .restart i e d =>
    match s.table[e] with
    | none => s
    | some en => (s.openFrame i en.req d true).formScanner i e
  | .finish i => s.setScan i s.scans[i].finished
  | .stall i => (s.setScan i s.scans[i].stalled).raise (stallEvent i s.scans[i])
  | .fullFlush =>
    match s.phase with
    | .softReset .flush => { s with highWater := 0, phase := .softReset (.flushed rel.issued) }
    | _ => s

/-- Begins a release or flush; one that takes no entry is complete at once (R117). -/
def State.begin (s : State) (w : Work) : State :=
  if s.queue.any (s.takes w) then { s with release := some ⟨w, 0, []⟩ }
  else s.complete ⟨w, 0, []⟩

/-- Takes an order. A finish is taken only in SCANNING (R99), an expiry only while the timer runs in SCANNING (R101). -/
def State.takeOrder (s : State) (o : Order) : State :=
  match o with
  | .finish i => if s.scans[i].state == .scanning then s.begin (.finish i) else s
  | .stall i => if s.scans[i].state == .scanning && s.scans[i].timer.isSome then s.begin (.stall i) else s
  | .fullFlush => s.begin .fullFlush

/-- Takes waiting orders in the order they were placed, until one has entries to issue (R110). They are taken where the work in
progress ends, so before a head write that waits: the model's choice where that work is a release (log entry 40). -/
def State.takeOrders : List Order → State → State
  | [], s => { s with orders := [] }
  | o :: os, s =>
    let s' := s.takeOrder o
    if s'.release.isSome then { s' with orders := os } else State.takeOrders os s'

/-- Whether the hold queue is at work: a release or flush in progress, or the fragments of a write (R110). -/
def State.holdBusy (s : State) : Bool :=
  s.release.isSome || (match s.writeJob with
    | some (.fragments _ _ _) => true
    | _ => false)

/-- Orders a finish, an expiry or the full flush: taken now, or when the work in progress is done (R110). -/
def State.order (s : State) (o : Order) : State :=
  if s.holdBusy then { s with orders := s.orders ++ [o] } else s.takeOrder o

/-- An aperture becomes CLOSED; APERTURE-READ no longer counts for it what a release in progress has issued. -/
def State.closeAperture (s : State) (a : ApertureIx) : State :=
  { s.setAperture a { s.apertures[a] with state := .closed } with
    release := s.release.map fun rel => { rel with origins := rel.origins.filter (· != a) } }

/-- APERTURE-CLOSED (R28). -/
def closedEvent (a : ApertureIx) (detail : Detail) (frame : Option (BitVec 16)) : EventBody :=
  ⟨.apertureClosed, some (.aperture a), none, none, frame, detail⟩

/-- Steps 2 and 3 of R117 for an entry just issued: it leaves the queue and its counts fall, and a DRAINING
aperture whose held count has reached 0 becomes CLOSED (R24, R27). -/
def State.leaves (s : State) (w : Work) (f : Frag) : State :=
  let s := { s with queue := s.queue.eraseP (s.takes w) }
  let s := s.countHeld f.origin (· - 1)
  match f.origin with
  | .backing => s
  | .aperture a =>
    if s.apertures[a].state == .draining && s.apertures[a].held == 0 then
      (s.closeAperture a).raise (closedEvent a .closeDrained (some s.scans[f.surface].frame))
    else s

/-- The origins that a release counts after it has issued an entry. -/
def addOrigin (o : Origin) (l : List ApertureIx) : List ApertureIx :=
  match o with
  | .backing => l
  | .aperture a => a :: l

/-- The memory controller takes the entry that the release in progress has handed over (R117). Where the last entry closes a
DRAINING aperture and completes an early restart or a stall, APERTURE-CLOSED is taken before SCAN-RESTART, FRAME-OPEN or
SCAN-STALL: the model's choice, since R138 lets the events of two blocks raised together fall in either order (log entry 31).
With the last entry the orders that wait are taken in the same step, before a head write that waits as well is considered: the
model's choice, since R110 lets either order occur (log entry 40). -/
def State.issueHeld (s : State) (rel : Release) : State :=
  match s.queue.find? (s.takes rel.work) with
  | none => s
  | some f =>
    let rel := { rel with issued := rel.issued + 1, origins := addOrigin f.origin rel.origins }
    let s := { s with release := some rel, outstanding := s.outstanding ++ [DsWrite.fragment f] }
    let s := s.leaves rel.work f
    if s.queue.any (s.takes rel.work) then s
    else
      let s := s.complete rel
      State.takeOrders s.orders s

/-! Views of the queue that management commands get -/

/-- Entries that the release in progress has issued. -/
def State.releasedCount (s : State) : Nat :=
  match s.release with
  | none => 0
  | some rel => rel.issued

/-- Entries from aperture `a` that the release in progress has issued. -/
def State.releasedFrom (s : State) (a : ApertureIx) : Nat :=
  match s.release with
  | none => 0
  | some rel => rel.origins.count a

/-- The occupancy that HOLD-READ sees: a write's held fragments all joined, a release none issued (R121, log entry 15). -/
def State.occupancySeen (s : State) : Nat := s.heldAll.length + s.releasedCount

/-- The held count that APERTURE-READ sees, a release taken whole (R32, log entry 15). -/
def State.heldSeen (s : State) (a : ApertureIx) : Nat :=
  s.apertures[a].held + originCount a s.joining + s.releasedFrom a

/-! Forwarding -/

/-- The forwarding query for a block: each position from the newest entry that covers it (R119). -/
def forwardQuery (queue : List Frag) (block : Addr) : Cells :=
  queue.foldl (fun cells f => if f.block = block then cells.lay 0 f.cells.toList else cells) Cells.empty

end Sys2Proof.Machine
end

