-- ==== Sys2Proof/Machine/Reads.lean ====
section
/-! DEFINITION. Tracking entries: issue, merge and response (Chapter 9). -/

namespace Sys2Proof.Machine

/-- Routes whose fragment reads take a forwarding snapshot (R127). -/
def Route.forwards : Route → Bool
  | .mapped => true
  | .stream => true
  | .backing => true
  | .transparent => false
  | .scanner => false

/-- Position of the first fragment read not yet issued. -/
def Entry.nextRead (en : Entry) : Option Nat := en.reads.findIdx? (·.status == .unissued)

/-- The fragment read as the port issues it: ISSUED, with its snapshot where the route calls for one (R128). -/
def FragRead.issue (fr : FragRead) (route : Route) (queue : List Frag) : FragRead :=
  { fr with
    status := .issued
    snapshot := if route.forwards then some (forwardQuery queue fr.addr) else none }

/-- The entry after its fragment read at `n` is issued; WAITING once all are (R126). -/
def Entry.issue (en : Entry) (n : Nat) (queue : List Frag) : Entry :=
  let reads := en.reads.modify n (·.issue en.route queue)
  { en with
    reads := reads
    state := if reads.any (·.status == .unissued) then .issuing else .waiting }

/-- The byte that memory returns at `i` of the returned bytes (log entry 20 for a return that is too short). -/
def returnedByte (data : List Byte) (i : Nat) : Byte := data.getD i (Config.missingReturnByte i)

/-- The merged bytes of a fragment read: snapshot bytes over memory's (R130). -/
def merged (fr : FragRead) (data : List Byte) : List Byte :=
  (List.range (8 * fr.beats)).map fun i =>
    match fr.snapshot with
    | none => returnedByte data i
    | some cells => ((cells.toList.getD i none).getD (returnedByte data i))

/-- The entry after the return of its fragment read at `n` (R130): the data is kept when neither the return nor the
entry has an error. It is RESPONDING when every fragment read has returned. -/
def Entry.returned (en : Entry) (n : Nat) (error : Bool) (data : List Byte) : Entry :=
  let keep := !error && !en.error
  let reads := en.reads.modify n fun fr =>
    { fr with status := .returned, data := if keep then some (merged fr data) else none }
  { en with
    reads := reads
    error := en.error || error
    state := if reads.all (·.status == .returned) then .responding else en.state }

/-! Responses -/

/-- The merged block of the fragment read at `block`. -/
def Entry.block (en : Entry) (block : Nat) : List Byte :=
  match en.reads.find? (fun fr => fr.addr = BitVec.ofNat 40 block) with
  | none => []
  | some fr => fr.data.getD []

/-- The bytes `pos` to `pos + n - 1` of a merged block. -/
def blockBytes (l : List Byte) (pos n : Nat) : List Byte := (l.drop pos).take n

/-- The upstream pixel of a placement entry: the stored pixel converted, or zero bytes when exhausted (R73, R87, R131). -/
def Entry.pixel (en : Entry) (c : Conv) (e : PlaceEntry) : List Byte :=
  match e.place with
  | none => List.replicate c.up.size 0
  | some p => toUpstream c (blockBytes (en.block (blockOf p.addr)) (positionOf p.addr) c.stored.size)

/-- The bytes of an OKAY response, by route (R131). -/
def Entry.responseBytes (en : Entry) : List Byte :=
  match en.route with
  | .transparent => en.reads.flatMap fun fr => fr.data.getD []
  | .scanner => en.reads.flatMap fun fr => fr.data.getD []
  | .backing =>
    (List.range (readAccess en.req).size).flatMap fun j =>
      blockBytes (en.block (blockOf ((readAccess en.req).low + j))) (positionOf ((readAccess en.req).low + j)) 1
  | .mapped =>
    match en.conv with
    | none => []
    | some c => en.placement.flatMap (en.pixel c)
  | .stream =>
    match en.conv with
    | none => []
    | some c => en.placement.flatMap (en.pixel c)

/-- A REFUSED read response: data 0 in every beat (R37). -/
def refusedResp (r : ReadReq) : ReadResp :=
  ⟨r.requester, r.tag, .refused, List.replicate (8 * readLen r) 0⟩

/-- The response of an entry in RESPONDING (R131). -/
def Entry.response (en : Entry) : ReadResp :=
  if en.error then refusedResp en.req
  else ⟨en.req.requester, en.req.tag, .okay, en.responseBytes⟩

/-- Whether two reads have the same requester and transaction tag (R37). -/
def sameIds (a b : ReadReq) : Bool := a.requester == b.requester && a.tag == b.tag

/-- Whether the read in entry `e` has the requester and tag of `r`. -/
def State.entryMatches (s : State) (r : ReadReq) (e : EntryIx) : Bool :=
  match s.table[e] with
  | none => false
  | some en => sameIds en.req r

/-- Whether an earlier-taken read in the table has the requester and tag of the read in entry `e` (R37, R131). -/
def State.earlierWaits (s : State) (e : EntryIx) (r : ReadReq) : Bool :=
  (s.taken.takeWhile (· != e)).any (s.entryMatches r)

/-- Whether entry `e` is in use and satisfies `p`. -/
def State.entryIs (s : State) (p : Entry → Bool) (e : EntryIx) : Bool :=
  match s.table[e] with
  | none => false
  | some en => p en

/-- The first entry in ISSUING, in the order of acceptance (R126). -/
def State.issuingEntry (s : State) : Option EntryIx := s.taken.find? (s.entryIs (·.state == .issuing))

/-- Whether the step of the scanner read in entry `e` has releases still to issue, which go ahead of its fragment reads (R98). -/
def State.stepPending (s : State) (e : EntryIx) : Bool :=
  match s.release with
  | some ⟨.step _ e' _, _, _⟩ => e' == e
  | some ⟨.restart _ e' _, _, _⟩ => e' == e
  | _ => false

/-- Entries that the read channel may take: not in use, and named by no abandoned tag (R36, R50, R135). -/
def State.freeTableEntries (s : State) : List EntryIx :=
  entryIndices.filter fun e => s.table[e].isNone && !s.abandonedTags.any (fun t => t.1 == e)

/-- The free entry that `pick` chooses, any of them (R125, log entry 7). -/
def State.pickEntry (s : State) (pick : Nat) : Option EntryIx :=
  s.freeTableEntries[pick % s.freeTableEntries.length]?

/-- Whether the table has an entry in use (R151). -/
def State.tableInUse (s : State) : Bool := entryIndices.any fun e => s.table[e].isSome

/-- The positions of an entry's fragment reads in flight. -/
def Entry.inFlight (en : Entry) : List ReadPos :=
  (List.finRange 64).filter fun p =>
    match en.reads[p.val]? with
    | none => false
    | some fr => fr.status == .issued

/-- The read tags in flight (R39). -/
def State.tagsInFlight (s : State) : List (EntryIx × ReadPos) :=
  entryIndices.flatMap fun e =>
    match s.table[e] with
    | none => []
    | some en => en.inFlight.map fun p => (e, p)

/-- Whether the read channel waits behind a scanner read: fragment reads of one still to issue, or its step or a
finish still to be completed (R98, R126). -/
def State.scannerBusy (s : State) : Bool :=
  entryIndices.any (s.entryIs fun en => en.route == .scanner && en.state == .issuing)
    || (match s.release with
        | some ⟨.step _ _ _, _, _⟩ => true
        | some ⟨.restart _ _ _, _, _⟩ => true
        | some ⟨.finish _, _, _⟩ => true
        | _ => false)
    || s.orders.any (fun o => match o with
        | .finish _ => true
        | _ => false)

end Sys2Proof.Machine
end

