-- ==== Sys2Proof/Machine/HandOver.lean ====
section
/-! DEFINITION. The requests handed to the downstream port and the order in which it issues them (R39). -/

namespace Sys2Proof.Machine

/-- The forming blocks (R39). -/
def formers : List Former := [.writeChannel, .holdQueue, .readTracker]

/-- The entry whose fragment read the read tracker issues next: the first one in ISSUING, unless its scan step has releases
still to issue (R98, R126). -/
def State.readToIssue (s : State) : Option EntryIx :=
  match s.issuingEntry with
  | none => none
  | some e => if s.stepPending e then none else some e

/-- Whether a block has formed a request that is not issued: the write channel for the accepted write, the hold queue for its
release or flush, the read tracker for the fragment read that comes next (R39). -/
def State.formed (s : State) (b : Former) : Bool :=
  match b with
  | .writeChannel => s.writeJob.isSome
  | .holdQueue => s.release.isSome
  | .readTracker => s.readToIssue.isSome

/-- Whether a request of a block stands at the port. -/
def State.isHanded (s : State) (b : Former) : Bool := s.handed.any (·.contains b)

/-- The requests that the blocks have formed since take their place at the port, those of one command together (R39). The
write channel and the hold queue hand theirs over there and then; the read tracker hands its own over then or later, as the
orders A and B of section 9.7 show (R126, R129; log entry 12). -/
def State.handOver (s : State) : State :=
  match formers.filter fun b => s.formed b && !s.isHanded b with
  | [] => s
  | b :: bs => { s with handed := s.handed ++ [b :: bs] }

/-- Whether the port may issue a block's request next: no other was handed over before it (R39). A fragment read that stands
first and alone may be handed over later still, so the requests next behind it may be issued ahead of it (R129, section 9.7;
log entry 12). -/
def State.mayIssue (s : State) (b : Former) : Bool :=
  match s.handed with
  | [] => false
  | [.readTracker] :: second :: _ => b == .readTracker || second.contains b
  | first :: _ => first.contains b

/-- The port without the request of a block that it issues. -/
def State.passRequest (s : State) (b : Former) : State :=
  { s with handed := (s.handed.map (·.filter (· != b))).filter (· != []) }

end Sys2Proof.Machine
end

