-- ==== Sys2Proof/Machine/Classify.lean ====
section
/-! DEFINITION. The route classifier (Chapter 3). -/

namespace Sys2Proof.Machine

/-- What the route classifier gives a request (R33, R43). -/
inductive Class where
  | malformed
  | refused (unit : EventUnit) (detail : Detail)
  | transparent
  | mapped (a : ApertureIx)
  | stream (a : ApertureIx)
  | backing (i : SurfaceIx)
  | scanner (i : SurfaceIx)
  deriving DecidableEq, Repr

/-- Whether the filter of an aperture lets a requester through (R22). -/
def filterPasses (f : ApertureFields) (q : Requester) : Bool :=
  match f.filter with
  | none => true
  | some ids => ids.contains q

/-- The checks of a request that starts in an OPEN aperture's range, in order (R44). -/
def State.classifyAperture (s : State) (a : ApertureIx) (q : Access) : Class :=
  let f := s.apertures[a].fields
  let r := s.surfaceOf a
  if s.apertureEnd a ≤ q.high then .refused (.aperture a) .crossesEdge
  else if !filterPasses f q.requester then .refused (.aperture a) .filtered
  else if q.burst != .incrementing then .refused (.aperture a) .burstKind
  else if q.addr % 8 != 0 then .refused (.aperture a) .misaligned
  else if f.kind == .mapped && viewExtent f r ≤ q.high - f.low then .refused (.aperture a) .beyondView
  else match f.kind with
    | .mapped => .mapped a
    | .stream => .stream a

/-- The checks and route of a request that starts in the backing range of surface `i` (R45). -/
def State.classifyBacking (s : State) (i : SurfaceIx) (q : Access) : Class :=
  let r := s.surfaces[i]
  if r.stop ≤ q.high then .refused (.surface i) .crossesEdge
  else if q.burst != .incrementing then .refused (.surface i) .burstKind
  else if !q.write && r.scanner == some q.requester then .scanner i
  else .backing i

/-- A range that is claimed: first address, address after the last, and its owner. -/
structure Claim where
  low : Nat
  stop : Nat
  owner : EventUnit
  deriving DecidableEq, Repr

/-- Every claimed range: apertures OPEN or DRAINING, DEFINED surfaces (R43 step 4). -/
def State.claimList (s : State) : List Claim :=
  ((apertureIndices.filter s.claims).map fun a =>
      Claim.mk s.apertures[a].fields.low (s.apertureEnd a) (.aperture a))
    ++ (surfaceIndices.filter fun i => s.surfaces[i].defined).map fun i =>
      Claim.mk s.surfaces[i].low s.surfaces[i].stop (.surface i)

/-- The claim that begins at the lowest address. -/
def lowestClaim : List Claim → Option Claim
  | [] => none
  | c :: cs =>
    match lowestClaim cs with
    | none => some c
    | some d => if c.low ≤ d.low then some c else some d

/-- The claimed range that a covered range reaches into, the lowest of several (R43 step 4). -/
def State.reachedClaim (s : State) (q : Access) : Option Claim :=
  lowestClaim (s.claimList.filter fun c => overlap q.low (q.high + 1) c.low c.stop)

/-- The OPEN (or DRAINING) aperture in whose range an address lies (R43 steps 1 and 2). -/
def State.apertureAt (s : State) (st : ApertureState) (x : Nat) : Option ApertureIx :=
  apertureIndices.find? fun a => s.apertures[a].state == st && s.apertureHas a x

/-- The DEFINED surface in whose backing range an address lies (R43 step 3). -/
def State.surfaceAt (s : State) (x : Nat) : Option SurfaceIx :=
  surfaceIndices.find? fun i => s.surfaces[i].owns x

/-- The route classifier (R43); malformed requests are not classified in ENGAGED (R33). -/
def State.classify (s : State) (q : Access) : Class :=
  match s.mode with
  | .bypass => .transparent
  | .engaged =>
    if q.malformed then .malformed
    else match s.apertureAt .opened q.addr with
      | some a => s.classifyAperture a q
      | none =>
        match s.apertureAt .draining q.addr with
        | some a => .refused (.aperture a) .draining
        | none =>
          match s.surfaceAt q.addr with
          | some i => s.classifyBacking i q
          | none =>
            match s.reachedClaim q with
            | some c => .refused c.owner .crossesEdge
            | none => .transparent

/-- ACCESS-REFUSED (R46). -/
def refusedEvent (addr : Addr) (q : Requester) (unit : EventUnit) (detail : Detail) : EventBody :=
  ⟨.accessRefused, some unit, some addr, some q, none, detail⟩

end Sys2Proof.Machine
end

