-- ==== Sys2Proof/Machine/Upstream.lean ====
section
/-! DEFINITION. The upstream port: head writes and reads considered, and their responses (Chapters 3, 8, 9). -/

namespace Sys2Proof.Machine

/-! Writes -/

/-- Whether the write channel may consider its head write: requests are taken (R50, R51), the write before has been handled
and answered (R34, R35), and no release or flush is in progress (R110). -/
def State.writeOpen (s : State) : Bool :=
  s.phase == .running && s.writeJob.isNone && s.writeResp.isNone && s.release.isNone

/-- The head write leaves the channel; its waiting episode ends (R116). -/
def State.takeWrite (s : State) : State := { s with headWrite := none, episode := false }

/-- A write is answered (R35). -/
def State.answerWrite (s : State) (q : Requester) (t : Tag) (st : RespStatus) : State :=
  { s with writeJob := none, writeResp := some ⟨q, t, st⟩ }

/-- The handling of an accepted write: held fragments join, up to the first fragment to be issued directly; when none
is left the write is answered OKAY and the hold queue takes what was ordered meanwhile (R60, R35, R110). -/
def State.handle (q : Requester) (t : Tag) : List PendingFrag → State → State
  | [], s => State.takeOrders s.orders (s.answerWrite q t .okay)
  | p :: ps, s =>
    if p.hold then State.handle q t ps (s.join p.frag)
    else { s with writeJob := some (.fragments q t (p :: ps)) }

/-- PARTIAL-PIXEL (R89). -/
def partialEvent (a : ApertureIx) (kind : ApertureKind) (w : WriteReq) : EventBody :=
  ⟨.partialPixel, some (.aperture a), some w.addr, some w.requester, none,
    match kind with
    | .mapped => .convert
    | .stream => .stream⟩

/-- STREAM-EXHAUSTED (R71). -/
def exhaustedEvent (a : ApertureIx) (w : WriteReq) : EventBody :=
  ⟨.streamExhausted, some (.aperture a), some w.addr, some w.requester, none, .windowEnd⟩

/-- HOLD-FULL (R116). -/
def holdFullEvent (i : SurfaceIx) (w : WriteReq) (frame : BitVec 16) (need : Nat) : EventBody :=
  ⟨.holdFull, some (.surface i), some w.addr, some w.requester, some frame, .number need⟩

/-- The cursor move and the events of an accepted write through aperture `a` (R67, R71, R89). -/
def State.acceptThrough (s : State) (a : ApertureIx) (w : WriteReq) (plan : WritePlan) : State :=
  let s := match plan.cursor with
    | none => s
    | some c => s.setCursor a c
  (s.raiseIf plan.partialDrop (partialEvent a s.apertures[a].fields.kind w)).raiseIf plan.exhaustedDrop
    (exhaustedEvent a w)

/-- Considers a write with fragments against the room of the hold queue: accepted whole, or left waiting with
HOLD-FULL once for the episode (R114, R115, R116). -/
def State.considerFrags (s : State) (w : WriteReq) (i : SurfaceIx) (through : Option ApertureIx)
    (plan : WritePlan) : State :=
  let decided := s.decideAll [] plan.frags
  if heldNeed decided ≤ s.freeEntries then
    let s := s.takeWrite
    let s := match through with
      | none => s
      | some a => s.acceptThrough a w plan
    (State.handle w.requester w.tag decided s).handOver
  else
    { s.raiseIf (!s.episode) (holdFullEvent i w s.scans[i].frame (heldNeed decided)) with
      headWrite := some w, episode := true }

/-- Considers a write at the head of the write channel (R34). -/
def State.considerWrite (s : State) (w : WriteReq) : State :=
  match s.classify (writeAccess w) with
  | .malformed => s.takeWrite.answerWrite w.requester w.tag .refused
  | .refused unit detail =>
    (s.takeWrite.raise (refusedEvent w.addr w.requester unit detail)).answerWrite w.requester w.tag .refused
  | .transparent => { s.takeWrite with writeJob := some (.transparent w) }.handOver
  | .mapped a =>
    s.considerFrags w s.apertures[a].fields.surface (some a) (mappedWritePlan a s.apertures[a].fields (s.surfaceOf a) w)
  | .stream a =>
    s.considerFrags w s.apertures[a].fields.surface (some a)
      (streamWritePlan a s.apertures[a].fields (s.surfaceOf a) w s.cursors[a])
  | .backing i => s.considerFrags w i none (backingWritePlan i s.surfaces[i] w)
  | .scanner i => s.considerFrags w i none (backingWritePlan i s.surfaces[i] w)

/-- A write stands at the head of the channel with all its beats; it is considered when the channel may consider it and
otherwise waits there, not taken and not lost (R34, R50, R152). A write that is not the head waits with its requester. -/
def State.headWriteArrives (s : State) (w : WriteReq) : State :=
  if s.phase == .off then s
  else if s.headWrite.isSome && s.headWrite != some w then s
  else if s.writeOpen then s.considerWrite w
  else { s with headWrite := some w }

/-- HEAD_WRITE_CONSIDERED (R34). -/
def execHeadWriteConsidered (w : WriteReq) (s : State) : Host.Outcome State Fault Refusal :=
  .next (s.headWriteArrives w)

/-- WAITING_WRITE_RECONSIDERED: the write at the head is considered afresh, from classification onward (R115). -/
def execWaitingWriteReconsidered (s : State) : Host.Outcome State Fault Refusal :=
  .next (match s.headWrite with
    | none => s
    | some w => if s.writeOpen then s.considerWrite w else s)

/-- WRITE_RESPONSE: the requester takes the response (R35). -/
def execWriteResponse (s : State) : Host.Outcome State Fault Refusal :=
  .next (match s.writeResp with
    | none => s
    | some r => { s with writeResp := none, upWrite := some r })

/-! Reads -/

/-- Whether the read channel may consider its head read: requests are taken (R50, R51), no refused read is still to be
answered (R36), and it does not wait behind a scanner read (R98). -/
def State.readOpen (s : State) : Bool :=
  s.phase == .running && s.refusedRead.isNone && !s.scannerBusy

/-- A tracking entry as it is filled at acceptance (R125); RESPONDING when it has no fragment read (R132). -/
def newEntry (req : ReadReq) (route : Route) (a : Option ApertureIx) (i : Option SurfaceIx) (conv : Option Conv)
    (placement : List PlaceEntry) (reads : List FragRead) : Entry where
  req := req
  route := route
  aperture := a
  surface := i
  conv := conv
  placement := placement
  reads := reads
  error := false
  state := if reads.isEmpty then .responding else .issuing

/-- The head read is accepted into entry `e` (R36, R125). -/
def State.acceptRead (s : State) (e : EntryIx) (en : Entry) : State :=
  { s.setEntry e (some en) with headRead := none, taken := s.taken ++ [e] }

/-- The tracking entry of a mapped read (R56, R61). -/
def mappedEntry (a : ApertureIx) (f : ApertureFields) (r : SurfaceRec) (req : ReadReq) : Entry :=
  newEntry req .mapped (some a) (some f.surface) (some (convOf f r)) (mappedPlacement f r (readAccess req))
    (cutReads r (mappedPlacement f r (readAccess req)))

/-- The tracking entry of a stream read (R68, R73). -/
def streamEntry (a : ApertureIx) (f : ApertureFields) (r : SurfaceRec) (req : ReadReq) (c : Cursor) : Entry :=
  newEntry req .stream (some a) (some f.surface) (some (convOf f r)) (streamPlacement f r (readAccess req) c)
    (cutReads r (streamPlacement f r (readAccess req) c))

/-- The tracking entry of a scanner read before its fragment reads are formed (R94, R125). -/
def scannerEntry (i : SurfaceIx) (req : ReadReq) : Entry :=
  { newEntry req .scanner none (some i) none [] [] with state := .issuing }

/-- The scan step of a tracked scanner read accepted into entry `e` (R95, R96, R97), then its fragment reads. -/
def State.scanStep (s : State) (i : SurfaceIx) (e : EntryIx) (req : ReadReq) : State :=
  let d := scanRow s.surfaces[i] (readAccess req)
  if s.scans[i].state != .scanning then (s.openFrame i req d false).formScanner i e
  else if d < s.scans[i].c then s.begin (.restart i e d)
  else s.begin (.step i e d)

/-- Whether a read must wait for the hold queue: its acceptance is a scan step, and the queue is at work (R98, R110; log entry 10). -/
def State.stepWaits (s : State) (cls : Class) (req : ReadReq) : Bool :=
  match cls with
  | .scanner i => trackedRead s.surfaces[i] (readAccess req) && s.holdBusy
  | _ => false

/-- Accepts a read with a route into entry `e`. -/
def State.acceptRoute (s : State) (cls : Class) (req : ReadReq) (e : EntryIx) : State :=
  match cls with
  | .malformed => s
  | .refused _ _ => s
  | .transparent => s.acceptRead e (newEntry req .transparent none none none [] [transparentRead req])
  | .mapped a => s.acceptRead e (mappedEntry a s.apertures[a].fields (s.surfaceOf a) req)
  | .stream a =>
    (s.acceptRead e (streamEntry a s.apertures[a].fields (s.surfaceOf a) req s.cursors[a])).setCursor a
      (streamCursorAfter s.apertures[a].fields (readAccess req) s.cursors[a])
  | .backing i =>
    s.acceptRead e (newEntry req .backing none (some i) none [] (backingReads (readAccess req)))
  | .scanner i =>
    if trackedRead s.surfaces[i] (readAccess req) then (s.acceptRead e (scannerEntry i req)).scanStep i e req
    else (s.acceptRead e (scannerEntry i req)).formScanner i e

/-- Considers a read at the head of the read channel (R36): refused, accepted into a free entry, or left waiting. -/
def State.considerRead (s : State) (req : ReadReq) (pick : Nat) : State :=
  match s.classify (readAccess req) with
  | .malformed => { s with headRead := none, refusedRead := some req }
  | .refused unit detail =>
    { s.raise (refusedEvent req.addr req.requester unit detail) with headRead := none, refusedRead := some req }
  | cls =>
    if s.stepWaits cls req then { s with headRead := some req }
    else match s.pickEntry pick with
      | none => { s with headRead := some req }
      | some e => (s.acceptRoute cls req e).handOver

/-- A read stands at the head of the channel; it is considered when the channel may consider it and otherwise
waits there. A read that is not the head waits with its requester. -/
def State.headReadArrives (s : State) (req : ReadReq) (pick : Nat) : State :=
  if s.phase == .off then s
  else if s.headRead.isSome && s.headRead != some req then s
  else if s.readOpen then s.considerRead req pick
  else { s with headRead := some req }

/-- HEAD_READ_CONSIDERED (R36). -/
def execHeadReadConsidered (req : ReadReq) (pick : Nat) (s : State) : Host.Outcome State Fault Refusal :=
  .next (s.headReadArrives req pick)

/-- HEAD_READ_RECONSIDERED: the read at the head is classified afresh (R36). -/
def execHeadReadReconsidered (pick : Nat) (s : State) : Host.Outcome State Fault Refusal :=
  .next (match s.headRead with
    | none => s
    | some req => if s.readOpen then s.considerRead req pick else s)

/-- The response of the read in entry `e` is given and the entry becomes free, when the entry is RESPONDING and no
earlier-taken read of the same requester and tag waits (R131). -/
def State.respondEntry (s : State) (e : EntryIx) : State :=
  match s.table[e] with
  | none => s
  | some en =>
    if en.state == .responding && !s.earlierWaits e en.req then
      { s.setEntry e none with taken := s.taken.erase e, upRead := some en.response }
    else s

/-- The REFUSED response of the refused read is given, behind every read of its requester and tag in the table (R131). -/
def State.respondRefused (s : State) : State :=
  match s.refusedRead with
  | none => s
  | some r =>
    if entryIndices.any (s.entryMatches r) then s
    else { s with refusedRead := none, upRead := some (refusedResp r) }

/-- READ_RESPONSE (R131, R37). -/
def execReadResponse (who : Responder) (s : State) : Host.Outcome State Fault Refusal :=
  .next (match who with
    | .entry e => s.respondEntry e
    | .refused => s.respondRefused)

end Sys2Proof.Machine
end

