-- ==== Sys2Proof/Machine/Profile.lean ====
section
/-! DEFINITION. The profile store, the load phase, power and line reset (Chapter 12). -/

namespace Sys2Proof.Machine

/-! Slots -/

/-- Status of a slot (R154). -/
inductive SlotStatus where
  | blank
  | good
  | damaged
  deriving DecidableEq, Repr

/-- The status read from a slot's use count and check code (R154). -/
def Slot.status {α : Type} (k : Slot α) : SlotStatus :=
  if k.uses = 0 then .blank else if k.checkOk then .good else .damaged

/-- Use count, status and check of a slot by its number. -/
def State.slotUses (s : State) (k : SlotIx) : Nat :=
  if h : k.val < 8 then s.apSlots[k.val].uses
  else if h : k.val - 8 < 4 then s.sfSlots[k.val - 8].uses
  else s.setSlot.uses

def State.slotStatus (s : State) (k : SlotIx) : SlotStatus :=
  if h : k.val < 8 then s.apSlots[k.val].status
  else if h : k.val - 8 < 4 then s.sfSlots[k.val - 8].status
  else s.setSlot.status

/-- Sets whether the check code of a slot matches. -/
def State.setSlotCheck (s : State) (k : SlotIx) (ok : Bool) : State :=
  if h : k.val < 8 then { s with apSlots := s.apSlots.set k.val { s.apSlots[k.val] with checkOk := ok } }
  else if h : k.val - 8 < 4 then { s with sfSlots := s.sfSlots.set (k.val - 8) { s.sfSlots[k.val - 8] with checkOk := ok } }
  else { s with setSlot := { s.setSlot with checkOk := ok } }

/-- A slot whose programming has begun: use count raised, the image being replaced, the check not matching (R154, R155). -/
def Slot.program {α : Type} (k : Slot α) (image : α) : Slot α := ⟨k.uses + 1, some image, false⟩

/-- The save of a slot: snapshot, use count, in-flight mark (R155). -/
def State.saveSlot (s : State) (k : SlotIx) : State :=
  let s := { s with saving := some k }
  if h : k.val < 8 then
    { s with apSlots := s.apSlots.set k.val (s.apSlots[k.val].program s.apertures[k.val].fields) }
  else if h : k.val - 8 < 4 then
    { s with sfSlots := s.sfSlots.set (k.val - 8) (s.sfSlots[k.val - 8].program s.surfaces[k.val - 8]) }
  else { s with setSlot := s.setSlot.program ⟨s.mode, s.alertMask⟩ }

/-- A save in flight is cut: the check code does not match and the mark is cleared (R157). -/
def State.abortSave (s : State) : State :=
  match s.saving with
  | none => s
  | some k => { s.setSlotCheck k false with saving := none }

/-- PROFILE-DONE (R137). -/
def profileDoneEvent (k : SlotIx) (ok : Bool) : EventBody :=
  ⟨.profileDone, some (.slot k), none, none, none, if ok then .saved else .saveFailed⟩

/-- PROFILE_PROGRAMMING_COMPLETE (R156). -/
def execProfileProgrammingComplete (verifies : Bool) (s : State) : Host.Outcome State Fault Refusal :=
  .next (match s.saving with
    | none => s
    | some k => { s.setSlotCheck k verifies with saving := none }.raise (profileDoneEvent k verifies))

/-! The load phase -/

/-- LOAD-FAULT (R137). -/
def loadFaultEvent (k : SlotIx) (d : Detail) : EventBody := ⟨.loadFault, some (.slot k), none, none, none, d⟩

/-- Handles the slot of aperture `a` (R31, R158). -/
def State.loadAperture (s : State) (a : ApertureIx) : State :=
  let slot := s.apSlots[a]
  let fields := match slot.status, slot.image with
    | .good, some f => f
    | _, _ => ApertureFields.cleared
  (s.setAperture a ⟨.closed, 0, fields⟩).raiseIf (slot.status == SlotStatus.damaged)
    (loadFaultEvent ⟨a.val, by omega⟩ .damaged)

/-- Handles the slot of surface `i` (R13, R158). -/
def State.loadSurface (s : State) (i : SurfaceIx) : State :=
  let slot := s.sfSlots[i]
  let offered := match slot.status, slot.image with
    | .good, some r => if r.defined then r else SurfaceRec.cleared
    | _, _ => SurfaceRec.cleared
  let clash := offered.defined && s.overlapsSurface i offered
  let r := if clash then SurfaceRec.cleared else offered
  (((s.setSurface i r).setScan i (ScanCtx.fresh r.band)).raiseIf (slot.status == SlotStatus.damaged)
    (loadFaultEvent ⟨i.val + 8, by omega⟩ .damaged)).raiseIf clash (loadFaultEvent ⟨i.val + 8, by omega⟩ .surfaceOverlap)

/-- Handles slot 12 and applies the start mode (R141, R158, R159). -/
def State.loadSettings (s : State) : State :=
  let settings := match s.setSlot.status, s.setSlot.image with
    | .good, some x => x
    | _, _ => ⟨.bypass, defaultMask⟩
  { s with alertMask := settings.mask, mode := settings.mode }.raiseIf (s.setSlot.status == SlotStatus.damaged)
    (loadFaultEvent 12 .damaged)

/-- Considers the opening at start of aperture `a` (R31, R159). -/
def State.openAtStart (s : State) (a : ApertureIx) : State :=
  if s.mode == .engaged && s.apertures[a].fields.openAtStart then
    match s.openRefusal a with
    | none => s.openAperture a
    | some _ => s.raise (loadFaultEvent ⟨a.val, by omega⟩ .openRefused)
  else s

/-- Handles item `n` of the load phase: slots 0 to 12 in order, the cursors after slot 7, then the apertures (R158, R159). -/
def State.loadItem (s : State) (n : Nat) : State :=
  if h : n < 8 then
    let s := s.loadAperture ⟨n, h⟩
    if n = 7 then s.resetCursors else s
  else if h : n - 8 < 4 then s.loadSurface ⟨n - 8, h⟩
  else if n = 12 then s.loadSettings
  else if h : n - 13 < 8 then s.openAtStart ⟨n - 13, h⟩
  else s

/-- Number of items of the load phase. -/
abbrev loadItems : Nat := 21

/-- Handles `k` items of the load phase from item `n` on. -/
def State.runLoad : Nat → Nat → State → State
  | 0, n, s => { s with phase := .loading n }
  | k + 1, n, s => State.runLoad k (n + 1) (s.loadItem n)

/-- How many items the load phase handles before the next command comes (log entry 6). -/
def loadCount (cut : Option Nat) : Nat := min loadItems (cut.getD loadItems)

/-- The load phase begins: nothing is loaded yet, every aperture CLOSED with held count 0 (R31; log entry 34). -/
def State.beginLoad (s : State) : State :=
  { s with
    phase := .loading 0
    surfaces := Vector.replicate 4 SurfaceRec.cleared
    apertures := Vector.replicate 8 Aperture.cleared
    scans := Vector.replicate 4 (ScanCtx.fresh none) }

/-- The load phase, as far as `cut` says (R158, R159). -/
def State.load (s : State) (cut : Option Nat) : State := State.runLoad (loadCount cut) 0 s.beginLoad

/-! Power -/

/-- The state without power: what the slots keep, and everything else as power-on finds it (R154, R157).
A save in flight is cut (R157). -/
def State.unpowered (s : State) : State :=
  let p := s.abortSave
  { State.reset with
    phase := .off
    apSlots := p.apSlots
    sfSlots := p.sfSlots
    setSlot := p.setSlot
    pending := s.pending }

/-- POWER_ON: power is applied and the load phase begins (R158). A part that had power loses it first (log entry 28). RESETN
is not followed without power, so power applied while RESETN is low starts the load as well (log entry 38). -/
def execPowerOn (cut : Option Nat) (s : State) : Host.Outcome State Fault Refusal :=
  .next (s.unpowered.load cut)

/-- POWER_LOSS (R157). -/
def execPowerLoss (s : State) : Host.Outcome State Fault Refusal :=
  .next s.unpowered

/-! Line reset -/

/-- What the ports, the hold queue, the read tracker, the management port and the store give up when RESETN falls
(R50, R122, R135, R153, R107, R157, R160). The head requests not yet taken stay with their requesters. -/
def State.lineReset (s : State) : State :=
  { s.abortSave with
    phase := .resetLow
    queue := []
    discarded := s.queue.length
    highWater := 0
    episode := false
    release := none
    orders := []
    writeJob := none
    writeResp := none
    refusedRead := none
    table := Vector.replicate 32 none
    taken := []
    handed := []
    abandonedTags := s.abandonedTags ++ s.tagsInFlight
    abandonedWrites := s.abandonedWrites + s.outstanding.length
    outstanding := []
    scans := mapTable (fun c => { c with timer := none }) s.scans
    apertures := mapTable (fun a => { a with held := 0 }) s.apertures
    port := s.port.cut }

/-- Whether RESETN is high and the part has power. -/
def State.resetnHigh (s : State) : Bool :=
  match s.phase with
  | .off => false
  | .resetLow => false
  | _ => true

/-- RESETN_FALL (R160). Without power, or with RESETN already low, there is no fall. -/
def execResetnFall (s : State) : Host.Outcome State Fault Refusal :=
  .next (if s.resetnHigh then s.lineReset else s)

/-- LINE-RESET (R137). -/
def lineResetEvent (n : Nat) : EventBody := ⟨.lineReset, none, none, none, none, .number n⟩

/-- RESETN_RISE: LINE-RESET, then the load phase (R158, R160). -/
def execResetnRise (cut : Option Nat) (s : State) : Host.Outcome State Fault Refusal :=
  .next (if s.phase == .resetLow then (s.raise (lineResetEvent s.discarded)).load cut else s)

/-- LOAD_PHASE_END: the load handles what is left of it, and the part takes requests and commands (R159).
The head requests are considered by the commands that follow (log entry 9). -/
def execLoadPhaseEnd (s : State) : Host.Outcome State Fault Refusal :=
  .next (match s.phase with
    | .loading n => { State.runLoad (loadItems - n) n s with phase := .running }
    | _ => s)

end Sys2Proof.Machine
end

