-- ==== Sys2Proof/Machine/Management.lean ====
section
/-! DEFINITION. The management commands (Chapter 11, with the chapters that own their effects). -/

namespace Sys2Proof.Machine

/-- SHORT_TRANSACTION: nothing is executed (R145). -/
def execShortTransaction (bytes : OpenBytes) (s : State) : Host.Outcome State Fault Refusal :=
  .next (s.gather bytes.received bytes.ended)

/-- UNKNOWN_COMMAND (R144; log entry 16). -/
def execUnknownCommand (code : Byte) (s : State) : Host.Outcome State Fault Refusal :=
  .next (s.command (.unknownCommand code) false true false (s.refuse .unknown))

/-- IDENT's fields: vendor, part, revision, surfaces, apertures, hold capacity (R147). -/
def identBytes : List Byte := [0x6D, 0x48, 0x01, 4, 8] ++ beBytes 2 Config.holdCapacity

/-- IDENT passes the busy gate (R147). -/
def execIdent (s : State) : Host.Outcome State Fault Refusal :=
  .next (s.command .ident false true false (s.done identBytes))

/-! Mode -/

/-- The change to BYPASS with what it does to the scan contexts (R41, R106). -/
def State.toBypass (s : State) : State :=
  { s with mode := .bypass, scans := mapTable ScanCtx.bypassed s.scans }

/-- MODE-SET to BYPASS waits until every fragment of the accepted write is issued or held (R42; log entry 36). -/
def State.modeSetWaits (s : State) (m : Byte) : Bool := m.toNat == 0 && !s.todo.isEmpty

/-- MODE-SET's checks and effect (R41, R146, R147). -/
def State.modeSet (s : State) (m : Byte) : Answer :=
  if m.toNat = 0 then
    if apertureIndices.any s.claims || !s.queue.isEmpty then s.refuse .state else s.toBypass.done
  else if m.toNat = 1 then { s with mode := .engaged }.done
  else s.refuse .range

/-- MODE-SET as a transaction brings it. -/
def State.takeModeSet (s : State) (m : Byte) : State :=
  s.command (.modeSet m) true true (s.modeSetWaits m) (s.modeSet m)

/-- MODE_SET (R41). -/
def execModeSet (m : Byte) (s : State) : Host.Outcome State Fault Refusal :=
  .next (s.takeModeSet m)

def modeCode : Mode → Byte
  | .bypass => 0
  | .engaged => 1

/-- MODE_READ (R147). -/
def execModeRead (s : State) : Host.Outcome State Fault Refusal :=
  .next (s.command .modeRead true true false (s.done [modeCode s.mode]))

/-! Surfaces -/

/-- The STATE group of SURFACE-WRITE (R11). -/
def State.surfaceInUse (s : State) (i : SurfaceIx) : Bool :=
  apertureIndices.any (fun a => s.claims a && s.apertures[a].fields.surface == i)
    || s.queue.any (fun f => f.surface == i)

/-- The RANGE group of SURFACE-WRITE for a DEFINED record (R11). -/
def State.surfaceFits (s : State) (i : SurfaceIx) (r : SurfaceRec) : Bool :=
  !r.defined || (r.fieldsOk && !s.overlapsSurface i r && !s.overlapsAperture r)

/-- Installs a surface record and sets its scan context (R11, R105). -/
def State.installSurface (s : State) (i : SurfaceIx) (r : SurfaceRec) : State :=
  (s.setSurface i r).setScan i (ScanCtx.fresh r.band)

/-- SURFACE-WRITE's checks and effect (R11). -/
def State.surfaceWrite (s : State) (index : Byte) (record : List Byte) : Answer :=
  match surfaceIx index with
  | none => s.refuse .range
  | some i =>
    if s.surfaceInUse i then s.refuse .state
    else match parseSurface record with
      | none => s.refuse .range
      | some r => if s.surfaceFits i r then (s.installSurface i r).done else s.refuse .range

/-- SURFACE-WRITE waits until every fragment of an accepted write to its surface is issued or held (R12; log entry 36). -/
def State.surfaceWriteWaits (s : State) (index : Byte) : Bool :=
  match surfaceIx index with
  | none => false
  | some i => s.todo.any fun p => p.frag.surface == i

/-- SURFACE-WRITE as a transaction brings it. -/
def State.takeSurfaceWrite (s : State) (index : Byte) (record : List Byte) : State :=
  s.command (.surfaceWrite index record) true (27 ≤ record.length) (s.surfaceWriteWaits index) (s.surfaceWrite index record)

/-- SURFACE_WRITE (R11). -/
def execSurfaceWrite (index : Byte) (record : List Byte) (s : State) : Host.Outcome State Fault Refusal :=
  .next (s.takeSurfaceWrite index record)

/-- A command that only reads: the response of the named unit, or RANGE for a bad index. -/
def State.readUnit {α : Type} (s : State) (ix : Option α) (bytes : α → List Byte) : Answer :=
  match ix with
  | none => s.refuse .range
  | some i => s.done (bytes i)

/-- SURFACE_READ (R15). -/
def execSurfaceRead (index : Byte) (s : State) : Host.Outcome State Fault Refusal :=
  .next (s.command (.surfaceRead index) true true false (s.readUnit (surfaceIx index) fun i => surfaceBytes s.surfaces[i]))

/-- Places a pending band (R102). -/
def State.setPendingBand (s : State) (i : SurfaceIx) (b : PendingBand) : State :=
  s.setScan i { s.scans[i] with pendingBand := b }

/-- BAND-SET's checks and effect (R148). -/
def State.bandSet (s : State) (index : Byte) (block : List Byte) : Answer :=
  match surfaceIx index with
  | none => s.refuse .range
  | some i =>
    if !s.surfaces[i].defined then s.refuse .state
    else match parseBand block with
      | .absent => s.refuse .range
      | .bad => s.refuse .range
      | .remove => (s.setPendingBand i .remove).done
      | .band b => if s.surfaces[i].bandOk b then (s.setPendingBand i (.band b)).done else s.refuse .range

/-- BAND_SET (R148). -/
def execBandSet (index : Byte) (block : List Byte) (s : State) : Host.Outcome State Fault Refusal :=
  .next (s.command (.bandSet index block) true (7 ≤ block.length) false (s.bandSet index block))

/-- SCAN_READ (R108). -/
def execScanRead (index : Byte) (s : State) : Host.Outcome State Fault Refusal :=
  .next (s.command (.scanRead index) true true false (s.readUnit (surfaceIx index) fun i => scanBytes s.scans[i]))

/-! Apertures -/

/-- Replaces the fields of an aperture record (R18). -/
def State.setFields (s : State) (a : ApertureIx) (f : ApertureFields) : State :=
  s.setAperture a { s.apertures[a] with fields := f }

/-- APERTURE-WRITE's checks and effect (R18). -/
def State.apertureWrite (s : State) (index : Byte) (record : List Byte) : Answer :=
  match apertureIx index with
  | none => s.refuse .range
  | some a =>
    if s.claims a then s.refuse .state
    else match parseAperture record with
      | none => s.refuse .range
      | some f => (s.setFields a f).done

/-- APERTURE_WRITE (R18). -/
def execApertureWrite (index : Byte) (record : List Byte) (s : State) : Host.Outcome State Fault Refusal :=
  .next (s.command (.apertureWrite index record) true (18 ≤ record.length) false (s.apertureWrite index record))

/-- APERTURE_READ (R32). -/
def execApertureRead (index : Byte) (s : State) : Host.Outcome State Fault Refusal :=
  .next (s.command (.apertureRead index) true true false (s.readUnit (apertureIx index) fun a =>
    apertureBytes s.apertures[a].fields s.apertures[a].state (s.heldSeen a)))

/-- APERTURE-OPEN's checks and effect (R20). -/
def State.apertureOpen (s : State) (index : Byte) : Answer :=
  match apertureIx index with
  | none => s.refuse .range
  | some a =>
    match s.openRefusal a with
    | some st => s.refuse st
    | none => (s.openAperture a).done

/-- APERTURE_OPEN (R20). -/
def execApertureOpen (index : Byte) (s : State) : Host.Outcome State Fault Refusal :=
  .next (s.command (.apertureOpen index) true true false (s.apertureOpen index))

/-- APERTURE-CLOSE waits until every fragment of an accepted write through its aperture is issued or held (R29; log entry 36). -/
def State.apertureCloseWaits (s : State) (index : Byte) : Bool :=
  match apertureIx index with
  | none => false
  | some a => s.todo.any fun p => p.frag.origin == .aperture a

/-- APERTURE-CLOSE's checks and effect (R25). -/
def State.apertureClose (s : State) (index : Byte) : Answer :=
  match apertureIx index with
  | none => s.refuse .range
  | some a =>
    if s.apertures[a].state != .opened then s.refuse .state
    else if s.apertures[a].held = 0 then
      ((s.closeAperture a).raise (closedEvent a .closeImmediate none)).done
    else (s.setAperture a { s.apertures[a] with state := .draining }).done

/-- APERTURE-CLOSE as a transaction brings it. -/
def State.takeApertureClose (s : State) (index : Byte) : State :=
  s.command (.apertureClose index) true true (s.apertureCloseWaits index) (s.apertureClose index)

/-- APERTURE_CLOSE (R25). -/
def execApertureClose (index : Byte) (s : State) : Host.Outcome State Fault Refusal :=
  .next (s.takeApertureClose index)

/-- WINDOW-SET's checks and effect (R76). -/
def State.windowSet (s : State) (index : Byte) (bytes : List Byte) : Answer :=
  match apertureIx index with
  | none => s.refuse .range
  | some a =>
    let f := s.apertures[a].fields
    let w := parseWindow bytes
    if f.kind == .mapped || s.apertures[a].state == .draining then s.refuse .state
    else if !windowInRange w then s.refuse .range
    else if s.apertures[a].state == .opened && !windowInView f (s.surfaceOf a) w then s.refuse .range
    else ((s.setFields a { f with window := w }).resetCursor a).done

/-- WINDOW_SET (R76). -/
def execWindowSet (index : Byte) (window : List Byte) (s : State) : Host.Outcome State Fault Refusal :=
  .next (s.command (.windowSet index window) true (8 ≤ window.length) false (s.windowSet index window))

/-- CURSOR_READ (R79). -/
def execCursorRead (index : Byte) (s : State) : Host.Outcome State Fault Refusal :=
  .next (s.command (.cursorRead index) true true false (s.readUnit (apertureIx index) fun a => cursorBytes s.cursors[a]))

/-! Hold queue counters -/

/-- HOLD-READ's response and effect (R121). -/
def State.holdRead (s : State) : Answer :=
  { s with highWater := s.occupancySeen }.done
    (beBytes 2 s.occupancySeen ++ beBytes 2 (max s.highWater s.occupancySeen))

/-- HOLD_READ (R121). -/
def execHoldRead (s : State) : Host.Outcome State Fault Refusal :=
  .next (s.command .holdRead true true false s.holdRead)

/-! Events and alert mask -/

/-- EVENT-READ's response and effect (R140). -/
def State.eventRead (s : State) : Answer :=
  match s.events with
  | [] => s.done (beBytes 1 0)
  | r :: rs => { s with events := rs }.done (beBytes 1 s.events.length ++ eventBytes r)

/-- EVENT_READ (R140). -/
def execEventRead (s : State) : Host.Outcome State Fault Refusal :=
  .next (s.command .eventRead true true false s.eventRead)

/-- EVENT_COUNT (R140). -/
def execEventCount (s : State) : Host.Outcome State Fault Refusal :=
  .next (s.command .eventCount true true false (s.done (beBytes 1 s.events.length)))

/-- ALERT-MASK's checks, effect and response (R149). -/
def State.alertMaskCommand (s : State) (action : Byte) (mask : BitVec 16) : Answer :=
  if action.toNat = 0 then s.done (beBytes 2 s.alertMask.toNat)
  else if action.toNat = 1 then
    if 8192 ≤ mask.toNat then s.refuse .range
    else { s with alertMask := mask.setWidth 13 }.done (beBytes 2 mask.toNat)
  else s.refuse .range

/-- ALERT_MASK_READ (R149): action 00h. -/
def execAlertMaskRead (mask : BitVec 16) (s : State) : Host.Outcome State Fault Refusal :=
  .next (s.command (.alertMaskRead mask) true true false (s.alertMaskCommand 0 mask))

/-- ALERT_MASK_WRITE (R149): action 01h, or an action that is refused. -/
def execAlertMaskWrite (action : Byte) (mask : BitVec 16) (s : State) : Host.Outcome State Fault Refusal :=
  .next (s.command (.alertMaskWrite action mask) true true false (s.alertMaskCommand action mask))

/-! Commands that waited for an accepted write -/

/-- The command that waits in the port executes, when it has no more to wait for (R12, R29, R42; log entry 36). -/
def State.resumePort (s : State) : State :=
  match s.port with
  | .receiving received =>
    match decodeTransaction received with
    | .modeSet m => s.takeModeSet m
    | .surfaceWrite index record => s.takeSurfaceWrite index record
    | .apertureClose index => s.takeApertureClose index
    | _ => s
  | _ => s

/-! Profile commands -/

/-- PROFILE-SAVE's checks and effect (R155). -/
def State.profileSave (s : State) (slot : Byte) : Answer :=
  if s.saving.isSome then s.refuse .busy
  else match slotIx slot with
    | none => s.refuse .range
    | some k => if 3 ≤ s.slotUses k then s.refuse .exhausted else (s.saveSlot k).done

/-- PROFILE_SAVE (R155). -/
def execProfileSave (slot : Byte) (s : State) : Host.Outcome State Fault Refusal :=
  .next (s.command (.profileSave slot) true true false (s.profileSave slot))

def slotStatusCode : SlotStatus → Nat
  | .blank => 0
  | .good => 1
  | .damaged => 2

/-- The status byte of a slot (R154, section 11.6). -/
def State.slotByte (s : State) (k : SlotIx) : Byte :=
  BitVec.ofNat 8 (s.slotUses k + 16 * slotStatusCode (s.slotStatus k) + bitAt (s.saving == some k) 7)

/-- PROFILE_READ (R154). -/
def execProfileRead (s : State) : Host.Outcome State Fault Refusal :=
  .next (s.command .profileRead true true false (s.done ((List.finRange 13).map s.slotByte)))

/-! Soft reset -/

/-- SOFT_RESET: the sequence starts, and no request is taken (R151). -/
def execSoftReset (s : State) : Host.Outcome State Fault Refusal :=
  .next (s.command .softReset true true false ({ s with phase := .softReset .drain }.done))

/-- Whether stages 1 and 2 are complete: the accepted write handled and answered, no read in the table (R151). -/
def State.drained (s : State) : Bool := s.writeJob.isNone && s.writeResp.isNone && !s.tableInUse

/-- SOFT_RESET_FLUSH: the full flush is ordered (R151 stage 3). -/
def execSoftResetFlush (s : State) : Host.Outcome State Fault Refusal :=
  .next (match s.phase with
    | .softReset .drain =>
      if s.drained then ({ s with phase := .softReset .flush }.order .fullFlush).handOver else s
    | _ => s)

/-- SOFT-RESET-DONE (R137). -/
def softResetDoneEvent (n : Nat) : EventBody := ⟨.softResetDone, none, none, none, none, .number n⟩

/-- Every scan context as a soft reset leaves it (R107). -/
def State.softResetScans (s : State) : State :=
  { s with scans := Vector.ofFn fun i : Fin 4 => s.scans[i].softReset s.surfaces[i] }

/-- SOFT_RESET_RESUME: stages 4 and 5 (R151). -/
def execSoftResetResume (s : State) : Host.Outcome State Fault Refusal :=
  .next (match s.phase with
    | .softReset (.flushed n) =>
      if s.release.isNone && s.orders.isEmpty then
        { (s.softResetScans.resetCursors).raise (softResetDoneEvent n) with phase := .running, highWater := 0 }
      else s
    | _ => s)

end Sys2Proof.Machine
end

