-- ==== Sys2Proof/Machine/Downstream.lean ====
section
/-! DEFINITION. The downstream port: issues, returns and write responses (Chapters 3, 7, 9). -/

namespace Sys2Proof.Machine

/-- The finish that the issue of a fragment read orders: the read covers the finishing byte and the context
is SCANNING (R99). -/
def State.finishAt (s : State) (en : Entry) (fr : FragRead) : State :=
  match en.surface with
  | none => s
  | some i => if fr.finishes && s.scans[i].state == .scanning then s.order (.finish i) else s

/-- Issues the next fragment read of entry `e` (R126, R128). -/
def State.issueRead (s : State) (e : EntryIx) : State :=
  match s.table[e] with
  | none => s
  | some en =>
    match en.nextRead with
    | none => s
    | some n =>
      match en.reads[n]? with
      | none => s
      | some fr => (s.setEntry e (some (en.issue n s.queue))).finishAt en fr

/-- FRAGMENT_READ_ISSUE: the port issues the read tracker's fragment read, when none handed over before that read was formed
is left to issue (R39, R98, R126; log entry 12). -/
def execFragmentReadIssue (s : State) : Host.Outcome State Fault Refusal :=
  .next (if s.mayIssue .readTracker then
      match s.readToIssue with
      | none => s
      | some e => ((s.passRequest .readTracker).issueRead e).handOver
    else s)

/-- The memory controller takes the write channel's request (R39, R47, R60). After a fragment the command that waits in the
management port for this write executes, if the write's last fragment is now issued or held (R12, R29, R42; log entry 36). -/
def State.issueWrite (s : State) : State :=
  match s.writeJob with
  | none => s
  | some (.transparent w) =>
    { s with outstanding := s.outstanding ++ [DsWrite.transparent w] }.answerWrite w.requester w.tag .okay
  | some (.fragments q t []) => (State.handle q t [] s).resumePort
  | some (.fragments q t (p :: ps)) =>
    (State.handle q t ps { s with outstanding := s.outstanding ++ [DsWrite.fragment p.frag] }).resumePort

/-- The forming block that a source of downstream writes is. -/
def formerOf : WriteSource → Former
  | .writeChannel => .writeChannel
  | .holdQueue => .holdQueue

/-- The memory controller takes the entry that the hold queue has handed over. -/
def State.issueRelease (s : State) : State :=
  match s.release with
  | none => s
  | some rel => s.issueHeld rel

/-- DOWNSTREAM_WRITE_ISSUE: the memory controller takes the request of one forming block, when it may come next; of requests
handed over together either may, and a release may come before a fragment read formed earlier, or after it (R39, R60, R117,
R129; log entry 12). -/
def execDownstreamWriteIssue (src : WriteSource) (s : State) : Host.Outcome State Fault Refusal :=
  .next (if s.mayIssue (formerOf src) then
      let s := s.passRequest (formerOf src)
      (match src with
        | .writeChannel => s.issueWrite
        | .holdQueue => s.issueRelease).handOver
    else s)

/-- DOWNSTREAM-ERROR READ (R48). -/
def readErrorEvent (en : Entry) : EventBody :=
  ⟨.downstreamError, en.surface.map .surface, some en.req.addr, some en.req.requester, none, .read⟩

/-- DOWNSTREAM-ERROR UNKNOWN-TAG (R40). -/
def unknownTagEvent : EventBody := ⟨.downstreamError, none, none, none, none, .unknownTag⟩

/-- A return whose tag is in flight no read: discarded, as abandoned or with DOWNSTREAM-ERROR (R40, R50). -/
def State.strayReturn (s : State) (e : EntryIx) (p : ReadPos) : State :=
  if s.abandonedTags.contains (e, p) then { s with abandonedTags := s.abandonedTags.erase (e, p) }
  else s.raise unknownTagEvent

/-- Whether an entry has a fragment read in flight at a position. -/
def Entry.awaits (en : Entry) (p : ReadPos) : Bool :=
  match en.reads[p.val]? with
  | none => false
  | some fr => fr.status == .issued

/-- A return joined to its entry by its tag (R130, R133). -/
def State.joinReturn (s : State) (e : EntryIx) (en : Entry) (p : ReadPos) (error : Bool) (data : List Byte) : State :=
  (s.setEntry e (some (en.returned p.val error data))).raiseIf (error && !en.error) (readErrorEvent en)

/-- DOWNSTREAM_READ_RETURN (R130). -/
def execDownstreamReadReturn (e : EntryIx) (p : ReadPos) (error : Bool) (data : List Byte) (s : State) :
    Host.Outcome State Fault Refusal :=
  .next (if s.phase == .off then s
    else match s.table[e] with
      | none => s.strayReturn e p
      | some en => if en.awaits p then s.joinReturn e en p error data else s.strayReturn e p)

/-- DOWNSTREAM-ERROR WRITE (R49). -/
def writeErrorEvent (w : DsWrite) : EventBody :=
  ⟨.downstreamError, w.surface.map .surface, some w.addr, some w.requester, none, .write⟩

/-- DOWNSTREAM_WRITE_RESPONSE: the first ones after a line reset answer abandoned writes; each other one answers
the oldest downstream write not yet answered (R40, R49, R50). -/
def execDownstreamWriteResponse (error : Bool) (s : State) : Host.Outcome State Fault Refusal :=
  .next (if 0 < s.abandonedWrites then { s with abandonedWrites := s.abandonedWrites - 1 }
    else match s.outstanding with
      | [] => s
      | w :: ws => { s with outstanding := ws }.raiseIf error (writeErrorEvent w))

/-- SCAN_TIMER_EXPIRY: whether the work in progress already serves the surface's scan, so that the expiry does not come
about: a step or restart restarts the timer, a finish or stall stops it (R98 to R101). -/
def State.scanWorkOn (s : State) (i : SurfaceIx) : Bool :=
  match s.release with
  | some ⟨.step j _ _, _, _⟩ => j == i
  | some ⟨.restart j _ _, _, _⟩ => j == i
  | some ⟨.finish j, _, _⟩ => j == i
  | some ⟨.stall j, _, _⟩ => j == i
  | _ => false

/-- SCAN_TIMER_EXPIRY: the timer of surface `i` expires; its holds are flushed, now or once the work in
progress is done, and the surface stalls (R101, R110, R151). -/
def execScanTimerExpiry (i : SurfaceIx) (s : State) : Host.Outcome State Fault Refusal :=
  .next (if s.scans[i].state == .scanning && s.scans[i].timer.isSome && !s.scanWorkOn i then
      (s.order (.stall i)).handOver
    else s)

end Sys2Proof.Machine
end

