-- ==== Sys2Proof/Machine/Dispatch.lean ====
section
/-! DEFINITION. One arm for each command: a direct call of its meaning. -/

namespace Sys2Proof.Machine

def exec (i : Instr) (s : State) : Host.Outcome State Fault Refusal :=
  match i with
  | .powerOn cut => Sys2Proof.Machine.execPowerOn cut s
  | .powerLoss => Sys2Proof.Machine.execPowerLoss s
  | .resetnFall => Sys2Proof.Machine.execResetnFall s
  | .resetnRise cut => Sys2Proof.Machine.execResetnRise cut s
  | .loadPhaseEnd => Sys2Proof.Machine.execLoadPhaseEnd s
  | .headWriteConsidered w => Sys2Proof.Machine.execHeadWriteConsidered w s
  | .waitingWriteReconsidered => Sys2Proof.Machine.execWaitingWriteReconsidered s
  | .writeResponse => Sys2Proof.Machine.execWriteResponse s
  | .headReadConsidered r pick => Sys2Proof.Machine.execHeadReadConsidered r pick s
  | .headReadReconsidered pick => Sys2Proof.Machine.execHeadReadReconsidered pick s
  | .fragmentReadIssue => Sys2Proof.Machine.execFragmentReadIssue s
  | .downstreamWriteIssue src => Sys2Proof.Machine.execDownstreamWriteIssue src s
  | .downstreamReadReturn e p error data => Sys2Proof.Machine.execDownstreamReadReturn e p error data s
  | .downstreamWriteResponse error => Sys2Proof.Machine.execDownstreamWriteResponse error s
  | .readResponse who => Sys2Proof.Machine.execReadResponse who s
  | .scanTimerExpiry k => Sys2Proof.Machine.execScanTimerExpiry k s
  | .profileProgrammingComplete ok => Sys2Proof.Machine.execProfileProgrammingComplete ok s
  | .shortTransaction bytes => Sys2Proof.Machine.execShortTransaction bytes s
  | .unknownCommand code => Sys2Proof.Machine.execUnknownCommand code s
  | .ident => Sys2Proof.Machine.execIdent s
  | .modeSet m => Sys2Proof.Machine.execModeSet m s
  | .modeRead => Sys2Proof.Machine.execModeRead s
  | .surfaceWrite index record => Sys2Proof.Machine.execSurfaceWrite index record s
  | .surfaceRead index => Sys2Proof.Machine.execSurfaceRead index s
  | .bandSet index block => Sys2Proof.Machine.execBandSet index block s
  | .scanRead index => Sys2Proof.Machine.execScanRead index s
  | .apertureWrite index record => Sys2Proof.Machine.execApertureWrite index record s
  | .apertureRead index => Sys2Proof.Machine.execApertureRead index s
  | .apertureOpen index => Sys2Proof.Machine.execApertureOpen index s
  | .apertureClose index => Sys2Proof.Machine.execApertureClose index s
  | .windowSet index window => Sys2Proof.Machine.execWindowSet index window s
  | .cursorRead index => Sys2Proof.Machine.execCursorRead index s
  | .holdRead => Sys2Proof.Machine.execHoldRead s
  | .eventRead => Sys2Proof.Machine.execEventRead s
  | .eventCount => Sys2Proof.Machine.execEventCount s
  | .alertMaskRead mask => Sys2Proof.Machine.execAlertMaskRead mask s
  | .alertMaskWrite action mask => Sys2Proof.Machine.execAlertMaskWrite action mask s
  | .profileSave slot => Sys2Proof.Machine.execProfileSave slot s
  | .profileRead => Sys2Proof.Machine.execProfileRead s
  | .softReset => Sys2Proof.Machine.execSoftReset s
  | .softResetFlush => Sys2Proof.Machine.execSoftResetFlush s
  | .softResetResume => Sys2Proof.Machine.execSoftResetResume s

end Sys2Proof.Machine
end

