-- ==== Sys2Proof/WellFormed.lean ====
section
/-! DEFINITION. Which commands are well formed: their lists have the lengths that the ports fix. -/

namespace Sys2Proof

/-- A write carries 8 bytes for each beat (R33). -/
def WriteReq.wellFormed (w : WriteReq) : Bool :=
  w.bytes.length == 8 * (w.lenM1.val + 1)

/-- The check of each command's operands. -/
def Instr.wellFormed : Instr → Bool
  | .headWriteConsidered w => w.wellFormed
  | .downstreamReadReturn _ _ _ data => data.length ≤ 128
  | .shortTransaction bytes => shortBytes bytes.received
  | .unknownCommand code => (paramCount code).isNone
  | .surfaceWrite _ record => record.length == 27
  | .bandSet _ block => block.length == 7
  | .apertureWrite _ record => record.length == 18
  | .windowSet _ window => window.length == 8
  | .alertMaskWrite action _ => action != 0
  | _ => true

end Sys2Proof
end

