-- ==== Sys2Proof/Safety.lean ====
section
/-! DEFINITION. What stays true of the part's state at every step: the laws that the manual states about the hold queue, the scan contexts, the tables and the read tracking table, with what they lean on. -/

namespace Sys2Proof.Machine

/-! Phases -/

/-- Whether the part runs or is in the soft reset sequence: outside these the hold queue has no work. -/
def State.working (s : State) : Bool :=
  match s.phase with
  | .running => true
  | .softReset _ => true
  | _ => false

/-- Whether the full flush of the soft reset sequence has been ordered and is not complete (R151 stage 3). -/
def State.flushing (s : State) : Bool :=
  match s.phase with
  | .softReset .flush => true
  | _ => false

/-- The count that the completed full flush leaves for SOFT-RESET-DONE, none before. -/
def State.flushedCount (s : State) : Option Nat :=
  match s.phase with
  | .softReset (.flushed n) => some n
  | _ => none

/-- The item of the load phase that comes next, none outside the load phase. -/
def State.loadNext (s : State) : Option Nat :=
  match s.phase with
  | .loading n => some n
  | _ => none

/-- Whether RESETN is low. -/
def State.inReset (s : State) : Bool :=
  match s.phase with
  | .resetLow => true
  | _ => false

/-- Whether the write channel is handling the fragments of an accepted write. -/
def State.cutting (s : State) : Bool :=
  match s.writeJob with
  | some (.fragments _ _ _) => true
  | _ => false

/-! Work of the hold queue -/

/-- Whether entry `e` holds a scanner read of surface `i` whose fragment reads its scan step still has to form
(R98). -/
def State.awaitsStep (s : State) (i : SurfaceIx) (e : EntryIx) : Bool :=
  match s.table[e] with
  | none => false
  | some en => en.state == .issuing && en.reads.isEmpty && en.surface == some i

/-- What the scan step or early restart in progress rests on: its display row lies in the scan range, and the read
that took it waits in its entry (R92, R96, R97). -/
def State.stepOk (s : State) : Bool :=
  match s.release with
  | some ⟨.step i e d, _, _⟩ => s.surfaces[i].inScanRange d && s.awaitsStep i e
  | some ⟨.restart i e d, _, _⟩ => s.surfaces[i].inScanRange d && s.awaitsStep i e
  | _ => true

/-- The hold queue takes one piece of work at a time and whole (R110): a release in progress has an entry to issue,
the handling of a write and a release exclude each other, a write being handled waits with a fragment to be issued
directly, orders wait only behind work in progress, and outside the running part and its soft reset sequence there is
no work and no entry (R122, R158). -/
def WorkOk (s : State) : Prop :=
  (s.working = false → s.queue = [] ∧ s.writeJob = none ∧ s.release = none ∧ s.orders = [])
  ∧ (s.release.isSome = true → s.cutting = false)
  ∧ (∀ rel, s.release = some rel → s.queue.any (s.takes rel.work) = true)
  ∧ s.stepOk = true
  ∧ (∀ p, s.todo.head? = some p → p.hold = false)
  ∧ (s.holdBusy = false → s.orders = [])
  ∧ (s.flushing = true → s.writeJob = none)
  ∧ (s.flushedCount.isSome = true → s.writeJob = none ∧ s.queue = [])

/-- The bounds and the sums of the counts (R109, R112, R121, R137, R138, R154); a slot being programmed is DAMAGED
(R154). Entries that a release in progress has issued and fragments about to join are counted with the queue. -/
def CountsOk (s : State) : Prop :=
  s.queue.length + s.joining.length + s.releasedCount ≤ Config.holdCapacity
  ∧ (∀ a : ApertureIx, s.apertures[a].held = originCount a s.queue)
  ∧ s.highWater ≤ Config.holdCapacity
  ∧ s.discarded ≤ Config.holdCapacity
  ∧ (∀ n, s.flushedCount = some n → n ≤ Config.holdCapacity)
  ∧ s.events.length ≤ Config.eventCapacity
  ∧ (∀ k : SlotIx, s.slotUses k ≤ 3)
  ∧ (∀ k, s.saving = some k → s.slotStatus k = .damaged)

/-! The hold law -/

/-- Whether a fragment belongs to a TRAIL surface with a scanner, in a memory row ahead of that scanner (R113). -/
def State.standsAhead (s : State) (f : Frag) : Bool :=
  s.surfaces[f.surface].policy == .trail && s.surfaces[f.surface].scanner.isSome && s.rowAhead f.surface f.row

/-- The laws of the hold queue and the scan contexts: every held fragment is ahead of its scanner (R113); BYPASS has
no claim, no hold and no scan (R41); DRAINING has something to drain (R27); a surface without a scanner is IDLE (R4);
the timer runs in SCANNING and nowhere else (R100, R108); the load phase opens apertures last and scans nothing (R107,
R159). -/
def HoldOk (s : State) : Prop :=
  (∀ f ∈ s.heldAll, s.standsAhead f = true)
  ∧ (s.mode = .bypass →
      (∀ a : ApertureIx, s.apertures[a].state = .closed) ∧ s.queue = [] ∧ s.todo = []
        ∧ ∀ i : SurfaceIx, s.scans[i].state = .idle)
  ∧ (s.working = true → ∀ a : ApertureIx,
      s.apertures[a].state = .draining → 0 < s.apertures[a].held)
  ∧ (∀ n, s.loadNext = some n →
      (∀ i : SurfaceIx, s.scans[i].state = .idle)
        ∧ (∀ a : ApertureIx, s.apertures[a].state ≠ .draining ∧ (n ≤ 12 → s.apertures[a].state = .closed)))
  ∧ (∀ i : SurfaceIx, s.surfaces[i].scanner = none → s.scans[i].state = .idle)
  ∧ (∀ i : SurfaceIx, s.scans[i].timer.isSome = true → s.scans[i].state = .scanning)
  ∧ (s.inReset = false → ∀ i : SurfaceIx,
      s.scans[i].state = .scanning → s.surfaces[i].timeout ≠ 0 → s.scans[i].timer.isSome = true)

/-! The tables -/

/-- A surface record is DEFINED within every range, or the cleared record (R1, R9). -/
def SurfaceRec.valid (r : SurfaceRec) : Bool := if r.defined then r.fieldsOk else r == SurfaceRec.cleared

/-- An aperture record's fields are within their ranges (R16). -/
def ApertureFields.valid (f : ApertureFields) : Bool :=
  f.base.toNat % 4096 == 0 && windowInRange f.window
    && match f.filter with
      | none => true
      | some ids => 1 ≤ ids.length && ids.length ≤ 4

/-- Whether a pending band satisfies R8 (R91). -/
def SurfaceRec.pendingOk (r : SurfaceRec) : PendingBand → Bool
  | .band b => r.bandOk b
  | _ => true

/-- A cursor that is RUNNING stands in the window (R69). -/
def Cursor.within (c : Cursor) (w : Window) : Bool :=
  c.exhausted || (w.colFirst ≤ c.col && c.col ≤ w.colLast && w.rowFirst ≤ c.row && c.row ≤ w.rowLast)

/-- What holds of surface `i` with its scan context and its slot (R1, R9, R91, R148). -/
def State.surfaceOk (s : State) (i : SurfaceIx) : Bool :=
  s.surfaces[i].valid
    && (s.surfaces[i].defined || s.scans[i] == ScanCtx.fresh none)
    && s.surfaces[i].optBandOk s.scans[i].active && s.surfaces[i].pendingOk s.scans[i].pendingBand
    && (s.scans[i].state != .scanning || s.surfaces[i].inScanRange s.scans[i].c)
    && (match s.sfSlots[i].image with
      | none => true
      | some r => r.valid)

/-- What holds of aperture `a` with its cursor and its slot (R16, R20, R69, R75). -/
def State.apertureOk (s : State) (a : ApertureIx) : Bool :=
  s.apertures[a].fields.valid
    && (!s.claims a || ((s.surfaceOf a).defined && s.apertureEnd a ≤ addrSpace
        && (s.apertures[a].fields.kind == .mapped
          || (windowInView s.apertures[a].fields (s.surfaceOf a) s.apertures[a].fields.window
            && s.cursors[a].within s.apertures[a].fields.window))))
    && (match s.apSlots[a].image with
      | none => true
      | some f => f.valid)

/-- Whether the claimed ranges are pairwise disjoint (R10, R21). -/
def State.disjointClaims (s : State) : Prop :=
  (∀ i j : SurfaceIx, i ≠ j → s.surfaces[i].defined = true → s.surfaces[j].defined = true →
      overlap s.surfaces[i].low s.surfaces[i].stop s.surfaces[j].low s.surfaces[j].stop = false)
  ∧ (∀ (i : SurfaceIx) (a : ApertureIx), s.surfaces[i].defined = true → s.claims a = true →
      overlap s.surfaces[i].low s.surfaces[i].stop s.apertures[a].fields.low (s.apertureEnd a) = false)
  ∧ (∀ a b : ApertureIx, a ≠ b → s.claims a = true → s.claims b = true →
      overlap s.apertures[a].fields.low (s.apertureEnd a) s.apertures[b].fields.low (s.apertureEnd b) = false)

/-- The records of the tables and of the slots are valid, and every address has at most one owner. -/
def TablesOk (s : State) : Prop :=
  (∀ i : SurfaceIx, s.surfaceOk i = true) ∧ (∀ a : ApertureIx, s.apertureOk a = true) ∧ s.disjointClaims

/-! The read tracking table -/

/-- The state of an entry agrees with its fragment reads (R124, R125). An entry in ISSUING has one to issue, or still
waits for those that its scan step forms. -/
def Entry.consistent (en : Entry) : Bool :=
  en.reads.length ≤ 64 &&
  match en.state with
  | .issuing => en.reads.isEmpty || en.reads.any (·.status == .unissued)
  | .waiting => en.reads.all (·.status != .unissued)
  | .responding => en.reads.all (·.status == .returned)

/-- The entries in use are those taken and not answered, in the order of acceptance; each is consistent; and abandoned
tags name entries that are not in use (R36, R50, R124, R135). -/
def ReadsOk (s : State) : Prop :=
  (∀ e : EntryIx, e ∈ s.taken ↔ s.table[e].isSome = true)
  ∧ s.taken.Nodup
  ∧ (∀ t ∈ s.abandonedTags, s.table[t.1] = none)
  ∧ (∀ (e : EntryIx) (en : Entry), s.table[e] = some en → en.consistent = true)

/-! The downstream port -/

/-- The blocks with a request at the port are those that have formed one, each once, and no group of requests handed
over together is empty (R39). -/
def PortOk (s : State) : Prop :=
  (∀ b : Former, s.isHanded b = s.formed b) ∧ s.handed.flatten.Nodup ∧ ∀ group ∈ s.handed, group ≠ []

/-- All of these together. -/
def Inv (s : State) : Prop := WorkOk s ∧ CountsOk s ∧ HoldOk s ∧ TablesOk s ∧ ReadsOk s ∧ PortOk s

/-! Words that the statements use -/

/-- The management commands that the busy gate stops (R146). -/
def gatedCommand : Instr → Bool
  | .modeSet _ => true
  | .modeRead => true
  | .surfaceWrite _ _ => true
  | .surfaceRead _ => true
  | .bandSet _ _ => true
  | .scanRead _ => true
  | .apertureWrite _ _ => true
  | .apertureRead _ => true
  | .apertureOpen _ => true
  | .apertureClose _ => true
  | .windowSet _ _ => true
  | .cursorRead _ => true
  | .holdRead => true
  | .eventRead => true
  | .eventCount => true
  | .alertMaskRead _ => true
  | .alertMaskWrite _ _ => true
  | .profileSave _ => true
  | .profileRead => true
  | .softReset => true
  | _ => false

/-- The index byte of a command that names a surface. -/
def surfaceIndexOf : Instr → Option Byte
  | .surfaceWrite b _ => some b
  | .surfaceRead b => some b
  | .bandSet b _ => some b
  | .scanRead b => some b
  | _ => none

/-- The index byte of a command that names an aperture. -/
def apertureIndexOf : Instr → Option Byte
  | .apertureWrite b _ => some b
  | .apertureRead b => some b
  | .apertureOpen b => some b
  | .apertureClose b => some b
  | .windowSet b _ => some b
  | .cursorRead b => some b
  | _ => none

/-- Command `c` brings write `w` at the head of an open write channel to be considered (R34, R115). -/
def ConsidersWrite (c : Instr) (s : State) (w : WriteReq) : Prop :=
  s.writeOpen = true ∧
    ((c = .headWriteConsidered w ∧ (s.headWrite = none ∨ s.headWrite = some w))
      ∨ (c = .waitingWriteReconsidered ∧ s.headWrite = some w))

/-- Command `c` brings read `r` at the head of an open read channel to be considered (R36), `pick` choosing its
entry. -/
def ConsidersRead (c : Instr) (s : State) (r : ReadReq) (pick : Nat) : Prop :=
  s.readOpen = true ∧
    ((c = .headReadConsidered r pick ∧ (s.headRead = none ∨ s.headRead = some r))
      ∨ (c = .headReadReconsidered pick ∧ s.headRead = some r))

/-! Claimed ranges -/

/-- Unit `u` claims the addresses from `low` to before `stop`: an OPEN or DRAINING aperture its upstream range (R17,
R21), a DEFINED surface its backing range (R3, R10). -/
def State.ClaimedBy (s : State) (u : EventUnit) (low stop : Nat) : Prop :=
  match u with
  | .aperture a =>
    s.apertures[a].state ≠ .closed ∧ low = s.apertures[a].fields.base.toNat ∧ stop = s.apertureEnd a
  | .surface i =>
    s.surfaces[i].defined = true ∧ low = s.surfaces[i].base.toNat
      ∧ stop = s.surfaces[i].base.toNat + s.surfaces[i].pitch * s.surfaces[i].height
  | .slot _ => False

/-- What R20 asks of an aperture to be opened, but for the part mode. -/
abbrev MayOpen (s : State) (a : ApertureIx) : Prop :=
  s.apertures[a].state = .closed ∧ (s.surfaceOf a).defined = true ∧ s.apertureEnd a ≤ 2 ^ 40
  ∧ (∀ c : ApertureIx, c ≠ a → s.apertures[c].state ≠ .closed →
      overlap s.apertures[a].fields.low (s.apertureEnd a) s.apertures[c].fields.low (s.apertureEnd c) = false)
  ∧ (∀ j : SurfaceIx, s.surfaces[j].defined = true →
      overlap s.apertures[a].fields.low (s.apertureEnd a) s.surfaces[j].low s.surfaces[j].stop = false)
  ∧ (s.apertures[a].fields.kind = .stream →
      windowInView s.apertures[a].fields (s.surfaceOf a) s.apertures[a].fields.window = true)

/-! Single steps of longer work -/

/-- Every slot of the profile store holds the same image in `t` as in `s` (R155). -/
def ImagesKept (s t : State) : Prop :=
  (∀ a : ApertureIx, t.apSlots[a].image = s.apSlots[a].image) ∧ (∀ i : SurfaceIx, t.sfSlots[i].image = s.sfSlots[i].image)
  ∧ t.setSlot.image = s.setSlot.image

/-- `u` is `s` with item `n` of the load phase handled: it may change the tables, the contexts, the mode and the mask,
and it raises event `b` when `raised` says so (R158). -/
def LoadItemOf (s u : State) (n : Nat) (raised : Bool) (b : EventBody) : Prop :=
  u = { s with
    phase := .loading (n + 1), surfaces := u.surfaces, apertures := u.apertures, cursors := u.cursors, scans := u.scans
    mode := u.mode, alertMask := u.alertMask
    events := (s.raiseIf raised b).events, seqCounter := (s.raiseIf raised b).seqCounter }

/-- What becomes of the counts when held fragment `f` has been issued: its aperture's held count falls by 1 (R24), and
a DRAINING aperture whose count reaches 0 becomes CLOSED with CLOSE-DRAINED (R27, R28). -/
def EntryLeaves (s v : State) (f : Frag) : Prop :=
  (f.origin = .backing → v.apertures = s.apertures ∧ v.events = s.events ∧ v.seqCounter = s.seqCounter)
  ∧ (∀ a, f.origin = .aperture a →
      v.apertures = s.apertures.set a { s.apertures[a] with
        held := s.apertures[a].held - 1
        state := if s.apertures[a].state = .draining ∧ s.apertures[a].held - 1 = 0 then .closed else s.apertures[a].state }
      ∧ ((s.apertures[a].state = .draining ∧ s.apertures[a].held - 1 = 0) →
          v.seqCounter = s.seqCounter + 1
          ∧ v.events = (s.raise ⟨.apertureClosed, some (.aperture a), none, none,
              some s.scans[f.surface].frame, .closeDrained⟩).events)
      ∧ (¬ (s.apertures[a].state = .draining ∧ s.apertures[a].held - 1 = 0) →
          v.seqCounter = s.seqCounter ∧ v.events = s.events))

/-! Bytes that a write places, in order -/

/-- Whether some but not all bytes of a pixel are strobed (R57). -/
def partly (l : List WByte) : Bool := l.any (·.strobe) && l.any fun b => !b.strobe

/-- The bytes that the pixel `l` places from address `x` on, with their addresses: all strobed, the stored pixel; in a
MAPPED aperture of equal formats, the strobed ones; else none (R57, R70). -/
def pixelWrites (kind : ApertureKind) (c : Conv) (x : Nat) (l : List WByte) : List (Nat × Byte) :=
  if ∀ b ∈ l, b.strobe = true then (toStored c (l.map (·.data))).mapIdx fun j v => (x + j, v)
  else if kind = .mapped ∧ c.up.size = c.stored.size then
    (l.zipIdx.filter (·.1.strobe)).map fun p => (x + p.2, p.1.data)
  else []

/-- The bytes of upstream pixel `k` of a write of pixels of `size` bytes. -/
def upstreamPixel (w : WriteReq) (size k : Nat) : List WByte :=
  (List.range size).map fun j => w.bytes.getD (size * k + j) ⟨false, 0⟩

/-- What a mapped write places: pixel `k` at the view pixel that its offset names (R52, R57). -/
def mappedWrites (f : ApertureFields) (r : SurfaceRec) (w : WriteReq) : List (Nat × Byte) :=
  (List.range (8 * (w.lenM1.val + 1) / f.format.size)).flatMap fun k =>
    let i := (w.addr.toNat - f.base.toNat) / f.format.size + k
    pixelWrites .mapped (convOf f r) (placeAt f r (i % viewWidth f r) (i / viewWidth f r)).addr
      (upstreamPixel w f.format.size k)

/-- The cursor from which a stream request at `addr` takes its positions: the window start in the restart region (R65,
R67). -/
def cursorFor (f : ApertureFields) (addr : Addr) (c : Cursor) : Cursor :=
  if addr.toNat < f.base.toNat + 256 then ⟨f.window.colFirst, f.window.rowFirst, false, false⟩ else c

/-- The cursor that pixel `k` of a stream request meets (R68). -/
def cursorMet (f : ApertureFields) (addr : Addr) (c : Cursor) (k : Nat) : Cursor :=
  cursorAfter f.window f.overflow k (cursorFor f addr c)

/-- What a stream write places: pixel `k` at the cursor that it meets, nothing once that is EXHAUSTED (R68, R70). -/
def streamWrites (f : ApertureFields) (r : SurfaceRec) (w : WriteReq) (c : Cursor) : List (Nat × Byte) :=
  (List.range (8 * (w.lenM1.val + 1) / f.format.size)).flatMap fun k =>
    let m := cursorMet f w.addr c k
    if m.exhausted then []
    else pixelWrites .stream (convOf f r) (placeAt f r m.col m.row).addr (upstreamPixel w f.format.size k)

/-- What a backing write places: its strobed bytes at their own addresses (R62). -/
def backingWrites (w : WriteReq) : List (Nat × Byte) :=
  (List.range (8 * (w.lenM1.val + 1))).filterMap fun j =>
    let b := w.bytes.getD j ⟨false, 0⟩
    if b.strobe then some (w.addr.toNat / 8 * 8 + j, b.data) else none

/-- The byte that the last of a list of writes to address `x` leaves there. -/
def lastWrite (l : List (Nat × Byte)) (x : Nat) : Option Byte := (l.reverse.find? (·.1 = x)).map (·.2)

/-- `frags` are the fragments that hold the bytes `writes` of a write to surface `i`: one for each block that they
reach, in the order in which they first reach it, each with the last byte written at each position and none elsewhere
(R59, R60, R72). -/
def FragmentsOf (frags : List Frag) (i : SurfaceIx) (r : SurfaceRec) (o : Origin) (q : Requester)
    (writes : List (Nat × Byte)) : Prop :=
  frags.map (·.block.toNat) = (writes.map fun p => p.1 / 32 * 32).eraseDups
  ∧ ∀ g ∈ frags, g.surface = i ∧ g.origin = o ∧ g.requester = q ∧ g.row = (g.block.toNat - r.base.toNat) / r.pitch
      ∧ ∀ k : Fin 32, g.cells[k] = lastWrite writes (g.block.toNat + k.val)

/-- `reads` are the fragment reads that fetch the bytes at `addrs`: one of 4 beats for each block, in the order in
which they first reach it, with the mask of the bytes needed (R58, R59, R61). -/
def ReadsOf (reads : List FragRead) (addrs : List Nat) : Prop :=
  reads.map (·.addr.toNat) = (addrs.map fun x => x / 32 * 32).eraseDups
  ∧ ∀ g ∈ reads, ∃ mask : BitVec 32, g = ⟨g.addr, .incrementing, 4, some mask, false, .unissued, none, none⟩
      ∧ ∀ k : Fin 32, mask[k] = addrs.contains (g.addr.toNat + k.val)

/-! The routes of writes -/

/-- What a write on the mapped, stream or backing route plans: its surface, its aperture if it goes through one, and
its fragments with what else its acceptance does. -/
structure Planned where
  surface : SurfaceIx
  through : Option ApertureIx
  plan : WritePlan
  deriving DecidableEq, Repr

/-- The plan of a write as it is classified now, none for a write that is refused or transparent. -/
def State.planOf (s : State) (w : WriteReq) : Option Planned :=
  match s.classify (writeAccess w) with
  | .mapped a =>
    some ⟨s.apertures[a].fields.surface, some a, mappedWritePlan a s.apertures[a].fields (s.surfaceOf a) w⟩
  | .stream a =>
    some ⟨s.apertures[a].fields.surface, some a,
      streamWritePlan a s.apertures[a].fields (s.surfaceOf a) w s.cursors[a]⟩
  | .backing i => some ⟨i, none, backingWritePlan i s.surfaces[i] w⟩
  | _ => none

end Sys2Proof.Machine
end

