-- ==== Sys2Proof/Certificates/Slice0/Obligations.lean ====
section
/-! DEFINITION. The statements about the part that are offered for proof, in the order of OBLIGATIONS.json. -/

open Sys2Proof Sys2Proof.Machine

/-! Steps -/

/-- With command `c` at the front of the queue, a step is `exec c` on the state with the queue's rest. On an empty
queue one REFCLK period passes: each running scan timer counts one period down, but not below one, and nothing else
changes (the model's choice of a tick, log entry 2). -/
def Obligations.StepRunsFrontCommand : Prop :=
  (∀ (c : Instr) (cs : List Instr) (s : State), s.pending = c :: cs → step s = exec c { s with pending := cs })
  ∧ (∀ s : State, s.pending = [] →
    ∃ t, step s = .next t ∧ t = { s with scans := t.scans }
      ∧ ∀ i : SurfaceIx, t.scans[i] = { s.scans[i] with timer := s.scans[i].timer.map fun n => max 1 (n - 1) })

/-- Every command answers a next state, leaves the queue of waiting commands alone, and lowers the use count of no
slot. -/
def Obligations.EveryCommandAnswersNext : Prop :=
  ∀ (c : Instr) (s : State), ∃ t, exec c s = .next t ∧ t.pending = s.pending ∧ ∀ k : SlotIx, s.slotUses k ≤ t.slotUses k

/-! Invariants -/

/-- The laws of Safety.lean hold right after reset. -/
def Obligations.ResetSatisfiesInv : Prop := Inv State.reset

/-- A step keeps the hold queue's work whole and one at a time, and every count in its bound and equal to what it
counts. -/
def Obligations.StepKeepsWorkAndCounts : Prop :=
  ∀ s s' : State, Inv s → step s = .next s' → WorkOk s' ∧ CountsOk s'

/-- A step keeps the hold law, the law of BYPASS, the law of DRAINING and those of the scan states and timers. -/
def Obligations.StepKeepsHoldLaws : Prop :=
  ∀ s s' : State, Inv s → step s = .next s' → HoldOk s'

/-- A step keeps every record valid and the claimed ranges disjoint. -/
def Obligations.StepKeepsTables : Prop :=
  ∀ s s' : State, Inv s → step s = .next s' → TablesOk s'

/-- A step keeps the read tracking table consistent, and at the downstream port one request of each block that has
formed one. -/
def Obligations.StepKeepsReadTableAndPort : Prop :=
  ∀ s s' : State, Inv s → step s = .next s' → ReadsOk s' ∧ PortOk s'

/-! Power, line reset, load phase -/

/-- The values right after power-on of a part whose slots are BLANK. That the load phase has been handled and has not
ended is the model's reading (log entry 4). -/
def Obligations.ResetValues : Prop :=
  State.reset.mode = .bypass
    ∧ State.reset.alertMask = defaultMask
    ∧ (∀ k : EventKind, enabledIn State.reset.alertMask k = (k != .frameOpen && k != .streamExhausted))
    ∧ State.reset.events = [] ∧ State.reset.seqCounter = 0 ∧ State.reset.alert = false
    ∧ (∀ i : SurfaceIx, State.reset.surfaces[i] = SurfaceRec.cleared
        ∧ State.reset.scans[i] = ⟨.idle, 0, 0, none, .none, none⟩)
    ∧ (∀ a : ApertureIx, State.reset.apertures[a] = ⟨.closed, 0, ApertureFields.cleared⟩
        ∧ State.reset.cursors[a] = ⟨0, 0, false, false⟩)
    ∧ State.reset.queue = [] ∧ State.reset.highWater = 0 ∧ State.reset.episode = false
    ∧ (∀ e : EntryIx, State.reset.table[e] = none)
    ∧ State.reset.handed = [] ∧ State.reset.outstanding = []
    ∧ State.reset.abandonedTags = [] ∧ State.reset.abandonedWrites = 0
    ∧ (∀ k : SlotIx, State.reset.slotStatus k = .blank ∧ State.reset.slotUses k = 0) ∧ State.reset.saving = none

/-- POWER_ON: whatever went before, no request is in the part or stands at its channels, nothing is held, no tag is
abandoned, the event queue holds the load's own events, numbered 0, 1 and so on in order, and the use counts of the
slots are kept. Of a part whose slots are all BLANK it leaves the state of `State.reset`. POWER_LOSS keeps the slots
alone. The model's choices and readings in it: how far the load gets inside the command is its operand `cut` (log
entry 6), mask and mode before slot 12 is handled (log entry 5), POWER_ON of a part that has power is a power cycle
(log entry 28), the level of RESETN is not asked (log entry 38), `State.reset` is the part with its load handled and
not ended (log entry 4), head requests are gone and come again with their commands (log entry 9), and the record of
the responses given starts with none (log entry 21). -/
def Obligations.PowerOnLeavesNothingHeld : Prop :=
  (∀ (s : State) (cut : Option Nat), ∃ t, exec (.powerOn cut) s = .next t
    ∧ t.queue = [] ∧ t.highWater = 0 ∧ t.episode = false ∧ t.release = none ∧ t.orders = []
    ∧ t.headWrite = none ∧ t.headRead = none
    ∧ t.writeJob = none ∧ t.writeResp = none ∧ t.refusedRead = none
    ∧ (∀ e : EntryIx, t.table[e] = none) ∧ t.taken = []
    ∧ t.abandonedTags = [] ∧ t.abandonedWrites = 0 ∧ t.outstanding = [] ∧ t.handed = []
    ∧ (∀ a : ApertureIx, t.apertures[a].held = 0)
    ∧ t.saving = none ∧ (∀ k : SlotIx, t.slotUses k = s.slotUses k)
    ∧ (∀ (k : Nat) (r : EventRec), t.events[k]? = some r → r.seq = BitVec.ofNat 16 k)
    ∧ t.seqCounter = BitVec.ofNat 16 t.events.length
    ∧ t.phase = .loading (min 21 (cut.getD 21)))
  ∧ (∀ s : State, s.saving = none → (∀ k : SlotIx, s.slotUses k = 0) →
    exec (.powerOn none) s = .next { State.reset with
      apSlots := s.apSlots, sfSlots := s.sfSlots, setSlot := s.setSlot, pending := s.pending })
  ∧ (∀ s : State, s.saving = none →
    exec .powerLoss s = .next { State.reset with
      phase := .off, apSlots := s.apSlots, sfSlots := s.sfSlots, setSlot := s.setSlot, pending := s.pending })

/-- RESETN_FALL: the work in progress is abandoned, the held fragments are counted and discarded, the table is
emptied, tags and writes in flight become abandoned, the requests at the port are discarded, an open transaction is
ended and ignored from there on, and the event queue, the tables and the head requests stay. When the counts go to 0
is the model's (log entry 35), and so is that an executed transaction counts as open (log entry 17). -/
def Obligations.ResetnFallAbandonsWork : Prop :=
  ∀ s : State, s.resetnHigh = true → ∃ t, exec .resetnFall s = .next t
    ∧ t.phase = .resetLow
    ∧ t.queue = [] ∧ t.discarded = s.queue.length ∧ t.highWater = 0 ∧ t.episode = false
    ∧ t.release = none ∧ t.orders = [] ∧ t.writeJob = none ∧ t.writeResp = none ∧ t.refusedRead = none
    ∧ (∀ e : EntryIx, t.table[e] = none) ∧ t.taken = []
    ∧ t.abandonedTags = s.abandonedTags ++ s.tagsInFlight
    ∧ t.abandonedWrites = s.abandonedWrites + s.outstanding.length ∧ t.outstanding = [] ∧ t.handed = []
    ∧ (∀ i : SurfaceIx, t.scans[i] = { s.scans[i] with timer := none })
    ∧ (∀ a : ApertureIx, t.apertures[a] = { s.apertures[a] with held := 0 })
    ∧ t.saving = none ∧ t.port = (if s.port = .idle then .idle else .ignored)
    ∧ t.events = s.events ∧ t.seqCounter = s.seqCounter ∧ t.alertMask = s.alertMask ∧ t.mode = s.mode
    ∧ t.surfaces = s.surfaces ∧ t.cursors = s.cursors ∧ t.headWrite = s.headWrite ∧ t.headRead = s.headRead

/-- RESETN_RISE: LINE-RESET is the first event, before those of the load phase, and the events kept stand before it;
with the list full it is counted on the newest record, and no record is lost. That the load runs inside the command,
as far as `cut` says, is the model's choice (log entry 6). -/
def Obligations.ResetnRiseRaisesLineResetFirst : Prop :=
  ∀ (s : State) (cut : Option Nat), s.phase = .resetLow →
    ∃ t, exec (.resetnRise cut) s = .next t
      ∧ (s.events.length < 32 →
          t.events.take s.events.length = s.events
          ∧ (t.events[s.events.length]?).map (fun r => (r.seq, r.body))
            = some (s.seqCounter, ⟨.lineReset, none, none, none, none, .number s.discarded⟩))
      ∧ (32 ≤ s.events.length →
          t.events.map (fun r => (r.seq, r.body)) = s.events.map (fun r => (r.seq, r.body))
          ∧ ∀ r, s.events.getLast? = some r →
              ∃ r', t.events.getLast? = some r' ∧ min 255 (r.dropped + 1) ≤ r'.dropped)
      ∧ t.phase = .loading (min 21 (cut.getD 21))
      ∧ t.abandonedTags = s.abandonedTags ∧ t.abandonedWrites = s.abandonedWrites
      ∧ t.headWrite = s.headWrite ∧ t.headRead = s.headRead
      ∧ t.apSlots = s.apSlots ∧ t.sfSlots = s.sfSlots ∧ t.setSlot = s.setSlot

/-- The load phase, run through: each table, the cursors, the scan contexts, the mode and the mask as the slots give
them. A save that POWER_ON cuts leaves its slot DAMAGED, and every other slot is as it was; a part with a save in
flight has power, and that POWER_ON is then a power cycle is the model's reading (log entry 28). That the load is
handled inside the command and not yet ended, and that POWER_ON loads whatever the level of RESETN, are the model's
choices (log entries 4, 6 and 38). Which apertures are opened, and the events, are stated item by item in
LoadPhaseEndHandlesWhatIsLeft. -/
def Obligations.LoadPhaseFillsTables : Prop :=
  ∀ (c : Instr) (s : State),
    (c = .powerOn none ∨ (c = .resetnRise none ∧ s.phase = .resetLow)) →
    ∃ t, exec c s = .next t ∧ t.phase = .loading 21
      ∧ (∀ k : SlotIx, t.slotUses k = s.slotUses k
          ∧ t.slotStatus k = (if c = .powerOn none ∧ s.saving = some k ∧ s.slotUses k ≠ 0 then .damaged else s.slotStatus k))
      ∧ (∀ a : ApertureIx, t.apertures[a].held = 0
          ∧ (∀ f, t.apSlots[a].status = .good → t.apSlots[a].image = some f → t.apertures[a].fields = f)
          ∧ (t.apSlots[a].status ≠ .good → t.apertures[a].fields = ApertureFields.cleared)
          ∧ t.apSlots[a].image = s.apSlots[a].image
          ∧ t.cursors[a] = Cursor.start t.apertures[a].fields.window
          ∧ t.apertures[a].state ≠ .draining
          ∧ (t.apertures[a].state = .opened → t.mode = .engaged ∧ t.apertures[a].fields.openAtStart = true))
      ∧ (∀ i : SurfaceIx, t.scans[i] = ⟨.idle, 0, 0, t.surfaces[i].band, .none, none⟩
          ∧ t.sfSlots[i].image = s.sfSlots[i].image
          ∧ (∀ r, t.sfSlots[i].status = .good → t.sfSlots[i].image = some r → r.defined = true →
              t.surfaces[i] =
                if (∃ j : SurfaceIx, j < i ∧ t.surfaces[j].defined = true
                    ∧ overlap r.low r.stop t.surfaces[j].low t.surfaces[j].stop = true)
                then SurfaceRec.cleared else r)
          ∧ (∀ r, t.sfSlots[i].status = .good → t.sfSlots[i].image = some r → r.defined = false →
              t.surfaces[i] = SurfaceRec.cleared)
          ∧ (t.sfSlots[i].status ≠ .good → t.surfaces[i] = SurfaceRec.cleared))
      ∧ t.setSlot.image = s.setSlot.image
      ∧ (∀ x, t.setSlot.status = .good → t.setSlot.image = some x → t.mode = x.mode ∧ t.alertMask = x.mask)
      ∧ (t.setSlot.status ≠ .good → t.mode = .bypass ∧ t.alertMask = defaultMask)

/-- LOAD_PHASE_END handles, one by one and in order, the items of the load that are left, and then the part runs. The
items: an aperture's slot (numbers 0 to 7, the cursors after the last), with LOAD-FAULT DAMAGED; a surface's slot (8
to 11), with LOAD-FAULT DAMAGED or SURFACE-OVERLAP; the settings (12); and, in index order, the opening at start of an
aperture (13 to 20), by the checks of APERTURE-OPEN, with LOAD-FAULT OPEN-REFUSED. A load that POWER_ON or RESETN_RISE
leaves at some item ends as one that it runs through. The numbering of the items, and where they are handled, are the
model's (log entry 6). The overlap test asks every other surface that stands DEFINED; in a load those are the ones
loaded before it, because the model clears the tables as the load begins (log entry 34). -/
def Obligations.LoadPhaseEndHandlesWhatIsLeft : Prop :=
  (∀ s : State, s.phase = .loading 21 → exec .loadPhaseEnd s = .next { s with phase := .running })
  ∧ (∀ (c c' : Instr) (s t u : State) (k : Nat),
      ((c = .powerOn none ∧ c' = .powerOn (some k))
        ∨ (c = .resetnRise none ∧ c' = .resetnRise (some k) ∧ s.phase = .resetLow)) →
      exec c s = .next t → exec c' s = .next u → exec .loadPhaseEnd u = .next { t with phase := .running })
  ∧ (∀ (s : State) (a : ApertureIx), s.phase = .loading a.val →
      ∃ u, exec .loadPhaseEnd s = exec .loadPhaseEnd u
        ∧ LoadItemOf s u a.val (s.apSlots[a].status == SlotStatus.damaged) ⟨.loadFault, some (.slot ⟨a.val, by omega⟩), none, none, none, .damaged⟩
        ∧ u.surfaces = s.surfaces ∧ u.scans = s.scans ∧ u.mode = s.mode ∧ u.alertMask = s.alertMask
        ∧ (a.val ≠ 7 → u.cursors = s.cursors)
        ∧ (a.val = 7 → ∀ b : ApertureIx, u.cursors[b] = Cursor.start u.apertures[b].fields.window)
        ∧ (∀ f, s.apSlots[a].status = .good → s.apSlots[a].image = some f → u.apertures = s.apertures.set a ⟨.closed, 0, f⟩)
        ∧ (s.apSlots[a].status ≠ .good → u.apertures = s.apertures.set a ⟨.closed, 0, ApertureFields.cleared⟩))
  ∧ (∀ (s : State) (i : SurfaceIx), s.phase = .loading (i.val + 8) →
      ∃ u, exec .loadPhaseEnd s = exec .loadPhaseEnd u
        ∧ u.apertures = s.apertures ∧ u.cursors = s.cursors ∧ u.mode = s.mode ∧ u.alertMask = s.alertMask
        ∧ u.scans = s.scans.set i ⟨.idle, 0, 0, u.surfaces[i].band, .none, none⟩
        ∧ (s.sfSlots[i].status ≠ .good → u.surfaces = s.surfaces.set i SurfaceRec.cleared
            ∧ LoadItemOf s u (i.val + 8) (s.sfSlots[i].status == SlotStatus.damaged)
                ⟨.loadFault, some (.slot ⟨i.val + 8, by omega⟩), none, none, none, .damaged⟩)
        ∧ (∀ r, s.sfSlots[i].status = .good → s.sfSlots[i].image = some r →
            let clash := r.defined && surfaceIndices.any fun j => j != i && s.surfaces[j].defined
              && overlap r.low r.stop s.surfaces[j].low s.surfaces[j].stop
            u.surfaces = s.surfaces.set i (if r.defined && !clash then r else SurfaceRec.cleared)
              ∧ LoadItemOf s u (i.val + 8) clash
                  ⟨.loadFault, some (.slot ⟨i.val + 8, by omega⟩), none, none, none, .surfaceOverlap⟩))
  ∧ (∀ s : State, s.phase = .loading 12 →
      ∃ u, exec .loadPhaseEnd s = exec .loadPhaseEnd u
        ∧ LoadItemOf s u 12 (s.setSlot.status == SlotStatus.damaged) ⟨.loadFault, some (.slot 12), none, none, none, .damaged⟩
        ∧ u.apertures = s.apertures ∧ u.cursors = s.cursors ∧ u.surfaces = s.surfaces ∧ u.scans = s.scans
        ∧ (∀ x, s.setSlot.status = .good → s.setSlot.image = some x → u.mode = x.mode ∧ u.alertMask = x.mask)
        ∧ (s.setSlot.status ≠ .good → u.mode = .bypass ∧ u.alertMask = defaultMask))
  ∧ (∀ (s : State) (a : ApertureIx), s.phase = .loading (a.val + 13) →
      ∃ u, exec .loadPhaseEnd s = exec .loadPhaseEnd u
        ∧ LoadItemOf s u (a.val + 13)
            (s.mode == .engaged && s.apertures[a].fields.openAtStart && !decide (MayOpen s a))
            ⟨.loadFault, some (.slot ⟨a.val, by omega⟩), none, none, none, .openRefused⟩
        ∧ u.surfaces = s.surfaces ∧ u.scans = s.scans ∧ u.mode = s.mode ∧ u.alertMask = s.alertMask
        ∧ (s.mode = .engaged ∧ s.apertures[a].fields.openAtStart = true ∧ MayOpen s a →
            u.apertures = s.apertures.set a { s.apertures[a] with state := .opened }
            ∧ u.cursors = s.cursors.set a (Cursor.start s.apertures[a].fields.window))
        ∧ (¬ (s.mode = .engaged ∧ s.apertures[a].fields.openAtStart = true ∧ MayOpen s a) →
            u.apertures = s.apertures ∧ u.cursors = s.cursors))

/-! Management port -/

/-- MODE_SET: ENGAGED is always taken; BYPASS is taken when no aperture claims its range and nothing is held, and sets
every scan context IDLE with its frame number, row and bands kept; otherwise the status is STATE, or RANGE for another
mode byte. While fragments of an accepted write are still to be issued or held, BYPASS waits for them in the port
(R42; log entry 36). -/
def Obligations.ModeSetChangesMode : Prop :=
  ∀ s : State, s.phase = .running →
    exec (.modeSet 0x01) s = .next { s with mode := .engaged, port := .responding [0x10, 0x01] [0x00] }
    ∧ (s.todo = [] → (∀ a : ApertureIx, s.apertures[a].state = .closed) → s.queue = [] →
        ∃ t, exec (.modeSet 0x00) s = .next t
          ∧ t = { s with mode := .bypass, scans := t.scans, port := .responding [0x10, 0x00] [0x00] }
          ∧ ∀ i : SurfaceIx, t.scans[i] = { s.scans[i] with state := .idle, timer := none })
    ∧ (s.todo = [] → ((∃ a : ApertureIx, s.apertures[a].state ≠ .closed) ∨ s.queue ≠ []) →
        exec (.modeSet 0x00) s = .next { s with port := .responding [0x10, 0x00] [0x02] })
    ∧ (s.todo ≠ [] → exec (.modeSet 0x00) s = .next { s with port := .receiving [0x10, 0x00] })
    ∧ (∀ m : Byte, 1 < m.toNat → exec (.modeSet m) s = .next { s with port := .responding [0x10, m] [0x03] })

/-- The commands that read: each answers DONE with its layout and changes nothing but what the port clocks out. The
layouts stand byte by byte in LayoutsOfTheManagementPort. The held count that APERTURE_READ answers counts the held
fragments of an accepted write that are about to join (log entry 14) and the entries that a release in progress has
issued (log entry 15). -/
def Obligations.ReadingCommandsChangeNothing : Prop :=
  ∀ s : State, s.phase = .running →
    exec .modeRead s = .next { s with port := .responding [0x11] [0x00, if s.mode = .engaged then 0x01 else 0x00] }
    ∧ exec .eventCount s = .next { s with port := .responding [0x51] [0x00, BitVec.ofNat 8 s.events.length] }
    ∧ (∀ mask, exec (.alertMaskRead mask) s = .next { s with
        port := .responding (0x52 :: 0x00 :: word2 mask)
          [0x00, BitVec.ofNat 8 (s.alertMask.toNat / 256), BitVec.ofNat 8 s.alertMask.toNat] })
    ∧ exec .profileRead s = .next { s with port := .responding [0x61] (0x00 :: (List.finRange 13).map fun k =>
        BitVec.ofNat 8 (s.slotUses k
          + (match s.slotStatus k with
              | .blank => 0
              | .good => 16
              | .damaged => 32)
          + if s.saving = some k then 128 else 0)) }
    ∧ (∀ (b : Byte) (i : SurfaceIx), b.toNat = i.val →
        exec (.surfaceRead b) s = .next { s with port := .responding [0x21, b] (0x00 :: surfaceBytes s.surfaces[i]) }
        ∧ exec (.scanRead b) s = .next { s with port := .responding [0x23, b] (0x00 :: scanBytes s.scans[i]) })
    ∧ (∀ (b : Byte) (a : ApertureIx), b.toNat = a.val →
        exec (.apertureRead b) s = .next { s with
          port := .responding [0x31, b] (0x00 :: apertureBytes s.apertures[a].fields s.apertures[a].state
            (s.apertures[a].held + originCount a s.joining + s.releasedFrom a)) }
        ∧ exec (.cursorRead b) s = .next { s with port := .responding [0x35, b] (0x00 :: cursorBytes s.cursors[a]) })

/-- The busy gate: in the load phase and in the soft reset sequence every command but IDENT is answered BUSY with no
effect; IDENT is answered DONE whenever the port executes commands; an unknown code is answered UNKNOWN, in these
periods too (log entry 16). Transactions that carry out nothing: any while RESETN is low, which is ignored and stays
so until CSN falls again; one whose bytes end before its command executes, which keeps its bytes while it is open and
none after; and one whose index byte names no unit. That the table's row comes with an open transaction too is the
model's (log entry 17). -/
def Obligations.GateAndTransactionsWithoutEffect : Prop :=
  (∀ (s : State) (c : Instr), s.busy = true → gatedCommand c = true → c.wellFormed = true →
      exec c s = .next { s with port := .responding c.wire [0x01] })
  ∧ (∀ s : State, s.phase ≠ .off → s.phase ≠ .resetLow →
      exec .ident s = .next { s with port := .responding [0x01] [0x00, 0x6D, 0x48, 0x01, 0x04, 0x08, 0x01, 0x00] })
  ∧ (∀ (s : State) (c : Instr), s.phase = .resetLow →
      (gatedCommand c = true ∨ c = .ident ∨ ∃ b, c = .unknownCommand b) →
      exec c s = .next { s with port := .ignored })
  ∧ (∀ (s : State) (l : List Byte), s.phase = .resetLow →
      exec (.shortTransaction ⟨l, true⟩) s = .next { s with port := .idle }
      ∧ exec (.shortTransaction ⟨l, false⟩) s = .next { s with port := .ignored })
  ∧ (∀ (s : State) (l : List Byte), s.resetnHigh = true → shortBytes l = true →
      exec (.shortTransaction ⟨l, true⟩) s = .next { s with port := .idle }
      ∧ (s.port ≠ .ignored → exec (.shortTransaction ⟨l, false⟩) s = .next { s with port := .receiving l })
      ∧ (s.port = .ignored → exec (.shortTransaction ⟨l, false⟩) s = .next s))
  ∧ (∀ (s : State) (b : Byte), s.resetnHigh = true →
      exec (.unknownCommand b) s = .next { s with port := .responding [b] [0x04] })
  ∧ (∀ (s : State) (c : Instr) (b : Byte), s.phase = .running → c.wellFormed = true →
      ((surfaceIndexOf c = some b ∧ 3 < b.toNat) ∨ (apertureIndexOf c = some b ∧ 7 < b.toNat)) →
      exec c s = .next { s with port := .responding c.wire [0x03] })

/-- Which command the bytes of a transaction are: the code table, with the parameter bytes in order; bytes past the
last parameter are ignored; too few of them are a short transaction; a code outside the table is an unknown command.
The part then clocks out the status byte and the response bytes, and 0FFh before execution and past the response.
ALERT-MASK is the row ALERT_MASK_READ for action 00h and ALERT_MASK_WRITE for every other (log entry 32). -/
def Obligations.TransactionBytesNameCommands : Prop :=
  (∀ (b : Byte) (l : List Byte),
    decodeTransaction [0x01] = .ident ∧ decodeTransaction [0x10, b] = .modeSet b ∧ decodeTransaction [0x11] = .modeRead
    ∧ (l.length = 27 → decodeTransaction (0x20 :: b :: l) = .surfaceWrite b l)
    ∧ decodeTransaction [0x21, b] = .surfaceRead b
    ∧ (l.length = 7 → decodeTransaction (0x22 :: b :: l) = .bandSet b l)
    ∧ decodeTransaction [0x23, b] = .scanRead b
    ∧ (l.length = 18 → decodeTransaction (0x30 :: b :: l) = .apertureWrite b l)
    ∧ decodeTransaction [0x31, b] = .apertureRead b ∧ decodeTransaction [0x32, b] = .apertureOpen b
    ∧ decodeTransaction [0x33, b] = .apertureClose b
    ∧ (l.length = 8 → decodeTransaction (0x34 :: b :: l) = .windowSet b l)
    ∧ decodeTransaction [0x35, b] = .cursorRead b
    ∧ decodeTransaction [0x40] = .holdRead ∧ decodeTransaction [0x50] = .eventRead ∧ decodeTransaction [0x51] = .eventCount
    ∧ (∀ high low : Byte, decodeTransaction [0x52, 0x00, high, low] = .alertMaskRead (high ++ low)
        ∧ (b ≠ 0x00 → decodeTransaction [0x52, b, high, low] = .alertMaskWrite b (high ++ low)))
    ∧ decodeTransaction [0x60, b] = .profileSave b ∧ decodeTransaction [0x61] = .profileRead
    ∧ decodeTransaction [0x7E] = .softReset)
  ∧ (∀ code : Byte, paramCount code = match code.toNat with
      | 0x01 => some 0 | 0x10 => some 1 | 0x11 => some 0 | 0x20 => some 28 | 0x21 => some 1 | 0x22 => some 8 | 0x23 => some 1
      | 0x30 => some 19 | 0x31 => some 1 | 0x32 => some 1 | 0x33 => some 1 | 0x34 => some 9 | 0x35 => some 1
      | 0x40 => some 0 | 0x50 => some 0 | 0x51 => some 0 | 0x52 => some 3 | 0x60 => some 1 | 0x61 => some 0 | 0x7E => some 0
      | _ => none)
  ∧ (∀ (code : Byte) (params : List Byte),
    (paramCount code = none → decodeTransaction (code :: params) = .unknownCommand code)
    ∧ (∀ n, paramCount code = some n →
        (params.length < n → decodeTransaction (code :: params) = .shortTransaction ⟨code :: params, true⟩)
        ∧ (n ≤ params.length → decodeTransaction (code :: params) = decodeTransaction (code :: params.take n))))
  ∧ decodeTransaction [] = .shortTransaction ⟨[], true⟩
  ∧ (∀ c : Instr, c.wellFormed = true → (gatedCommand c = true ∨ c = .ident ∨ ∃ b, c = .unknownCommand b) →
    decodeTransaction c.wire = c)
  ∧ (∀ (s : State) (received response : List Byte) (k : Nat), s.port = .responding received response →
    (∀ b, response[k]? = some b → s.sdoByte k = b) ∧ (response.length ≤ k → s.sdoByte k = 0xFF))
  ∧ (∀ (s : State) (k : Nat), (∀ received response, s.port ≠ .responding received response) → s.sdoByte k = 0xFF)

/-- The layouts of records, blocks, contexts and events as they cross the port, byte by byte, most significant byte
first, and what an offered layout is read as: every offered field is the one that is sent back, ignored fields apart.
A surface record offered with its defined bit clear is the cleared record; the bits and codes that are refused, the
high bits of an absent scanner's byte among them (log entry 26). The scan timer counts REFCLK periods, 400 to a unit
(log entry 3). An absent field is sent as 0; the fields of a filter past its length are sent as 0 (log entry 27). Bits
to which an event record or CURSOR-READ gives no meaning are sent as 0 (log entry 39). -/
def Obligations.LayoutsOfTheManagementPort : Prop :=
  let one := fun n : Nat => (BitVec.ofNat 8 n : Byte)
  let two := fun n : Nat => ([BitVec.ofNat 8 (n / 256), BitVec.ofNat 8 n] : List Byte)
  let base := fun x : Addr => ([BitVec.ofNat 8 (x.toNat / 4294967296), BitVec.ofNat 8 (x.toNat / 16777216),
    BitVec.ofNat 8 (x.toNat / 65536), BitVec.ofNat 8 (x.toNat / 256), BitVec.ofNat 8 x.toNat] : List Byte)
  let bit := fun (b : Bool) (i : Nat) => if b then 2 ^ i else 0
  let band := fun b : Option Band => match b with
    | none => List.replicate 7 (0 : Byte)
    | some b => (1 : Byte) :: (two b.top ++ two b.height ++ two b.offset)
  (∀ r : SurfaceRec, surfaceBytes r =
    [one (bit r.defined 0 + bit (r.format == .s32) 1 + bit r.scanner.isSome 2 + bit (r.policy == .trail) 3 + bit r.notify 4),
      one (r.scanner.getD 0).toNat]
    ++ base r.base ++ [one (r.pitch / 65536), one (r.pitch / 256), one r.pitch] ++ two r.width ++ two r.height
    ++ two r.firstRow ++ two r.lastRow ++ two r.timeout ++ band r.band)
  ∧ (∀ (f : ApertureFields) (st : ApertureState) (held : Nat),
    let id := fun n => ((f.filter.getD []).getD n (0 : Requester)).toNat
    apertureBytes f st held =
      [one (bit (f.kind == .stream) 0 + bit f.exchange 1 + bit f.flipH 2 + bit f.flipV 3 + bit (f.format == .u32) 4
          + bit (f.reduction == .round) 5 + bit (f.overflow == .wrap) 6 + bit f.openAtStart 7),
        one ((match f.expansion with
          | .zero => 0
          | .replicate => 1
          | .greyLock => 2) + 16 * (f.filter.getD []).length),
        one (id 0 * 16 + id 1), one (id 2 * 16 + id 3)]
      ++ base f.base ++ [one f.surface.val]
      ++ two f.window.colFirst ++ two f.window.colLast ++ two f.window.rowFirst ++ two f.window.rowLast
      ++ (match st with
        | .closed => 0x00
        | .opened => 0x01
        | .draining => 0x02) :: two held)
  ∧ (∀ c : ScanCtx, scanBytes c =
    (match c.state with
      | .idle => 0x00
      | .scanning => 0x01
      | .blanking => 0x02
      | .stalled => 0x03) :: (two c.frame.toNat ++ two c.c ++ band c.active
      ++ (match c.pendingBand with
        | .none => List.replicate 7 0
        | .band b => band (some b)
        | .remove => 2 :: List.replicate 6 0)
      ++ (match c.timer with
        | none => [0, 0]
        | some t => two ((t + 399) / 400))))
  ∧ (∀ c : Cursor, cursorBytes c = two c.col ++ two c.row ++ [one (bit c.exhausted 0 + bit c.dropReported 1)])
  ∧ (∀ e : EventRec, eventBytes e =
    two e.seq.toNat ++ [one e.body.kind.number,
      one (bit e.body.unit.isSome 0 + bit e.body.addr.isSome 1 + bit e.body.requester.isSome 2 + bit e.body.frame.isSome 3),
      match e.body.unit with
        | none => 0
        | some (.aperture a) => one (64 + a.val)
        | some (.surface i) => one (128 + i.val)
        | some (.slot k) => one (192 + k.val)]
    ++ base (e.body.addr.getD 0) ++ [one (e.body.requester.getD 0).toNat] ++ two (e.body.frame.getD 0).toNat
    ++ two e.body.detail.code ++ [one e.dropped])
  ∧ [EventKind.apertureClosed, .accessRefused, .partialPixel, .streamExhausted, .frameOpen, .scanRestart, .scanStall,
      .holdFull, .downstreamError, .profileDone, .loadFault, .lineReset, .softResetDone].map (·.number) = List.range 13
  ∧ [Detail.closeImmediate, .closeDrained].map (·.code) = [1, 2]
  ∧ [Detail.draining, .beyondView, .crossesEdge, .filtered, .burstKind, .misaligned].map (·.code) = [1, 2, 3, 4, 5, 6]
  ∧ [Detail.convert, .stream].map (·.code) = [1, 2] ∧ Detail.windowEnd.code = 1
  ∧ [Detail.read, .write, .unknownTag].map (·.code) = [1, 2, 3] ∧ [Detail.saved, .saveFailed].map (·.code) = [1, 2]
  ∧ [Detail.damaged, .surfaceOverlap, .openRefused].map (·.code) = [1, 2, 3] ∧ (∀ n, (Detail.number n).code = n)
  ∧ (∀ b : Band, b.top < 65536 → b.height < 65536 → b.offset < 65536 →
      parseBand (1 :: (two b.top ++ two b.height ++ two b.offset)) = .band b)
  ∧ (∀ l : List Byte, parseBand (0 :: l) = .absent ∧ parseBand (2 :: l) = .remove
      ∧ ∀ k : Byte, 3 ≤ k.toNat → parseBand (k :: l) = .bad)
  ∧ (∀ w : Window, w.colFirst < 65536 → w.colLast < 65536 → w.rowFirst < 65536 → w.rowLast < 65536 →
      parseWindow (two w.colFirst ++ two w.colLast ++ two w.rowFirst ++ two w.rowLast) = w)
  ∧ (∀ (flags id : Byte) (l : List Byte), l.length = 25 →
    (flags.getLsbD 0 = false → parseSurface (flags :: id :: l) = some SurfaceRec.cleared)
    ∧ (flags.getLsbD 0 = true →
      (parseSurface (flags :: id :: l) = none ↔
        32 ≤ flags.toNat ∨ 16 ≤ id.toNat ∨ 2 ≤ (l.getD 18 0).toNat)
      ∧ ∀ r, parseSurface (flags :: id :: l) = some r → r.defined = true
        ∧ (r.scanner ≠ none → (surfaceBytes r)[1]? = some id)
        ∧ (∀ k, k ≠ 1 → (k ≤ 20 ∨ r.band ≠ none) → (surfaceBytes r)[k]? = (flags :: id :: l)[k]?)))
  ∧ (∀ l : List Byte, l.length = 18 →
    let filterLen := (l.getD 1 0).toNat / 16
    (parseAperture l = none ↔ 3 ≤ (l.getD 1 0).toNat % 16 ∨ 5 ≤ filterLen ∨ 4 ≤ (l.getD 9 0).toNat
      ∨ (l.getD 7 0).toNat % 16 ≠ 0 ∨ (l.getD 8 0).toNat ≠ 0 ∨ windowInRange (parseWindow (l.drop 10)) = false)
    ∧ ∀ f, parseAperture l = some f →
      f.filter = (if filterLen = 0 then none else some ((([(l.getD 2 0).toNat / 16, (l.getD 2 0).toNat,
        (l.getD 3 0).toNat / 16, (l.getD 3 0).toNat].take filterLen).map (BitVec.ofNat 4))))
      ∧ ∀ k, k ≠ 2 → k ≠ 3 → k < 18 → (apertureBytes f .closed 0)[k]? = l[k]?)

/-- SURFACE_WRITE: it waits in the port while fragments of an accepted write to the surface are still to be issued or
held (R12; log entry 36); refused STATE while an aperture that is not CLOSED names the surface or a fragment of it is
held; else refused RANGE for a bad record; else installed whole, with a fresh scan context. And what the RANGE group
asks of a DEFINED record, spelled out. -/
def Obligations.SurfaceWriteInstallsOrRefuses : Prop :=
  (∀ (s : State) (b : Byte) (i : SurfaceIx) (l : List Byte),
    s.phase = .running → b.toNat = i.val → l.length = 27 →
    ((∃ p ∈ s.todo, p.frag.surface = i) →
      exec (.surfaceWrite b l) s = .next { s with port := .receiving (0x20 :: b :: l) })
    ∧ ((∀ p ∈ s.todo, p.frag.surface ≠ i) →
      (((∃ a : ApertureIx, s.apertures[a].state ≠ .closed ∧ s.apertures[a].fields.surface = i)
          ∨ ∃ f ∈ s.queue, f.surface = i) →
        exec (.surfaceWrite b l) s = .next { s with port := .responding (0x20 :: b :: l) [0x02] })
      ∧ ((∀ a : ApertureIx, s.apertures[a].state ≠ .closed → s.apertures[a].fields.surface ≠ i) →
          (∀ f ∈ s.queue, f.surface ≠ i) →
          (parseSurface l = none →
            exec (.surfaceWrite b l) s = .next { s with port := .responding (0x20 :: b :: l) [0x03] })
          ∧ (∀ r, parseSurface l = some r → s.surfaceFits i r = false →
            exec (.surfaceWrite b l) s = .next { s with port := .responding (0x20 :: b :: l) [0x03] })
          ∧ (∀ r, parseSurface l = some r → s.surfaceFits i r = true →
            exec (.surfaceWrite b l) s = .next { s with
              surfaces := s.surfaces.set i r, scans := s.scans.set i ⟨.idle, 0, 0, r.band, .none, none⟩
              port := .responding (0x20 :: b :: l) [0x00] }))))
  ∧ (∀ (s : State) (i : SurfaceIx) (r : SurfaceRec),
    (r.defined = false → s.surfaceFits i r = true)
    ∧ (r.defined = true →
    (s.surfaceFits i r = true ↔
      r.base.toNat % 64 = 0 ∧ 64 ≤ r.pitch ∧ r.pitch ≤ 65536 ∧ r.pitch % 64 = 0
      ∧ 1 ≤ r.width ∧ r.width ≤ 4096 ∧ 1 ≤ r.height ∧ r.height ≤ 4096 ∧ r.timeout ≤ 65535
      ∧ r.width * (if r.format = .s16 then 2 else 4) ≤ r.pitch
      ∧ r.base.toNat + r.pitch * r.height ≤ 2 ^ 40
      ∧ r.firstRow ≤ r.lastRow ∧ r.lastRow < r.height
      ∧ (∀ b, r.band = some b → 2 ≤ b.height ∧ b.height ≤ r.lastRow - r.firstRow + 1 ∧ b.offset ≤ b.height - 1
          ∧ r.firstRow ≤ b.top ∧ b.top + b.height - 1 ≤ r.lastRow)
      ∧ (∀ j : SurfaceIx, j ≠ i → s.surfaces[j].defined = true →
          ∀ x, ¬ (r.low ≤ x ∧ x < r.stop ∧ s.surfaces[j].low ≤ x ∧ x < s.surfaces[j].stop))
      ∧ (∀ a : ApertureIx, s.apertures[a].state ≠ .closed →
          ∀ x, ¬ (r.low ≤ x ∧ x < r.stop ∧ s.apertures[a].fields.low ≤ x ∧ x < s.apertureEnd a)))))

/-- BAND_SET: refused STATE for an UNDEFINED surface, RANGE for a bad block or band; else the pending band is replaced
and nothing else changes. -/
def Obligations.BandSetPlacesPendingBand : Prop :=
  ∀ (s : State) (b : Byte) (i : SurfaceIx) (l : List Byte),
    s.phase = .running → b.toNat = i.val → l.length = 7 →
    (s.surfaces[i].defined = false → exec (.bandSet b l) s = .next { s with port := .responding (0x22 :: b :: l) [0x02] })
    ∧ (s.surfaces[i].defined = true →
        ((parseBand l = .absent ∨ parseBand l = .bad ∨ ∃ x, parseBand l = .band x ∧ s.surfaces[i].bandOk x = false) →
          exec (.bandSet b l) s = .next { s with port := .responding (0x22 :: b :: l) [0x03] })
        ∧ (parseBand l = .remove → exec (.bandSet b l) s = .next { s with
            scans := s.scans.set i { s.scans[i] with pendingBand := .remove }, port := .responding (0x22 :: b :: l) [0x00] })
        ∧ (∀ x, parseBand l = .band x → s.surfaces[i].bandOk x = true →
            exec (.bandSet b l) s = .next { s with
              scans := s.scans.set i { s.scans[i] with pendingBand := .band x }, port := .responding (0x22 :: b :: l) [0x00] }))

/-- APERTURE_WRITE: refused STATE unless CLOSED, RANGE for a field out of range; else the fields are replaced whole,
and the state, the held count and the cursor stay. -/
def Obligations.ApertureWriteReplacesFields : Prop :=
  ∀ (s : State) (b : Byte) (a : ApertureIx) (l : List Byte),
    s.phase = .running → b.toNat = a.val → l.length = 18 →
    (s.apertures[a].state ≠ .closed → exec (.apertureWrite b l) s = .next { s with port := .responding (0x30 :: b :: l) [0x02] })
    ∧ (s.apertures[a].state = .closed → parseAperture l = none →
        exec (.apertureWrite b l) s = .next { s with port := .responding (0x30 :: b :: l) [0x03] })
    ∧ (∀ f, s.apertures[a].state = .closed → parseAperture l = some f →
        exec (.apertureWrite b l) s = .next { s with
          apertures := s.apertures.set a ⟨.closed, s.apertures[a].held, f⟩, port := .responding (0x30 :: b :: l) [0x00] })

/-- APERTURE_OPEN: refused STATE unless CLOSED and ENGAGED; refused RANGE for an UNDEFINED surface, a range past the
address space, a claimed address, or a window outside the view; else OPEN with the cursor at the window start. The
range of an aperture: from its base, the view's bytes rounded up to 4096 for a MAPPED one, 8192 for a STREAM one. -/
def Obligations.ApertureOpenChecksAndOpens : Prop :=
  (∀ (s : State) (b : Byte) (a : ApertureIx), s.phase = .running → b.toNat = a.val →
    ((s.apertures[a].state ≠ .closed ∨ s.mode = .bypass) →
      exec (.apertureOpen b) s = .next { s with port := .responding [0x32, b] [0x02] })
    ∧ (s.apertures[a].state = .closed → s.mode = .engaged → ¬ MayOpen s a →
        exec (.apertureOpen b) s = .next { s with port := .responding [0x32, b] [0x03] })
    ∧ (s.apertures[a].state = .closed → s.mode = .engaged → MayOpen s a →
        exec (.apertureOpen b) s = .next { s with
          apertures := s.apertures.set a { s.apertures[a] with state := .opened }
          cursors := s.cursors.set a ⟨s.apertures[a].fields.window.colFirst, s.apertures[a].fields.window.rowFirst, false, false⟩
          port := .responding [0x32, b] [0x00] }))
  ∧ (∀ (s : State) (a : ApertureIx),
    let f := s.apertures[a].fields
    let r := s.surfaces[f.surface]
    (MayOpen s a ↔
      s.apertures[a].state = .closed ∧ r.defined = true ∧ s.apertureEnd a ≤ 2 ^ 40
      ∧ (∀ c : ApertureIx, c ≠ a → s.apertures[c].state ≠ .closed →
          ∀ x, ¬ (f.base.toNat ≤ x ∧ x < s.apertureEnd a ∧ s.apertures[c].fields.base.toNat ≤ x ∧ x < s.apertureEnd c))
      ∧ (∀ j : SurfaceIx, s.surfaces[j].defined = true →
          ∀ x, ¬ (f.base.toNat ≤ x ∧ x < s.apertureEnd a ∧ s.surfaces[j].low ≤ x ∧ x < s.surfaces[j].stop))
      ∧ (f.kind = .stream →
          f.window.colLast < (if f.exchange then r.height else r.width)
            ∧ f.window.rowLast < (if f.exchange then r.width else r.height)))
    ∧ (f.kind = .mapped →
        s.apertureEnd a % 4096 = f.base.toNat % 4096
        ∧ f.base.toNat + r.width * r.height * (if f.format = .u16 then 2 else 4) ≤ s.apertureEnd a
        ∧ s.apertureEnd a < f.base.toNat + r.width * r.height * (if f.format = .u16 then 2 else 4) + 4096)
    ∧ (f.kind = .stream → s.apertureEnd a = f.base.toNat + 8192))

/-- APERTURE_CLOSE: it waits in the port while fragments of an accepted write through the aperture are still to be
issued or held (R29; log entry 36); refused STATE unless OPEN; with nothing of it held, CLOSED at once with
APERTURE-CLOSED; else DRAINING, with no event. What a release in progress has issued of the aperture is no longer
counted for it (log entry 15). -/
def Obligations.ApertureCloseClosesOrDrains : Prop :=
  ∀ (s : State) (b : Byte) (a : ApertureIx), s.phase = .running → b.toNat = a.val →
    ((∃ p ∈ s.todo, p.frag.origin = .aperture a) →
      exec (.apertureClose b) s = .next { s with port := .receiving [0x33, b] })
    ∧ ((∀ p ∈ s.todo, p.frag.origin ≠ .aperture a) →
      (s.apertures[a].state ≠ .opened → exec (.apertureClose b) s = .next { s with port := .responding [0x33, b] [0x02] })
      ∧ (s.apertures[a].state = .opened → s.apertures[a].held = 0 →
          exec (.apertureClose b) s = .next { s with
            apertures := s.apertures.set a { s.apertures[a] with state := .closed }
            release := s.release.map fun rel => { rel with origins := rel.origins.filter (· != a) }
            events := (s.raise ⟨.apertureClosed, some (.aperture a), none, none, none, .closeImmediate⟩).events
            seqCounter := s.seqCounter + 1
            port := .responding [0x33, b] [0x00] })
      ∧ (s.apertures[a].state = .opened → 0 < s.apertures[a].held →
          exec (.apertureClose b) s = .next { s with
            apertures := s.apertures.set a { s.apertures[a] with state := .draining }
            port := .responding [0x33, b] [0x00] }))

/-- WINDOW_SET: refused STATE for a MAPPED or a DRAINING aperture, RANGE for a bad window or, when OPEN, one outside
the view; else the window is replaced and the cursor stands at its start. A window is good when no coordinate is above
4095 and neither first is above its last, and in the view when its last column and row are below the view's width and
height, those of the surface, exchanged with EXCHANGE. -/
def Obligations.WindowSetReplacesWindow : Prop :=
  (∀ w : Window, windowInRange w = true ↔
    w.colFirst ≤ 4095 ∧ w.colLast ≤ 4095 ∧ w.rowFirst ≤ 4095 ∧ w.rowLast ≤ 4095
      ∧ w.colFirst ≤ w.colLast ∧ w.rowFirst ≤ w.rowLast)
  ∧ (∀ (f : ApertureFields) (r : SurfaceRec) (w : Window), windowInView f r w = true ↔
    w.colLast < (if f.exchange then r.height else r.width) ∧ w.rowLast < (if f.exchange then r.width else r.height))
  ∧ ∀ (s : State) (b : Byte) (a : ApertureIx) (l : List Byte),
    s.phase = .running → b.toNat = a.val → l.length = 8 →
    ((s.apertures[a].fields.kind = .mapped ∨ s.apertures[a].state = .draining) →
      exec (.windowSet b l) s = .next { s with port := .responding (0x34 :: b :: l) [0x02] })
    ∧ (s.apertures[a].fields.kind = .stream → s.apertures[a].state ≠ .draining →
        ((windowInRange (parseWindow l) = false
            ∨ (s.apertures[a].state = .opened
                ∧ windowInView s.apertures[a].fields (s.surfaceOf a) (parseWindow l) = false)) →
          exec (.windowSet b l) s = .next { s with port := .responding (0x34 :: b :: l) [0x03] })
        ∧ (windowInRange (parseWindow l) = true →
            (s.apertures[a].state = .opened →
              windowInView s.apertures[a].fields (s.surfaceOf a) (parseWindow l) = true) →
            exec (.windowSet b l) s = .next { s with
              apertures := s.apertures.set a
                { s.apertures[a] with fields := { s.apertures[a].fields with window := parseWindow l } }
              cursors := s.cursors.set a ⟨(parseWindow l).colFirst, (parseWindow l).rowFirst, false, false⟩
              port := .responding (0x34 :: b :: l) [0x00] }))

/-- HOLD_READ answers the occupancy and the mark, and then sets the mark to the occupancy. Between two pieces of the
queue's work the occupancy is the number of entries; within a release it counts what the release has issued (log entry
15), and within the handling of a write the fragments about to join (log entry 14). -/
def Obligations.HoldReadReportsAndLowersMark : Prop :=
  ∀ s : State, s.phase = .running →
    exec .holdRead s = .next { s with
      highWater := s.occupancySeen
      port := .responding [0x40] (0x00 :: (beBytes 2 s.occupancySeen ++ beBytes 2 (max s.highWater s.occupancySeen))) }
    ∧ s.occupancySeen = s.queue.length + s.joining.length + (match s.release with
        | none => 0
        | some rel => rel.issued)
    ∧ (s.release = none → s.writeJob = none → s.occupancySeen = s.queue.length)

/-- EVENT_READ: with an empty list the number 0 alone; else the number of records and the oldest record, which
leaves. -/
def Obligations.EventReadGivesOldest : Prop :=
  ∀ s : State, s.phase = .running →
    (s.events = [] → exec .eventRead s = .next { s with port := .responding [0x50] [0x00, 0x00] })
    ∧ (∀ r rs, s.events = r :: rs → exec .eventRead s = .next { s with
        events := rs, port := .responding [0x50] (0x00 :: BitVec.ofNat 8 (rs.length + 1) :: eventBytes r) })

/-- ALERT_MASK_WRITE: action 01h replaces the mask and answers it, unless one of its bits 13 to 15 is set; another
action but 00h is refused RANGE (log entry 32). -/
def Obligations.AlertMaskWriteReplacesMask : Prop :=
  ∀ (s : State) (mask : BitVec 16), s.phase = .running →
    (mask.toNat < 8192 → exec (.alertMaskWrite 0x01 mask) s = .next { s with
        alertMask := mask.setWidth 13, port := .responding (0x52 :: 0x01 :: word2 mask) (0x00 :: word2 mask) })
    ∧ (8192 ≤ mask.toNat → exec (.alertMaskWrite 0x01 mask) s = .next { s with
        port := .responding (0x52 :: 0x01 :: word2 mask) [0x03] })
    ∧ (∀ action : Byte, 1 < action.toNat → exec (.alertMaskWrite action mask) s = .next { s with
        port := .responding (0x52 :: action :: word2 mask) [0x03] })

/-! Events and profile -/

/-- ALERT is asserted exactly while a stored record's kind is enabled in the mask, in every phase. -/
def Obligations.AlertFollowsQueueAndMask : Prop :=
  ∀ s : State, s.alert = true ↔ ∃ r ∈ s.events, s.alertMask.getLsbD r.body.kind.number = true

/-- Taking an event: numbered from the counter; stored at the end of the list when it holds fewer than 32 records;
else counted on the newest record, up to 255, with the other records and ALERT unchanged. -/
def Obligations.FullEventQueueCountsDrops : Prop :=
  ∀ (s : State) (b : EventBody),
    (s.events.length < 32 →
      s.raise b = { s with seqCounter := s.seqCounter + 1, events := s.events ++ [⟨s.seqCounter, b, 0⟩] })
    ∧ (∀ (older : List EventRec) (newest : EventRec), s.events = older ++ [newest] → 32 ≤ s.events.length →
        s.raise b = { s with
          seqCounter := s.seqCounter + 1
          events := older ++ [{ newest with dropped := if newest.dropped < 255 then newest.dropped + 1 else 255 }] }
        ∧ (s.raise b).alert = s.alert)

/-- PROFILE_SAVE: BUSY while a save is in flight, RANGE for a slot above 12, EXHAUSTED at use count 3, in this order;
else the live record is copied, the use count rises by 1, and the slot is in flight and DAMAGED. The end of the save:
read back at completion, with PROFILE-DONE and the outcome that the command brings (log entry 8), or cut by POWER_LOSS
or RESETN_FALL, which leave the slot DAMAGED. Neither end touches an image. That a slot being programmed already holds
the image, and keeps it when it is cut, is the model's (log entry 24). -/
def Obligations.ProfileSaveStartsAndEnds : Prop :=
  (∀ (s : State) (b : Byte), s.phase = .running →
    (s.saving ≠ none → exec (.profileSave b) s = .next { s with port := .responding [0x60, b] [0x01] })
    ∧ (s.saving = none → 12 < b.toNat → exec (.profileSave b) s = .next { s with port := .responding [0x60, b] [0x03] })
    ∧ (∀ k : SlotIx, s.saving = none → b.toNat = k.val → 3 ≤ s.slotUses k →
        exec (.profileSave b) s = .next { s with port := .responding [0x60, b] [0x05] })
    ∧ (∀ k : SlotIx, s.saving = none → b.toNat = k.val → s.slotUses k < 3 →
        ∃ t, exec (.profileSave b) s = .next t
          ∧ t = { s with apSlots := t.apSlots, sfSlots := t.sfSlots, setSlot := t.setSlot, saving := some k, port := .responding [0x60, b] [0x00] }
          ∧ t.slotUses k = s.slotUses k + 1 ∧ t.slotStatus k = .damaged
          ∧ (∀ j, j ≠ k → t.slotUses j = s.slotUses j ∧ t.slotStatus j = s.slotStatus j)
          ∧ (∀ a : ApertureIx, t.apSlots[a].image =
              if a.val = k.val then some s.apertures[a].fields else s.apSlots[a].image)
          ∧ (∀ i : SurfaceIx, t.sfSlots[i].image =
              if i.val + 8 = k.val then some s.surfaces[i] else s.sfSlots[i].image)
          ∧ t.setSlot.image = if k.val = 12 then some ⟨s.mode, s.alertMask⟩ else s.setSlot.image))
  ∧ (∀ (s : State) (k : SlotIx), s.saving = some k → s.slotUses k ≠ 0 →
    (∀ ok : Bool, ∃ t, exec (.profileProgrammingComplete ok) s = .next t
      ∧ t.saving = none ∧ t.slotStatus k = (if ok then SlotStatus.good else .damaged)
      ∧ (∀ j, t.slotUses j = s.slotUses j) ∧ (∀ j, j ≠ k → t.slotStatus j = s.slotStatus j) ∧ ImagesKept s t
      ∧ t.events = (s.raise ⟨.profileDone, some (.slot k), none, none, none,
          if ok then .saved else .saveFailed⟩).events
      ∧ t = { s with apSlots := t.apSlots, sfSlots := t.sfSlots, setSlot := t.setSlot, saving := none,
                     events := t.events, seqCounter := s.seqCounter + 1 })
    ∧ (∃ t, exec .powerLoss s = .next t ∧ t.phase = .off ∧ t.saving = none ∧ t.slotStatus k = .damaged
      ∧ (∀ j, t.slotUses j = s.slotUses j) ∧ (∀ j, j ≠ k → t.slotStatus j = s.slotStatus j) ∧ ImagesKept s t)
    ∧ (s.resetnHigh = true → ∃ t, exec .resetnFall s = .next t ∧ t.saving = none ∧ t.slotStatus k = .damaged
      ∧ (∀ j, t.slotUses j = s.slotUses j) ∧ (∀ j, j ≠ k → t.slotStatus j = s.slotStatus j) ∧ ImagesKept s t
      ∧ t.events = s.events))

/-! Soft reset -/

/-- A request that stands at the head of its channel waits there (log entry 9), and nothing else changes: on both
channels, outside the running part; on the write channel, while a write is being handled or its response is untaken,
and while a release or flush is in progress; on the read channel, while a refused read is unanswered, while a scanner
read has fragment reads to issue, and while its step or a finish is to be completed. In every other state of the
running part the channel is open. -/
def Obligations.RequestsWaitWhileTheirChannelIsShut : Prop :=
  (∀ s : State,
    (s.writeOpen = true ↔ s.phase = .running ∧ s.writeJob = none ∧ s.writeResp = none ∧ s.release = none)
    ∧ (s.readOpen = true ↔ s.phase = .running ∧ s.refusedRead = none
      ∧ (∀ (e : EntryIx) (en : Entry), s.table[e] = some en → ¬ (en.route = .scanner ∧ en.state = .issuing))
      ∧ (∀ rel, s.release = some rel →
          (∀ i e d, rel.work ≠ .step i e d ∧ rel.work ≠ .restart i e d) ∧ ∀ i, rel.work ≠ .finish i)
      ∧ ∀ i, .finish i ∉ s.orders))
  ∧ (∀ s : State, s.phase ≠ .off → s.writeOpen = false →
    (∀ w, exec (.headWriteConsidered w) s = .next { s with headWrite := some (s.headWrite.getD w) })
    ∧ exec .waitingWriteReconsidered s = .next s)
  ∧ (∀ s : State, s.phase ≠ .off → s.readOpen = false →
    (∀ r pick, exec (.headReadConsidered r pick) s = .next { s with headRead := some (s.headRead.getD r) })
    ∧ ∀ pick, exec (.headReadReconsidered pick) s = .next s)

/-- SOFT_RESET answers DONE and starts the sequence at its first stage; nothing else changes. SOFT_RESET_FLUSH waits
for the drain: no write is being handled, no write response is untaken, no entry of the table is in use (log entry
33); then the full flush takes every entry, and with none it is complete, the mark 0. While the hold queue is at work
the flush is ordered behind that work (log entry 11). The hold queue is at work, here and in the other statements,
while a release or flush is in progress or the fragments of an accepted write are being handled; a transparent write
is no work of it (log entry 13). Requests that the command forms take their places at the downstream port in it (log
entry 12). -/
def Obligations.SoftResetStopsDrainsAndFlushes : Prop :=
  (∀ s : State, s.phase = .running →
    exec .softReset s = .next { s with phase := .softReset .drain, port := .responding [0x7E] [0x00] })
  ∧ (∀ s : State, s.holdBusy = true ↔ s.release ≠ none ∨ ∃ q g ps, s.writeJob = some (.fragments q g ps))
  ∧ (∀ s : State, s.phase = .softReset .drain →
    (s.drained = true ↔ s.writeJob = none ∧ s.writeResp = none ∧ ∀ e : EntryIx, s.table[e] = none)
    ∧ (s.drained = false → exec .softResetFlush s = .next s)
    ∧ (s.drained = true → s.holdBusy = true → exec .softResetFlush s =
        .next (State.handOver { s with phase := .softReset .flush, orders := s.orders ++ [.fullFlush] }))
    ∧ (s.drained = true → s.holdBusy = false → s.queue ≠ [] → exec .softResetFlush s =
        .next (State.handOver { s with phase := .softReset .flush, release := some ⟨.fullFlush, 0, []⟩ }))
    ∧ (s.drained = true → s.holdBusy = false → s.queue = [] → exec .softResetFlush s =
        .next (State.handOver { s with phase := .softReset (.flushed 0), highWater := 0 })))

/-- SOFT_RESET_RESUME: every scan context is IDLE at frame 0 with the record's band active and its pending band kept,
every cursor stands at its window start, SOFT-RESET-DONE carries the flush's count, and the part runs. When the counts
go to 0 is the model's (log entry 35). -/
def Obligations.SoftResetResumeResetsContexts : Prop :=
  ∀ (s : State) (n : Nat), s.phase = .softReset (.flushed n) → s.release = none → s.orders = [] →
    ∃ t, exec .softResetResume s = .next t
      ∧ t = { s with
          phase := .running, highWater := 0, scans := t.scans, cursors := t.cursors
          events := (s.raise ⟨.softResetDone, none, none, none, none, .number n⟩).events
          seqCounter := s.seqCounter + 1 }
      ∧ (∀ i : SurfaceIx, t.scans[i] = ⟨.idle, 0, 0, s.surfaces[i].band, s.scans[i].pendingBand, none⟩)
      ∧ (∀ a : ApertureIx, t.cursors[a] =
          ⟨s.apertures[a].fields.window.colFirst, s.apertures[a].fields.window.rowFirst, false, false⟩)

/-! Routes -/

/-- What the route classifier gives a request, check by check, in the order of R43 to R45. The covered range and the
malformed requests are those of R33; claimed ranges are disjoint, which StepKeepsTables keeps. In BYPASS every request
is transparent. A start in no claimed range from which the request reaches several is refused with the unit of the
range that begins at the lowest address. -/
def Obligations.RequestsAreClassifiedInOrder : Prop :=
  (∀ w : WriteReq, writeAccess w = ⟨true, w.addr.toNat, w.burst, w.lenM1.val + 1, w.requester⟩)
  ∧ (∀ r : ReadReq, readAccess r = ⟨false, r.addr.toNat, r.burst, r.lenM1.val + 1, r.requester⟩)
  ∧ (∀ q : Access, 1 ≤ q.len →
    (q.burst = .incrementing → q.low = q.addr / 8 * 8 ∧ q.high = q.addr / 8 * 8 + 8 * q.len - 1)
    ∧ (q.burst = .fixed → q.low = q.addr / 8 * 8 ∧ q.high = q.addr / 8 * 8 + 7)
    ∧ (q.burst = .wrapping →
        q.low = q.addr / (8 * q.len) * (8 * q.len) ∧ q.high = q.addr / (8 * q.len) * (8 * q.len) + 8 * q.len - 1)
    ∧ (q.malformed = true ↔ (q.burst = .incrementing ∧ 2 ^ 40 ≤ q.high)
        ∨ (q.burst = .wrapping ∧ ¬ (q.len = 2 ∨ q.len = 4 ∨ q.len = 8 ∨ q.len = 16))))
  ∧ (∀ (s : State) (q : Access), s.mode = .bypass → s.classify q = .transparent)
  ∧ (∀ (s : State) (q : Access), s.mode = .engaged → q.malformed = true → s.classify q = .malformed)
  ∧ (∀ (s : State) (q : Access), s.mode = .engaged → q.malformed = false → 1 ≤ q.len → s.disjointClaims →
    (∀ a : ApertureIx, s.apertures[a].fields.base.toNat ≤ q.addr → q.addr < s.apertureEnd a →
      let f := s.apertures[a].fields
      let r := s.surfaces[f.surface]
      (s.apertures[a].state = .opened → s.classify q =
        if s.apertureEnd a ≤ q.high then .refused (.aperture a) .crossesEdge
        else if f.filter.any (fun ids => !ids.contains q.requester) = true then .refused (.aperture a) .filtered
        else if q.burst = .fixed ∨ q.burst = .wrapping then .refused (.aperture a) .burstKind
        else if q.addr % 8 ≠ 0 then .refused (.aperture a) .misaligned
        else if f.kind = .mapped ∧ f.base.toNat + r.width * r.height * (if f.format = .u16 then 2 else 4) ≤ q.high then
          .refused (.aperture a) .beyondView
        else if f.kind = .mapped then .mapped a else .stream a)
      ∧ (s.apertures[a].state = .draining → s.classify q = .refused (.aperture a) .draining))
    ∧ (∀ i : SurfaceIx, s.surfaces[i].defined = true → s.surfaces[i].base.toNat ≤ q.addr →
      q.addr < s.surfaces[i].base.toNat + s.surfaces[i].pitch * s.surfaces[i].height → s.classify q =
        if s.surfaces[i].base.toNat + s.surfaces[i].pitch * s.surfaces[i].height ≤ q.high then
          .refused (.surface i) .crossesEdge
        else if q.burst = .fixed ∨ q.burst = .wrapping then .refused (.surface i) .burstKind
        else if q.write = false ∧ s.surfaces[i].scanner = some q.requester then .scanner i
        else .backing i)
    ∧ ((∀ u low stop, s.ClaimedBy u low stop → ¬ (low ≤ q.addr ∧ q.addr < stop)) →
      (∀ u low stop, s.ClaimedBy u low stop → (∃ x, q.low ≤ x ∧ x ≤ q.high ∧ low ≤ x ∧ x < stop) →
        (∀ u' low' stop', s.ClaimedBy u' low' stop' → (∃ x, q.low ≤ x ∧ x ≤ q.high ∧ low' ≤ x ∧ x < stop') → low ≤ low') →
        s.classify q = .refused u .crossesEdge)
      ∧ ((∀ u low stop, s.ClaimedBy u low stop → ¬ ∃ x, q.low ≤ x ∧ x ≤ q.high ∧ low ≤ x ∧ x < stop) →
        s.classify q = .transparent)))

/-! Upstream writes -/

/-- A write given no fragments: transparent, it is taken and handed to the downstream port; refused, it is answered
REFUSED with ACCESS-REFUSED; malformed, it is answered REFUSED with no event. A write that needs to hold more
fragments than there are free entries stays at the head and begins a waiting episode; HOLD-FULL is raised at the
consideration that begins it and at no other. Requests that the command forms take their places at the downstream port
in it (log entry 12). -/
def Obligations.TransparentRefusedAndWaitingWrites : Prop :=
  ∀ (c : Instr) (s : State) (w : WriteReq), ConsidersWrite c s w →
    (s.classify (writeAccess w) = .transparent → exec c s =
      .next (State.handOver { s with headWrite := none, episode := false, writeJob := some (.transparent w) }))
    ∧ (∀ unit detail, s.classify (writeAccess w) = .refused unit detail →
        exec c s = .next { s with
          headWrite := none, episode := false
          writeResp := some ⟨w.requester, w.tag, .refused⟩
          events := (s.raise ⟨.accessRefused, some unit, some w.addr, some w.requester, none, detail⟩).events
          seqCounter := s.seqCounter + 1 })
    ∧ (s.classify (writeAccess w) = .malformed →
        exec c s = .next { s with
          headWrite := none, episode := false, writeResp := some ⟨w.requester, w.tag, .refused⟩ })
    ∧ (∀ p : Planned, s.planOf w = some p → 256 - s.queue.length < heldNeed (s.decideAll [] p.plan.frags) →
      (s.episode = true → exec c s = .next { s with headWrite := some w })
      ∧ (s.episode = false → exec c s = .next { s with
          headWrite := some w, episode := true
          events := (s.raise ⟨.holdFull, some (.surface p.surface), some w.addr, some w.requester,
            some s.scans[p.surface].frame, .number (heldNeed (s.decideAll [] p.plan.frags))⟩).events
          seqCounter := s.seqCounter + 1 }))

/-- A write with room is taken whole. Its fragments are handled in order: those held join the end of the queue up to
the first one to be issued directly, which is handed to the downstream port; with none of these it is answered OKAY.
The high-water mark rises to the number of entries where that is above it. No order waits when a write is considered
(StepKeepsWorkAndCounts). The cursors and the events are stated in AcceptedWriteCursorAndEvents. Requests that the
command forms take their places at the downstream port in it (log entry 12). -/
def Obligations.AcceptedWriteJoinsOrIssues : Prop :=
  ∀ (c : Instr) (s : State) (w : WriteReq) (p : Planned) (ds : List PendingFrag), ConsidersWrite c s w →
    s.planOf w = some p → ds = s.decideAll [] p.plan.frags → heldNeed ds ≤ 256 - s.queue.length → s.orders = [] →
    ∃ t : State, exec c s = .next t.handOver
      ∧ t.headWrite = none ∧ t.episode = false
      ∧ t.queue = s.queue ++ (ds.takeWhile (·.hold)).map (·.frag)
      ∧ t.highWater = (if ds.takeWhile (·.hold) = [] then s.highWater else max s.highWater t.queue.length)
      ∧ (∀ a : ApertureIx, t.apertures[a] = { s.apertures[a] with
          held := s.apertures[a].held + originCount a ((ds.takeWhile (·.hold)).map (·.frag)) })
      ∧ (ds.all (·.hold) = true → t.writeJob = none ∧ t.writeResp = some ⟨w.requester, w.tag, .okay⟩)
      ∧ (ds.all (·.hold) = false → t.writeResp = none
          ∧ t.writeJob = some (.fragments w.requester w.tag (ds.dropWhile (·.hold))))
      ∧ t = { s with
          headWrite := none, episode := false, queue := t.queue, highWater := t.highWater, apertures := t.apertures
          writeJob := t.writeJob, writeResp := t.writeResp, cursors := t.cursors
          events := t.events, seqCounter := t.seqCounter }

/-- The acceptance of a write through a stream aperture moves that aperture's cursor past its whole list and no other
cursor; a write by any other route moves none. Events: PARTIAL-PIXEL STREAM, if a pixel before exhaustion is partly
strobed, and behind it STREAM-EXHAUSTED, if a pixel is exhausted and the cursor had not reported that; PARTIAL-PIXEL
CONVERT, if a pixel of a mapped write whose formats differ is partly strobed; and no event otherwise. -/
def Obligations.AcceptedWriteCursorAndEvents : Prop :=
  ∀ (c : Instr) (s : State) (w : WriteReq) (p : Planned), ConsidersWrite c s w → s.planOf w = some p →
    heldNeed (s.decideAll [] p.plan.frags) ≤ 256 - s.queue.length → s.orders = [] →
    ∃ t, exec c s = .next t
      ∧ (∀ a : ApertureIx, s.classify (writeAccess w) = .stream a →
          let f := s.apertures[a].fields
          let n := 8 * (w.lenM1.val + 1) / f.format.size
          let start := cursorFor f w.addr s.cursors[a]
          let after := cursorAfter f.window f.overflow n start
          let exhausts := (List.range n).any fun k => (cursorMet f w.addr s.cursors[a] k).exhausted
          let drops := (List.range n).any fun k =>
            !(cursorMet f w.addr s.cursors[a] k).exhausted && partly (upstreamPixel w f.format.size k)
          let u := (s.raiseIf drops ⟨.partialPixel, some (.aperture a), some w.addr, some w.requester, none, .stream⟩).raiseIf
            (exhausts && !start.dropReported)
            ⟨.streamExhausted, some (.aperture a), some w.addr, some w.requester, none, .windowEnd⟩
          t.cursors = s.cursors.set a { after with dropReported := after.dropReported || exhausts }
          ∧ t.events = u.events ∧ t.seqCounter = u.seqCounter)
      ∧ (∀ a : ApertureIx, s.classify (writeAccess w) = .mapped a →
          let f := s.apertures[a].fields
          let drops := decide (f.format.size ≠ (s.surfaceOf a).format.size)
            && (List.range (8 * (w.lenM1.val + 1) / f.format.size)).any fun k => partly (upstreamPixel w f.format.size k)
          let u := s.raiseIf drops ⟨.partialPixel, some (.aperture a), some w.addr, some w.requester, none, .convert⟩
          t.cursors = s.cursors ∧ t.events = u.events ∧ t.seqCounter = u.seqCounter)
      ∧ (∀ i : SurfaceIx, s.classify (writeAccess w) = .backing i →
          t.cursors = s.cursors ∧ t.events = s.events ∧ t.seqCounter = s.seqCounter)

/-- The hold decision, line by line. It depends on the fragment's surface and memory row alone. The fragments of a
write are decided in order, each behind those of the write that are decided held before it, and the write needs as
many free entries as it has held ones. And where the hold law stands, line 4 holds nothing that line 5 would not hold:
a fragment is held exactly when it stands ahead of the scanner of a TRAIL surface. -/
def Obligations.HoldDecisionTable : Prop :=
  (∀ (s : State) (earlier : List Frag) (f : Frag),
    s.holdDecision earlier f =
      (if s.surfaces[f.surface].policy = .pass ∨ s.surfaces[f.surface].scanner = none then false
      else if s.scans[f.surface].state ≠ .scanning then false
      else if f.row < s.surfaces[f.surface].firstRow ∨ s.surfaces[f.surface].lastRow < f.row then false
      else if ∃ g ∈ s.queue ++ earlier, g.surface = f.surface ∧ g.row = f.row then true
      else if s.scans[f.surface].c ≤ displayRow s.scans[f.surface].active f.row then true
      else false))
  ∧ (∀ (s : State) (earlier : List Frag), s.decideAll earlier [] = []
    ∧ ∀ (f : Frag) (fs : List Frag),
        (s.holdDecision earlier f = true → s.decideAll earlier (f :: fs) = ⟨true, f⟩ :: s.decideAll (earlier ++ [f]) fs)
        ∧ (s.holdDecision earlier f = false → s.decideAll earlier (f :: fs) = ⟨false, f⟩ :: s.decideAll earlier fs))
  ∧ (∀ ds : List PendingFrag, heldNeed ds = (ds.filter (·.hold)).length)
  ∧ (∀ (s : State) (earlier : List Frag) (f : Frag), HoldOk s → (∀ g ∈ earlier, s.standsAhead g = true) →
    (s.holdDecision earlier f = true ↔
      s.surfaces[f.surface].policy = .trail ∧ s.surfaces[f.surface].scanner ≠ none ∧ s.scans[f.surface].state = .scanning
      ∧ s.surfaces[f.surface].firstRow ≤ f.row ∧ f.row ≤ s.surfaces[f.surface].lastRow
      ∧ s.scans[f.surface].c ≤ displayRow s.scans[f.surface].active f.row))

/-! Reads -/

/-- A read given no fragments of its own: transparent, it takes an entry with one downstream read of its own shape;
refused, it is taken with ACCESS-REFUSED and no entry; malformed, with no event. A routed read that finds no free
entry is not accepted: it stays the head read and nothing else changes. A tracked scanner read that comes while the
hold queue is at work waits in the same way (log entry 10). Which free entry it takes, `pick` says (log entry 7).
Requests that the command forms take their places at the downstream port in it (log entry 12). -/
def Obligations.TransparentRefusedAndWaitingReads : Prop :=
  ∀ (c : Instr) (s : State) (r : ReadReq) (pick : Nat), ConsidersRead c s r pick →
    (∀ e, s.classify (readAccess r) = .transparent → s.pickEntry pick = some e →
      exec c s = .next (State.handOver { s with
        headRead := none, taken := s.taken ++ [e]
        table := s.table.set e (some ⟨r, .transparent, none, none, none, [],
          [⟨r.addr, r.burst, r.lenM1.val + 1, none, false, .unissued, none, none⟩], false, .issuing⟩) }))
    ∧ (∀ unit detail, s.classify (readAccess r) = .refused unit detail →
        exec c s = .next { s with
          headRead := none, refusedRead := some r
          events := (s.raise ⟨.accessRefused, some unit, some r.addr, some r.requester, none, detail⟩).events
          seqCounter := s.seqCounter + 1 })
    ∧ (s.classify (readAccess r) = .malformed →
        exec c s = .next { s with headRead := none, refusedRead := some r })
    ∧ (s.classify (readAccess r) ≠ .malformed → (∀ unit detail, s.classify (readAccess r) ≠ .refused unit detail) →
      (∀ e : EntryIx, s.table[e] ≠ none ∨ ∃ p, (e, p) ∈ s.abandonedTags) →
      exec c s = .next { s with headRead := some r })
    ∧ (∀ i, s.classify (readAccess r) = .scanner i → s.holdBusy = true →
      s.surfaces[i].firstRow ≤ ((readAccess r).low - s.surfaces[i].base.toNat) / s.surfaces[i].pitch →
      ((readAccess r).low - s.surfaces[i].base.toNat) / s.surfaces[i].pitch ≤ s.surfaces[i].lastRow →
      exec c s = .next { s with headRead := some r })

/-- Mapped, stream and backing reads are accepted into an entry that was free, with the placement list and the
fragment reads of their route, and, through an aperture, its pixel format and policies with the surface's stored
format; the entry has no error, and is RESPONDING when it has no fragment read and ISSUING otherwise. A stream read
moves its cursor past its whole list, and keeps drop reported unless it restarts. Which free entry it takes, `pick`
says (log entry 7). Requests that the command forms take their places at the downstream port in it (log entry 12). -/
def Obligations.ApertureAndBackingReadsTaken : Prop :=
  ∀ (c : Instr) (s : State) (r : ReadReq) (pick : Nat) (e : EntryIx), ConsidersRead c s r pick →
    s.pickEntry pick = some e →
    let start := fun reads : List FragRead => if reads = [] then EntryState.responding else .issuing
    s.table[e] = none
    ∧ (∀ a, s.classify (readAccess r) = .mapped a →
      let f := s.apertures[a].fields
      let l := mappedPlacement f (s.surfaceOf a) (readAccess r)
      let reads := cutReads (s.surfaceOf a) l
      exec c s = .next (State.handOver { s with
        headRead := none, taken := s.taken ++ [e]
        table := s.table.set e (some ⟨r, .mapped, some a, some f.surface,
          some ⟨f.format, s.surfaces[f.surface].format, f.expansion, f.reduction⟩, l, reads, false, start reads⟩) }))
    ∧ (∀ a, s.classify (readAccess r) = .stream a →
      let f := s.apertures[a].fields
      let l := streamPlacement f (s.surfaceOf a) (readAccess r) s.cursors[a]
      let reads := cutReads (s.surfaceOf a) l
      exec c s = .next (State.handOver { s with
        headRead := none, taken := s.taken ++ [e]
        cursors := s.cursors.set a (streamCursorAfter f (readAccess r) s.cursors[a])
        table := s.table.set e (some ⟨r, .stream, some a, some f.surface,
          some ⟨f.format, s.surfaces[f.surface].format, f.expansion, f.reduction⟩, l, reads, false, start reads⟩) }))
    ∧ (∀ i, s.classify (readAccess r) = .backing i →
      let reads := backingReads (readAccess r)
      exec c s = .next (State.handOver { s with
        headRead := none, taken := s.taken ++ [e]
        table := s.table.set e (some ⟨r, .backing, none, some i, none, [], reads, false, start reads⟩) }))

/-- The acceptance of a scanner read outside SCANNING: tracked, it opens a frame at its display row, with the pending
band applied, the frame number up by 1, the timer started, FRAME-OPEN if notify is yes, and its fragment reads formed
under the new band; untracked, it changes nothing in the scan context, whatever its state. Which free entry it takes,
`pick` says (log entry 7). The timer counts REFCLK periods, 400 to a unit (log entry 3). Requests that the command
forms take their places at the downstream port in it (log entry 12). -/
def Obligations.ScannerReadOpensFrame : Prop :=
  ∀ (c : Instr) (s : State) (r : ReadReq) (pick : Nat) (e : EntryIx) (i : SurfaceIx), ConsidersRead c s r pick →
    s.classify (readAccess r) = .scanner i → s.pickEntry pick = some e →
    let q := readAccess r
    let d := (q.low - s.surfaces[i].base.toNat) / s.surfaces[i].pitch
    (s.surfaces[i].firstRow ≤ d → d ≤ s.surfaces[i].lastRow → s.scans[i].state ≠ .scanning → s.holdBusy = false →
      let band := match s.scans[i].pendingBand with
        | .none => s.scans[i].active
        | .band b => some b
        | .remove => none
      ∃ t : State, exec c s = .next t.handOver
        ∧ t = { s with
            headRead := none, taken := s.taken ++ [e]
            scans := s.scans.set i ⟨.scanning, s.scans[i].frame + 1, d, band, .none,
              if s.surfaces[i].timeout = 0 then none else some (s.surfaces[i].timeout * 400)⟩
            table := s.table.set e (some ⟨r, .scanner, none, some i, none, [], scannerReads s.surfaces[i] band q,
              false, .issuing⟩)
            events := t.events, seqCounter := t.seqCounter }
        ∧ (s.surfaces[i].notify = false → t.events = s.events ∧ t.seqCounter = s.seqCounter)
        ∧ (s.surfaces[i].notify = true → t.seqCounter = s.seqCounter + 1
            ∧ t.events = (s.raise ⟨.frameOpen, some (.surface i), some r.addr, some r.requester,
                some (s.scans[i].frame + 1), .number d⟩).events))
    ∧ ((d < s.surfaces[i].firstRow ∨ s.surfaces[i].lastRow < d) →
      exec c s = .next (State.handOver { s with
        headRead := none, taken := s.taken ++ [e]
        table := s.table.set e (some ⟨r, .scanner, none, some i, none, [],
          scannerReads s.surfaces[i] s.scans[i].active q, false, .issuing⟩) }))

/-- The acceptance of a tracked scanner read in SCANNING, the hold queue being free. At or after the current row: with
no entry in the rows passed, the row and the timer move at once; with one, a release of those rows begins and the row
moves at its end. Before the current row, an early restart: with nothing of the surface held, a new frame opens at
once with SCAN-RESTART; else the release of all of it begins. Which free entry it takes, `pick` says (log entry 7).
The timer counts REFCLK periods, 400 to a unit (log entry 3). Requests that the command forms take their places at the
downstream port in it (log entry 12). -/
def Obligations.ScannerReadStepsOrRestarts : Prop :=
  ∀ (c : Instr) (s : State) (r : ReadReq) (pick : Nat) (e : EntryIx) (i : SurfaceIx), ConsidersRead c s r pick →
    s.classify (readAccess r) = .scanner i → s.pickEntry pick = some e → s.scans[i].state = .scanning →
    s.holdBusy = false →
    let q := readAccess r
    let d := (q.low - s.surfaces[i].base.toNat) / s.surfaces[i].pitch
    let timer := if s.surfaces[i].timeout = 0 then none else some (s.surfaces[i].timeout * 400)
    let band := match s.scans[i].pendingBand with
      | .none => s.scans[i].active
      | .band b => some b
      | .remove => none
    let passed := fun f : Frag => f.surface = i ∧ s.scans[i].c ≤ displayRow s.scans[i].active f.row
      ∧ displayRow s.scans[i].active f.row < d
    s.surfaces[i].firstRow ≤ d → d ≤ s.surfaces[i].lastRow →
    (s.scans[i].c ≤ d → (∀ f ∈ s.queue, ¬ passed f) →
      exec c s = .next (State.handOver { s with
        headRead := none, taken := s.taken ++ [e]
        scans := s.scans.set i { s.scans[i] with c := d, timer := timer }
        table := s.table.set e (some ⟨r, .scanner, none, some i, none, [],
          scannerReads s.surfaces[i] s.scans[i].active q, false, .issuing⟩) }))
    ∧ (s.scans[i].c ≤ d → (∃ f ∈ s.queue, passed f) →
      exec c s = .next (State.handOver { s with
        headRead := none, taken := s.taken ++ [e], release := some ⟨.step i e d, 0, []⟩
        table := s.table.set e (some ⟨r, .scanner, none, some i, none, [], [], false, .issuing⟩) }))
    ∧ (d < s.scans[i].c → (∀ f ∈ s.queue, f.surface ≠ i) →
      let u := (s.raise ⟨.scanRestart, some (.surface i), some r.addr, some r.requester,
          some (s.scans[i].frame + 1), .number d⟩).raiseIf s.surfaces[i].notify
        ⟨.frameOpen, some (.surface i), some r.addr, some r.requester, some (s.scans[i].frame + 1), .number d⟩
      exec c s = .next (State.handOver { s with
        headRead := none, taken := s.taken ++ [e]
        scans := s.scans.set i ⟨.scanning, s.scans[i].frame + 1, d, band, .none, timer⟩
        table := s.table.set e (some ⟨r, .scanner, none, some i, none, [],
          scannerReads s.surfaces[i] band q, false, .issuing⟩)
        events := u.events, seqCounter := u.seqCounter }))
    ∧ (d < s.scans[i].c → (∃ f ∈ s.queue, f.surface = i) →
      exec c s = .next (State.handOver { s with
        headRead := none, taken := s.taken ++ [e], release := some ⟨.restart i e d, 0, []⟩
        table := s.table.set e (some ⟨r, .scanner, none, some i, none, [], [], false, .issuing⟩) }))

/-- An accepted read stays in its entry, with its own fields, until its response is given or a reset of the whole part
comes. -/
def Obligations.AcceptedReadStaysUntilAnswered : Prop :=
  ∀ (c : Instr) (s t : State) (e : EntryIx) (en : Entry), ReadsOk s → exec c s = .next t → s.table[e] = some en →
    c ≠ .readResponse (.entry e) → c ≠ .resetnFall → c ≠ .powerLoss → (∀ cut, c ≠ .powerOn cut) →
    ∃ en', t.table[e] = some en' ∧ en'.req = en.req ∧ en'.route = en.route ∧ en'.aperture = en.aperture ∧ en'.conv = en.conv
      ∧ en'.placement = en.placement ∧ en'.surface = en.surface ∧ (en.error = true → en'.error = true)

/-! Downstream port -/

/-- The order of issue. A request takes its place at the port in the command that forms it; those of one command stand
together, behind those that stand there already. The port issues a request of the first group, or, where the read
tracker's stands first and alone, one of the group next behind it: the tracker's is then handed over later (orders A
and B of section 9.7; log entry 12). An issue command for any other changes nothing; an issue takes that request, and
no other, away. Which block has a request: the write channel while it handles a write, the hold queue while a release
or flush is in progress, the read tracker while an entry is in ISSUING, unless the step of the first one has releases
to issue. And the form of downstream writes: a transparent write as it came; a fragment write INCREMENTING, 4 beats
over its block, the strobes set for exactly its byte mask. -/
def Obligations.RequestsAreIssuedInHandOverOrder : Prop :=
  (∀ s : State, ∃ new : List Former,
    s.handOver = { s with handed := s.handed ++ if new = [] then [] else [new] }
    ∧ new.Nodup ∧ ∀ b, b ∈ new ↔ s.formed b = true ∧ ∀ group ∈ s.handed, b ∉ group)
  ∧ (∀ s : State, (s.formed .writeChannel = true ↔ s.writeJob ≠ none) ∧ (s.formed .holdQueue = true ↔ s.release ≠ none)
    ∧ (s.formed .readTracker = true ↔ ∃ e, s.issuingEntry = some e ∧ s.stepPending e = false))
  ∧ (∀ (s : State) (e : EntryIx),
    (s.issuingEntry = some e → ∃ older newer en, s.taken = older ++ e :: newer ∧ s.table[e] = some en ∧ en.state = .issuing
      ∧ ∀ e' ∈ older, ∀ en', s.table[e'] = some en' → en'.state ≠ .issuing)
    ∧ (s.issuingEntry = none → e ∈ s.taken → ∀ en, s.table[e] = some en → en.state ≠ .issuing)
    ∧ (s.stepPending e = true ↔ ∃ rel, s.release = some rel ∧ ∃ i d, rel.work = .step i e d ∨ rel.work = .restart i e d))
  ∧ (∀ (s : State) (b : Former),
    (s.mayIssue b = true ↔ (∃ first rest, s.handed = first :: rest ∧ b ∈ first)
      ∨ ∃ second rest, s.handed = [.readTracker] :: second :: rest ∧ b ∈ second)
    ∧ (s.mayIssue b = false →
        (b = .writeChannel → exec (.downstreamWriteIssue .writeChannel) s = .next s)
        ∧ (b = .holdQueue → exec (.downstreamWriteIssue .holdQueue) s = .next s)
        ∧ (b = .readTracker → exec .fragmentReadIssue s = .next s)))
  ∧ (∀ (s : State) (b : Former),
    s.passRequest b = { s with handed := (s.handed.map (·.filter (· ≠ b))).filter (· ≠ []) })
  ∧ (∀ w : WriteReq, DsWrite.transparent w =
    ⟨w.addr, w.burst, w.lenM1, w.requester, w.bytes.map fun x => ⟨x.strobe, some x.data⟩, none⟩)
  ∧ (∀ f : Frag, ∃ lanes : List Lane, DsWrite.fragment f = ⟨f.block, .incrementing, 3, f.requester, lanes, some f.surface⟩
    ∧ lanes.length = 32 ∧ ∀ k : Fin 32, lanes[k.val]? = some (match f.cells[k] with
      | none => ⟨false, none⟩
      | some x => ⟨true, some x⟩))

/-- The issue of a fragment read: it becomes ISSUED, with the snapshot of its block on the mapped, stream and backing
routes and none on the others; the entry becomes WAITING with its last one. The read that comes next is the first one
in list order that is not issued, so the reads of an entry are issued in list order. Nothing else changes, when the
read does not finish a frame. Requests that the command forms take their places at the downstream port in it (log entry 12). -/
def Obligations.FragmentReadIssueTakesSnapshot : Prop :=
  (∀ (en : Entry) (n : Nat), en.nextRead = some n ↔
    (∃ x, en.reads[n]? = some x ∧ x.status = .unissued)
      ∧ ∀ (m : Nat) (x : FragRead), m < n → en.reads[m]? = some x → x.status ≠ .unissued)
  ∧ (∀ en : Entry, en.nextRead = none ↔ ∀ x ∈ en.reads, x.status ≠ .unissued)
  ∧ ∀ (s : State) (e : EntryIx) (en : Entry) (n : Nat) (fr : FragRead),
    s.mayIssue .readTracker = true → s.issuingEntry = some e → s.stepPending e = false → s.table[e] = some en →
    en.nextRead = some n → en.reads[n]? = some fr →
    (fr.finishes = false ∨ ∀ i, en.surface = some i → s.scans[i].state ≠ .scanning) →
    ∃ en', exec .fragmentReadIssue s =
        .next (State.handOver { s.passRequest .readTracker with table := s.table.set e (some en') })
      ∧ en' = { en with reads := en'.reads, state := en'.state }
      ∧ en'.reads = en.reads.set n { fr with
          status := .issued
          snapshot := if en.route = .mapped ∨ en.route = .stream ∨ en.route = .backing
            then some (forwardQuery s.queue fr.addr) else none }
      ∧ ((∃ x ∈ en'.reads, x.status = .unissued) → en'.state = .issuing)
      ∧ ((∀ x ∈ en'.reads, x.status ≠ .unissued) → en'.state = .waiting)

/-- The issue of the fragment read that covers the finishing byte, in SCANNING: with nothing of the surface held, the
frame is finished at once; else the release of all of it begins after the read; while other work is in progress, the
finish waits for it (log entry 11). The entry becomes WAITING when it was its last fragment read. Which read comes
next, FragmentReadIssueTakesSnapshot says. Requests that the
command forms take their places at the downstream port in it (log entry 12). -/
def Obligations.FinishingReadFinishesFrame : Prop :=
  ∀ (s : State) (e : EntryIx) (en : Entry) (n : Nat) (fr : FragRead) (i : SurfaceIx),
    s.mayIssue .readTracker = true → s.issuingEntry = some e → s.stepPending e = false → s.table[e] = some en →
    en.nextRead = some n → en.reads[n]? = some fr → fr.finishes = true → en.surface = some i →
    s.scans[i].state = .scanning →
    ∃ (en' : Entry) (t : State), exec .fragmentReadIssue s = .next t.handOver
      ∧ t = { s.passRequest .readTracker with
          table := s.table.set e (some en'), scans := t.scans, release := t.release, orders := t.orders }
      ∧ en' = { en with reads := en'.reads, state := en'.state }
      ∧ en'.reads = en.reads.set n { fr with
          status := .issued
          snapshot := if en.route = .mapped ∨ en.route = .stream ∨ en.route = .backing
            then some (forwardQuery s.queue fr.addr) else none }
      ∧ ((∃ x ∈ en'.reads, x.status = .unissued) → en'.state = .issuing)
      ∧ ((∀ x ∈ en'.reads, x.status ≠ .unissued) → en'.state = .waiting)
      ∧ (s.holdBusy = false → (∀ f ∈ s.queue, f.surface ≠ i) →
          t.scans = s.scans.set i { s.scans[i] with state := .blanking, timer := none }
          ∧ t.release = none ∧ t.orders = s.orders)
      ∧ (s.holdBusy = false → (∃ f ∈ s.queue, f.surface = i) →
          t.scans = s.scans ∧ t.release = some ⟨.finish i, 0, []⟩ ∧ t.orders = s.orders)
      ∧ (s.holdBusy = true →
          t.scans = s.scans ∧ t.release = s.release ∧ t.orders = s.orders ++ [.finish i])

/-- The issue of the write channel's request: a transparent write goes downstream as it came and is answered OKAY; a
fragment issued directly goes downstream, and then the held fragments behind it join, up to the next one to be issued;
after the last, the write is answered OKAY. The high-water mark rises to the number of entries where that is above it.
Shown where no order waits (WaitingOrdersAreTakenInOrder) and no command waits in the management port; a command that
waits there (log entry 36) comes again as soon as the fragment has been issued and those behind it have joined.
Requests that the command forms take their places at the downstream port in it (log entry 12). -/
def Obligations.WriteChannelIssuesInOrder : Prop :=
  (∀ (s : State) (w : WriteReq), s.mayIssue .writeChannel = true → s.writeJob = some (.transparent w) →
    exec (.downstreamWriteIssue .writeChannel) s = .next (State.handOver { s.passRequest .writeChannel with
      outstanding := s.outstanding ++ [.transparent w], writeJob := none
      writeResp := some ⟨w.requester, w.tag, .okay⟩ }))
  ∧ (∀ (s : State) q g p ps, s.mayIssue .writeChannel = true → s.writeJob = some (.fragments q g (p :: ps)) →
    s.orders = [] → (∀ l, s.port ≠ .receiving l) →
    ∃ t : State, exec (.downstreamWriteIssue .writeChannel) s = .next t.handOver
      ∧ t.outstanding = s.outstanding ++ [.fragment p.frag]
      ∧ t.queue = s.queue ++ (ps.takeWhile (·.hold)).map (·.frag)
      ∧ t.highWater = (if ps.takeWhile (·.hold) = [] then s.highWater else max s.highWater t.queue.length)
      ∧ (∀ a : ApertureIx, t.apertures[a] = { s.apertures[a] with
          held := s.apertures[a].held + originCount a ((ps.takeWhile (·.hold)).map (·.frag)) })
      ∧ (ps.all (·.hold) = true → t.writeJob = none ∧ t.writeResp = some ⟨q, g, .okay⟩)
      ∧ (ps.all (·.hold) = false → t.writeResp = s.writeResp
          ∧ t.writeJob = some (.fragments q g (ps.dropWhile (·.hold))))
      ∧ t = { s.passRequest .writeChannel with
          outstanding := t.outstanding, queue := t.queue, highWater := t.highWater, apertures := t.apertures
          writeJob := t.writeJob, writeResp := t.writeResp })
  ∧ (∀ (s u : State) (l : List Byte) (c : Instr) q g p ps, s.mayIssue .writeChannel = true →
    s.writeJob = some (.fragments q g (p :: ps)) → s.port = .receiving l → decodeTransaction l = c →
    exec (.downstreamWriteIssue .writeChannel) { s with port := .idle } = .next u →
    (((∃ m, c = .modeSet m) ∨ (∃ b, c = .apertureClose b) ∨ (∃ b record, c = .surfaceWrite b record)) →
      exec (.downstreamWriteIssue .writeChannel) s = exec c { u with port := s.port })
    ∧ (shortBytes l = true → exec (.downstreamWriteIssue .writeChannel) s = .next { u with port := s.port }))

/-- The issue of a held entry by a release or flush: the oldest entry it takes goes downstream and leaves the queue,
its aperture's held count falls by 1, and a DRAINING aperture whose count reaches 0 becomes CLOSED with CLOSE-DRAINED.
While entries are left to take the release goes on, counting what it has issued, in all and for each aperture that is
not CLOSED since (log entry 15). Requests that the command forms take their places at the downstream port in it (log
entry 12). -/
def Obligations.HeldEntryIssued : Prop :=
  ∀ (s : State) (rel : Release) (older newer : List Frag) (f : Frag),
    s.mayIssue .holdQueue = true → s.release = some rel → s.queue = older ++ f :: newer →
    (∀ g ∈ older, s.takes rel.work g = false) →
    s.takes rel.work f = true → (∃ g ∈ newer, s.takes rel.work g = true) →
    ∃ t : State, exec (.downstreamWriteIssue .holdQueue) s = .next t.handOver
      ∧ EntryLeaves s t f
      ∧ t.release = some ⟨rel.work, rel.issued + 1, match f.origin with
          | .backing => rel.origins
          | .aperture a =>
            if s.apertures[a].state = .draining ∧ s.apertures[a].held - 1 = 0 then rel.origins.filter (· != a)
            else a :: rel.origins⟩
      ∧ t = { s.passRequest .holdQueue with
          outstanding := s.outstanding ++ [.fragment f], queue := older ++ newer, release := t.release
          apertures := t.apertures, events := t.events, seqCounter := t.seqCounter }

/-- The last entry of a release or flush leaves like the others, and then the work is completed: a step moves the row,
restarts the timer and forms its fragment reads; a restart opens the new frame under the pending band, raises
SCAN-RESTART and, if notify is yes, FRAME-OPEN, and forms its fragment reads; a finish sets BLANKING; a stall sets
STALLED with SCAN-STALL; the full flush sets the mark to 0. An APERTURE-CLOSED of the entry stands before those events
(the model's choice, log entry 31). Shown where no order waits; for those that do, WaitingOrdersAreTakenInOrder. The
timer counts REFCLK periods, 400 to a unit (log entry 3). Requests that the command forms take their places at the
downstream port in it (log entry 12). -/
def Obligations.LastHeldEntryCompletesWork : Prop :=
  ∀ (s : State) (rel : Release) (older newer : List Frag) (f : Frag),
    s.mayIssue .holdQueue = true → s.release = some rel → s.queue = older ++ f :: newer →
    (∀ g ∈ older ++ newer, s.takes rel.work g = false) → s.takes rel.work f = true → s.orders = [] →
    ∃ v t : State, exec (.downstreamWriteIssue .holdQueue) s = .next t.handOver
      ∧ EntryLeaves s v f
      ∧ v = { s.passRequest .holdQueue with
          outstanding := s.outstanding ++ [.fragment f], queue := older ++ newer, release := none
          apertures := v.apertures, events := v.events, seqCounter := v.seqCounter }
      ∧ (∀ i e d, rel.work = .step i e d →
          let scans := s.scans.set i { s.scans[i] with
            c := d, timer := if s.surfaces[i].timeout = 0 then none else some (s.surfaces[i].timeout * 400) }
          (s.table[e] = none → t = { v with scans := scans })
          ∧ (∀ en, s.table[e] = some en → t = { v with
              scans := scans
              table := s.table.set e (some { en with
                reads := scannerReads s.surfaces[i] s.scans[i].active (readAccess en.req) }) }))
      ∧ (∀ i e d, rel.work = .restart i e d →
          let band := match s.scans[i].pendingBand with
            | .none => s.scans[i].active
            | .band b => some b
            | .remove => none
          (s.table[e] = none → t = v)
          ∧ (∀ en, s.table[e] = some en →
              let u := (v.raise ⟨.scanRestart, some (.surface i), some en.req.addr, some en.req.requester,
                  some (s.scans[i].frame + 1), .number d⟩).raiseIf s.surfaces[i].notify
                ⟨.frameOpen, some (.surface i), some en.req.addr, some en.req.requester,
                  some (s.scans[i].frame + 1), .number d⟩
              t = { v with
                scans := s.scans.set i ⟨.scanning, s.scans[i].frame + 1, d, band, .none,
                  if s.surfaces[i].timeout = 0 then none else some (s.surfaces[i].timeout * 400)⟩
                table := s.table.set e (some { en with reads := scannerReads s.surfaces[i] band (readAccess en.req) })
                events := u.events, seqCounter := u.seqCounter }))
      ∧ (∀ i, rel.work = .finish i →
          t = { v with scans := s.scans.set i { s.scans[i] with state := .blanking, timer := none } })
      ∧ (∀ i, rel.work = .stall i →
          t = { v with
            scans := s.scans.set i { s.scans[i] with state := .stalled, timer := none }
            seqCounter := v.seqCounter + 1
            events := (v.raise ⟨.scanStall, some (.surface i), none, none, some s.scans[i].frame,
              .number s.scans[i].c⟩).events })
      ∧ (rel.work = .fullFlush →
          (s.phase = .softReset .flush → t = { v with highWater := 0, phase := .softReset (.flushed (rel.issued + 1)) })
          ∧ (s.phase ≠ .softReset .flush → t = v))

/-- Finishes, expiries and full flushes that were ordered while the hold queue was at work: when the handling of a
write or a release ends, they are taken in the order given, until one has entries to issue; the others go on waiting
(the model's reading, log entry 11). Where a release ends and a head write waits too, they come before that write (the
model's choice, log entry 40). A finish or an expiry whose surface is no longer SCANNING is not taken, nor an expiry
whose timer has stopped; one with no entry of its surface is complete at once; and so is the full flush of an empty
queue. Requests that the command forms take their places at the downstream port in it (log entry 12). -/
def Obligations.WaitingOrdersAreTakenInOrder : Prop :=
  (∀ (s u : State) (q : Requester) (g : Tag) (p : PendingFrag) (ps : List PendingFrag),
    s.mayIssue .writeChannel = true → s.writeJob = some (.fragments q g (p :: ps)) → (∀ l, s.port ≠ .receiving l) →
    exec (.downstreamWriteIssue .writeChannel) { s with orders := [] } = .next u.handOver →
    u.handed = (s.passRequest .writeChannel).handed →
    (ps.all (·.hold) = true → exec (.downstreamWriteIssue .writeChannel) s = .next (State.takeOrders s.orders u).handOver)
    ∧ (ps.all (·.hold) = false →
        exec (.downstreamWriteIssue .writeChannel) s = .next (State.handOver { u with orders := s.orders })))
  ∧ (∀ (s u : State) (rel : Release) (older newer : List Frag) (f : Frag),
    s.mayIssue .holdQueue = true → s.release = some rel → s.queue = older ++ f :: newer →
    (∀ g ∈ older ++ newer, s.takes rel.work g = false) → s.takes rel.work f = true →
    exec (.downstreamWriteIssue .holdQueue) { s with orders := [] } = .next u.handOver →
    u.handed = (s.passRequest .holdQueue).handed →
    exec (.downstreamWriteIssue .holdQueue) s = .next (State.takeOrders s.orders u).handOver)
  ∧ (∀ s : State, State.takeOrders [] s = { s with orders := [] })
  ∧ (∀ (s : State) (o : Order) (os : List Order),
    ((s.takeOrder o).release ≠ none → State.takeOrders (o :: os) s = { s.takeOrder o with orders := os })
    ∧ ((s.takeOrder o).release = none → State.takeOrders (o :: os) s = State.takeOrders os (s.takeOrder o)))
  ∧ (∀ (s : State) (i : SurfaceIx), s.release = none →
    (s.scans[i].state ≠ .scanning → s.takeOrder (.finish i) = s ∧ s.takeOrder (.stall i) = s)
    ∧ (s.scans[i].timer = none → s.takeOrder (.stall i) = s)
    ∧ (s.scans[i].state = .scanning → (∃ f ∈ s.queue, f.surface = i) →
        s.takeOrder (.finish i) = { s with release := some ⟨.finish i, 0, []⟩ }
        ∧ (s.scans[i].timer ≠ none → s.takeOrder (.stall i) = { s with release := some ⟨.stall i, 0, []⟩ }))
    ∧ (s.scans[i].state = .scanning → (∀ f ∈ s.queue, f.surface ≠ i) →
        s.takeOrder (.finish i) = { s with scans := s.scans.set i { s.scans[i] with state := .blanking, timer := none } }
        ∧ (s.scans[i].timer ≠ none → s.takeOrder (.stall i) = { s with
            scans := s.scans.set i { s.scans[i] with state := .stalled, timer := none }
            seqCounter := s.seqCounter + 1
            events := (s.raise ⟨.scanStall, some (.surface i), none, none, some s.scans[i].frame,
              .number s.scans[i].c⟩).events })))
  ∧ (∀ s : State, s.release = none → s.phase = .softReset .flush →
    (s.queue ≠ [] → s.takeOrder .fullFlush = { s with release := some ⟨.fullFlush, 0, []⟩ })
    ∧ (s.queue = [] → s.takeOrder .fullFlush = { s with highWater := 0, phase := .softReset (.flushed 0) }))

/-- A return from memory: joined to its fragment read by its tag, with DOWNSTREAM-ERROR READ for the first error of
its entry, which becomes RESPONDING when its last fragment read has returned; or discarded, as abandoned, or with
DOWNSTREAM-ERROR UNKNOWN-TAG; while RESETN is low too (log entry 25). What a return of another length than its read
asked for is merged to is the model's (log entries 20 and 30). A write response of memory: the first ones after a line
reset answer abandoned writes; each other one answers the oldest write not yet answered, and an error of it is
reported by DOWNSTREAM-ERROR WRITE. -/
def Obligations.MemoryAnswersAreJoined : Prop :=
  (∀ (s : State) (e : EntryIx) (p : ReadPos) (data : List Byte), s.phase ≠ .off →
    (∀ en fr, s.table[e] = some en → en.reads[p.val]? = some fr → fr.status = .issued →
      (∃ en', exec (.downstreamReadReturn e p false data) s = .next { s with table := s.table.set e (some en') }
        ∧ en' = { en with reads := en'.reads, state := en'.state }
        ∧ en'.reads = en.reads.set p.val { fr with
            status := .returned, data := if en.error then none else some (merged fr data) }
        ∧ ((∀ x ∈ en'.reads, x.status = .returned) → en'.state = .responding)
        ∧ ((∃ x ∈ en'.reads, x.status ≠ .returned) → en'.state = en.state))
      ∧ (∃ en', exec (.downstreamReadReturn e p true data) s = .next (
            if en.error then { s with table := s.table.set e (some en') }
            else { s with
              table := s.table.set e (some en')
              seqCounter := s.seqCounter + 1
              events := (s.raise ⟨.downstreamError, en.surface.map .surface, some en.req.addr, some en.req.requester,
                none, .read⟩).events })
        ∧ en' = { en with reads := en'.reads, error := true, state := en'.state }
        ∧ en'.reads = en.reads.set p.val { fr with status := .returned, data := none }
        ∧ ((∀ x ∈ en'.reads, x.status = .returned) → en'.state = .responding)
        ∧ ((∃ x ∈ en'.reads, x.status ≠ .returned) → en'.state = en.state)))
    ∧ (s.table[e] = none → (e, p) ∈ s.abandonedTags → ∀ error,
        exec (.downstreamReadReturn e p error data) s =
          .next { s with abandonedTags := s.abandonedTags.erase (e, p) })
    ∧ ((∀ en fr, s.table[e] = some en → en.reads[p.val]? = some fr → fr.status ≠ .issued) →
        (e, p) ∉ s.abandonedTags → ∀ error,
        exec (.downstreamReadReturn e p error data) s = .next { s with
          seqCounter := s.seqCounter + 1
          events := (s.raise ⟨.downstreamError, none, none, none, none, .unknownTag⟩).events }))
  ∧ (∀ s : State,
    (∀ error, 0 < s.abandonedWrites → exec (.downstreamWriteResponse error) s =
      .next { s with abandonedWrites := s.abandonedWrites - 1 })
    ∧ (∀ w ws, s.abandonedWrites = 0 → s.outstanding = w :: ws →
        exec (.downstreamWriteResponse false) s = .next { s with outstanding := ws })
    ∧ (∀ w ws, s.abandonedWrites = 0 → s.outstanding = w :: ws →
        exec (.downstreamWriteResponse true) s = .next { s with
          outstanding := ws
          seqCounter := s.seqCounter + 1
          events := (s.raise ⟨.downstreamError, w.surface.map .surface, some w.addr, some w.requester, none, .write⟩).events }))

/-- Responses: a write response leaves when its requester takes it; a read in RESPONDING is answered when no
earlier-taken read of its requester and tag is in the table, OKAY or, with its error flag set, REFUSED with zeros; a
refused read is answered when no read of its requester and tag is in the table. Before that, READ_RESPONSE changes
nothing. A response is given whole, and State records the last one (log entries 18 and 21). -/
def Obligations.ResponsesAreGivenInOrder : Prop :=
  ∀ s : State,
    (∀ r, s.writeResp = some r → exec .writeResponse s = .next { s with writeResp := none, upWrite := some r })
    ∧ (∀ (e : EntryIx) (en : Entry), s.table[e] = some en → en.state = .responding →
        (∀ e' ∈ s.taken.takeWhile (· != e), ∀ en', s.table[e'] = some en' →
          ¬ (en'.req.requester = en.req.requester ∧ en'.req.tag = en.req.tag)) →
        exec (.readResponse (.entry e)) s = .next { s with
          table := s.table.set e none, taken := s.taken.erase e
          upRead := some (if en.error
            then ⟨en.req.requester, en.req.tag, .refused, List.replicate (8 * (en.req.lenM1.val + 1)) 0⟩
            else ⟨en.req.requester, en.req.tag, .okay, en.responseBytes⟩) })
    ∧ (∀ (e : EntryIx) (en : Entry), s.table[e] = some en →
        (en.state ≠ .responding ∨ ∃ e' ∈ s.taken.takeWhile (· != e), ∃ en', s.table[e'] = some en'
          ∧ en'.req.requester = en.req.requester ∧ en'.req.tag = en.req.tag) →
        exec (.readResponse (.entry e)) s = .next s)
    ∧ (∀ r, s.refusedRead = some r → (∃ (e : EntryIx) (en : Entry), s.table[e] = some en
          ∧ en.req.requester = r.requester ∧ en.req.tag = r.tag) →
        exec (.readResponse .refused) s = .next s)
    ∧ (∀ r, s.refusedRead = some r →
        (∀ (e : EntryIx) (en : Entry), s.table[e] = some en →
          ¬ (en.req.requester = r.requester ∧ en.req.tag = r.tag)) →
        exec (.readResponse .refused) s = .next { s with
          refusedRead := none
          upRead := some ⟨r.requester, r.tag, .refused, List.replicate (8 * (r.lenM1.val + 1)) 0⟩ })

/-- The expiry of a running scan timer in SCANNING, the hold queue being free: with nothing of the surface held, it
stalls at once with SCAN-STALL; else the flush of its entries begins. With other work in progress that does not serve
this surface's scan, the expiry waits for it. While a step, restart, finish or stall of this surface is in progress,
the expiry has no effect, and outside SCANNING or with no timer running it changes nothing (log entry 1). That the
expiry is a command, and that it waits or has no effect, are the model's (log entries 2 and 11). Requests that the command forms take their places at the downstream port in it (log entry 12). -/
def Obligations.ScanTimerExpiryStalls : Prop :=
  (∀ (s : State) (i : SurfaceIx), s.scanWorkOn i = true ↔ ∃ rel, s.release = some rel
    ∧ ((∃ e d, rel.work = .step i e d) ∨ (∃ e d, rel.work = .restart i e d) ∨ rel.work = .finish i ∨ rel.work = .stall i))
  ∧ (∀ (s : State) (i : SurfaceIx), (s.scanWorkOn i = true ∨ s.scans[i].state ≠ .scanning ∨ s.scans[i].timer = none) →
    exec (.scanTimerExpiry i) s = .next s)
  ∧ ∀ (s : State) (i : SurfaceIx), s.scans[i].state = .scanning → s.scans[i].timer ≠ none →
    (s.holdBusy = false → (∀ f ∈ s.queue, f.surface ≠ i) →
      exec (.scanTimerExpiry i) s = .next (State.handOver { s with
        scans := s.scans.set i { s.scans[i] with state := .stalled, timer := none }
        seqCounter := s.seqCounter + 1
        events := (s.raise ⟨.scanStall, some (.surface i), none, none, some s.scans[i].frame,
          .number s.scans[i].c⟩).events }))
    ∧ (s.holdBusy = false → (∃ f ∈ s.queue, f.surface = i) →
        exec (.scanTimerExpiry i) s = .next (State.handOver { s with release := some ⟨.stall i, 0, []⟩ }))
    ∧ (s.holdBusy = true → s.scanWorkOn i = false →
        exec (.scanTimerExpiry i) s = .next (State.handOver { s with orders := s.orders ++ [.stall i] }))

/-! Places, bands, pixels, forwarding -/

/-- The place of a view pixel: flips in the view, then EXCHANGE, then the address. Every view pixel lands inside the
surface, and distinct view pixels land on distinct stored pixels. The memory row of a display row and the display
position of a memory row under a band. A band maps the rows of a surface one to one onto themselves: the display
position of the memory row that a display row reads is that display row, and the other way round; a row lies in the
scan range exactly when its display position does. -/
def Obligations.OrientationAndBandAreOneToOne : Prop :=
  (∀ (f : ApertureFields) (r : SurfaceRec) (x y : Nat),
    let x' := if f.flipH then (if f.exchange then r.height else r.width) - 1 - x else x
    let y' := if f.flipV then (if f.exchange then r.width else r.height) - 1 - y else y
    let row := if f.exchange then x' else y'
    let col := if f.exchange then y' else x'
    placeAt f r x y = ⟨x, y, row, col, r.base.toNat + row * r.pitch + col * (if r.format = .s16 then 2 else 4)⟩)
  ∧ (∀ (f : ApertureFields) (r : SurfaceRec) (x y x' y' : Nat),
    x < viewWidth f r → y < viewHeight f r → x' < viewWidth f r → y' < viewHeight f r →
    (placeAt f r x y).row < r.height ∧ (placeAt f r x y).col < r.width
    ∧ ((placeAt f r x y).row = (placeAt f r x' y').row → (placeAt f r x y).col = (placeAt f r x' y').col →
        x = x' ∧ y = y'))
  ∧ (∀ (r : SurfaceRec) (b : Band) (n : Nat), r.bandOk b = true →
    memoryRow (some b) n =
      (if b.top ≤ n ∧ n ≤ b.top + b.height - 1 then b.top + (n - b.top + b.offset) % b.height else n)
    ∧ displayRow (some b) n =
      (if b.top ≤ n ∧ n ≤ b.top + b.height - 1 then b.top + (n - b.top + b.height - b.offset) % b.height else n)
    ∧ displayRow (some b) (memoryRow (some b) n) = n ∧ memoryRow (some b) (displayRow (some b) n) = n
    ∧ r.inScanRange (displayRow (some b) n) = r.inScanRange n
    ∧ r.inScanRange (memoryRow (some b) n) = r.inScanRange n
    ∧ (b.offset = 0 → memoryRow (some b) n = n) ∧ memoryRow none n = n ∧ displayRow none n = n)

/-- The cursor's advance, step by step, and its length: from the window start a window of w columns and h rows is
passed in w × h entries, after which WRAP stands RUNNING at the window start and DISCARD stands EXHAUSTED there; an
EXHAUSTED cursor stays. -/
def Obligations.CursorPassesWindow : Prop :=
  ∀ (w : Window) (ov : Overflow), w.colFirst ≤ w.colLast → w.rowFirst ≤ w.rowLast →
    (∀ n c, c.exhausted = true → cursorAfter w ov n c = c)
    ∧ (∀ c, cursorAfter w ov 0 c = c)
    ∧ (∀ n c, c.exhausted = false → cursorAfter w ov (n + 1) c = cursorAfter w ov n
        (if c.col < w.colLast then { c with col := c.col + 1 }
        else if c.row < w.rowLast then { c with col := w.colFirst, row := c.row + 1 }
        else { c with col := w.colFirst, row := w.rowFirst, exhausted := ov == .discard }))
    ∧ cursorAfter w ov ((w.colLast - w.colFirst + 1) * (w.rowLast - w.rowFirst + 1)) (Cursor.start w)
        = ⟨w.colFirst, w.rowFirst, ov == .discard, false⟩
    ∧ (∀ k, k < (w.colLast - w.colFirst + 1) * (w.rowLast - w.rowFirst + 1) →
        cursorAfter w ov k (Cursor.start w)
          = ⟨w.colFirst + k % (w.colLast - w.colFirst + 1), w.rowFirst + k / (w.colLast - w.colFirst + 1), false, false⟩)

/-- The fragments of a write on the mapped, stream and backing routes, byte by byte: one for each block, in the order
in which the write first reaches it, holding at each position the last byte that the write places there. Mapped: the
pixels of the placement list with their strobes, converted; stream: the same at the cursor, until it is EXHAUSTED;
backing: the strobed bytes at their own addresses. A mapped write has at most one for each block, each with at least
one byte, and at most 64 of them. A byte that the request does not hold counts as not strobed (log entry 29). -/
def Obligations.FragmentsHoldTheBytesWritten : Prop :=
  (∀ (s : State) (w : WriteReq) (p : Planned), TablesOk s → s.planOf w = some p →
    (∀ a, s.classify (writeAccess w) = .mapped a →
      p.surface = s.apertures[a].fields.surface ∧ p.through = some a
      ∧ FragmentsOf p.plan.frags s.apertures[a].fields.surface (s.surfaceOf a) (.aperture a) w.requester
        (mappedWrites s.apertures[a].fields (s.surfaceOf a) w))
    ∧ (∀ a, s.classify (writeAccess w) = .stream a →
      p.surface = s.apertures[a].fields.surface ∧ p.through = some a
      ∧ FragmentsOf p.plan.frags s.apertures[a].fields.surface (s.surfaceOf a) (.aperture a) w.requester
        (streamWrites s.apertures[a].fields (s.surfaceOf a) w s.cursors[a]))
    ∧ (∀ i, s.classify (writeAccess w) = .backing i →
      p.surface = i ∧ p.through = none
      ∧ FragmentsOf p.plan.frags i s.surfaces[i] .backing w.requester (backingWrites w)))
  ∧ (∀ (a : ApertureIx) (f : ApertureFields) (r : SurfaceRec) (w : WriteReq) (frags : List Frag),
    r.fieldsOk = true → frags = (mappedWritePlan a f r w).frags →
    (frags.map (·.block)).Nodup ∧ frags.length ≤ 64
    ∧ ∀ g ∈ frags, g.origin = .aperture a ∧ g.surface = f.surface ∧ g.requester = w.requester
        ∧ ∃ k : Fin 32, g.cells[k] ≠ none)

/-- The placement lists entry by entry, and the fragment reads of a read by route: on the mapped, stream and backing
routes one of 4 beats for each block that holds a byte needed, in the order first reached; of a scanner read one for
each display row it touches, at the memory row under the band, the one that covers the finishing byte marked if the
read is tracked. -/
def Obligations.ReadsFetchTheBytesNeeded : Prop :=
  (∀ (f : ApertureFields) (r : SurfaceRec) (q : Access) (k : Nat), q.addr % 8 = 0 → q.burst = .incrementing →
    k < 8 * q.len / f.format.size →
    let i := (q.addr - f.base.toNat) / f.format.size + k
    (mappedPlacement f r q).length = 8 * q.len / f.format.size
    ∧ (mappedPlacement f r q)[k]? = some ⟨some (q.addr - f.base.toNat + f.format.size * k), f.format.size * k,
        some (placeAt f r (i % (if f.exchange then r.height else r.width)) (i / (if f.exchange then r.height else r.width)))⟩)
  ∧ (∀ (f : ApertureFields) (r : SurfaceRec) (req : ReadReq) (c : Cursor) (k : Nat),
    k < 8 * (req.lenM1.val + 1) / f.format.size →
    let m := cursorMet f req.addr c k
    (streamPlacement f r (readAccess req) c).length = 8 * (req.lenM1.val + 1) / f.format.size
    ∧ (streamPlacement f r (readAccess req) c)[k]? = some ⟨none, f.format.size * k,
        if m.exhausted then none else some (placeAt f r m.col m.row)⟩)
  ∧ (∀ (s : State) (req : ReadReq), TablesOk s →
    let bytes := fun (r : SurfaceRec) (l : List PlaceEntry) => l.flatMap fun e => match e.place with
      | none => []
      | some p => (List.range (if r.format = .s16 then 2 else 4)).map (p.addr + ·)
    (∀ a, s.classify (readAccess req) = .mapped a →
      let l := mappedPlacement s.apertures[a].fields (s.surfaceOf a) (readAccess req)
      ReadsOf (cutReads (s.surfaceOf a) l) (bytes (s.surfaceOf a) l))
    ∧ (∀ a, s.classify (readAccess req) = .stream a →
      let l := streamPlacement s.apertures[a].fields (s.surfaceOf a) (readAccess req) s.cursors[a]
      ReadsOf (cutReads (s.surfaceOf a) l) (bytes (s.surfaceOf a) l))
    ∧ (∀ i, s.classify (readAccess req) = .backing i →
      ReadsOf (backingReads (readAccess req))
        ((List.range (8 * (req.lenM1.val + 1))).map (req.addr.toNat / 8 * 8 + ·))))
  ∧ (∀ (r : SurfaceRec) (band : Option Band) (q : Access) (k : Nat), r.fieldsOk = true → r.optBandOk band = true →
    r.base.toNat ≤ q.addr → q.high < r.base.toNat + r.pitch * r.height → q.burst = .incrementing → 1 ≤ q.len →
    let d := (q.low - r.base.toNat) / r.pitch
    let e := d + k
    let first := max q.low (r.base.toNat + e * r.pitch)
    let stop := min (q.high + 1) (r.base.toNat + (e + 1) * r.pitch)
    let last := r.base.toNat + r.lastRow * r.pitch + r.width * (if r.format = .s16 then 2 else 4) - 1
    (scannerReads r band q).length = (q.high - r.base.toNat) / r.pitch - d + 1
    ∧ (e ≤ (q.high - r.base.toNat) / r.pitch → ∃ fr, (scannerReads r band q)[k]? = some fr
      ∧ fr.addr.toNat = r.base.toNat + memoryRow band e * r.pitch + (first - (r.base.toNat + e * r.pitch))
      ∧ 8 * fr.beats = stop - first
      ∧ fr = ⟨fr.addr, .incrementing, fr.beats, none, fr.finishes, .unissued, none, none⟩
      ∧ (fr.finishes = true ↔ r.firstRow ≤ d ∧ d ≤ r.lastRow ∧ e = r.lastRow ∧ first ≤ last ∧ last < stop)))

/-- The bytes of a response. A returned block takes the snapshot's byte where the snapshot covers the position and
memory's elsewhere; a read without snapshot keeps what memory returned. A transparent or scanner read answers its
reads' bytes one after the other; a backing read each byte of its covered range from the block it lies in; a mapped or
stream read each pixel of the placement list at its place, converted from the stored bytes at its address, and zeros
for an exhausted entry. -/
def Obligations.ResponsesCarryTheMergedBytes : Prop :=
  (∀ (fr : FragRead) (data : List Byte), data.length = 8 * fr.beats →
    (merged fr data).length = 8 * fr.beats
    ∧ (fr.snapshot = none → merged fr data = data)
    ∧ (∀ cells, fr.snapshot = some cells → fr.beats = 4 → ∀ k : Fin 32,
        (merged fr data)[k.val]? = match cells[k] with
          | some b => some b
          | none => data[k.val]?))
  ∧ (∀ en : Entry, (en.route = .transparent ∨ en.route = .scanner) →
    en.responseBytes = (en.reads.map fun fr => fr.data.getD []).flatten)
  ∧ (∀ en : Entry, (en.reads.map (·.addr)).Nodup → (∀ fr ∈ en.reads, ∃ d, fr.data = some d ∧ d.length = 32) →
    (en.route = .backing →
      (∀ j, j < (readAccess en.req).size → ∃ fr ∈ en.reads, fr.addr.toNat = ((readAccess en.req).low + j) / 32 * 32) →
      en.responseBytes.length = (readAccess en.req).size
      ∧ ∀ j fr, j < (readAccess en.req).size → fr ∈ en.reads →
          fr.addr.toNat = ((readAccess en.req).low + j) / 32 * 32 →
          en.responseBytes[j]? = (fr.data.getD [])[((readAccess en.req).low + j) % 32]?)
    ∧ (∀ c, (en.route = .mapped ∨ en.route = .stream) → en.conv = some c →
      (∀ e ∈ en.placement, ∀ p, e.place = some p → p.addr % 32 + c.stored.size ≤ 32
        ∧ ∃ fr ∈ en.reads, fr.addr.toNat = p.addr / 32 * 32) →
      en.responseBytes.length = c.up.size * en.placement.length
      ∧ ∀ k e, en.placement[k]? = some e →
          (e.place = none → (en.responseBytes.drop (c.up.size * k)).take c.up.size = List.replicate c.up.size 0)
          ∧ (∀ p fr, e.place = some p → fr ∈ en.reads → fr.addr.toNat = p.addr / 32 * 32 →
              (en.responseBytes.drop (c.up.size * k)).take c.up.size
                = toUpstream c (((fr.data.getD []).drop (p.addr % 32)).take c.stored.size))))

/-- Expansion and reduction of a pixel, on a write and on a read, by the tables of Chapter 6: byte 0 of a 16-bit pixel
holds its bits 0 to 7, and a 32-bit pixel holds blue, green, red and spare in bytes 0 to 3. -/
def Obligations.ConversionFollowsTables : Prop :=
  (∀ (x : Expansion) (y : Reduction) (lo hi : Byte),
    let v := lo.toNat + 256 * hi.toNat
    let blue := v % 32
    let green := v / 32 % 64
    let red := v / 2048
    let out := match x with
      | .zero => [BitVec.ofNat 8 (blue * 8), BitVec.ofNat 8 (green * 4), BitVec.ofNat 8 (red * 8), 0#8]
      | .replicate =>
        [BitVec.ofNat 8 (blue * 8 + blue / 4), BitVec.ofNat 8 (green * 4 + green / 16), BitVec.ofNat 8 (red * 8 + red / 4), 0#8]
      | .greyLock =>
        if red = blue ∧ blue = green / 2 then
          [BitVec.ofNat 8 (green * 4 + green / 16), BitVec.ofNat 8 (green * 4 + green / 16),
            BitVec.ofNat 8 (green * 4 + green / 16), 0#8]
        else
          [BitVec.ofNat 8 (blue * 8 + blue / 4), BitVec.ofNat 8 (green * 4 + green / 16), BitVec.ofNat 8 (red * 8 + red / 4), 0#8]
    toStored ⟨.u16, .s32, x, y⟩ [lo, hi] = out ∧ toUpstream ⟨.u32, .s16, x, y⟩ [lo, hi] = out
    ∧ red * 8 + red / 4 ≤ 255 ∧ blue * 8 + blue / 4 ≤ 255 ∧ green * 4 + green / 16 ≤ 255)
  ∧ (∀ (x : Expansion) (y : Reduction) (blue green red spare : Byte),
    let out := match y with
      | .truncate => (red.toNat / 8) * 2048 + (green.toNat / 4) * 32 + blue.toNat / 8
      | .round => min 31 ((red.toNat + 4) / 8) * 2048 + min 63 ((green.toNat + 2) / 4) * 32 + min 31 ((blue.toNat + 4) / 8)
    toStored ⟨.u32, .s16, x, y⟩ [blue, green, red, spare] = [BitVec.ofNat 8 out, BitVec.ofNat 8 (out / 256)]
    ∧ toUpstream ⟨.u16, .s32, x, y⟩ [blue, green, red, spare] = [BitVec.ofNat 8 out, BitVec.ofNat 8 (out / 256)])
  ∧ (∀ (x : Expansion) (y : Reduction) (l : List Byte),
    toStored ⟨.u16, .s16, x, y⟩ l = l ∧ toStored ⟨.u32, .s32, x, y⟩ l = l
    ∧ toUpstream ⟨.u16, .s16, x, y⟩ l = l ∧ toUpstream ⟨.u32, .s32, x, y⟩ l = l)

/-- A forwarding query answers each position of a block with the byte of the newest entry of that block whose mask has
the position, and with none where no entry has it. -/
def Obligations.ForwardingAnswersNewest : Prop :=
  ∀ (queue : List Frag) (block : Addr) (k : Fin 32),
    ((∀ f ∈ queue, f.block = block → f.cells[k] = none) → (forwardQuery queue block)[k] = none)
    ∧ (∀ (older newer : List Frag) (f : Frag) (b : Byte), queue = older ++ f :: newer → f.block = block →
        f.cells[k] = some b → (∀ g ∈ newer, g.block = block → g.cells[k] = none) →
        (forwardQuery queue block)[k] = some b)
end

