-- ==== Sys2Proof/Laws/State.lean ====
section
/-! SUPPORT. For each named update of the state, what each field is after it. -/

namespace Sys2Proof.Machine

/-! setSurface -/

@[simp] theorem State.setSurface_phase (s : State) (i : SurfaceIx) (r : SurfaceRec) : (s.setSurface i r).phase = s.phase := rfl
@[simp] theorem State.setSurface_mode (s : State) (i : SurfaceIx) (r : SurfaceRec) : (s.setSurface i r).mode = s.mode := rfl
@[simp] theorem State.setSurface_surfaces (s : State) (i : SurfaceIx) (r : SurfaceRec) : (s.setSurface i r).surfaces = s.surfaces.set i r := rfl
@[simp] theorem State.setSurface_apertures (s : State) (i : SurfaceIx) (r : SurfaceRec) : (s.setSurface i r).apertures = s.apertures := rfl
@[simp] theorem State.setSurface_cursors (s : State) (i : SurfaceIx) (r : SurfaceRec) : (s.setSurface i r).cursors = s.cursors := rfl
@[simp] theorem State.setSurface_scans (s : State) (i : SurfaceIx) (r : SurfaceRec) : (s.setSurface i r).scans = s.scans := rfl
@[simp] theorem State.setSurface_queue (s : State) (i : SurfaceIx) (r : SurfaceRec) : (s.setSurface i r).queue = s.queue := rfl
@[simp] theorem State.setSurface_highWater (s : State) (i : SurfaceIx) (r : SurfaceRec) : (s.setSurface i r).highWater = s.highWater := rfl
@[simp] theorem State.setSurface_episode (s : State) (i : SurfaceIx) (r : SurfaceRec) : (s.setSurface i r).episode = s.episode := rfl
@[simp] theorem State.setSurface_release (s : State) (i : SurfaceIx) (r : SurfaceRec) : (s.setSurface i r).release = s.release := rfl
@[simp] theorem State.setSurface_orders (s : State) (i : SurfaceIx) (r : SurfaceRec) : (s.setSurface i r).orders = s.orders := rfl
@[simp] theorem State.setSurface_headWrite (s : State) (i : SurfaceIx) (r : SurfaceRec) : (s.setSurface i r).headWrite = s.headWrite := rfl
@[simp] theorem State.setSurface_writeJob (s : State) (i : SurfaceIx) (r : SurfaceRec) : (s.setSurface i r).writeJob = s.writeJob := rfl
@[simp] theorem State.setSurface_writeResp (s : State) (i : SurfaceIx) (r : SurfaceRec) : (s.setSurface i r).writeResp = s.writeResp := rfl
@[simp] theorem State.setSurface_headRead (s : State) (i : SurfaceIx) (r : SurfaceRec) : (s.setSurface i r).headRead = s.headRead := rfl
@[simp] theorem State.setSurface_refusedRead (s : State) (i : SurfaceIx) (r : SurfaceRec) : (s.setSurface i r).refusedRead = s.refusedRead := rfl
@[simp] theorem State.setSurface_table (s : State) (i : SurfaceIx) (r : SurfaceRec) : (s.setSurface i r).table = s.table := rfl
@[simp] theorem State.setSurface_taken (s : State) (i : SurfaceIx) (r : SurfaceRec) : (s.setSurface i r).taken = s.taken := rfl
@[simp] theorem State.setSurface_handed (s : State) (i : SurfaceIx) (r : SurfaceRec) : (s.setSurface i r).handed = s.handed := rfl
@[simp] theorem State.setSurface_outstanding (s : State) (i : SurfaceIx) (r : SurfaceRec) : (s.setSurface i r).outstanding = s.outstanding := rfl
@[simp] theorem State.setSurface_abandonedTags (s : State) (i : SurfaceIx) (r : SurfaceRec) : (s.setSurface i r).abandonedTags = s.abandonedTags := rfl
@[simp] theorem State.setSurface_abandonedWrites (s : State) (i : SurfaceIx) (r : SurfaceRec) : (s.setSurface i r).abandonedWrites = s.abandonedWrites := rfl
@[simp] theorem State.setSurface_events (s : State) (i : SurfaceIx) (r : SurfaceRec) : (s.setSurface i r).events = s.events := rfl
@[simp] theorem State.setSurface_seqCounter (s : State) (i : SurfaceIx) (r : SurfaceRec) : (s.setSurface i r).seqCounter = s.seqCounter := rfl
@[simp] theorem State.setSurface_alertMask (s : State) (i : SurfaceIx) (r : SurfaceRec) : (s.setSurface i r).alertMask = s.alertMask := rfl
@[simp] theorem State.setSurface_apSlots (s : State) (i : SurfaceIx) (r : SurfaceRec) : (s.setSurface i r).apSlots = s.apSlots := rfl
@[simp] theorem State.setSurface_sfSlots (s : State) (i : SurfaceIx) (r : SurfaceRec) : (s.setSurface i r).sfSlots = s.sfSlots := rfl
@[simp] theorem State.setSurface_setSlot (s : State) (i : SurfaceIx) (r : SurfaceRec) : (s.setSurface i r).setSlot = s.setSlot := rfl
@[simp] theorem State.setSurface_saving (s : State) (i : SurfaceIx) (r : SurfaceRec) : (s.setSurface i r).saving = s.saving := rfl
@[simp] theorem State.setSurface_discarded (s : State) (i : SurfaceIx) (r : SurfaceRec) : (s.setSurface i r).discarded = s.discarded := rfl
@[simp] theorem State.setSurface_port (s : State) (i : SurfaceIx) (r : SurfaceRec) : (s.setSurface i r).port = s.port := rfl
@[simp] theorem State.setSurface_upWrite (s : State) (i : SurfaceIx) (r : SurfaceRec) : (s.setSurface i r).upWrite = s.upWrite := rfl
@[simp] theorem State.setSurface_upRead (s : State) (i : SurfaceIx) (r : SurfaceRec) : (s.setSurface i r).upRead = s.upRead := rfl
@[simp] theorem State.setSurface_pending (s : State) (i : SurfaceIx) (r : SurfaceRec) : (s.setSurface i r).pending = s.pending := rfl

/-! setAperture -/

@[simp] theorem State.setAperture_phase (s : State) (a : ApertureIx) (r : Aperture) : (s.setAperture a r).phase = s.phase := rfl
@[simp] theorem State.setAperture_mode (s : State) (a : ApertureIx) (r : Aperture) : (s.setAperture a r).mode = s.mode := rfl
@[simp] theorem State.setAperture_surfaces (s : State) (a : ApertureIx) (r : Aperture) : (s.setAperture a r).surfaces = s.surfaces := rfl
@[simp] theorem State.setAperture_apertures (s : State) (a : ApertureIx) (r : Aperture) : (s.setAperture a r).apertures = s.apertures.set a r := rfl
@[simp] theorem State.setAperture_cursors (s : State) (a : ApertureIx) (r : Aperture) : (s.setAperture a r).cursors = s.cursors := rfl
@[simp] theorem State.setAperture_scans (s : State) (a : ApertureIx) (r : Aperture) : (s.setAperture a r).scans = s.scans := rfl
@[simp] theorem State.setAperture_queue (s : State) (a : ApertureIx) (r : Aperture) : (s.setAperture a r).queue = s.queue := rfl
@[simp] theorem State.setAperture_highWater (s : State) (a : ApertureIx) (r : Aperture) : (s.setAperture a r).highWater = s.highWater := rfl
@[simp] theorem State.setAperture_episode (s : State) (a : ApertureIx) (r : Aperture) : (s.setAperture a r).episode = s.episode := rfl
@[simp] theorem State.setAperture_release (s : State) (a : ApertureIx) (r : Aperture) : (s.setAperture a r).release = s.release := rfl
@[simp] theorem State.setAperture_orders (s : State) (a : ApertureIx) (r : Aperture) : (s.setAperture a r).orders = s.orders := rfl
@[simp] theorem State.setAperture_headWrite (s : State) (a : ApertureIx) (r : Aperture) : (s.setAperture a r).headWrite = s.headWrite := rfl
@[simp] theorem State.setAperture_writeJob (s : State) (a : ApertureIx) (r : Aperture) : (s.setAperture a r).writeJob = s.writeJob := rfl
@[simp] theorem State.setAperture_writeResp (s : State) (a : ApertureIx) (r : Aperture) : (s.setAperture a r).writeResp = s.writeResp := rfl
@[simp] theorem State.setAperture_headRead (s : State) (a : ApertureIx) (r : Aperture) : (s.setAperture a r).headRead = s.headRead := rfl
@[simp] theorem State.setAperture_refusedRead (s : State) (a : ApertureIx) (r : Aperture) : (s.setAperture a r).refusedRead = s.refusedRead := rfl
@[simp] theorem State.setAperture_table (s : State) (a : ApertureIx) (r : Aperture) : (s.setAperture a r).table = s.table := rfl
@[simp] theorem State.setAperture_taken (s : State) (a : ApertureIx) (r : Aperture) : (s.setAperture a r).taken = s.taken := rfl
@[simp] theorem State.setAperture_handed (s : State) (a : ApertureIx) (r : Aperture) : (s.setAperture a r).handed = s.handed := rfl
@[simp] theorem State.setAperture_outstanding (s : State) (a : ApertureIx) (r : Aperture) : (s.setAperture a r).outstanding = s.outstanding := rfl
@[simp] theorem State.setAperture_abandonedTags (s : State) (a : ApertureIx) (r : Aperture) : (s.setAperture a r).abandonedTags = s.abandonedTags := rfl
@[simp] theorem State.setAperture_abandonedWrites (s : State) (a : ApertureIx) (r : Aperture) : (s.setAperture a r).abandonedWrites = s.abandonedWrites := rfl
@[simp] theorem State.setAperture_events (s : State) (a : ApertureIx) (r : Aperture) : (s.setAperture a r).events = s.events := rfl
@[simp] theorem State.setAperture_seqCounter (s : State) (a : ApertureIx) (r : Aperture) : (s.setAperture a r).seqCounter = s.seqCounter := rfl
@[simp] theorem State.setAperture_alertMask (s : State) (a : ApertureIx) (r : Aperture) : (s.setAperture a r).alertMask = s.alertMask := rfl
@[simp] theorem State.setAperture_apSlots (s : State) (a : ApertureIx) (r : Aperture) : (s.setAperture a r).apSlots = s.apSlots := rfl
@[simp] theorem State.setAperture_sfSlots (s : State) (a : ApertureIx) (r : Aperture) : (s.setAperture a r).sfSlots = s.sfSlots := rfl
@[simp] theorem State.setAperture_setSlot (s : State) (a : ApertureIx) (r : Aperture) : (s.setAperture a r).setSlot = s.setSlot := rfl
@[simp] theorem State.setAperture_saving (s : State) (a : ApertureIx) (r : Aperture) : (s.setAperture a r).saving = s.saving := rfl
@[simp] theorem State.setAperture_discarded (s : State) (a : ApertureIx) (r : Aperture) : (s.setAperture a r).discarded = s.discarded := rfl
@[simp] theorem State.setAperture_port (s : State) (a : ApertureIx) (r : Aperture) : (s.setAperture a r).port = s.port := rfl
@[simp] theorem State.setAperture_upWrite (s : State) (a : ApertureIx) (r : Aperture) : (s.setAperture a r).upWrite = s.upWrite := rfl
@[simp] theorem State.setAperture_upRead (s : State) (a : ApertureIx) (r : Aperture) : (s.setAperture a r).upRead = s.upRead := rfl
@[simp] theorem State.setAperture_pending (s : State) (a : ApertureIx) (r : Aperture) : (s.setAperture a r).pending = s.pending := rfl

/-! setCursor -/

@[simp] theorem State.setCursor_phase (s : State) (a : ApertureIx) (c : Cursor) : (s.setCursor a c).phase = s.phase := rfl
@[simp] theorem State.setCursor_mode (s : State) (a : ApertureIx) (c : Cursor) : (s.setCursor a c).mode = s.mode := rfl
@[simp] theorem State.setCursor_surfaces (s : State) (a : ApertureIx) (c : Cursor) : (s.setCursor a c).surfaces = s.surfaces := rfl
@[simp] theorem State.setCursor_apertures (s : State) (a : ApertureIx) (c : Cursor) : (s.setCursor a c).apertures = s.apertures := rfl
@[simp] theorem State.setCursor_cursors (s : State) (a : ApertureIx) (c : Cursor) : (s.setCursor a c).cursors = s.cursors.set a c := rfl
@[simp] theorem State.setCursor_scans (s : State) (a : ApertureIx) (c : Cursor) : (s.setCursor a c).scans = s.scans := rfl
@[simp] theorem State.setCursor_queue (s : State) (a : ApertureIx) (c : Cursor) : (s.setCursor a c).queue = s.queue := rfl
@[simp] theorem State.setCursor_highWater (s : State) (a : ApertureIx) (c : Cursor) : (s.setCursor a c).highWater = s.highWater := rfl
@[simp] theorem State.setCursor_episode (s : State) (a : ApertureIx) (c : Cursor) : (s.setCursor a c).episode = s.episode := rfl
@[simp] theorem State.setCursor_release (s : State) (a : ApertureIx) (c : Cursor) : (s.setCursor a c).release = s.release := rfl
@[simp] theorem State.setCursor_orders (s : State) (a : ApertureIx) (c : Cursor) : (s.setCursor a c).orders = s.orders := rfl
@[simp] theorem State.setCursor_headWrite (s : State) (a : ApertureIx) (c : Cursor) : (s.setCursor a c).headWrite = s.headWrite := rfl
@[simp] theorem State.setCursor_writeJob (s : State) (a : ApertureIx) (c : Cursor) : (s.setCursor a c).writeJob = s.writeJob := rfl
@[simp] theorem State.setCursor_writeResp (s : State) (a : ApertureIx) (c : Cursor) : (s.setCursor a c).writeResp = s.writeResp := rfl
@[simp] theorem State.setCursor_headRead (s : State) (a : ApertureIx) (c : Cursor) : (s.setCursor a c).headRead = s.headRead := rfl
@[simp] theorem State.setCursor_refusedRead (s : State) (a : ApertureIx) (c : Cursor) : (s.setCursor a c).refusedRead = s.refusedRead := rfl
@[simp] theorem State.setCursor_table (s : State) (a : ApertureIx) (c : Cursor) : (s.setCursor a c).table = s.table := rfl
@[simp] theorem State.setCursor_taken (s : State) (a : ApertureIx) (c : Cursor) : (s.setCursor a c).taken = s.taken := rfl
@[simp] theorem State.setCursor_handed (s : State) (a : ApertureIx) (c : Cursor) : (s.setCursor a c).handed = s.handed := rfl
@[simp] theorem State.setCursor_outstanding (s : State) (a : ApertureIx) (c : Cursor) : (s.setCursor a c).outstanding = s.outstanding := rfl
@[simp] theorem State.setCursor_abandonedTags (s : State) (a : ApertureIx) (c : Cursor) : (s.setCursor a c).abandonedTags = s.abandonedTags := rfl
@[simp] theorem State.setCursor_abandonedWrites (s : State) (a : ApertureIx) (c : Cursor) : (s.setCursor a c).abandonedWrites = s.abandonedWrites := rfl
@[simp] theorem State.setCursor_events (s : State) (a : ApertureIx) (c : Cursor) : (s.setCursor a c).events = s.events := rfl
@[simp] theorem State.setCursor_seqCounter (s : State) (a : ApertureIx) (c : Cursor) : (s.setCursor a c).seqCounter = s.seqCounter := rfl
@[simp] theorem State.setCursor_alertMask (s : State) (a : ApertureIx) (c : Cursor) : (s.setCursor a c).alertMask = s.alertMask := rfl
@[simp] theorem State.setCursor_apSlots (s : State) (a : ApertureIx) (c : Cursor) : (s.setCursor a c).apSlots = s.apSlots := rfl
@[simp] theorem State.setCursor_sfSlots (s : State) (a : ApertureIx) (c : Cursor) : (s.setCursor a c).sfSlots = s.sfSlots := rfl
@[simp] theorem State.setCursor_setSlot (s : State) (a : ApertureIx) (c : Cursor) : (s.setCursor a c).setSlot = s.setSlot := rfl
@[simp] theorem State.setCursor_saving (s : State) (a : ApertureIx) (c : Cursor) : (s.setCursor a c).saving = s.saving := rfl
@[simp] theorem State.setCursor_discarded (s : State) (a : ApertureIx) (c : Cursor) : (s.setCursor a c).discarded = s.discarded := rfl
@[simp] theorem State.setCursor_port (s : State) (a : ApertureIx) (c : Cursor) : (s.setCursor a c).port = s.port := rfl
@[simp] theorem State.setCursor_upWrite (s : State) (a : ApertureIx) (c : Cursor) : (s.setCursor a c).upWrite = s.upWrite := rfl
@[simp] theorem State.setCursor_upRead (s : State) (a : ApertureIx) (c : Cursor) : (s.setCursor a c).upRead = s.upRead := rfl
@[simp] theorem State.setCursor_pending (s : State) (a : ApertureIx) (c : Cursor) : (s.setCursor a c).pending = s.pending := rfl

/-! setScan -/

@[simp] theorem State.setScan_phase (s : State) (i : SurfaceIx) (c : ScanCtx) : (s.setScan i c).phase = s.phase := rfl
@[simp] theorem State.setScan_mode (s : State) (i : SurfaceIx) (c : ScanCtx) : (s.setScan i c).mode = s.mode := rfl
@[simp] theorem State.setScan_surfaces (s : State) (i : SurfaceIx) (c : ScanCtx) : (s.setScan i c).surfaces = s.surfaces := rfl
@[simp] theorem State.setScan_apertures (s : State) (i : SurfaceIx) (c : ScanCtx) : (s.setScan i c).apertures = s.apertures := rfl
@[simp] theorem State.setScan_cursors (s : State) (i : SurfaceIx) (c : ScanCtx) : (s.setScan i c).cursors = s.cursors := rfl
@[simp] theorem State.setScan_scans (s : State) (i : SurfaceIx) (c : ScanCtx) : (s.setScan i c).scans = s.scans.set i c := rfl
@[simp] theorem State.setScan_queue (s : State) (i : SurfaceIx) (c : ScanCtx) : (s.setScan i c).queue = s.queue := rfl
@[simp] theorem State.setScan_highWater (s : State) (i : SurfaceIx) (c : ScanCtx) : (s.setScan i c).highWater = s.highWater := rfl
@[simp] theorem State.setScan_episode (s : State) (i : SurfaceIx) (c : ScanCtx) : (s.setScan i c).episode = s.episode := rfl
@[simp] theorem State.setScan_release (s : State) (i : SurfaceIx) (c : ScanCtx) : (s.setScan i c).release = s.release := rfl
@[simp] theorem State.setScan_orders (s : State) (i : SurfaceIx) (c : ScanCtx) : (s.setScan i c).orders = s.orders := rfl
@[simp] theorem State.setScan_headWrite (s : State) (i : SurfaceIx) (c : ScanCtx) : (s.setScan i c).headWrite = s.headWrite := rfl
@[simp] theorem State.setScan_writeJob (s : State) (i : SurfaceIx) (c : ScanCtx) : (s.setScan i c).writeJob = s.writeJob := rfl
@[simp] theorem State.setScan_writeResp (s : State) (i : SurfaceIx) (c : ScanCtx) : (s.setScan i c).writeResp = s.writeResp := rfl
@[simp] theorem State.setScan_headRead (s : State) (i : SurfaceIx) (c : ScanCtx) : (s.setScan i c).headRead = s.headRead := rfl
@[simp] theorem State.setScan_refusedRead (s : State) (i : SurfaceIx) (c : ScanCtx) : (s.setScan i c).refusedRead = s.refusedRead := rfl
@[simp] theorem State.setScan_table (s : State) (i : SurfaceIx) (c : ScanCtx) : (s.setScan i c).table = s.table := rfl
@[simp] theorem State.setScan_taken (s : State) (i : SurfaceIx) (c : ScanCtx) : (s.setScan i c).taken = s.taken := rfl
@[simp] theorem State.setScan_handed (s : State) (i : SurfaceIx) (c : ScanCtx) : (s.setScan i c).handed = s.handed := rfl
@[simp] theorem State.setScan_outstanding (s : State) (i : SurfaceIx) (c : ScanCtx) : (s.setScan i c).outstanding = s.outstanding := rfl
@[simp] theorem State.setScan_abandonedTags (s : State) (i : SurfaceIx) (c : ScanCtx) : (s.setScan i c).abandonedTags = s.abandonedTags := rfl
@[simp] theorem State.setScan_abandonedWrites (s : State) (i : SurfaceIx) (c : ScanCtx) : (s.setScan i c).abandonedWrites = s.abandonedWrites := rfl
@[simp] theorem State.setScan_events (s : State) (i : SurfaceIx) (c : ScanCtx) : (s.setScan i c).events = s.events := rfl
@[simp] theorem State.setScan_seqCounter (s : State) (i : SurfaceIx) (c : ScanCtx) : (s.setScan i c).seqCounter = s.seqCounter := rfl
@[simp] theorem State.setScan_alertMask (s : State) (i : SurfaceIx) (c : ScanCtx) : (s.setScan i c).alertMask = s.alertMask := rfl
@[simp] theorem State.setScan_apSlots (s : State) (i : SurfaceIx) (c : ScanCtx) : (s.setScan i c).apSlots = s.apSlots := rfl
@[simp] theorem State.setScan_sfSlots (s : State) (i : SurfaceIx) (c : ScanCtx) : (s.setScan i c).sfSlots = s.sfSlots := rfl
@[simp] theorem State.setScan_setSlot (s : State) (i : SurfaceIx) (c : ScanCtx) : (s.setScan i c).setSlot = s.setSlot := rfl
@[simp] theorem State.setScan_saving (s : State) (i : SurfaceIx) (c : ScanCtx) : (s.setScan i c).saving = s.saving := rfl
@[simp] theorem State.setScan_discarded (s : State) (i : SurfaceIx) (c : ScanCtx) : (s.setScan i c).discarded = s.discarded := rfl
@[simp] theorem State.setScan_port (s : State) (i : SurfaceIx) (c : ScanCtx) : (s.setScan i c).port = s.port := rfl
@[simp] theorem State.setScan_upWrite (s : State) (i : SurfaceIx) (c : ScanCtx) : (s.setScan i c).upWrite = s.upWrite := rfl
@[simp] theorem State.setScan_upRead (s : State) (i : SurfaceIx) (c : ScanCtx) : (s.setScan i c).upRead = s.upRead := rfl
@[simp] theorem State.setScan_pending (s : State) (i : SurfaceIx) (c : ScanCtx) : (s.setScan i c).pending = s.pending := rfl

/-! setEntry -/

@[simp] theorem State.setEntry_phase (s : State) (e : EntryIx) (r : Option Entry) : (s.setEntry e r).phase = s.phase := rfl
@[simp] theorem State.setEntry_mode (s : State) (e : EntryIx) (r : Option Entry) : (s.setEntry e r).mode = s.mode := rfl
@[simp] theorem State.setEntry_surfaces (s : State) (e : EntryIx) (r : Option Entry) : (s.setEntry e r).surfaces = s.surfaces := rfl
@[simp] theorem State.setEntry_apertures (s : State) (e : EntryIx) (r : Option Entry) : (s.setEntry e r).apertures = s.apertures := rfl
@[simp] theorem State.setEntry_cursors (s : State) (e : EntryIx) (r : Option Entry) : (s.setEntry e r).cursors = s.cursors := rfl
@[simp] theorem State.setEntry_scans (s : State) (e : EntryIx) (r : Option Entry) : (s.setEntry e r).scans = s.scans := rfl
@[simp] theorem State.setEntry_queue (s : State) (e : EntryIx) (r : Option Entry) : (s.setEntry e r).queue = s.queue := rfl
@[simp] theorem State.setEntry_highWater (s : State) (e : EntryIx) (r : Option Entry) : (s.setEntry e r).highWater = s.highWater := rfl
@[simp] theorem State.setEntry_episode (s : State) (e : EntryIx) (r : Option Entry) : (s.setEntry e r).episode = s.episode := rfl
@[simp] theorem State.setEntry_release (s : State) (e : EntryIx) (r : Option Entry) : (s.setEntry e r).release = s.release := rfl
@[simp] theorem State.setEntry_orders (s : State) (e : EntryIx) (r : Option Entry) : (s.setEntry e r).orders = s.orders := rfl
@[simp] theorem State.setEntry_headWrite (s : State) (e : EntryIx) (r : Option Entry) : (s.setEntry e r).headWrite = s.headWrite := rfl
@[simp] theorem State.setEntry_writeJob (s : State) (e : EntryIx) (r : Option Entry) : (s.setEntry e r).writeJob = s.writeJob := rfl
@[simp] theorem State.setEntry_writeResp (s : State) (e : EntryIx) (r : Option Entry) : (s.setEntry e r).writeResp = s.writeResp := rfl
@[simp] theorem State.setEntry_headRead (s : State) (e : EntryIx) (r : Option Entry) : (s.setEntry e r).headRead = s.headRead := rfl
@[simp] theorem State.setEntry_refusedRead (s : State) (e : EntryIx) (r : Option Entry) : (s.setEntry e r).refusedRead = s.refusedRead := rfl
@[simp] theorem State.setEntry_table (s : State) (e : EntryIx) (r : Option Entry) : (s.setEntry e r).table = s.table.set e r := rfl
@[simp] theorem State.setEntry_taken (s : State) (e : EntryIx) (r : Option Entry) : (s.setEntry e r).taken = s.taken := rfl
@[simp] theorem State.setEntry_handed (s : State) (e : EntryIx) (r : Option Entry) : (s.setEntry e r).handed = s.handed := rfl
@[simp] theorem State.setEntry_outstanding (s : State) (e : EntryIx) (r : Option Entry) : (s.setEntry e r).outstanding = s.outstanding := rfl
@[simp] theorem State.setEntry_abandonedTags (s : State) (e : EntryIx) (r : Option Entry) : (s.setEntry e r).abandonedTags = s.abandonedTags := rfl
@[simp] theorem State.setEntry_abandonedWrites (s : State) (e : EntryIx) (r : Option Entry) : (s.setEntry e r).abandonedWrites = s.abandonedWrites := rfl
@[simp] theorem State.setEntry_events (s : State) (e : EntryIx) (r : Option Entry) : (s.setEntry e r).events = s.events := rfl
@[simp] theorem State.setEntry_seqCounter (s : State) (e : EntryIx) (r : Option Entry) : (s.setEntry e r).seqCounter = s.seqCounter := rfl
@[simp] theorem State.setEntry_alertMask (s : State) (e : EntryIx) (r : Option Entry) : (s.setEntry e r).alertMask = s.alertMask := rfl
@[simp] theorem State.setEntry_apSlots (s : State) (e : EntryIx) (r : Option Entry) : (s.setEntry e r).apSlots = s.apSlots := rfl
@[simp] theorem State.setEntry_sfSlots (s : State) (e : EntryIx) (r : Option Entry) : (s.setEntry e r).sfSlots = s.sfSlots := rfl
@[simp] theorem State.setEntry_setSlot (s : State) (e : EntryIx) (r : Option Entry) : (s.setEntry e r).setSlot = s.setSlot := rfl
@[simp] theorem State.setEntry_saving (s : State) (e : EntryIx) (r : Option Entry) : (s.setEntry e r).saving = s.saving := rfl
@[simp] theorem State.setEntry_discarded (s : State) (e : EntryIx) (r : Option Entry) : (s.setEntry e r).discarded = s.discarded := rfl
@[simp] theorem State.setEntry_port (s : State) (e : EntryIx) (r : Option Entry) : (s.setEntry e r).port = s.port := rfl
@[simp] theorem State.setEntry_upWrite (s : State) (e : EntryIx) (r : Option Entry) : (s.setEntry e r).upWrite = s.upWrite := rfl
@[simp] theorem State.setEntry_upRead (s : State) (e : EntryIx) (r : Option Entry) : (s.setEntry e r).upRead = s.upRead := rfl
@[simp] theorem State.setEntry_pending (s : State) (e : EntryIx) (r : Option Entry) : (s.setEntry e r).pending = s.pending := rfl

/-! setPort -/

@[simp] theorem State.setPort_phase (s : State) (p : Port) : (s.setPort p).phase = s.phase := rfl
@[simp] theorem State.setPort_mode (s : State) (p : Port) : (s.setPort p).mode = s.mode := rfl
@[simp] theorem State.setPort_surfaces (s : State) (p : Port) : (s.setPort p).surfaces = s.surfaces := rfl
@[simp] theorem State.setPort_apertures (s : State) (p : Port) : (s.setPort p).apertures = s.apertures := rfl
@[simp] theorem State.setPort_cursors (s : State) (p : Port) : (s.setPort p).cursors = s.cursors := rfl
@[simp] theorem State.setPort_scans (s : State) (p : Port) : (s.setPort p).scans = s.scans := rfl
@[simp] theorem State.setPort_queue (s : State) (p : Port) : (s.setPort p).queue = s.queue := rfl
@[simp] theorem State.setPort_highWater (s : State) (p : Port) : (s.setPort p).highWater = s.highWater := rfl
@[simp] theorem State.setPort_episode (s : State) (p : Port) : (s.setPort p).episode = s.episode := rfl
@[simp] theorem State.setPort_release (s : State) (p : Port) : (s.setPort p).release = s.release := rfl
@[simp] theorem State.setPort_orders (s : State) (p : Port) : (s.setPort p).orders = s.orders := rfl
@[simp] theorem State.setPort_headWrite (s : State) (p : Port) : (s.setPort p).headWrite = s.headWrite := rfl
@[simp] theorem State.setPort_writeJob (s : State) (p : Port) : (s.setPort p).writeJob = s.writeJob := rfl
@[simp] theorem State.setPort_writeResp (s : State) (p : Port) : (s.setPort p).writeResp = s.writeResp := rfl
@[simp] theorem State.setPort_headRead (s : State) (p : Port) : (s.setPort p).headRead = s.headRead := rfl
@[simp] theorem State.setPort_refusedRead (s : State) (p : Port) : (s.setPort p).refusedRead = s.refusedRead := rfl
@[simp] theorem State.setPort_table (s : State) (p : Port) : (s.setPort p).table = s.table := rfl
@[simp] theorem State.setPort_taken (s : State) (p : Port) : (s.setPort p).taken = s.taken := rfl
@[simp] theorem State.setPort_handed (s : State) (p : Port) : (s.setPort p).handed = s.handed := rfl
@[simp] theorem State.setPort_outstanding (s : State) (p : Port) : (s.setPort p).outstanding = s.outstanding := rfl
@[simp] theorem State.setPort_abandonedTags (s : State) (p : Port) : (s.setPort p).abandonedTags = s.abandonedTags := rfl
@[simp] theorem State.setPort_abandonedWrites (s : State) (p : Port) : (s.setPort p).abandonedWrites = s.abandonedWrites := rfl
@[simp] theorem State.setPort_events (s : State) (p : Port) : (s.setPort p).events = s.events := rfl
@[simp] theorem State.setPort_seqCounter (s : State) (p : Port) : (s.setPort p).seqCounter = s.seqCounter := rfl
@[simp] theorem State.setPort_alertMask (s : State) (p : Port) : (s.setPort p).alertMask = s.alertMask := rfl
@[simp] theorem State.setPort_apSlots (s : State) (p : Port) : (s.setPort p).apSlots = s.apSlots := rfl
@[simp] theorem State.setPort_sfSlots (s : State) (p : Port) : (s.setPort p).sfSlots = s.sfSlots := rfl
@[simp] theorem State.setPort_setSlot (s : State) (p : Port) : (s.setPort p).setSlot = s.setSlot := rfl
@[simp] theorem State.setPort_saving (s : State) (p : Port) : (s.setPort p).saving = s.saving := rfl
@[simp] theorem State.setPort_discarded (s : State) (p : Port) : (s.setPort p).discarded = s.discarded := rfl
@[simp] theorem State.setPort_port (s : State) (p : Port) : (s.setPort p).port = p := rfl
@[simp] theorem State.setPort_upWrite (s : State) (p : Port) : (s.setPort p).upWrite = s.upWrite := rfl
@[simp] theorem State.setPort_upRead (s : State) (p : Port) : (s.setPort p).upRead = s.upRead := rfl
@[simp] theorem State.setPort_pending (s : State) (p : Port) : (s.setPort p).pending = s.pending := rfl

/-! raise -/

@[simp] theorem State.raise_phase (s : State) (b : EventBody) : (s.raise b).phase = s.phase := rfl
@[simp] theorem State.raise_mode (s : State) (b : EventBody) : (s.raise b).mode = s.mode := rfl
@[simp] theorem State.raise_surfaces (s : State) (b : EventBody) : (s.raise b).surfaces = s.surfaces := rfl
@[simp] theorem State.raise_apertures (s : State) (b : EventBody) : (s.raise b).apertures = s.apertures := rfl
@[simp] theorem State.raise_cursors (s : State) (b : EventBody) : (s.raise b).cursors = s.cursors := rfl
@[simp] theorem State.raise_scans (s : State) (b : EventBody) : (s.raise b).scans = s.scans := rfl
@[simp] theorem State.raise_queue (s : State) (b : EventBody) : (s.raise b).queue = s.queue := rfl
@[simp] theorem State.raise_highWater (s : State) (b : EventBody) : (s.raise b).highWater = s.highWater := rfl
@[simp] theorem State.raise_episode (s : State) (b : EventBody) : (s.raise b).episode = s.episode := rfl
@[simp] theorem State.raise_release (s : State) (b : EventBody) : (s.raise b).release = s.release := rfl
@[simp] theorem State.raise_orders (s : State) (b : EventBody) : (s.raise b).orders = s.orders := rfl
@[simp] theorem State.raise_headWrite (s : State) (b : EventBody) : (s.raise b).headWrite = s.headWrite := rfl
@[simp] theorem State.raise_writeJob (s : State) (b : EventBody) : (s.raise b).writeJob = s.writeJob := rfl
@[simp] theorem State.raise_writeResp (s : State) (b : EventBody) : (s.raise b).writeResp = s.writeResp := rfl
@[simp] theorem State.raise_headRead (s : State) (b : EventBody) : (s.raise b).headRead = s.headRead := rfl
@[simp] theorem State.raise_refusedRead (s : State) (b : EventBody) : (s.raise b).refusedRead = s.refusedRead := rfl
@[simp] theorem State.raise_table (s : State) (b : EventBody) : (s.raise b).table = s.table := rfl
@[simp] theorem State.raise_taken (s : State) (b : EventBody) : (s.raise b).taken = s.taken := rfl
@[simp] theorem State.raise_handed (s : State) (b : EventBody) : (s.raise b).handed = s.handed := rfl
@[simp] theorem State.raise_outstanding (s : State) (b : EventBody) : (s.raise b).outstanding = s.outstanding := rfl
@[simp] theorem State.raise_abandonedTags (s : State) (b : EventBody) : (s.raise b).abandonedTags = s.abandonedTags := rfl
@[simp] theorem State.raise_abandonedWrites (s : State) (b : EventBody) : (s.raise b).abandonedWrites = s.abandonedWrites := rfl
@[simp] theorem State.raise_seqCounter (s : State) (b : EventBody) : (s.raise b).seqCounter = s.seqCounter + 1 := rfl
@[simp] theorem State.raise_alertMask (s : State) (b : EventBody) : (s.raise b).alertMask = s.alertMask := rfl
@[simp] theorem State.raise_apSlots (s : State) (b : EventBody) : (s.raise b).apSlots = s.apSlots := rfl
@[simp] theorem State.raise_sfSlots (s : State) (b : EventBody) : (s.raise b).sfSlots = s.sfSlots := rfl
@[simp] theorem State.raise_setSlot (s : State) (b : EventBody) : (s.raise b).setSlot = s.setSlot := rfl
@[simp] theorem State.raise_saving (s : State) (b : EventBody) : (s.raise b).saving = s.saving := rfl
@[simp] theorem State.raise_discarded (s : State) (b : EventBody) : (s.raise b).discarded = s.discarded := rfl
@[simp] theorem State.raise_port (s : State) (b : EventBody) : (s.raise b).port = s.port := rfl
@[simp] theorem State.raise_upWrite (s : State) (b : EventBody) : (s.raise b).upWrite = s.upWrite := rfl
@[simp] theorem State.raise_upRead (s : State) (b : EventBody) : (s.raise b).upRead = s.upRead := rfl
@[simp] theorem State.raise_pending (s : State) (b : EventBody) : (s.raise b).pending = s.pending := rfl

/-! resetCursor -/

@[simp] theorem State.resetCursor_phase (s : State) (a : ApertureIx) : (s.resetCursor a).phase = s.phase := rfl
@[simp] theorem State.resetCursor_mode (s : State) (a : ApertureIx) : (s.resetCursor a).mode = s.mode := rfl
@[simp] theorem State.resetCursor_surfaces (s : State) (a : ApertureIx) : (s.resetCursor a).surfaces = s.surfaces := rfl
@[simp] theorem State.resetCursor_apertures (s : State) (a : ApertureIx) : (s.resetCursor a).apertures = s.apertures := rfl
@[simp] theorem State.resetCursor_cursors (s : State) (a : ApertureIx) : (s.resetCursor a).cursors = s.cursors.set a (Cursor.start s.apertures[a].fields.window) := rfl
@[simp] theorem State.resetCursor_scans (s : State) (a : ApertureIx) : (s.resetCursor a).scans = s.scans := rfl
@[simp] theorem State.resetCursor_queue (s : State) (a : ApertureIx) : (s.resetCursor a).queue = s.queue := rfl
@[simp] theorem State.resetCursor_highWater (s : State) (a : ApertureIx) : (s.resetCursor a).highWater = s.highWater := rfl
@[simp] theorem State.resetCursor_episode (s : State) (a : ApertureIx) : (s.resetCursor a).episode = s.episode := rfl
@[simp] theorem State.resetCursor_release (s : State) (a : ApertureIx) : (s.resetCursor a).release = s.release := rfl
@[simp] theorem State.resetCursor_orders (s : State) (a : ApertureIx) : (s.resetCursor a).orders = s.orders := rfl
@[simp] theorem State.resetCursor_headWrite (s : State) (a : ApertureIx) : (s.resetCursor a).headWrite = s.headWrite := rfl
@[simp] theorem State.resetCursor_writeJob (s : State) (a : ApertureIx) : (s.resetCursor a).writeJob = s.writeJob := rfl
@[simp] theorem State.resetCursor_writeResp (s : State) (a : ApertureIx) : (s.resetCursor a).writeResp = s.writeResp := rfl
@[simp] theorem State.resetCursor_headRead (s : State) (a : ApertureIx) : (s.resetCursor a).headRead = s.headRead := rfl
@[simp] theorem State.resetCursor_refusedRead (s : State) (a : ApertureIx) : (s.resetCursor a).refusedRead = s.refusedRead := rfl
@[simp] theorem State.resetCursor_table (s : State) (a : ApertureIx) : (s.resetCursor a).table = s.table := rfl
@[simp] theorem State.resetCursor_taken (s : State) (a : ApertureIx) : (s.resetCursor a).taken = s.taken := rfl
@[simp] theorem State.resetCursor_handed (s : State) (a : ApertureIx) : (s.resetCursor a).handed = s.handed := rfl
@[simp] theorem State.resetCursor_outstanding (s : State) (a : ApertureIx) : (s.resetCursor a).outstanding = s.outstanding := rfl
@[simp] theorem State.resetCursor_abandonedTags (s : State) (a : ApertureIx) : (s.resetCursor a).abandonedTags = s.abandonedTags := rfl
@[simp] theorem State.resetCursor_abandonedWrites (s : State) (a : ApertureIx) : (s.resetCursor a).abandonedWrites = s.abandonedWrites := rfl
@[simp] theorem State.resetCursor_events (s : State) (a : ApertureIx) : (s.resetCursor a).events = s.events := rfl
@[simp] theorem State.resetCursor_seqCounter (s : State) (a : ApertureIx) : (s.resetCursor a).seqCounter = s.seqCounter := rfl
@[simp] theorem State.resetCursor_alertMask (s : State) (a : ApertureIx) : (s.resetCursor a).alertMask = s.alertMask := rfl
@[simp] theorem State.resetCursor_apSlots (s : State) (a : ApertureIx) : (s.resetCursor a).apSlots = s.apSlots := rfl
@[simp] theorem State.resetCursor_sfSlots (s : State) (a : ApertureIx) : (s.resetCursor a).sfSlots = s.sfSlots := rfl
@[simp] theorem State.resetCursor_setSlot (s : State) (a : ApertureIx) : (s.resetCursor a).setSlot = s.setSlot := rfl
@[simp] theorem State.resetCursor_saving (s : State) (a : ApertureIx) : (s.resetCursor a).saving = s.saving := rfl
@[simp] theorem State.resetCursor_discarded (s : State) (a : ApertureIx) : (s.resetCursor a).discarded = s.discarded := rfl
@[simp] theorem State.resetCursor_port (s : State) (a : ApertureIx) : (s.resetCursor a).port = s.port := rfl
@[simp] theorem State.resetCursor_upWrite (s : State) (a : ApertureIx) : (s.resetCursor a).upWrite = s.upWrite := rfl
@[simp] theorem State.resetCursor_upRead (s : State) (a : ApertureIx) : (s.resetCursor a).upRead = s.upRead := rfl
@[simp] theorem State.resetCursor_pending (s : State) (a : ApertureIx) : (s.resetCursor a).pending = s.pending := rfl

/-! resetCursors -/

@[simp] theorem State.resetCursors_phase (s : State) : (s.resetCursors).phase = s.phase := rfl
@[simp] theorem State.resetCursors_mode (s : State) : (s.resetCursors).mode = s.mode := rfl
@[simp] theorem State.resetCursors_surfaces (s : State) : (s.resetCursors).surfaces = s.surfaces := rfl
@[simp] theorem State.resetCursors_apertures (s : State) : (s.resetCursors).apertures = s.apertures := rfl
@[simp] theorem State.resetCursors_scans (s : State) : (s.resetCursors).scans = s.scans := rfl
@[simp] theorem State.resetCursors_queue (s : State) : (s.resetCursors).queue = s.queue := rfl
@[simp] theorem State.resetCursors_highWater (s : State) : (s.resetCursors).highWater = s.highWater := rfl
@[simp] theorem State.resetCursors_episode (s : State) : (s.resetCursors).episode = s.episode := rfl
@[simp] theorem State.resetCursors_release (s : State) : (s.resetCursors).release = s.release := rfl
@[simp] theorem State.resetCursors_orders (s : State) : (s.resetCursors).orders = s.orders := rfl
@[simp] theorem State.resetCursors_headWrite (s : State) : (s.resetCursors).headWrite = s.headWrite := rfl
@[simp] theorem State.resetCursors_writeJob (s : State) : (s.resetCursors).writeJob = s.writeJob := rfl
@[simp] theorem State.resetCursors_writeResp (s : State) : (s.resetCursors).writeResp = s.writeResp := rfl
@[simp] theorem State.resetCursors_headRead (s : State) : (s.resetCursors).headRead = s.headRead := rfl
@[simp] theorem State.resetCursors_refusedRead (s : State) : (s.resetCursors).refusedRead = s.refusedRead := rfl
@[simp] theorem State.resetCursors_table (s : State) : (s.resetCursors).table = s.table := rfl
@[simp] theorem State.resetCursors_taken (s : State) : (s.resetCursors).taken = s.taken := rfl
@[simp] theorem State.resetCursors_handed (s : State) : (s.resetCursors).handed = s.handed := rfl
@[simp] theorem State.resetCursors_outstanding (s : State) : (s.resetCursors).outstanding = s.outstanding := rfl
@[simp] theorem State.resetCursors_abandonedTags (s : State) : (s.resetCursors).abandonedTags = s.abandonedTags := rfl
@[simp] theorem State.resetCursors_abandonedWrites (s : State) : (s.resetCursors).abandonedWrites = s.abandonedWrites := rfl
@[simp] theorem State.resetCursors_events (s : State) : (s.resetCursors).events = s.events := rfl
@[simp] theorem State.resetCursors_seqCounter (s : State) : (s.resetCursors).seqCounter = s.seqCounter := rfl
@[simp] theorem State.resetCursors_alertMask (s : State) : (s.resetCursors).alertMask = s.alertMask := rfl
@[simp] theorem State.resetCursors_apSlots (s : State) : (s.resetCursors).apSlots = s.apSlots := rfl
@[simp] theorem State.resetCursors_sfSlots (s : State) : (s.resetCursors).sfSlots = s.sfSlots := rfl
@[simp] theorem State.resetCursors_setSlot (s : State) : (s.resetCursors).setSlot = s.setSlot := rfl
@[simp] theorem State.resetCursors_saving (s : State) : (s.resetCursors).saving = s.saving := rfl
@[simp] theorem State.resetCursors_discarded (s : State) : (s.resetCursors).discarded = s.discarded := rfl
@[simp] theorem State.resetCursors_port (s : State) : (s.resetCursors).port = s.port := rfl
@[simp] theorem State.resetCursors_upWrite (s : State) : (s.resetCursors).upWrite = s.upWrite := rfl
@[simp] theorem State.resetCursors_upRead (s : State) : (s.resetCursors).upRead = s.upRead := rfl
@[simp] theorem State.resetCursors_pending (s : State) : (s.resetCursors).pending = s.pending := rfl

/-! tick -/

@[simp] theorem State.tick_phase (s : State) : (s.tick).phase = s.phase := rfl
@[simp] theorem State.tick_mode (s : State) : (s.tick).mode = s.mode := rfl
@[simp] theorem State.tick_surfaces (s : State) : (s.tick).surfaces = s.surfaces := rfl
@[simp] theorem State.tick_apertures (s : State) : (s.tick).apertures = s.apertures := rfl
@[simp] theorem State.tick_cursors (s : State) : (s.tick).cursors = s.cursors := rfl
@[simp] theorem State.tick_queue (s : State) : (s.tick).queue = s.queue := rfl
@[simp] theorem State.tick_highWater (s : State) : (s.tick).highWater = s.highWater := rfl
@[simp] theorem State.tick_episode (s : State) : (s.tick).episode = s.episode := rfl
@[simp] theorem State.tick_release (s : State) : (s.tick).release = s.release := rfl
@[simp] theorem State.tick_orders (s : State) : (s.tick).orders = s.orders := rfl
@[simp] theorem State.tick_headWrite (s : State) : (s.tick).headWrite = s.headWrite := rfl
@[simp] theorem State.tick_writeJob (s : State) : (s.tick).writeJob = s.writeJob := rfl
@[simp] theorem State.tick_writeResp (s : State) : (s.tick).writeResp = s.writeResp := rfl
@[simp] theorem State.tick_headRead (s : State) : (s.tick).headRead = s.headRead := rfl
@[simp] theorem State.tick_refusedRead (s : State) : (s.tick).refusedRead = s.refusedRead := rfl
@[simp] theorem State.tick_table (s : State) : (s.tick).table = s.table := rfl
@[simp] theorem State.tick_taken (s : State) : (s.tick).taken = s.taken := rfl
@[simp] theorem State.tick_handed (s : State) : (s.tick).handed = s.handed := rfl
@[simp] theorem State.tick_outstanding (s : State) : (s.tick).outstanding = s.outstanding := rfl
@[simp] theorem State.tick_abandonedTags (s : State) : (s.tick).abandonedTags = s.abandonedTags := rfl
@[simp] theorem State.tick_abandonedWrites (s : State) : (s.tick).abandonedWrites = s.abandonedWrites := rfl
@[simp] theorem State.tick_events (s : State) : (s.tick).events = s.events := rfl
@[simp] theorem State.tick_seqCounter (s : State) : (s.tick).seqCounter = s.seqCounter := rfl
@[simp] theorem State.tick_alertMask (s : State) : (s.tick).alertMask = s.alertMask := rfl
@[simp] theorem State.tick_apSlots (s : State) : (s.tick).apSlots = s.apSlots := rfl
@[simp] theorem State.tick_sfSlots (s : State) : (s.tick).sfSlots = s.sfSlots := rfl
@[simp] theorem State.tick_setSlot (s : State) : (s.tick).setSlot = s.setSlot := rfl
@[simp] theorem State.tick_saving (s : State) : (s.tick).saving = s.saving := rfl
@[simp] theorem State.tick_discarded (s : State) : (s.tick).discarded = s.discarded := rfl
@[simp] theorem State.tick_port (s : State) : (s.tick).port = s.port := rfl
@[simp] theorem State.tick_upWrite (s : State) : (s.tick).upWrite = s.upWrite := rfl
@[simp] theorem State.tick_upRead (s : State) : (s.tick).upRead = s.upRead := rfl
@[simp] theorem State.tick_pending (s : State) : (s.tick).pending = s.pending := rfl

/-! takeWrite -/

@[simp] theorem State.takeWrite_phase (s : State) : (s.takeWrite).phase = s.phase := rfl
@[simp] theorem State.takeWrite_mode (s : State) : (s.takeWrite).mode = s.mode := rfl
@[simp] theorem State.takeWrite_surfaces (s : State) : (s.takeWrite).surfaces = s.surfaces := rfl
@[simp] theorem State.takeWrite_apertures (s : State) : (s.takeWrite).apertures = s.apertures := rfl
@[simp] theorem State.takeWrite_cursors (s : State) : (s.takeWrite).cursors = s.cursors := rfl
@[simp] theorem State.takeWrite_scans (s : State) : (s.takeWrite).scans = s.scans := rfl
@[simp] theorem State.takeWrite_queue (s : State) : (s.takeWrite).queue = s.queue := rfl
@[simp] theorem State.takeWrite_highWater (s : State) : (s.takeWrite).highWater = s.highWater := rfl
@[simp] theorem State.takeWrite_episode (s : State) : (s.takeWrite).episode = false := rfl
@[simp] theorem State.takeWrite_release (s : State) : (s.takeWrite).release = s.release := rfl
@[simp] theorem State.takeWrite_orders (s : State) : (s.takeWrite).orders = s.orders := rfl
@[simp] theorem State.takeWrite_headWrite (s : State) : (s.takeWrite).headWrite = none := rfl
@[simp] theorem State.takeWrite_writeJob (s : State) : (s.takeWrite).writeJob = s.writeJob := rfl
@[simp] theorem State.takeWrite_writeResp (s : State) : (s.takeWrite).writeResp = s.writeResp := rfl
@[simp] theorem State.takeWrite_headRead (s : State) : (s.takeWrite).headRead = s.headRead := rfl
@[simp] theorem State.takeWrite_refusedRead (s : State) : (s.takeWrite).refusedRead = s.refusedRead := rfl
@[simp] theorem State.takeWrite_table (s : State) : (s.takeWrite).table = s.table := rfl
@[simp] theorem State.takeWrite_taken (s : State) : (s.takeWrite).taken = s.taken := rfl
@[simp] theorem State.takeWrite_handed (s : State) : (s.takeWrite).handed = s.handed := rfl
@[simp] theorem State.takeWrite_outstanding (s : State) : (s.takeWrite).outstanding = s.outstanding := rfl
@[simp] theorem State.takeWrite_abandonedTags (s : State) : (s.takeWrite).abandonedTags = s.abandonedTags := rfl
@[simp] theorem State.takeWrite_abandonedWrites (s : State) : (s.takeWrite).abandonedWrites = s.abandonedWrites := rfl
@[simp] theorem State.takeWrite_events (s : State) : (s.takeWrite).events = s.events := rfl
@[simp] theorem State.takeWrite_seqCounter (s : State) : (s.takeWrite).seqCounter = s.seqCounter := rfl
@[simp] theorem State.takeWrite_alertMask (s : State) : (s.takeWrite).alertMask = s.alertMask := rfl
@[simp] theorem State.takeWrite_apSlots (s : State) : (s.takeWrite).apSlots = s.apSlots := rfl
@[simp] theorem State.takeWrite_sfSlots (s : State) : (s.takeWrite).sfSlots = s.sfSlots := rfl
@[simp] theorem State.takeWrite_setSlot (s : State) : (s.takeWrite).setSlot = s.setSlot := rfl
@[simp] theorem State.takeWrite_saving (s : State) : (s.takeWrite).saving = s.saving := rfl
@[simp] theorem State.takeWrite_discarded (s : State) : (s.takeWrite).discarded = s.discarded := rfl
@[simp] theorem State.takeWrite_port (s : State) : (s.takeWrite).port = s.port := rfl
@[simp] theorem State.takeWrite_upWrite (s : State) : (s.takeWrite).upWrite = s.upWrite := rfl
@[simp] theorem State.takeWrite_upRead (s : State) : (s.takeWrite).upRead = s.upRead := rfl
@[simp] theorem State.takeWrite_pending (s : State) : (s.takeWrite).pending = s.pending := rfl

/-! answerWrite -/

@[simp] theorem State.answerWrite_phase (s : State) (q : Requester) (t : Tag) (st : RespStatus) : (s.answerWrite q t st).phase = s.phase := rfl
@[simp] theorem State.answerWrite_mode (s : State) (q : Requester) (t : Tag) (st : RespStatus) : (s.answerWrite q t st).mode = s.mode := rfl
@[simp] theorem State.answerWrite_surfaces (s : State) (q : Requester) (t : Tag) (st : RespStatus) : (s.answerWrite q t st).surfaces = s.surfaces := rfl
@[simp] theorem State.answerWrite_apertures (s : State) (q : Requester) (t : Tag) (st : RespStatus) : (s.answerWrite q t st).apertures = s.apertures := rfl
@[simp] theorem State.answerWrite_cursors (s : State) (q : Requester) (t : Tag) (st : RespStatus) : (s.answerWrite q t st).cursors = s.cursors := rfl
@[simp] theorem State.answerWrite_scans (s : State) (q : Requester) (t : Tag) (st : RespStatus) : (s.answerWrite q t st).scans = s.scans := rfl
@[simp] theorem State.answerWrite_queue (s : State) (q : Requester) (t : Tag) (st : RespStatus) : (s.answerWrite q t st).queue = s.queue := rfl
@[simp] theorem State.answerWrite_highWater (s : State) (q : Requester) (t : Tag) (st : RespStatus) : (s.answerWrite q t st).highWater = s.highWater := rfl
@[simp] theorem State.answerWrite_episode (s : State) (q : Requester) (t : Tag) (st : RespStatus) : (s.answerWrite q t st).episode = s.episode := rfl
@[simp] theorem State.answerWrite_release (s : State) (q : Requester) (t : Tag) (st : RespStatus) : (s.answerWrite q t st).release = s.release := rfl
@[simp] theorem State.answerWrite_orders (s : State) (q : Requester) (t : Tag) (st : RespStatus) : (s.answerWrite q t st).orders = s.orders := rfl
@[simp] theorem State.answerWrite_headWrite (s : State) (q : Requester) (t : Tag) (st : RespStatus) : (s.answerWrite q t st).headWrite = s.headWrite := rfl
@[simp] theorem State.answerWrite_writeJob (s : State) (q : Requester) (t : Tag) (st : RespStatus) : (s.answerWrite q t st).writeJob = none := rfl
@[simp] theorem State.answerWrite_writeResp (s : State) (q : Requester) (t : Tag) (st : RespStatus) : (s.answerWrite q t st).writeResp = some ⟨q, t, st⟩ := rfl
@[simp] theorem State.answerWrite_headRead (s : State) (q : Requester) (t : Tag) (st : RespStatus) : (s.answerWrite q t st).headRead = s.headRead := rfl
@[simp] theorem State.answerWrite_refusedRead (s : State) (q : Requester) (t : Tag) (st : RespStatus) : (s.answerWrite q t st).refusedRead = s.refusedRead := rfl
@[simp] theorem State.answerWrite_table (s : State) (q : Requester) (t : Tag) (st : RespStatus) : (s.answerWrite q t st).table = s.table := rfl
@[simp] theorem State.answerWrite_taken (s : State) (q : Requester) (t : Tag) (st : RespStatus) : (s.answerWrite q t st).taken = s.taken := rfl
@[simp] theorem State.answerWrite_handed (s : State) (q : Requester) (t : Tag) (st : RespStatus) : (s.answerWrite q t st).handed = s.handed := rfl
@[simp] theorem State.answerWrite_outstanding (s : State) (q : Requester) (t : Tag) (st : RespStatus) : (s.answerWrite q t st).outstanding = s.outstanding := rfl
@[simp] theorem State.answerWrite_abandonedTags (s : State) (q : Requester) (t : Tag) (st : RespStatus) : (s.answerWrite q t st).abandonedTags = s.abandonedTags := rfl
@[simp] theorem State.answerWrite_abandonedWrites (s : State) (q : Requester) (t : Tag) (st : RespStatus) : (s.answerWrite q t st).abandonedWrites = s.abandonedWrites := rfl
@[simp] theorem State.answerWrite_events (s : State) (q : Requester) (t : Tag) (st : RespStatus) : (s.answerWrite q t st).events = s.events := rfl
@[simp] theorem State.answerWrite_seqCounter (s : State) (q : Requester) (t : Tag) (st : RespStatus) : (s.answerWrite q t st).seqCounter = s.seqCounter := rfl
@[simp] theorem State.answerWrite_alertMask (s : State) (q : Requester) (t : Tag) (st : RespStatus) : (s.answerWrite q t st).alertMask = s.alertMask := rfl
@[simp] theorem State.answerWrite_apSlots (s : State) (q : Requester) (t : Tag) (st : RespStatus) : (s.answerWrite q t st).apSlots = s.apSlots := rfl
@[simp] theorem State.answerWrite_sfSlots (s : State) (q : Requester) (t : Tag) (st : RespStatus) : (s.answerWrite q t st).sfSlots = s.sfSlots := rfl
@[simp] theorem State.answerWrite_setSlot (s : State) (q : Requester) (t : Tag) (st : RespStatus) : (s.answerWrite q t st).setSlot = s.setSlot := rfl
@[simp] theorem State.answerWrite_saving (s : State) (q : Requester) (t : Tag) (st : RespStatus) : (s.answerWrite q t st).saving = s.saving := rfl
@[simp] theorem State.answerWrite_discarded (s : State) (q : Requester) (t : Tag) (st : RespStatus) : (s.answerWrite q t st).discarded = s.discarded := rfl
@[simp] theorem State.answerWrite_port (s : State) (q : Requester) (t : Tag) (st : RespStatus) : (s.answerWrite q t st).port = s.port := rfl
@[simp] theorem State.answerWrite_upWrite (s : State) (q : Requester) (t : Tag) (st : RespStatus) : (s.answerWrite q t st).upWrite = s.upWrite := rfl
@[simp] theorem State.answerWrite_upRead (s : State) (q : Requester) (t : Tag) (st : RespStatus) : (s.answerWrite q t st).upRead = s.upRead := rfl
@[simp] theorem State.answerWrite_pending (s : State) (q : Requester) (t : Tag) (st : RespStatus) : (s.answerWrite q t st).pending = s.pending := rfl

/-! acceptRead -/

@[simp] theorem State.acceptRead_phase (s : State) (e : EntryIx) (en : Entry) : (s.acceptRead e en).phase = s.phase := rfl
@[simp] theorem State.acceptRead_mode (s : State) (e : EntryIx) (en : Entry) : (s.acceptRead e en).mode = s.mode := rfl
@[simp] theorem State.acceptRead_surfaces (s : State) (e : EntryIx) (en : Entry) : (s.acceptRead e en).surfaces = s.surfaces := rfl
@[simp] theorem State.acceptRead_apertures (s : State) (e : EntryIx) (en : Entry) : (s.acceptRead e en).apertures = s.apertures := rfl
@[simp] theorem State.acceptRead_cursors (s : State) (e : EntryIx) (en : Entry) : (s.acceptRead e en).cursors = s.cursors := rfl
@[simp] theorem State.acceptRead_scans (s : State) (e : EntryIx) (en : Entry) : (s.acceptRead e en).scans = s.scans := rfl
@[simp] theorem State.acceptRead_queue (s : State) (e : EntryIx) (en : Entry) : (s.acceptRead e en).queue = s.queue := rfl
@[simp] theorem State.acceptRead_highWater (s : State) (e : EntryIx) (en : Entry) : (s.acceptRead e en).highWater = s.highWater := rfl
@[simp] theorem State.acceptRead_episode (s : State) (e : EntryIx) (en : Entry) : (s.acceptRead e en).episode = s.episode := rfl
@[simp] theorem State.acceptRead_release (s : State) (e : EntryIx) (en : Entry) : (s.acceptRead e en).release = s.release := rfl
@[simp] theorem State.acceptRead_orders (s : State) (e : EntryIx) (en : Entry) : (s.acceptRead e en).orders = s.orders := rfl
@[simp] theorem State.acceptRead_headWrite (s : State) (e : EntryIx) (en : Entry) : (s.acceptRead e en).headWrite = s.headWrite := rfl
@[simp] theorem State.acceptRead_writeJob (s : State) (e : EntryIx) (en : Entry) : (s.acceptRead e en).writeJob = s.writeJob := rfl
@[simp] theorem State.acceptRead_writeResp (s : State) (e : EntryIx) (en : Entry) : (s.acceptRead e en).writeResp = s.writeResp := rfl
@[simp] theorem State.acceptRead_headRead (s : State) (e : EntryIx) (en : Entry) : (s.acceptRead e en).headRead = none := rfl
@[simp] theorem State.acceptRead_refusedRead (s : State) (e : EntryIx) (en : Entry) : (s.acceptRead e en).refusedRead = s.refusedRead := rfl
@[simp] theorem State.acceptRead_table (s : State) (e : EntryIx) (en : Entry) : (s.acceptRead e en).table = s.table.set e (some en) := rfl
@[simp] theorem State.acceptRead_taken (s : State) (e : EntryIx) (en : Entry) : (s.acceptRead e en).taken = s.taken ++ [e] := rfl
@[simp] theorem State.acceptRead_handed (s : State) (e : EntryIx) (en : Entry) : (s.acceptRead e en).handed = s.handed := rfl
@[simp] theorem State.acceptRead_outstanding (s : State) (e : EntryIx) (en : Entry) : (s.acceptRead e en).outstanding = s.outstanding := rfl
@[simp] theorem State.acceptRead_abandonedTags (s : State) (e : EntryIx) (en : Entry) : (s.acceptRead e en).abandonedTags = s.abandonedTags := rfl
@[simp] theorem State.acceptRead_abandonedWrites (s : State) (e : EntryIx) (en : Entry) : (s.acceptRead e en).abandonedWrites = s.abandonedWrites := rfl
@[simp] theorem State.acceptRead_events (s : State) (e : EntryIx) (en : Entry) : (s.acceptRead e en).events = s.events := rfl
@[simp] theorem State.acceptRead_seqCounter (s : State) (e : EntryIx) (en : Entry) : (s.acceptRead e en).seqCounter = s.seqCounter := rfl
@[simp] theorem State.acceptRead_alertMask (s : State) (e : EntryIx) (en : Entry) : (s.acceptRead e en).alertMask = s.alertMask := rfl
@[simp] theorem State.acceptRead_apSlots (s : State) (e : EntryIx) (en : Entry) : (s.acceptRead e en).apSlots = s.apSlots := rfl
@[simp] theorem State.acceptRead_sfSlots (s : State) (e : EntryIx) (en : Entry) : (s.acceptRead e en).sfSlots = s.sfSlots := rfl
@[simp] theorem State.acceptRead_setSlot (s : State) (e : EntryIx) (en : Entry) : (s.acceptRead e en).setSlot = s.setSlot := rfl
@[simp] theorem State.acceptRead_saving (s : State) (e : EntryIx) (en : Entry) : (s.acceptRead e en).saving = s.saving := rfl
@[simp] theorem State.acceptRead_discarded (s : State) (e : EntryIx) (en : Entry) : (s.acceptRead e en).discarded = s.discarded := rfl
@[simp] theorem State.acceptRead_port (s : State) (e : EntryIx) (en : Entry) : (s.acceptRead e en).port = s.port := rfl
@[simp] theorem State.acceptRead_upWrite (s : State) (e : EntryIx) (en : Entry) : (s.acceptRead e en).upWrite = s.upWrite := rfl
@[simp] theorem State.acceptRead_upRead (s : State) (e : EntryIx) (en : Entry) : (s.acceptRead e en).upRead = s.upRead := rfl
@[simp] theorem State.acceptRead_pending (s : State) (e : EntryIx) (en : Entry) : (s.acceptRead e en).pending = s.pending := rfl

/-! softResetScans -/

@[simp] theorem State.softResetScans_phase (s : State) : (s.softResetScans).phase = s.phase := rfl
@[simp] theorem State.softResetScans_mode (s : State) : (s.softResetScans).mode = s.mode := rfl
@[simp] theorem State.softResetScans_surfaces (s : State) : (s.softResetScans).surfaces = s.surfaces := rfl
@[simp] theorem State.softResetScans_apertures (s : State) : (s.softResetScans).apertures = s.apertures := rfl
@[simp] theorem State.softResetScans_cursors (s : State) : (s.softResetScans).cursors = s.cursors := rfl
@[simp] theorem State.softResetScans_queue (s : State) : (s.softResetScans).queue = s.queue := rfl
@[simp] theorem State.softResetScans_highWater (s : State) : (s.softResetScans).highWater = s.highWater := rfl
@[simp] theorem State.softResetScans_episode (s : State) : (s.softResetScans).episode = s.episode := rfl
@[simp] theorem State.softResetScans_release (s : State) : (s.softResetScans).release = s.release := rfl
@[simp] theorem State.softResetScans_orders (s : State) : (s.softResetScans).orders = s.orders := rfl
@[simp] theorem State.softResetScans_headWrite (s : State) : (s.softResetScans).headWrite = s.headWrite := rfl
@[simp] theorem State.softResetScans_writeJob (s : State) : (s.softResetScans).writeJob = s.writeJob := rfl
@[simp] theorem State.softResetScans_writeResp (s : State) : (s.softResetScans).writeResp = s.writeResp := rfl
@[simp] theorem State.softResetScans_headRead (s : State) : (s.softResetScans).headRead = s.headRead := rfl
@[simp] theorem State.softResetScans_refusedRead (s : State) : (s.softResetScans).refusedRead = s.refusedRead := rfl
@[simp] theorem State.softResetScans_table (s : State) : (s.softResetScans).table = s.table := rfl
@[simp] theorem State.softResetScans_taken (s : State) : (s.softResetScans).taken = s.taken := rfl
@[simp] theorem State.softResetScans_handed (s : State) : (s.softResetScans).handed = s.handed := rfl
@[simp] theorem State.softResetScans_outstanding (s : State) : (s.softResetScans).outstanding = s.outstanding := rfl
@[simp] theorem State.softResetScans_abandonedTags (s : State) : (s.softResetScans).abandonedTags = s.abandonedTags := rfl
@[simp] theorem State.softResetScans_abandonedWrites (s : State) : (s.softResetScans).abandonedWrites = s.abandonedWrites := rfl
@[simp] theorem State.softResetScans_events (s : State) : (s.softResetScans).events = s.events := rfl
@[simp] theorem State.softResetScans_seqCounter (s : State) : (s.softResetScans).seqCounter = s.seqCounter := rfl
@[simp] theorem State.softResetScans_alertMask (s : State) : (s.softResetScans).alertMask = s.alertMask := rfl
@[simp] theorem State.softResetScans_apSlots (s : State) : (s.softResetScans).apSlots = s.apSlots := rfl
@[simp] theorem State.softResetScans_sfSlots (s : State) : (s.softResetScans).sfSlots = s.sfSlots := rfl
@[simp] theorem State.softResetScans_setSlot (s : State) : (s.softResetScans).setSlot = s.setSlot := rfl
@[simp] theorem State.softResetScans_saving (s : State) : (s.softResetScans).saving = s.saving := rfl
@[simp] theorem State.softResetScans_discarded (s : State) : (s.softResetScans).discarded = s.discarded := rfl
@[simp] theorem State.softResetScans_port (s : State) : (s.softResetScans).port = s.port := rfl
@[simp] theorem State.softResetScans_upWrite (s : State) : (s.softResetScans).upWrite = s.upWrite := rfl
@[simp] theorem State.softResetScans_upRead (s : State) : (s.softResetScans).upRead = s.upRead := rfl
@[simp] theorem State.softResetScans_pending (s : State) : (s.softResetScans).pending = s.pending := rfl

/-! toBypass -/

@[simp] theorem State.toBypass_phase (s : State) : (s.toBypass).phase = s.phase := rfl
@[simp] theorem State.toBypass_mode (s : State) : (s.toBypass).mode = .bypass := rfl
@[simp] theorem State.toBypass_surfaces (s : State) : (s.toBypass).surfaces = s.surfaces := rfl
@[simp] theorem State.toBypass_apertures (s : State) : (s.toBypass).apertures = s.apertures := rfl
@[simp] theorem State.toBypass_cursors (s : State) : (s.toBypass).cursors = s.cursors := rfl
@[simp] theorem State.toBypass_queue (s : State) : (s.toBypass).queue = s.queue := rfl
@[simp] theorem State.toBypass_highWater (s : State) : (s.toBypass).highWater = s.highWater := rfl
@[simp] theorem State.toBypass_episode (s : State) : (s.toBypass).episode = s.episode := rfl
@[simp] theorem State.toBypass_release (s : State) : (s.toBypass).release = s.release := rfl
@[simp] theorem State.toBypass_orders (s : State) : (s.toBypass).orders = s.orders := rfl
@[simp] theorem State.toBypass_headWrite (s : State) : (s.toBypass).headWrite = s.headWrite := rfl
@[simp] theorem State.toBypass_writeJob (s : State) : (s.toBypass).writeJob = s.writeJob := rfl
@[simp] theorem State.toBypass_writeResp (s : State) : (s.toBypass).writeResp = s.writeResp := rfl
@[simp] theorem State.toBypass_headRead (s : State) : (s.toBypass).headRead = s.headRead := rfl
@[simp] theorem State.toBypass_refusedRead (s : State) : (s.toBypass).refusedRead = s.refusedRead := rfl
@[simp] theorem State.toBypass_table (s : State) : (s.toBypass).table = s.table := rfl
@[simp] theorem State.toBypass_taken (s : State) : (s.toBypass).taken = s.taken := rfl
@[simp] theorem State.toBypass_handed (s : State) : (s.toBypass).handed = s.handed := rfl
@[simp] theorem State.toBypass_outstanding (s : State) : (s.toBypass).outstanding = s.outstanding := rfl
@[simp] theorem State.toBypass_abandonedTags (s : State) : (s.toBypass).abandonedTags = s.abandonedTags := rfl
@[simp] theorem State.toBypass_abandonedWrites (s : State) : (s.toBypass).abandonedWrites = s.abandonedWrites := rfl
@[simp] theorem State.toBypass_events (s : State) : (s.toBypass).events = s.events := rfl
@[simp] theorem State.toBypass_seqCounter (s : State) : (s.toBypass).seqCounter = s.seqCounter := rfl
@[simp] theorem State.toBypass_alertMask (s : State) : (s.toBypass).alertMask = s.alertMask := rfl
@[simp] theorem State.toBypass_apSlots (s : State) : (s.toBypass).apSlots = s.apSlots := rfl
@[simp] theorem State.toBypass_sfSlots (s : State) : (s.toBypass).sfSlots = s.sfSlots := rfl
@[simp] theorem State.toBypass_setSlot (s : State) : (s.toBypass).setSlot = s.setSlot := rfl
@[simp] theorem State.toBypass_saving (s : State) : (s.toBypass).saving = s.saving := rfl
@[simp] theorem State.toBypass_discarded (s : State) : (s.toBypass).discarded = s.discarded := rfl
@[simp] theorem State.toBypass_port (s : State) : (s.toBypass).port = s.port := rfl
@[simp] theorem State.toBypass_upWrite (s : State) : (s.toBypass).upWrite = s.upWrite := rfl
@[simp] theorem State.toBypass_upRead (s : State) : (s.toBypass).upRead = s.upRead := rfl
@[simp] theorem State.toBypass_pending (s : State) : (s.toBypass).pending = s.pending := rfl

/-! raiseIf -/

@[simp] theorem State.raiseIf_phase (s : State) (c : Bool) (b : EventBody) : (s.raiseIf c b).phase = s.phase := by
  cases c <;> rfl
@[simp] theorem State.raiseIf_mode (s : State) (c : Bool) (b : EventBody) : (s.raiseIf c b).mode = s.mode := by
  cases c <;> rfl
@[simp] theorem State.raiseIf_surfaces (s : State) (c : Bool) (b : EventBody) : (s.raiseIf c b).surfaces = s.surfaces := by
  cases c <;> rfl
@[simp] theorem State.raiseIf_apertures (s : State) (c : Bool) (b : EventBody) : (s.raiseIf c b).apertures = s.apertures := by
  cases c <;> rfl
@[simp] theorem State.raiseIf_cursors (s : State) (c : Bool) (b : EventBody) : (s.raiseIf c b).cursors = s.cursors := by
  cases c <;> rfl
@[simp] theorem State.raiseIf_scans (s : State) (c : Bool) (b : EventBody) : (s.raiseIf c b).scans = s.scans := by
  cases c <;> rfl
@[simp] theorem State.raiseIf_queue (s : State) (c : Bool) (b : EventBody) : (s.raiseIf c b).queue = s.queue := by
  cases c <;> rfl
@[simp] theorem State.raiseIf_highWater (s : State) (c : Bool) (b : EventBody) : (s.raiseIf c b).highWater = s.highWater := by
  cases c <;> rfl
@[simp] theorem State.raiseIf_episode (s : State) (c : Bool) (b : EventBody) : (s.raiseIf c b).episode = s.episode := by
  cases c <;> rfl
@[simp] theorem State.raiseIf_release (s : State) (c : Bool) (b : EventBody) : (s.raiseIf c b).release = s.release := by
  cases c <;> rfl
@[simp] theorem State.raiseIf_orders (s : State) (c : Bool) (b : EventBody) : (s.raiseIf c b).orders = s.orders := by
  cases c <;> rfl
@[simp] theorem State.raiseIf_headWrite (s : State) (c : Bool) (b : EventBody) : (s.raiseIf c b).headWrite = s.headWrite := by
  cases c <;> rfl
@[simp] theorem State.raiseIf_writeJob (s : State) (c : Bool) (b : EventBody) : (s.raiseIf c b).writeJob = s.writeJob := by
  cases c <;> rfl
@[simp] theorem State.raiseIf_writeResp (s : State) (c : Bool) (b : EventBody) : (s.raiseIf c b).writeResp = s.writeResp := by
  cases c <;> rfl
@[simp] theorem State.raiseIf_headRead (s : State) (c : Bool) (b : EventBody) : (s.raiseIf c b).headRead = s.headRead := by
  cases c <;> rfl
@[simp] theorem State.raiseIf_refusedRead (s : State) (c : Bool) (b : EventBody) : (s.raiseIf c b).refusedRead = s.refusedRead := by
  cases c <;> rfl
@[simp] theorem State.raiseIf_table (s : State) (c : Bool) (b : EventBody) : (s.raiseIf c b).table = s.table := by
  cases c <;> rfl
@[simp] theorem State.raiseIf_taken (s : State) (c : Bool) (b : EventBody) : (s.raiseIf c b).taken = s.taken := by
  cases c <;> rfl
@[simp] theorem State.raiseIf_handed (s : State) (c : Bool) (b : EventBody) : (s.raiseIf c b).handed = s.handed := by
  cases c <;> rfl
@[simp] theorem State.raiseIf_outstanding (s : State) (c : Bool) (b : EventBody) : (s.raiseIf c b).outstanding = s.outstanding := by
  cases c <;> rfl
@[simp] theorem State.raiseIf_abandonedTags (s : State) (c : Bool) (b : EventBody) : (s.raiseIf c b).abandonedTags = s.abandonedTags := by
  cases c <;> rfl
@[simp] theorem State.raiseIf_abandonedWrites (s : State) (c : Bool) (b : EventBody) : (s.raiseIf c b).abandonedWrites = s.abandonedWrites := by
  cases c <;> rfl
@[simp] theorem State.raiseIf_alertMask (s : State) (c : Bool) (b : EventBody) : (s.raiseIf c b).alertMask = s.alertMask := by
  cases c <;> rfl
@[simp] theorem State.raiseIf_apSlots (s : State) (c : Bool) (b : EventBody) : (s.raiseIf c b).apSlots = s.apSlots := by
  cases c <;> rfl
@[simp] theorem State.raiseIf_sfSlots (s : State) (c : Bool) (b : EventBody) : (s.raiseIf c b).sfSlots = s.sfSlots := by
  cases c <;> rfl
@[simp] theorem State.raiseIf_setSlot (s : State) (c : Bool) (b : EventBody) : (s.raiseIf c b).setSlot = s.setSlot := by
  cases c <;> rfl
@[simp] theorem State.raiseIf_saving (s : State) (c : Bool) (b : EventBody) : (s.raiseIf c b).saving = s.saving := by
  cases c <;> rfl
@[simp] theorem State.raiseIf_discarded (s : State) (c : Bool) (b : EventBody) : (s.raiseIf c b).discarded = s.discarded := by
  cases c <;> rfl
@[simp] theorem State.raiseIf_port (s : State) (c : Bool) (b : EventBody) : (s.raiseIf c b).port = s.port := by
  cases c <;> rfl
@[simp] theorem State.raiseIf_upWrite (s : State) (c : Bool) (b : EventBody) : (s.raiseIf c b).upWrite = s.upWrite := by
  cases c <;> rfl
@[simp] theorem State.raiseIf_upRead (s : State) (c : Bool) (b : EventBody) : (s.raiseIf c b).upRead = s.upRead := by
  cases c <;> rfl
@[simp] theorem State.raiseIf_pending (s : State) (c : Bool) (b : EventBody) : (s.raiseIf c b).pending = s.pending := by
  cases c <;> rfl

/-! countHeld -/

@[simp] theorem State.countHeld_phase (s : State) (o : Origin) (g : Nat → Nat) : (s.countHeld o g).phase = s.phase := by
  cases o <;> rfl
@[simp] theorem State.countHeld_mode (s : State) (o : Origin) (g : Nat → Nat) : (s.countHeld o g).mode = s.mode := by
  cases o <;> rfl
@[simp] theorem State.countHeld_surfaces (s : State) (o : Origin) (g : Nat → Nat) : (s.countHeld o g).surfaces = s.surfaces := by
  cases o <;> rfl
@[simp] theorem State.countHeld_cursors (s : State) (o : Origin) (g : Nat → Nat) : (s.countHeld o g).cursors = s.cursors := by
  cases o <;> rfl
@[simp] theorem State.countHeld_scans (s : State) (o : Origin) (g : Nat → Nat) : (s.countHeld o g).scans = s.scans := by
  cases o <;> rfl
@[simp] theorem State.countHeld_queue (s : State) (o : Origin) (g : Nat → Nat) : (s.countHeld o g).queue = s.queue := by
  cases o <;> rfl
@[simp] theorem State.countHeld_highWater (s : State) (o : Origin) (g : Nat → Nat) : (s.countHeld o g).highWater = s.highWater := by
  cases o <;> rfl
@[simp] theorem State.countHeld_episode (s : State) (o : Origin) (g : Nat → Nat) : (s.countHeld o g).episode = s.episode := by
  cases o <;> rfl
@[simp] theorem State.countHeld_release (s : State) (o : Origin) (g : Nat → Nat) : (s.countHeld o g).release = s.release := by
  cases o <;> rfl
@[simp] theorem State.countHeld_orders (s : State) (o : Origin) (g : Nat → Nat) : (s.countHeld o g).orders = s.orders := by
  cases o <;> rfl
@[simp] theorem State.countHeld_headWrite (s : State) (o : Origin) (g : Nat → Nat) : (s.countHeld o g).headWrite = s.headWrite := by
  cases o <;> rfl
@[simp] theorem State.countHeld_writeJob (s : State) (o : Origin) (g : Nat → Nat) : (s.countHeld o g).writeJob = s.writeJob := by
  cases o <;> rfl
@[simp] theorem State.countHeld_writeResp (s : State) (o : Origin) (g : Nat → Nat) : (s.countHeld o g).writeResp = s.writeResp := by
  cases o <;> rfl
@[simp] theorem State.countHeld_headRead (s : State) (o : Origin) (g : Nat → Nat) : (s.countHeld o g).headRead = s.headRead := by
  cases o <;> rfl
@[simp] theorem State.countHeld_refusedRead (s : State) (o : Origin) (g : Nat → Nat) : (s.countHeld o g).refusedRead = s.refusedRead := by
  cases o <;> rfl
@[simp] theorem State.countHeld_table (s : State) (o : Origin) (g : Nat → Nat) : (s.countHeld o g).table = s.table := by
  cases o <;> rfl
@[simp] theorem State.countHeld_taken (s : State) (o : Origin) (g : Nat → Nat) : (s.countHeld o g).taken = s.taken := by
  cases o <;> rfl
@[simp] theorem State.countHeld_handed (s : State) (o : Origin) (g : Nat → Nat) : (s.countHeld o g).handed = s.handed := by
  cases o <;> rfl
@[simp] theorem State.countHeld_outstanding (s : State) (o : Origin) (g : Nat → Nat) : (s.countHeld o g).outstanding = s.outstanding := by
  cases o <;> rfl
@[simp] theorem State.countHeld_abandonedTags (s : State) (o : Origin) (g : Nat → Nat) : (s.countHeld o g).abandonedTags = s.abandonedTags := by
  cases o <;> rfl
@[simp] theorem State.countHeld_abandonedWrites (s : State) (o : Origin) (g : Nat → Nat) : (s.countHeld o g).abandonedWrites = s.abandonedWrites := by
  cases o <;> rfl
@[simp] theorem State.countHeld_events (s : State) (o : Origin) (g : Nat → Nat) : (s.countHeld o g).events = s.events := by
  cases o <;> rfl
@[simp] theorem State.countHeld_seqCounter (s : State) (o : Origin) (g : Nat → Nat) : (s.countHeld o g).seqCounter = s.seqCounter := by
  cases o <;> rfl
@[simp] theorem State.countHeld_alertMask (s : State) (o : Origin) (g : Nat → Nat) : (s.countHeld o g).alertMask = s.alertMask := by
  cases o <;> rfl
@[simp] theorem State.countHeld_apSlots (s : State) (o : Origin) (g : Nat → Nat) : (s.countHeld o g).apSlots = s.apSlots := by
  cases o <;> rfl
@[simp] theorem State.countHeld_sfSlots (s : State) (o : Origin) (g : Nat → Nat) : (s.countHeld o g).sfSlots = s.sfSlots := by
  cases o <;> rfl
@[simp] theorem State.countHeld_setSlot (s : State) (o : Origin) (g : Nat → Nat) : (s.countHeld o g).setSlot = s.setSlot := by
  cases o <;> rfl
@[simp] theorem State.countHeld_saving (s : State) (o : Origin) (g : Nat → Nat) : (s.countHeld o g).saving = s.saving := by
  cases o <;> rfl
@[simp] theorem State.countHeld_discarded (s : State) (o : Origin) (g : Nat → Nat) : (s.countHeld o g).discarded = s.discarded := by
  cases o <;> rfl
@[simp] theorem State.countHeld_port (s : State) (o : Origin) (g : Nat → Nat) : (s.countHeld o g).port = s.port := by
  cases o <;> rfl
@[simp] theorem State.countHeld_upWrite (s : State) (o : Origin) (g : Nat → Nat) : (s.countHeld o g).upWrite = s.upWrite := by
  cases o <;> rfl
@[simp] theorem State.countHeld_upRead (s : State) (o : Origin) (g : Nat → Nat) : (s.countHeld o g).upRead = s.upRead := by
  cases o <;> rfl
@[simp] theorem State.countHeld_pending (s : State) (o : Origin) (g : Nat → Nat) : (s.countHeld o g).pending = s.pending := by
  cases o <;> rfl

/-! join -/

@[simp] theorem State.join_phase (s : State) (f : Frag) : (s.join f).phase = s.phase := by
  cases f with | mk _ _ _ _ o _ => cases o <;> rfl
@[simp] theorem State.join_mode (s : State) (f : Frag) : (s.join f).mode = s.mode := by
  cases f with | mk _ _ _ _ o _ => cases o <;> rfl
@[simp] theorem State.join_surfaces (s : State) (f : Frag) : (s.join f).surfaces = s.surfaces := by
  cases f with | mk _ _ _ _ o _ => cases o <;> rfl
@[simp] theorem State.join_cursors (s : State) (f : Frag) : (s.join f).cursors = s.cursors := by
  cases f with | mk _ _ _ _ o _ => cases o <;> rfl
@[simp] theorem State.join_scans (s : State) (f : Frag) : (s.join f).scans = s.scans := by
  cases f with | mk _ _ _ _ o _ => cases o <;> rfl
@[simp] theorem State.join_episode (s : State) (f : Frag) : (s.join f).episode = s.episode := by
  cases f with | mk _ _ _ _ o _ => cases o <;> rfl
@[simp] theorem State.join_release (s : State) (f : Frag) : (s.join f).release = s.release := by
  cases f with | mk _ _ _ _ o _ => cases o <;> rfl
@[simp] theorem State.join_orders (s : State) (f : Frag) : (s.join f).orders = s.orders := by
  cases f with | mk _ _ _ _ o _ => cases o <;> rfl
@[simp] theorem State.join_headWrite (s : State) (f : Frag) : (s.join f).headWrite = s.headWrite := by
  cases f with | mk _ _ _ _ o _ => cases o <;> rfl
@[simp] theorem State.join_writeJob (s : State) (f : Frag) : (s.join f).writeJob = s.writeJob := by
  cases f with | mk _ _ _ _ o _ => cases o <;> rfl
@[simp] theorem State.join_writeResp (s : State) (f : Frag) : (s.join f).writeResp = s.writeResp := by
  cases f with | mk _ _ _ _ o _ => cases o <;> rfl
@[simp] theorem State.join_headRead (s : State) (f : Frag) : (s.join f).headRead = s.headRead := by
  cases f with | mk _ _ _ _ o _ => cases o <;> rfl
@[simp] theorem State.join_refusedRead (s : State) (f : Frag) : (s.join f).refusedRead = s.refusedRead := by
  cases f with | mk _ _ _ _ o _ => cases o <;> rfl
@[simp] theorem State.join_table (s : State) (f : Frag) : (s.join f).table = s.table := by
  cases f with | mk _ _ _ _ o _ => cases o <;> rfl
@[simp] theorem State.join_taken (s : State) (f : Frag) : (s.join f).taken = s.taken := by
  cases f with | mk _ _ _ _ o _ => cases o <;> rfl
@[simp] theorem State.join_handed (s : State) (f : Frag) : (s.join f).handed = s.handed := by
  cases f with | mk _ _ _ _ o _ => cases o <;> rfl
@[simp] theorem State.join_outstanding (s : State) (f : Frag) : (s.join f).outstanding = s.outstanding := by
  cases f with | mk _ _ _ _ o _ => cases o <;> rfl
@[simp] theorem State.join_abandonedTags (s : State) (f : Frag) : (s.join f).abandonedTags = s.abandonedTags := by
  cases f with | mk _ _ _ _ o _ => cases o <;> rfl
@[simp] theorem State.join_abandonedWrites (s : State) (f : Frag) : (s.join f).abandonedWrites = s.abandonedWrites := by
  cases f with | mk _ _ _ _ o _ => cases o <;> rfl
@[simp] theorem State.join_events (s : State) (f : Frag) : (s.join f).events = s.events := by
  cases f with | mk _ _ _ _ o _ => cases o <;> rfl
@[simp] theorem State.join_seqCounter (s : State) (f : Frag) : (s.join f).seqCounter = s.seqCounter := by
  cases f with | mk _ _ _ _ o _ => cases o <;> rfl
@[simp] theorem State.join_alertMask (s : State) (f : Frag) : (s.join f).alertMask = s.alertMask := by
  cases f with | mk _ _ _ _ o _ => cases o <;> rfl
@[simp] theorem State.join_apSlots (s : State) (f : Frag) : (s.join f).apSlots = s.apSlots := by
  cases f with | mk _ _ _ _ o _ => cases o <;> rfl
@[simp] theorem State.join_sfSlots (s : State) (f : Frag) : (s.join f).sfSlots = s.sfSlots := by
  cases f with | mk _ _ _ _ o _ => cases o <;> rfl
@[simp] theorem State.join_setSlot (s : State) (f : Frag) : (s.join f).setSlot = s.setSlot := by
  cases f with | mk _ _ _ _ o _ => cases o <;> rfl
@[simp] theorem State.join_saving (s : State) (f : Frag) : (s.join f).saving = s.saving := by
  cases f with | mk _ _ _ _ o _ => cases o <;> rfl
@[simp] theorem State.join_discarded (s : State) (f : Frag) : (s.join f).discarded = s.discarded := by
  cases f with | mk _ _ _ _ o _ => cases o <;> rfl
@[simp] theorem State.join_port (s : State) (f : Frag) : (s.join f).port = s.port := by
  cases f with | mk _ _ _ _ o _ => cases o <;> rfl
@[simp] theorem State.join_upWrite (s : State) (f : Frag) : (s.join f).upWrite = s.upWrite := by
  cases f with | mk _ _ _ _ o _ => cases o <;> rfl
@[simp] theorem State.join_upRead (s : State) (f : Frag) : (s.join f).upRead = s.upRead := by
  cases f with | mk _ _ _ _ o _ => cases o <;> rfl
@[simp] theorem State.join_pending (s : State) (f : Frag) : (s.join f).pending = s.pending := by
  cases f with | mk _ _ _ _ o _ => cases o <;> rfl

/-! handOver -/

/-- Handing requests over changes the requests at the port alone. -/
theorem State.handOver_eq (s : State) : s.handOver = { s with handed := s.handOver.handed } := by
  unfold State.handOver
  split <;> rfl
@[simp] theorem State.handOver_phase (s : State) : (s.handOver).phase = s.phase := by rw [State.handOver_eq]
@[simp] theorem State.handOver_mode (s : State) : (s.handOver).mode = s.mode := by rw [State.handOver_eq]
@[simp] theorem State.handOver_surfaces (s : State) : (s.handOver).surfaces = s.surfaces := by rw [State.handOver_eq]
@[simp] theorem State.handOver_apertures (s : State) : (s.handOver).apertures = s.apertures := by rw [State.handOver_eq]
@[simp] theorem State.handOver_cursors (s : State) : (s.handOver).cursors = s.cursors := by rw [State.handOver_eq]
@[simp] theorem State.handOver_scans (s : State) : (s.handOver).scans = s.scans := by rw [State.handOver_eq]
@[simp] theorem State.handOver_queue (s : State) : (s.handOver).queue = s.queue := by rw [State.handOver_eq]
@[simp] theorem State.handOver_highWater (s : State) : (s.handOver).highWater = s.highWater := by rw [State.handOver_eq]
@[simp] theorem State.handOver_episode (s : State) : (s.handOver).episode = s.episode := by rw [State.handOver_eq]
@[simp] theorem State.handOver_release (s : State) : (s.handOver).release = s.release := by rw [State.handOver_eq]
@[simp] theorem State.handOver_orders (s : State) : (s.handOver).orders = s.orders := by rw [State.handOver_eq]
@[simp] theorem State.handOver_headWrite (s : State) : (s.handOver).headWrite = s.headWrite := by rw [State.handOver_eq]
@[simp] theorem State.handOver_writeJob (s : State) : (s.handOver).writeJob = s.writeJob := by rw [State.handOver_eq]
@[simp] theorem State.handOver_writeResp (s : State) : (s.handOver).writeResp = s.writeResp := by rw [State.handOver_eq]
@[simp] theorem State.handOver_headRead (s : State) : (s.handOver).headRead = s.headRead := by rw [State.handOver_eq]
@[simp] theorem State.handOver_refusedRead (s : State) : (s.handOver).refusedRead = s.refusedRead := by rw [State.handOver_eq]
@[simp] theorem State.handOver_table (s : State) : (s.handOver).table = s.table := by rw [State.handOver_eq]
@[simp] theorem State.handOver_taken (s : State) : (s.handOver).taken = s.taken := by rw [State.handOver_eq]
@[simp] theorem State.handOver_outstanding (s : State) : (s.handOver).outstanding = s.outstanding := by rw [State.handOver_eq]
@[simp] theorem State.handOver_abandonedTags (s : State) : (s.handOver).abandonedTags = s.abandonedTags := by rw [State.handOver_eq]
@[simp] theorem State.handOver_abandonedWrites (s : State) : (s.handOver).abandonedWrites = s.abandonedWrites := by rw [State.handOver_eq]
@[simp] theorem State.handOver_events (s : State) : (s.handOver).events = s.events := by rw [State.handOver_eq]
@[simp] theorem State.handOver_seqCounter (s : State) : (s.handOver).seqCounter = s.seqCounter := by rw [State.handOver_eq]
@[simp] theorem State.handOver_alertMask (s : State) : (s.handOver).alertMask = s.alertMask := by rw [State.handOver_eq]
@[simp] theorem State.handOver_apSlots (s : State) : (s.handOver).apSlots = s.apSlots := by rw [State.handOver_eq]
@[simp] theorem State.handOver_sfSlots (s : State) : (s.handOver).sfSlots = s.sfSlots := by rw [State.handOver_eq]
@[simp] theorem State.handOver_setSlot (s : State) : (s.handOver).setSlot = s.setSlot := by rw [State.handOver_eq]
@[simp] theorem State.handOver_saving (s : State) : (s.handOver).saving = s.saving := by rw [State.handOver_eq]
@[simp] theorem State.handOver_discarded (s : State) : (s.handOver).discarded = s.discarded := by rw [State.handOver_eq]
@[simp] theorem State.handOver_port (s : State) : (s.handOver).port = s.port := by rw [State.handOver_eq]
@[simp] theorem State.handOver_upWrite (s : State) : (s.handOver).upWrite = s.upWrite := by rw [State.handOver_eq]
@[simp] theorem State.handOver_upRead (s : State) : (s.handOver).upRead = s.upRead := by rw [State.handOver_eq]
@[simp] theorem State.handOver_pending (s : State) : (s.handOver).pending = s.pending := by rw [State.handOver_eq]

/-! passRequest -/

/-- The issue of a request changes, at the port, the requests handed over alone. -/
theorem State.passRequest_eq (s : State) (b : Former) : s.passRequest b = { s with handed := (s.passRequest b).handed } := by
  rfl
@[simp] theorem State.passRequest_phase (s : State) (b : Former) : (s.passRequest b).phase = s.phase := by rw [State.passRequest_eq]
@[simp] theorem State.passRequest_mode (s : State) (b : Former) : (s.passRequest b).mode = s.mode := by rw [State.passRequest_eq]
@[simp] theorem State.passRequest_surfaces (s : State) (b : Former) : (s.passRequest b).surfaces = s.surfaces := by rw [State.passRequest_eq]
@[simp] theorem State.passRequest_apertures (s : State) (b : Former) : (s.passRequest b).apertures = s.apertures := by rw [State.passRequest_eq]
@[simp] theorem State.passRequest_cursors (s : State) (b : Former) : (s.passRequest b).cursors = s.cursors := by rw [State.passRequest_eq]
@[simp] theorem State.passRequest_scans (s : State) (b : Former) : (s.passRequest b).scans = s.scans := by rw [State.passRequest_eq]
@[simp] theorem State.passRequest_queue (s : State) (b : Former) : (s.passRequest b).queue = s.queue := by rw [State.passRequest_eq]
@[simp] theorem State.passRequest_highWater (s : State) (b : Former) : (s.passRequest b).highWater = s.highWater := by rw [State.passRequest_eq]
@[simp] theorem State.passRequest_episode (s : State) (b : Former) : (s.passRequest b).episode = s.episode := by rw [State.passRequest_eq]
@[simp] theorem State.passRequest_release (s : State) (b : Former) : (s.passRequest b).release = s.release := by rw [State.passRequest_eq]
@[simp] theorem State.passRequest_orders (s : State) (b : Former) : (s.passRequest b).orders = s.orders := by rw [State.passRequest_eq]
@[simp] theorem State.passRequest_headWrite (s : State) (b : Former) : (s.passRequest b).headWrite = s.headWrite := by rw [State.passRequest_eq]
@[simp] theorem State.passRequest_writeJob (s : State) (b : Former) : (s.passRequest b).writeJob = s.writeJob := by rw [State.passRequest_eq]
@[simp] theorem State.passRequest_writeResp (s : State) (b : Former) : (s.passRequest b).writeResp = s.writeResp := by rw [State.passRequest_eq]
@[simp] theorem State.passRequest_headRead (s : State) (b : Former) : (s.passRequest b).headRead = s.headRead := by rw [State.passRequest_eq]
@[simp] theorem State.passRequest_refusedRead (s : State) (b : Former) : (s.passRequest b).refusedRead = s.refusedRead := by rw [State.passRequest_eq]
@[simp] theorem State.passRequest_table (s : State) (b : Former) : (s.passRequest b).table = s.table := by rw [State.passRequest_eq]
@[simp] theorem State.passRequest_taken (s : State) (b : Former) : (s.passRequest b).taken = s.taken := by rw [State.passRequest_eq]
@[simp] theorem State.passRequest_outstanding (s : State) (b : Former) : (s.passRequest b).outstanding = s.outstanding := by rw [State.passRequest_eq]
@[simp] theorem State.passRequest_abandonedTags (s : State) (b : Former) : (s.passRequest b).abandonedTags = s.abandonedTags := by rw [State.passRequest_eq]
@[simp] theorem State.passRequest_abandonedWrites (s : State) (b : Former) : (s.passRequest b).abandonedWrites = s.abandonedWrites := by rw [State.passRequest_eq]
@[simp] theorem State.passRequest_events (s : State) (b : Former) : (s.passRequest b).events = s.events := by rw [State.passRequest_eq]
@[simp] theorem State.passRequest_seqCounter (s : State) (b : Former) : (s.passRequest b).seqCounter = s.seqCounter := by rw [State.passRequest_eq]
@[simp] theorem State.passRequest_alertMask (s : State) (b : Former) : (s.passRequest b).alertMask = s.alertMask := by rw [State.passRequest_eq]
@[simp] theorem State.passRequest_apSlots (s : State) (b : Former) : (s.passRequest b).apSlots = s.apSlots := by rw [State.passRequest_eq]
@[simp] theorem State.passRequest_sfSlots (s : State) (b : Former) : (s.passRequest b).sfSlots = s.sfSlots := by rw [State.passRequest_eq]
@[simp] theorem State.passRequest_setSlot (s : State) (b : Former) : (s.passRequest b).setSlot = s.setSlot := by rw [State.passRequest_eq]
@[simp] theorem State.passRequest_saving (s : State) (b : Former) : (s.passRequest b).saving = s.saving := by rw [State.passRequest_eq]
@[simp] theorem State.passRequest_discarded (s : State) (b : Former) : (s.passRequest b).discarded = s.discarded := by rw [State.passRequest_eq]
@[simp] theorem State.passRequest_port (s : State) (b : Former) : (s.passRequest b).port = s.port := by rw [State.passRequest_eq]
@[simp] theorem State.passRequest_upWrite (s : State) (b : Former) : (s.passRequest b).upWrite = s.upWrite := by rw [State.passRequest_eq]
@[simp] theorem State.passRequest_upRead (s : State) (b : Former) : (s.passRequest b).upRead = s.upRead := by rw [State.passRequest_eq]
@[simp] theorem State.passRequest_pending (s : State) (b : Former) : (s.passRequest b).pending = s.pending := by rw [State.passRequest_eq]

end Sys2Proof.Machine
end

