-- ==== Sys2Proof/Laws/Ops.lean ====
section
/-! SUPPORT. What each shared operation over tables, events and the management port does, said once. -/

namespace Sys2Proof.Machine

/-! Tables -/

theorem mapTable_getElem {α β : Type} {n : Nat} (f : α → β) (v : Vector α n) (i : Nat) (h : i < n) :
    (mapTable f v)[i] = f v[i] := by
  simp [mapTable]

theorem State.setScan_scans_get (s : State) (i j : SurfaceIx) (c : ScanCtx) :
    (s.setScan i c).scans[j] = if i = j then c else s.scans[j] := by
  simp [State.setScan, Vector.getElem_set, Fin.ext_iff]

theorem State.setSurface_surfaces_get (s : State) (i j : SurfaceIx) (r : SurfaceRec) :
    (s.setSurface i r).surfaces[j] = if i = j then r else s.surfaces[j] := by
  simp [State.setSurface, Vector.getElem_set, Fin.ext_iff]

theorem State.setAperture_apertures_get (s : State) (a b : ApertureIx) (r : Aperture) :
    (s.setAperture a r).apertures[b] = if a = b then r else s.apertures[b] := by
  simp [State.setAperture, Vector.getElem_set, Fin.ext_iff]

theorem State.setCursor_cursors_get (s : State) (a b : ApertureIx) (c : Cursor) :
    (s.setCursor a c).cursors[b] = if a = b then c else s.cursors[b] := by
  simp [State.setCursor, Vector.getElem_set, Fin.ext_iff]

theorem State.setEntry_table_get (s : State) (e d : EntryIx) (r : Option Entry) :
    (s.setEntry e r).table[d] = if e = d then r else s.table[d] := by
  simp [State.setEntry, Vector.getElem_set, Fin.ext_iff]

theorem State.resetCursors_get (s : State) (a : ApertureIx) :
    s.resetCursors.cursors[a] = Cursor.start s.apertures[a].fields.window := by
  simp [State.resetCursors, mapTable]

theorem State.softResetScans_get (s : State) (i : SurfaceIx) :
    s.softResetScans.scans[i] = s.scans[i].softReset s.surfaces[i] := by
  simp [State.softResetScans]

theorem State.tick_scans_get (s : State) (i : SurfaceIx) :
    s.tick.scans[i] = { s.scans[i] with timer := s.scans[i].timer.map timerTick } := by
  simp [State.tick, mapTable]

/-! Events -/

theorem countDropped_length (l : List EventRec) : (countDropped l).length = l.length := by
  induction l with
  | nil => rfl
  | cons r rs ih =>
    cases rs with
    | nil => rfl
    | cons r' rs' => simpa [countDropped] using ih

theorem countDropped_append (l : List EventRec) (r : EventRec) :
    countDropped (l ++ [r]) = l ++ [{ r with dropped := min 255 (r.dropped + 1) }] := by
  induction l with
  | nil => rfl
  | cons x xs ih =>
    cases xs with
    | nil => rfl
    | cons y ys => simpa [countDropped] using ih

theorem State.raise_of_room (s : State) (b : EventBody) (h : s.events.length < Config.eventCapacity) :
    s.raise b = { s with seqCounter := s.seqCounter + 1, events := s.events ++ [⟨s.seqCounter, b, 0⟩] } := by
  simp [State.raise, h]

theorem State.raise_of_full (s : State) (b : EventBody) (h : Config.eventCapacity ≤ s.events.length) :
    s.raise b = { s with seqCounter := s.seqCounter + 1, events := countDropped s.events } := by
  simp [State.raise, Nat.not_lt.mpr h]

/-- The list stays within its capacity (R138). -/
theorem State.raise_events_length_le (s : State) (b : EventBody) (h : s.events.length ≤ Config.eventCapacity) :
    (s.raise b).events.length ≤ Config.eventCapacity := by
  unfold State.raise
  simp only
  split
  · simp; omega
  · rw [countDropped_length]; exact h

theorem State.raiseIf_events_length_le (s : State) (c : Bool) (b : EventBody)
    (h : s.events.length ≤ Config.eventCapacity) :
    (s.raiseIf c b).events.length ≤ Config.eventCapacity := by
  cases c
  · exact h
  · exact s.raise_events_length_le b h

/-! Management port -/

/-- A transaction that executes (R144). -/
theorem State.command_of_running (s : State) (c : Instr) (gated : Bool) (body : Answer) (h : s.phase = .running) :
    s.command c gated true false body = body.sent c.wire := by
  simp [State.command, h, State.busy]

/-- A command that waits for an accepted write (R12, R29, R42). -/
theorem State.command_of_waits (s : State) (c : Instr) (gated : Bool) (body : Answer) (h : s.phase = .running) :
    s.command c gated true true body = s.setPort (.receiving c.wire) := by
  simp [State.command, h, State.busy]

/-- The busy gate (R146). -/
theorem State.command_of_busy (s : State) (c : Instr) (waits : Bool) (body : Answer) (h : s.busy = true) :
    s.command c true true waits body = s.setPort (.responding c.wire [Status.busy.code]) := by
  unfold State.command
  unfold State.busy at h
  split <;> simp_all [State.busy, State.refuse, Answer.sent]

/-- A transaction while RESETN is low (R153). -/
theorem State.command_of_resetLow (s : State) (c : Instr) (gated complete waits : Bool) (body : Answer)
    (h : s.phase = .resetLow) : s.command c gated complete waits body = s.setPort .ignored := by
  simp [State.command, h]

/-- Everything that a transaction can do: nothing, nothing but what becomes of the port, or what the command carries out. -/
theorem State.command_cases (s : State) (c : Instr) (gated complete waits : Bool) (body : Answer) :
    s.command c gated complete waits body = s ∨ (∃ p, s.command c gated complete waits body = s.setPort p)
      ∨ s.command c gated complete waits body = body.sent c.wire := by
  unfold State.command
  split
  · exact .inl rfl
  · exact .inr (.inl ⟨_, rfl⟩)
  · split
    · exact .inr (.inl ⟨_, rfl⟩)
    · split
      · exact .inr (.inl ⟨_, rfl⟩)
      · split
        · exact .inr (.inl ⟨_, rfl⟩)
        · exact .inr (.inr rfl)

/-- Bytes of an unexecuted transaction change nothing but the port, if anything. -/
theorem State.gather_cases (s : State) (received : List Byte) (ended : Bool) :
    s.gather received ended = s ∨ ∃ p, s.gather received ended = s.setPort p := by
  unfold State.gather
  split
  · exact .inl rfl
  · exact .inr ⟨_, rfl⟩
  · exact .inr ⟨_, rfl⟩

/-- With no command waiting in the port there is none to resume. -/
theorem State.resumePort_of_not_receiving (s : State) (h : ∀ l, s.port ≠ .receiving l) : s.resumePort = s := by
  unfold State.resumePort
  split
  · rename_i l hp
    exact absurd hp (h l)
  · rfl

theorem surfaceIx_of_toNat (b : Byte) (i : SurfaceIx) (h : b.toNat = i.val) : surfaceIx b = some i := by
  have hi := i.isLt
  simp [surfaceIx, h]

theorem apertureIx_of_toNat (b : Byte) (a : ApertureIx) (h : b.toNat = a.val) : apertureIx b = some a := by
  have ha := a.isLt
  simp [apertureIx, h]

theorem slotIx_of_toNat (b : Byte) (k : SlotIx) (h : b.toNat = k.val) : slotIx b = some k := by
  have hk := k.isLt
  simp [slotIx, h]

/-! The profile store -/

/-- Setting the check of a slot touches no image (R154). -/
theorem State.setSlotCheck_imagesKept (s : State) (k : SlotIx) (ok : Bool) : ImagesKept s (s.setSlotCheck k ok) := by
  unfold State.setSlotCheck ImagesKept
  split
  · refine ⟨fun a => ?_, fun _ => rfl, rfl⟩
    by_cases h : k.val = a.val <;> simp [h]
  · split
    · refine ⟨fun _ => rfl, fun i => ?_, rfl⟩
      by_cases h : k.val - 8 = i.val <;> simp [h]
    · exact ⟨fun _ => rfl, fun _ => rfl, rfl⟩

/-- The cut of a save touches no image (R157). -/
theorem State.abortSave_imagesKept (s : State) : ImagesKept s s.abortSave := by
  unfold State.abortSave
  split
  · exact ⟨fun _ => rfl, fun _ => rfl, rfl⟩
  · exact s.setSlotCheck_imagesKept _ false

end Sys2Proof.Machine
end

