-- ==== Sys2Proof/Laws/Hold.lean ====
section
/-! SUPPORT. What the operations of the hold queue do, said once. -/

namespace Sys2Proof.Machine

/-! Counts -/

theorem originCount_append (a : ApertureIx) (l m : List Frag) :
    originCount a (l ++ m) = originCount a l + originCount a m := by
  simp [originCount]

theorem originCount_nil (a : ApertureIx) : originCount a [] = 0 := rfl

/-- The held count that `countHeld` changes (R24). -/
theorem State.countHeld_apertures_get (s : State) (o : Origin) (g : Nat → Nat) (a : ApertureIx) :
    (s.countHeld o g).apertures[a] =
      if o = .aperture a then { s.apertures[a] with held := g s.apertures[a].held } else s.apertures[a] := by
  cases o with
  | backing => simp [State.countHeld]
  | aperture b =>
    by_cases h : b = a
    · subst h; simp [State.countHeld]
    · have h' : b.val ≠ a.val := fun e => h (Fin.ext e)
      simp [State.countHeld, h, h']

theorem State.join_queue (s : State) (f : Frag) : (s.join f).queue = s.queue ++ [f] := by
  simp [State.join]

theorem State.join_highWater (s : State) (f : Frag) : (s.join f).highWater = max s.highWater (s.queue.length + 1) := by
  simp [State.join]

/-- A fragment that joins raises the held count of its origin alone (R24). -/
theorem State.join_apertures_get (s : State) (f : Frag) (a : ApertureIx) :
    (s.join f).apertures[a] =
      if f.origin = .aperture a then { s.apertures[a] with held := s.apertures[a].held + 1 } else s.apertures[a] := by
  unfold State.join
  rw [State.countHeld_apertures_get]

/-! Decisions -/

/-- Deciding the fragments of a write keeps them and their order. -/
theorem State.decideAll_frags (s : State) (earlier l : List Frag) :
    (s.decideAll earlier l).map (·.frag) = l := by
  induction l generalizing earlier with
  | nil => rfl
  | cons f fs ih => simp [State.decideAll, ih]

theorem State.decideAll_length (s : State) (earlier l : List Frag) : (s.decideAll earlier l).length = l.length := by
  have h := congrArg List.length (s.decideAll_frags earlier l)
  simpa using h

/-! Orders, releases -/

theorem State.takeOrders_nil (s : State) : State.takeOrders [] s = { s with orders := [] } := rfl

/-- With no order waiting there is nothing to take. -/
theorem State.takeOrders_of_none (s : State) (h : s.orders = []) : State.takeOrders s.orders s = s := by
  rw [h, State.takeOrders_nil, ← h]

/-- A release or flush that takes an entry begins and changes nothing else (R117). -/
theorem State.begin_of_any (s : State) (w : Work) (h : s.queue.any (s.takes w) = true) :
    s.begin w = { s with release := some ⟨w, 0, []⟩ } := by
  simp [State.begin, h]

/-- A release or flush that takes no entry is complete at once (R117). -/
theorem State.begin_of_none (s : State) (w : Work) (h : s.queue.any (s.takes w) = false) :
    s.begin w = s.complete ⟨w, 0, []⟩ := by
  simp [State.begin, h]

/-- Completing a work leaves the queue and the apertures alone. -/
theorem State.complete_queue (s : State) (rel : Release) : (s.complete rel).queue = s.queue := by
  unfold State.complete
  simp only
  split
  · unfold State.formScanner
    split <;> rfl
  · split
    · rfl
    · unfold State.formScanner
      split <;> simp [State.openFrame]
  · rfl
  · rfl
  · split <;> rfl

theorem State.complete_apertures (s : State) (rel : Release) : (s.complete rel).apertures = s.apertures := by
  unfold State.complete
  simp only
  split
  · unfold State.formScanner
    split <;> rfl
  · split
    · rfl
    · unfold State.formScanner
      split <;> simp [State.openFrame]
  · rfl
  · rfl
  · split <;> rfl

theorem State.complete_release (s : State) (rel : Release) : (s.complete rel).release = none := by
  unfold State.complete
  simp only
  split
  · unfold State.formScanner
    split <;> rfl
  · split
    · rfl
    · unfold State.formScanner
      split <;> simp [State.openFrame]
  · rfl
  · rfl
  · split <;> rfl

/-- What an entry just issued leaves of the queue (R117 step 2). -/
theorem State.leaves_queue (s : State) (w : Work) (f : Frag) : (s.leaves w f).queue = s.queue.eraseP (s.takes w) := by
  cases h : f.origin with
  | backing => simp [State.leaves, h]
  | aperture a =>
    simp only [State.leaves, h]
    split <;> simp [State.closeAperture]

/-- An order given while the hold queue is at work waits behind it (R110). -/
theorem State.order_of_busy (s : State) (o : Order) (h : s.holdBusy = true) :
    s.order o = { s with orders := s.orders ++ [o] } := by
  simp [State.order, h]

/-- An order given to a free hold queue is taken at once. -/
theorem State.order_of_free (s : State) (o : Order) (h : s.holdBusy = false) : s.order o = s.takeOrder o := by
  simp [State.order, h]

/-- Beginning a work leaves the queue and the apertures alone. -/
theorem State.begin_queue (s : State) (w : Work) : (s.begin w).queue = s.queue := by
  unfold State.begin
  split
  · rfl
  · exact s.complete_queue _

theorem State.begin_apertures (s : State) (w : Work) : (s.begin w).apertures = s.apertures := by
  unfold State.begin
  split
  · rfl
  · exact s.complete_apertures _

/-- Taking an order leaves the queue and the apertures alone. -/
theorem State.takeOrder_queue (s : State) (o : Order) : (s.takeOrder o).queue = s.queue := by
  unfold State.takeOrder
  split
  · split
    · exact s.begin_queue _
    · rfl
  · split
    · exact s.begin_queue _
    · rfl
  · exact s.begin_queue _

theorem State.takeOrder_apertures (s : State) (o : Order) : (s.takeOrder o).apertures = s.apertures := by
  unfold State.takeOrder
  split
  · split
    · exact s.begin_apertures _
    · rfl
  · split
    · exact s.begin_apertures _
    · rfl
  · exact s.begin_apertures _

theorem State.takeOrders_queue (l : List Order) (s : State) : (State.takeOrders l s).queue = s.queue := by
  induction l generalizing s with
  | nil => rfl
  | cons o os ih =>
    unfold State.takeOrders
    simp only
    split
    · exact s.takeOrder_queue o
    · rw [ih, s.takeOrder_queue o]

theorem State.takeOrders_apertures (l : List Order) (s : State) : (State.takeOrders l s).apertures = s.apertures := by
  induction l generalizing s with
  | nil => rfl
  | cons o os ih =>
    unfold State.takeOrders
    simp only
    split
    · exact s.takeOrder_apertures o
    · rw [ih, s.takeOrder_apertures o]

/-! The handling of a write -/

/-- The held fragments up to the first one to be issued directly join in order; with none left the write is answered and the
orders are taken; else the write waits with the rest (R60). -/
theorem State.handle_eq (q : Requester) (t : Tag) (l : List PendingFrag) (s : State) :
    State.handle q t l s =
      let joined := ((l.takeWhile (·.hold)).map (·.frag)).foldl State.join s
      if l.dropWhile (·.hold) = [] then State.takeOrders joined.orders (joined.answerWrite q t .okay)
      else { joined with writeJob := some (.fragments q t (l.dropWhile (·.hold))) } := by
  induction l generalizing s with
  | nil => simp [State.handle]
  | cons p ps ih =>
    by_cases h : p.hold = true
    · simp [State.handle, h, ih]
    · simp [State.handle, h]

theorem State.foldl_join_queue (l : List Frag) (s : State) : (l.foldl State.join s).queue = s.queue ++ l := by
  induction l generalizing s with
  | nil => simp
  | cons f fs ih => simp [ih, State.join_queue]

/-! Requests handed to the port -/

/-- With no request formed since, nothing is handed over. -/
theorem State.handOver_of_none (s : State) (h : ∀ b, s.formed b = true → s.isHanded b = true) : s.handOver = s := by
  have hf : (formers.filter fun b => s.formed b && !s.isHanded b) = [] := by
    rw [List.filter_eq_nil_iff]
    intro b _ hb
    cases hfb : s.formed b
    · simp [hfb] at hb
    · simp [h b hfb] at hb
  unfold State.handOver
  rw [hf]

/-- Which requests a block has formed does not depend on those at the port. -/
theorem State.formed_handed (s : State) (l : List (List Former)) (b : Former) :
    State.formed { s with handed := l } b = s.formed b := by
  cases b <;> rfl

/-- After a hand-over every request formed stands at the port (R39). -/
theorem State.handOver_isHanded (s : State) (b : Former) (h : s.formed b = true) : s.handOver.isHanded b = true := by
  have hm : b ∈ formers := by cases b <;> simp [formers]
  unfold State.handOver
  split
  · rename_i hf
    rw [List.filter_eq_nil_iff] at hf
    have := hf b hm
    cases hh : s.isHanded b
    · simp [h, hh] at this
    · rfl
  · rename_i x xs hf
    cases hh : s.isHanded b
    · have hx : b ∈ x :: xs := by
        rw [← hf, List.mem_filter]
        exact ⟨hm, by simp [h, hh]⟩
      simpa [State.isHanded] using Or.inr hx
    · have h' : s.handed.any (·.contains b) = true := hh
      show (s.handed ++ [x :: xs]).any (·.contains b) = true
      rw [List.any_append, h', Bool.true_or]

/-- The issue of a block's request takes it, and no other, from the port. -/
theorem State.passRequest_isHanded (s : State) (b c : Former) :
    (s.passRequest b).isHanded c = true ↔ s.isHanded c = true ∧ c ≠ b := by
  simp only [State.isHanded, State.passRequest, List.any_eq_true, List.contains_iff_mem, List.mem_filter, List.mem_map,
    bne_iff_ne]
  constructor
  · rintro ⟨_, ⟨⟨l, hl, rfl⟩, -⟩, hc⟩
    rw [List.mem_filter, bne_iff_ne] at hc
    exact ⟨⟨l, hl, hc.1⟩, hc.2⟩
  · rintro ⟨⟨l, hl, hc⟩, hb⟩
    have hm : c ∈ l.filter (· != b) := List.mem_filter.2 ⟨hc, bne_iff_ne.2 hb⟩
    exact ⟨_, ⟨⟨l, hl, rfl⟩, List.ne_nil_of_mem hm⟩, hm⟩

/-- No group left at the port by an issue is empty. -/
theorem State.passRequest_ne_nil (s : State) (b : Former) : ∀ group ∈ (s.passRequest b).handed, group ≠ [] := by
  intro group h
  exact bne_iff_ne.1 (List.mem_filter.1 h).2

/-- An issue leaves no request twice at the port. -/
theorem State.passRequest_nodup (s : State) (b : Former) (h : s.handed.flatten.Nodup) :
    (s.passRequest b).handed.flatten.Nodup := by
  have hf : (s.passRequest b).handed.flatten = s.handed.flatten.filter (· != b) := by
    simp only [State.passRequest]
    induction s.handed with
    | nil => rfl
    | cons l ls ih =>
      by_cases hl : l.filter (· != b) = []
      · simp [hl, ih]
      · simp [hl, ih]
  rw [hf]
  exact h.filter _

end Sys2Proof.Machine
end

