-- ==== Sys2Proof/Tests/Slice0.lean ====
section
/-! SUPPORT. Tests: ill-formed commands are refused, the manual's worked examples come out, and every statement's hypotheses are met somewhere. -/

namespace Sys2Proof.Tests

open Sys2Proof Sys2Proof.Machine

set_option Elab.async false

/-! Small states -/

/-- Surface 3 of the worked examples of Chapter 7. -/
def scanned : SurfaceRec where
  defined := true
  base := 0x80300000#40
  pitch := 64
  width := 8
  height := 10
  format := .s32
  scanner := some 3#4
  firstRow := 0
  lastRow := 9
  policy := .trail
  timeout := 100
  notify := true
  band := some ⟨2, 6, 2⟩

/-- Surface 0 of the worked example of Chapter 1. -/
def panel : SurfaceRec where
  defined := true
  base := 0x80000000#40
  pitch := 1664
  width := 800
  height := 480
  format := .s16
  scanner := some 3#4
  firstRow := 0
  lastRow := 479
  policy := .trail
  timeout := 2000
  notify := false
  band := some ⟨400, 80, 0⟩

/-- Surface 1 of the worked example of Chapter 1. -/
def preview : SurfaceRec where
  defined := true
  base := 0x800C3000#40
  pitch := 1920
  width := 480
  height := 272
  format := .s32
  scanner := none
  firstRow := 0
  lastRow := 271
  policy := .trail
  timeout := 0
  notify := false
  band := none

/-- Aperture 0 of the worked example of Chapter 2. -/
def mapped0 : ApertureFields :=
  { ApertureFields.cleared with
    base := 0x90000000#40, exchange := true, format := .u32, expansion := .replicate, filter := some [1#4, 2#4] }

/-- Aperture 1 of the worked example of Chapter 5, under DISCARD. -/
def stream1 : ApertureFields :=
  { ApertureFields.cleared with kind := .stream, base := 0x90177000#40, window := ⟨100, 105, 50, 51⟩ }

/-- Aperture 2 of the worked example of Chapter 2. -/
def mapped2 : ApertureFields :=
  { ApertureFields.cleared with base := 0x90180000#40, surface := 1, flipV := true, format := .u16 }

/-- A running part without records. -/
def plain : State := { State.reset with phase := .running }

/-- The part of the worked examples of Chapters 1 to 3: ENGAGED, surfaces 0, 1 and 3, apertures 0 to 2 OPEN. -/
def busyPart : State :=
  { State.reset with
    phase := .running
    mode := .engaged
    surfaces := ((State.reset.surfaces.set 0 panel).set 1 preview).set 3 scanned
    scans := (State.reset.scans.set 0 (ScanCtx.fresh panel.band)).set 3 (ScanCtx.fresh scanned.band)
    apertures := ((State.reset.apertures.set 0 ⟨.opened, 0, mapped0⟩).set 1 ⟨.opened, 0, stream1⟩).set 2 ⟨.opened, 0, mapped2⟩
    cursors := State.reset.cursors.set 1 (Cursor.start stream1.window) }

/-- The scan context of surface 3 in SCANNING at row `c` of frame 7. -/
def scanAt (c : Nat) : ScanCtx := ⟨.scanning, 7, c, some ⟨2, 6, 2⟩, .none, some 40000⟩

/-- `busyPart` with surface 3 SCANNING at row `c`. -/
def scanningAt (c : Nat) : State := { busyPart with scans := busyPart.scans.set 3 (scanAt c) }

/-- A fragment of surface 3 over the first block of memory row `row`. -/
def fragAt (row : Nat) (o : Origin) : Frag :=
  ⟨3, row, BitVec.ofNat 40 (0x80300000 + 64 * row), Vector.replicate 32 (some 7), o, 1#4⟩

/-- `scanningAt 1` with fragments of rows 7 and 9 held. -/
def holding : State := { scanningAt 1 with queue := [fragAt 7 .backing, fragAt 9 .backing], highWater := 2 }

/-- A write of `n` beats of `data` by requester 1. -/
def write (addr : Nat) (lenM1 : Fin 16) (data : WByte) : WriteReq :=
  ⟨BitVec.ofNat 40 addr, .incrementing, lenM1, 1#4, 0#4, List.replicate (8 * (lenM1.val + 1)) data⟩

/-- A read by requester `q`. -/
def read (addr : Nat) (lenM1 : Fin 16) (q : Requester) : ReadReq := ⟨BitVec.ofNat 40 addr, .incrementing, lenM1, q, 0#4⟩

/-- A strobed byte. -/
def lit : WByte := ⟨true, 7⟩

/-- The state that a command answers. -/
def after (c : Instr) (s : State) : State :=
  match exec c s with
  | .next t => t
  | _ => s

/-- A command that leads to another state answers it. -/
theorem exec_eq_next {c : Instr} {s t : State} (h : after c s = t ∧ t ≠ s) : exec c s = .next t := by
  unfold after at h
  split at h
  · rename_i u hu
    rw [hu, h.1]
  · exact absurd h.1.symm h.2

/-! Ill-formed commands -/

theorem test_writeBeats : (Instr.headWriteConsidered { write 0 0 lit with bytes := [lit] }).wellFormed = false
    ∧ (Instr.headWriteConsidered (write 0 0 lit)).wellFormed = true := by decide +kernel

theorem test_returnTooLong : (Instr.downstreamReadReturn 0 0 false (List.replicate 129 0)).wellFormed = false := by
  decide +kernel

theorem test_shortIsShort : (Instr.shortTransaction ⟨[0x40], true⟩).wellFormed = false
    ∧ (Instr.shortTransaction ⟨[0x21], false⟩).wellFormed = true ∧ (Instr.shortTransaction ⟨[], true⟩).wellFormed = true
    ∧ (Instr.shortTransaction ⟨[0xEE], true⟩).wellFormed = false := by decide +kernel

theorem test_unknownIsUnknown : (Instr.unknownCommand 0x7E).wellFormed = false
    ∧ (Instr.unknownCommand 0x7F).wellFormed = true := by decide +kernel

theorem test_recordLengths : (Instr.surfaceWrite 0 (List.replicate 26 0)).wellFormed = false
    ∧ (Instr.bandSet 0 (List.replicate 6 0)).wellFormed = false
    ∧ (Instr.apertureWrite 0 (List.replicate 17 0)).wellFormed = false
    ∧ (Instr.windowSet 0 (List.replicate 7 0)).wellFormed = false := by decide +kernel

theorem test_alertActionZeroReads : (Instr.alertMaskWrite 0 0).wellFormed = false := by decide +kernel

/-! Worked examples of the manual -/

/-- The table of section 4.6. -/
theorem test_orientations :
    (placeAt { mapped0 with exchange := false } panel 64 2).addr = 0x80000D80
    ∧ (placeAt { mapped0 with exchange := false, flipH := true } panel 64 2).addr = 0x800012BE
    ∧ (placeAt { mapped0 with exchange := false, flipV := true } panel 64 2).addr = 0x800C1D00
    ∧ (placeAt { mapped0 with exchange := false, flipH := true, flipV := true } panel 64 2).addr = 0x800C223E
    ∧ (placeAt mapped0 panel 64 2).addr = 0x8001A004
    ∧ (placeAt { mapped0 with flipH := true } panel 64 2).addr = 0x800A8984
    ∧ (placeAt { mapped0 with flipV := true } panel 64 2).addr = 0x8001A63A
    ∧ (placeAt { mapped0 with flipH := true, flipV := true } panel 64 2).addr = 0x800A8FBA := by decide +kernel

/-- Requests 1 to 14 of section 3.8. -/
theorem test_classification :
    busyPart.classify ⟨true, 0x90000100, .incrementing, 4, 1#4⟩ = .mapped 0
    ∧ busyPart.classify ⟨true, 0x90000100, .incrementing, 4, 5#4⟩ = .refused (.aperture 0) .filtered
    ∧ busyPart.classify ⟨true, 0x90176FC0, .incrementing, 16, 5#4⟩ = .refused (.aperture 0) .crossesEdge
    ∧ busyPart.classify ⟨false, 0x90000200, .fixed, 4, 2#4⟩ = .refused (.aperture 0) .burstKind
    ∧ busyPart.classify ⟨true, 0x90000104, .incrementing, 1, 1#4⟩ = .refused (.aperture 0) .misaligned
    ∧ busyPart.classify ⟨false, 0x901BFC00, .incrementing, 1, 4#4⟩ = .refused (.aperture 2) .beyondView
    ∧ busyPart.classify ⟨false, 0x80000680, .incrementing, 8, 3#4⟩ = .scanner 0
    ∧ busyPart.classify ⟨false, 0x80000680, .incrementing, 8, 4#4⟩ = .backing 0
    ∧ busyPart.classify ⟨true, 0x80000680, .incrementing, 8, 3#4⟩ = .backing 0
    ∧ busyPart.classify ⟨true, 0x800C2FF8, .incrementing, 2, 6#4⟩ = .refused (.surface 0) .crossesEdge
    ∧ busyPart.classify ⟨false, 0x7FFFFFC0, .incrementing, 16, 6#4⟩ = .refused (.surface 0) .crossesEdge
    ∧ busyPart.classify ⟨true, 0x801427F0, .wrapping, 4, 6#4⟩ = .refused (.surface 1) .burstKind
    ∧ busyPart.classify ⟨true, 0x90179000, .fixed, 2, 7#4⟩ = .transparent
    ∧ busyPart.classify ⟨false, 0xA0000000, .incrementing, 16, 7#4⟩ = .transparent := by decide +kernel

/-- The band map of section 7.3 and its inverse. -/
theorem test_bandMap :
    (List.range 9).map (memoryRow (some ⟨2, 6, 2⟩)) = [0, 1, 4, 5, 6, 7, 2, 3, 8]
    ∧ displayRow (some ⟨2, 6, 2⟩) 2 = 6 := by decide +kernel

/-- Section 6.9. -/
theorem test_channels :
    expand .greyLock ⟨21, 43, 21⟩ = ⟨174, 174, 174⟩ ∧ expand .greyLock ⟨21, 44, 21⟩ = ⟨173, 178, 173⟩
    ∧ expand .zero ⟨21, 45, 10⟩ = ⟨168, 180, 80⟩ ∧ expand .replicate ⟨31, 63, 31⟩ = ⟨255, 255, 255⟩
    ∧ reduce .round ⟨255, 255, 255⟩ = ⟨31, 63, 31⟩ ∧ reduce .round ⟨3, 3, 3⟩ = ⟨0, 1, 0⟩
    ∧ reduce .truncate ⟨173, 182, 82⟩ = ⟨21, 45, 10⟩ := by decide +kernel

/-- Steps 1 and 2 of section 5.8 under DISCARD: the cursor, and STREAM-EXHAUSTED at the second write. -/
theorem test_streamDiscard :
    (after (.headWriteConsidered (write 0x90177000 1 lit)) busyPart).cursors[1] = ⟨102, 51, false, false⟩
    ∧ (streamWritePlan 1 stream1 panel (write 0x90177100 1 lit) ⟨102, 51, false, false⟩).cursor
        = some ⟨100, 50, true, true⟩
    ∧ (streamWritePlan 1 stream1 panel (write 0x90177100 1 lit) ⟨102, 51, false, false⟩).exhaustedDrop = true
    ∧ ((streamWritePlan 1 stream1 panel (write 0x90177000 1 lit) ⟨0, 0, true, true⟩).frags.map (·.block))
        = [0x800145C0#40, 0x80014C40#40] := by decide +kernel

/-- The write of section 4.7 down a column: eight fragments in eight rows. -/
theorem test_columnWrite :
    (mappedWritePlan 0 mapped0 panel (write 0x90001000 3 lit)).frags.map (fun f => (f.row, f.block.toNat))
      = [(64, 0x8001A000), (65, 0x8001A680), (66, 0x8001AD00), (67, 0x8001B380),
         (68, 0x8001BA00), (69, 0x8001C080), (70, 0x8001C700), (71, 0x8001CD80)] := by decide +kernel

/-- Steps 8, 9 and 12 of section 7.9: the rows read, a release of row 7, and a finish. -/
theorem test_scanStep :
    (after (.headReadConsidered (read 0x80300080 3 3#4) 0) (scanningAt 1)).scans[3].c = 2
    ∧ (after (.headReadConsidered (read 0x80300180 3 3#4) 0) holding).release = some ⟨.step 3 0 6, 0, []⟩
    ∧ (after (.downstreamWriteIssue .holdQueue)
        (after (.headReadConsidered (read 0x80300180 3 3#4) 0) holding)).scans[3].c = 6
    ∧ (after .fragmentReadIssue
        (after (.headReadConsidered (read 0x80300240 3 3#4) 0) (scanningAt 1))).scans[3].state = .blanking := by
  decide +kernel

/-- The load of a part whose slots are BLANK. -/
theorem test_blankPowerOn :
    (after (.powerOn none) State.reset).phase = .loading 21
    ∧ (after (.powerOn none) State.reset).events = [] := by decide +kernel

/-! The hypotheses of the statements are met

One theorem for each statement that has hypotheses, a line for each of its clauses. -/

/-- The head write of an open channel is considered. -/
theorem considers_headWrite {s : State} {w : WriteReq} (h : s.writeOpen = true ∧ s.headWrite = none) :
    ConsidersWrite (.headWriteConsidered w) s w := ⟨h.1, .inl ⟨rfl, .inl h.2⟩⟩

/-- The write that waits at the head of an open channel is considered again. -/
theorem considers_waitingWrite {s : State} {w : WriteReq} (h : s.writeOpen = true ∧ s.headWrite = some w) :
    ConsidersWrite .waitingWriteReconsidered s w := ⟨h.1, .inr ⟨rfl, h.2⟩⟩

/-- The head read of an open channel is considered. -/
theorem considers_headRead {s : State} {r : ReadReq} {pick : Nat} (h : s.readOpen = true ∧ s.headRead = none) :
    ConsidersRead (.headReadConsidered r pick) s r pick := ⟨h.1, .inl ⟨rfl, .inl h.2⟩⟩

/-- The read that waits at the head of an open channel is considered again. -/
theorem considers_waitingRead {s : State} {r : ReadReq} {pick : Nat} (h : s.readOpen = true ∧ s.headRead = some r) :
    ConsidersRead (.headReadReconsidered pick) s r pick := ⟨h.1, .inr ⟨rfl, h.2⟩⟩

/-- A value found by a check. -/
theorem exists_of_any {α : Type} {o : Option α} {p : α → Bool} (h : o.any p = true) :
    ∃ x, o = some x ∧ p x = true := by
  cases o with
  | none => cases h
  | some x => exact ⟨x, rfl, h⟩

/-- An event record. -/
def record : EventRec := ⟨5, ⟨.frameOpen, some (.surface 3), none, none, none, .number 2⟩, 255⟩

/-- A fragment read, issued when `issued` says so. -/
def fragRead (issued finishes : Bool) : FragRead :=
  ⟨0x80300240, .incrementing, 4, none, finishes, if issued then .issued else .unissued, none, none⟩

/-- An entry of a scanner read of surface 3 with one fragment read. -/
def tracked (fr : FragRead) : Entry :=
  ⟨read 0x80300240 3 3#4, .scanner, none, some 3, none, [], [fr], false,
    if fr.status = .unissued then .issuing else .waiting⟩

/-- A part with entry 0 in use. -/
def inTable (s : State) (en : Entry) : State := { s with table := s.table.set 0 (some en), taken := [0] }.handOver

/-- `s` with a release of work `w` in progress and `f` the only fragment held. -/
def releasing (s : State) (w : Work) (f : Frag) : State :=
  { s with queue := [f], release := some ⟨w, 0, []⟩ }.handOver

/-- `busyPart` with surface 3 scanned from row 2 to row 7 only. -/
def narrow (notify : Bool) : State :=
  { busyPart with
    surfaces := busyPart.surfaces.set 3 { scanned with firstRow := 2, lastRow := 7, notify := notify } }

/-- A part whose hold queue is full. -/
def fullPart : State := { scanningAt 1 with queue := List.replicate 256 (fragAt 9 .backing), highWater := 256 }

theorem test_witness_StepRunsFrontCommand :
    { plain with pending := [Instr.holdRead, .ident] }.pending = .holdRead :: [.ident] ∧ (scanningAt 9).pending = [] :=
  ⟨rfl, rfl⟩

/-- What holds of the three forming blocks holds of each. -/
theorem forall_former {p : Former → Prop} (h : p .writeChannel ∧ p .holdQueue ∧ p .readTracker) : ∀ b, p b
  | .writeChannel => h.1
  | .holdQueue => h.2.1
  | .readTracker => h.2.2

/-- A part with fragments held, a scan under way and a scanner read coming satisfies the laws, and steps. -/
theorem test_witness_Inv :
    Inv { holding with pending := [.headReadConsidered (read 0x80300180 3 3#4) 0] }
    ∧ ∃ t, step { holding with pending := [.headReadConsidered (read 0x80300180 3 3#4) 0] } = .next t
        ∧ t.release = some ⟨.step 3 0 6, 0, []⟩ := by
  refine ⟨⟨⟨?_, ?_, ?_, ?_, ?_, ?_, ?_, ?_⟩, ⟨?_, ?_, ?_, ?_, ?_, ?_, ?_, ?_⟩, ⟨?_, ?_, ?_, ?_, ?_, ?_, ?_⟩, ⟨?_, ?_, ?_, ?_, ?_⟩,
    ⟨?_, ?_, ?_, ?_⟩, ⟨forall_former ⟨?_, ?_, ?_⟩, ?_, ?_⟩⟩, _, rfl, ?_⟩
  all_goals decide +kernel

theorem test_witness_PowerOnLeavesNothingHeld :
    (plain.saving = none ∧ ∀ k : SlotIx, plain.slotUses k = 0)
    ∧ ((after (.powerOn none) { plain with setSlot := ⟨1, none, false⟩ }).events[0]?).map (·.seq) = some 0 := by
  decide +kernel

theorem test_witness_ResetnFallAbandonsWork : holding.resetnHigh = true := by decide +kernel

theorem test_witness_ResetnRiseRaisesLineResetFirst :
    (after .resetnFall { holding with events := List.replicate 31 record }).phase = .resetLow
    ∧ (after .resetnFall { holding with events := List.replicate 31 record }).events.length < 32
    ∧ 32 ≤ (after .resetnFall { holding with events := List.replicate 32 record }).events.length
    ∧ (after .resetnFall { holding with events := List.replicate 32 record }).events.getLast? = some record := by decide +kernel

/-- A part in line reset with slots GOOD, DAMAGED and BLANK, and two good surface records that overlap. -/
def stored : State :=
  { State.reset with
    phase := .resetLow
    apSlots := (State.reset.apSlots.set 0 ⟨1, some mapped0, true⟩).set 7 ⟨1, some stream1, false⟩
    sfSlots := ((State.reset.sfSlots.set 0 ⟨1, some panel, true⟩).set 1 ⟨3, some SurfaceRec.cleared, true⟩).set 3
      ⟨2, some panel, true⟩
    setSlot := ⟨1, some ⟨.engaged, 1⟩, true⟩ }

theorem test_witness_LoadPhaseFillsTables :
    stored.saving = none ∧ stored.phase = .resetLow
    ∧ (stored.apSlots[0].status = .good ∧ stored.apSlots[0].image = some mapped0) ∧ stored.apSlots[7].status ≠ .good
    ∧ (stored.sfSlots[0].status = .good ∧ stored.sfSlots[0].image = some panel ∧ panel.defined = true)
    ∧ (stored.sfSlots[3].status = .good ∧ stored.sfSlots[3].image = some panel)
    ∧ (stored.sfSlots[1].status = .good ∧ stored.sfSlots[1].image = some SurfaceRec.cleared
        ∧ SurfaceRec.cleared.defined = false)
    ∧ stored.sfSlots[2].status ≠ .good
    ∧ (stored.setSlot.status = .good ∧ stored.setSlot.image = some ⟨.engaged, 1⟩) ∧ State.reset.setSlot.status ≠ .good := by
  decide +kernel

/-- The load of `loading` left at item `n`: aperture slots 0, 1 and 7 GOOD, 2 DAMAGED; surface slots 0 GOOD, 1 GOOD with a record that
overlaps it, 2 DAMAGED; the settings GOOD; apertures 0 and 1 asking to be opened, aperture 1 without room. -/
def loading (n : Nat) : State :=
  after (.powerOn (some n)) { State.reset with
    apSlots := (((State.reset.apSlots.set 0 ⟨1, some { mapped0 with openAtStart := true }, true⟩).set 1
      ⟨1, some { mapped0 with openAtStart := true }, true⟩).set 2 ⟨1, some mapped2, false⟩).set 7 ⟨1, some stream1, true⟩
    sfSlots := ((State.reset.sfSlots.set 0 ⟨1, some panel, true⟩).set 1 ⟨1, some panel, true⟩).set 2 ⟨1, some panel, false⟩
    setSlot := ⟨1, some ⟨.engaged, 1⟩, true⟩ }

theorem test_witness_LoadPhaseEndHandlesWhatIsLeft :
    (State.reset.phase = .loading 21
      ∧ (∃ t, exec (.powerOn none) stored = .next t) ∧ (∃ u, exec (.powerOn (some 9)) stored = .next u)
      ∧ (∃ t, exec (.resetnRise none) stored = .next t) ∧ (∃ u, exec (.resetnRise (some 0)) stored = .next u)
      ∧ stored.phase = .resetLow)
    ∧ ((loading 0).phase = .loading (0 : ApertureIx).val ∧ (loading 0).apSlots[0].status = .good
      ∧ (loading 0).apSlots[0].image = some { mapped0 with openAtStart := true })
    ∧ ((loading 2).phase = .loading (2 : ApertureIx).val ∧ (loading 2).apSlots[2].status ≠ .good)
    ∧ (loading 7).phase = .loading (7 : ApertureIx).val
    ∧ ((loading 9).phase = .loading ((1 : SurfaceIx).val + 8) ∧ (loading 9).sfSlots[1].status = .good
      ∧ (loading 9).sfSlots[1].image = some panel)
    ∧ ((loading 11).phase = .loading ((3 : SurfaceIx).val + 8) ∧ (loading 11).sfSlots[3].status ≠ .good)
    ∧ ((loading 12).phase = .loading 12 ∧ (loading 12).setSlot.status = .good
      ∧ (loading 12).setSlot.image = some ⟨.engaged, 1⟩)
    ∧ ({ State.reset with phase := .loading 12 }.phase = .loading 12 ∧ State.reset.setSlot.status ≠ .good)
    ∧ ((loading 13).phase = .loading ((0 : ApertureIx).val + 13) ∧ (loading 13).mode = .engaged
      ∧ (loading 13).apertures[0].fields.openAtStart = true ∧ MayOpen (loading 13) 0)
    ∧ ((loading 14).phase = .loading ((1 : ApertureIx).val + 13) ∧ (loading 14).apertures[1].fields.openAtStart = true
      ∧ ¬ MayOpen (loading 14) 1)
    ∧ ((loading 20).phase = .loading ((7 : ApertureIx).val + 13) ∧ (loading 20).apertures[7].fields.openAtStart = false) := by
  refine ⟨⟨?_, ⟨_, rfl⟩, ⟨_, rfl⟩, ⟨_, rfl⟩, ⟨_, rfl⟩, ?_⟩, ?_⟩
  all_goals decide +kernel

/-- A part that handles an accepted write: a direct fragment of surface 3 through aperture 0 and a held one behind it. -/
def writing : State :=
  { scanningAt 1 with
    writeJob := some (.fragments 1 0 [⟨false, fragAt 0 (.aperture 0)⟩, ⟨true, fragAt 7 (.aperture 0)⟩]) }.handOver

theorem test_witness_ModeSetChangesMode :
    (plain.phase = .running ∧ plain.todo = [] ∧ (∀ a : ApertureIx, plain.apertures[a].state = .closed) ∧ plain.queue = [])
    ∧ (busyPart.todo = [] ∧ ∃ a : ApertureIx, busyPart.apertures[a].state ≠ .closed)
    ∧ (holding.todo = [] ∧ holding.queue ≠ []) ∧ (writing.phase = .running ∧ writing.todo ≠ [])
    ∧ 1 < (2 : Byte).toNat ∧ 1 < (255 : Byte).toNat := by decide +kernel

/-- MODE-SET to BYPASS waits in the port behind the fragments of an accepted write, and then it executes. -/
theorem test_modeSetWaitsForTheWrite :
    (after (.modeSet 0) writing).port = .receiving [0x10, 0x00]
    ∧ (after (.downstreamWriteIssue .writeChannel) (after (.modeSet 0) writing)).port = .responding [0x10, 0x00] [0x02] := by
  decide +kernel

theorem test_witness_ReadingCommandsChangeNothing :
    busyPart.phase = .running ∧ (3 : Byte).toNat = (3 : SurfaceIx).val ∧ (7 : Byte).toNat = (7 : ApertureIx).val := by
  decide +kernel

theorem test_witness_GateAndTransactionsWithoutEffect :
    (State.reset.busy = true ∧ gatedCommand (.windowSet 7 (List.replicate 8 0)) = true
      ∧ (Instr.windowSet 7 (List.replicate 8 0)).wellFormed = true)
    ∧ (State.reset.phase ≠ .off ∧ State.reset.phase ≠ .resetLow)
    ∧ (stored.phase = .resetLow ∧ gatedCommand .modeRead = true) ∧ plain.resetnHigh = true
    ∧ (shortBytes [] = true ∧ shortBytes (0x20 :: List.replicate 27 0) = true ∧ plain.port ≠ .ignored
      ∧ (after .resetnFall { plain with port := .receiving [0x20] }).port = .ignored)
    ∧ (plain.phase = .running ∧ (Instr.surfaceRead 4).wellFormed = true ∧ surfaceIndexOf (.surfaceRead 4) = some 4
      ∧ 3 < (4 : Byte).toNat)
    ∧ ((Instr.cursorRead 8).wellFormed = true ∧ apertureIndexOf (.cursorRead 8) = some 8 ∧ 7 < (8 : Byte).toNat) := by
  decide +kernel

theorem test_witness_TransactionBytesNameCommands :
    (surfaceBytes panel).length = 27 ∧ (bandBytes ⟨2, 6, 5⟩).length = 7 ∧ ((apertureBytes mapped0 .closed 0).take 18).length = 18
    ∧ paramCount 0x7F = none ∧ (paramCount 0x34 = some 9 ∧ (List.replicate 8 (0 : Byte)).length < 9 ∧ 9 ≤ (List.replicate 9 (0 : Byte)).length)
    ∧ ((Instr.alertMaskWrite 0xFF 0xFFFF).wellFormed = true ∧ gatedCommand (.alertMaskWrite 0xFF 0xFFFF) = true)
    ∧ (Instr.unknownCommand 0x7F).wellFormed = true
    ∧ ((after .eventCount plain).port = .responding [0x51] [0x00, 0x00] ∧ [0x00, (0x00 : Byte)][1]? = some 0x00)
    ∧ ∀ received response, plain.port ≠ .responding received response := by
  refine ⟨?_, ?_, ?_, ?_, ?_, ?_, ?_, ?_, nofun⟩
  all_goals decide +kernel

theorem test_witness_LayoutsOfTheManagementPort :
    (65535 : Nat) < 65536 ∧ 3 ≤ (0xFF : Byte).toNat
    ∧ ((surfaceBytes panel).drop 2).length = 25 ∧ (0x00 : Byte).getLsbD 0 = false
    ∧ ((surfaceBytes panel)[0]? = some 0x0D ∧ (0x0D : Byte).getLsbD 0 = true
      ∧ parseSurface (0x0D :: 0x03 :: (surfaceBytes panel).drop 2) = some panel
      ∧ panel.scanner ≠ none ∧ panel.band ≠ none)
    ∧ (((apertureBytes mapped0 .closed 0).take 18).length = 18
      ∧ parseAperture ((apertureBytes mapped0 .closed 0).take 18) = some mapped0) := by decide +kernel

/-- Surface 0 of the worked example of Chapter 1, as it crosses the port. -/
theorem test_surfaceBytes :
    surfaceBytes panel = [0x0D, 0x03, 0x00, 0x80, 0x00, 0x00, 0x00, 0x00, 0x06, 0x80, 0x03, 0x20, 0x01, 0xE0,
      0x00, 0x00, 0x01, 0xDF, 0x07, 0xD0, 0x01, 0x01, 0x90, 0x00, 0x50, 0x00, 0x00] := by decide +kernel

/-- Every code of the table decodes to the command that it names, with bytes to spare. -/
theorem test_decodeTransaction :
    [[0x01], [0x10, 1], [0x11], [0x21, 3, 0], [0x23, 2], [0x31, 7], [0x32, 7], [0x33, 0], [0x35, 1], [0x40], [0x50], [0x51, 9],
      [0x52, 0, 0x12, 0x34], [0x52, 1, 0x12, 0x34], [0x60, 12], [0x61], [0x7E], [0x7F], [], [0x33]].map decodeTransaction
    = [.ident, .modeSet 1, .modeRead, .surfaceRead 3, .scanRead 2, .apertureRead 7, .apertureOpen 7, .apertureClose 0, .cursorRead 1,
      .holdRead, .eventRead, .eventCount, .alertMaskRead 0x1234, .alertMaskWrite 1 0x1234, .profileSave 12, .profileRead,
      .softReset, .unknownCommand 0x7F, .shortTransaction ⟨[], true⟩, .shortTransaction ⟨[0x33], true⟩] := by decide +kernel

theorem test_witness_SurfaceWriteInstallsOrRefuses :
    (busyPart.phase = .running ∧ (0 : Byte).toNat = (0 : SurfaceIx).val ∧ (surfaceBytes panel).length = 27
      ∧ (∀ p ∈ busyPart.todo, p.frag.surface ≠ 0)
      ∧ ∃ a : ApertureIx, busyPart.apertures[a].state ≠ .closed ∧ busyPart.apertures[a].fields.surface = 0)
    ∧ (writing.phase = .running ∧ ∃ p ∈ writing.todo, p.frag.surface = 3)
    ∧ (∀ p ∈ holding.todo, p.frag.surface ≠ 3) ∧ (∃ f ∈ holding.queue, f.surface = 3)
    ∧ ((∀ a : ApertureIx, busyPart.apertures[a].state ≠ .closed → busyPart.apertures[a].fields.surface ≠ 3)
      ∧ (∀ f ∈ busyPart.queue, f.surface ≠ 3) ∧ (List.replicate 27 (0xFF : Byte)).length = 27
      ∧ parseSurface (List.replicate 27 0xFF) = none)
    ∧ (parseSurface (surfaceBytes panel) = some panel ∧ busyPart.surfaceFits 3 panel = false)
    ∧ (parseSurface (surfaceBytes scanned) = some scanned ∧ busyPart.surfaceFits 3 scanned = true)
    ∧ (SurfaceRec.cleared.defined = false ∧ scanned.defined = true) := by decide +kernel

theorem test_witness_BandSetPlacesPendingBand :
    (plain.phase = .running ∧ (3 : Byte).toNat = (3 : SurfaceIx).val ∧ (bandBytes ⟨2, 6, 5⟩).length = 7
      ∧ plain.surfaces[3].defined = false)
    ∧ busyPart.surfaces[3].defined = true
    ∧ parseBand (List.replicate 7 0) = .absent ∧ parseBand (List.replicate 7 3) = .bad
    ∧ (parseBand (bandBytes ⟨2, 6, 6⟩) = .band ⟨2, 6, 6⟩ ∧ busyPart.surfaces[3].bandOk ⟨2, 6, 6⟩ = false)
    ∧ parseBand (2 :: List.replicate 6 0) = .remove
    ∧ (parseBand (bandBytes ⟨2, 6, 5⟩) = .band ⟨2, 6, 5⟩ ∧ busyPart.surfaces[3].bandOk ⟨2, 6, 5⟩ = true) := by
  decide +kernel

/-- The bytes of APERTURE-READ that APERTURE-WRITE takes. -/
def record18 (f : ApertureFields) : List Byte := (apertureBytes f .closed 0).take 18

theorem test_witness_ApertureWriteReplacesFields :
    (busyPart.phase = .running ∧ (2 : Byte).toNat = (2 : ApertureIx).val ∧ (record18 mapped2).length = 18
      ∧ busyPart.apertures[2].state ≠ .closed)
    ∧ (busyPart.apertures[7].state = .closed ∧ parseAperture (List.replicate 18 0xFF) = none)
    ∧ parseAperture (record18 stream1) = some stream1 := by decide +kernel

/-- `plain` in ENGAGED with surface 0 and, in aperture 7, the fields `f`, and `x` for the state of aperture 0 with `mapped0`. -/
def opening (f : ApertureFields) (x : ApertureState) : State :=
  { plain with
    mode := .engaged
    surfaces := plain.surfaces.set 0 panel
    apertures := (plain.apertures.set 0 ⟨x, 0, mapped0⟩).set 7 ⟨.closed, 0, f⟩ }

theorem test_witness_ApertureOpenChecksAndOpens :
    (plain.phase = .running ∧ (7 : Byte).toNat = (7 : ApertureIx).val ∧ plain.mode = .bypass)
    ∧ busyPart.apertures[0].state ≠ .closed
    ∧ (∀ s ∈ [opening { mapped0 with surface := 3 } .closed, opening { mapped0 with base := 0xFFFFFFF000 } .closed,
        opening mapped0 .draining, opening { mapped0 with base := 0x80000000 } .closed,
        opening { stream1 with window := ⟨0, 800, 0, 0⟩ } .closed],
      s.phase = .running ∧ s.apertures[7].state = .closed ∧ s.mode = .engaged ∧ ¬ MayOpen s 7)
    ∧ ((opening stream1 .opened).apertures[7].state = .closed ∧ (opening stream1 .opened).mode = .engaged
      ∧ MayOpen (opening stream1 .opened) 7)
    ∧ stream1.kind = .stream ∧ mapped0.kind = .mapped := by decide +kernel

/-- `holding` with the held fragments written through aperture 0. -/
def holdingFrom0 : State :=
  { holding with
    queue := [fragAt 7 (.aperture 0)]
    apertures := holding.apertures.set 0 ⟨.opened, 1, mapped0⟩ }

theorem test_witness_ApertureCloseClosesOrDrains :
    (busyPart.phase = .running ∧ (7 : Byte).toNat = (7 : ApertureIx).val ∧ busyPart.apertures[7].state ≠ .opened
      ∧ ∀ p ∈ busyPart.todo, p.frag.origin ≠ .aperture 7)
    ∧ (busyPart.apertures[0].state = .opened ∧ busyPart.apertures[0].held = 0)
    ∧ (holdingFrom0.apertures[0].state = .opened ∧ 0 < holdingFrom0.apertures[0].held
      ∧ ∀ p ∈ holdingFrom0.todo, p.frag.origin ≠ .aperture 0)
    ∧ (writing.phase = .running ∧ ∃ p ∈ writing.todo, p.frag.origin = .aperture 0) := by decide +kernel

/-- The bytes of a window. -/
def windowBytes (a b c d : Nat) : List Byte := beBytes 2 a ++ beBytes 2 b ++ beBytes 2 c ++ beBytes 2 d

theorem test_witness_WindowSetReplacesWindow :
    (busyPart.phase = .running ∧ (0 : Byte).toNat = (0 : ApertureIx).val ∧ (windowBytes 0 799 0 479).length = 8
      ∧ busyPart.apertures[0].fields.kind = .mapped)
    ∧ (busyPart.apertures[1].fields.kind = .stream ∧ busyPart.apertures[1].state ≠ .draining
      ∧ busyPart.apertures[1].state = .opened)
    ∧ (windowInRange (parseWindow (windowBytes 5 4 0 0)) = false ∧ windowInRange (parseWindow (windowBytes 0 0 5 4)) = false)
    ∧ (windowInRange (parseWindow (windowBytes 4095 4095 4095 4095)) = true
      ∧ windowInRange (parseWindow (windowBytes 0 4096 0 0)) = false ∧ windowInRange (parseWindow (windowBytes 0 0 0 4096)) = false)
    ∧ windowInView stream1 panel (parseWindow (windowBytes 0 800 0 479)) = false
    ∧ (windowInRange (parseWindow (windowBytes 0 799 0 479)) = true
      ∧ windowInView stream1 panel (parseWindow (windowBytes 0 799 0 479)) = true) := by decide +kernel

theorem test_witness_HoldReadReportsAndLowersMark :
    holding.phase = .running ∧ holding.release = none ∧ holding.writeJob = none := by decide +kernel

theorem test_witness_EventReadGivesOldest :
    (plain.phase = .running ∧ plain.events = []) ∧ { plain with events := [record, record] }.events = record :: [record] := by
  decide +kernel

theorem test_witness_AlertMaskWriteReplacesMask :
    plain.phase = .running ∧ (0x1FFF : BitVec 16).toNat < 8192 ∧ 8192 ≤ (0x2000 : BitVec 16).toNat
    ∧ 1 < (0x02 : Byte).toNat := by decide +kernel

theorem test_witness_FullEventQueueCountsDrops :
    (List.replicate 31 record).length < 32
    ∧ (List.replicate 32 record = List.replicate 31 record ++ [record] ∧ 32 ≤ (List.replicate 32 record).length) := by
  decide +kernel

theorem test_witness_ProfileSaveStartsAndEnds :
    (plain.phase = .running ∧ (after (.profileSave 0) plain).saving ≠ none ∧ (after (.profileSave 0) plain).phase = .running)
    ∧ (plain.saving = none ∧ 12 < (13 : Byte).toNat)
    ∧ ({ plain with setSlot := ⟨3, none, false⟩ }.saving = none ∧ (12 : Byte).toNat = (12 : SlotIx).val
      ∧ 3 ≤ { plain with setSlot := ⟨3, none, false⟩ }.slotUses 12)
    ∧ ((12 : Byte).toNat = (12 : SlotIx).val ∧ { plain with setSlot := ⟨2, none, false⟩ }.slotUses 12 < 3)
    ∧ (∀ k : SlotIx, (after (.profileSave (BitVec.ofNat 8 k.val)) plain).saving = some k
      ∧ (after (.profileSave (BitVec.ofNat 8 k.val)) plain).slotUses k ≠ 0
      ∧ (after (.profileSave (BitVec.ofNat 8 k.val)) plain).resetnHigh = true) := by decide +kernel

theorem test_witness_EveryCommandAnswersNext :
    ∃ t, exec (.profileSave 12) plain = .next t ∧ t.slotUses 12 = 1 := ⟨_, rfl, by decide +kernel⟩

theorem test_witness_RequestsWaitWhileTheirChannelIsShut :
    (State.reset.phase ≠ .off ∧ State.reset.writeOpen = false ∧ State.reset.readOpen = false)
    ∧ (writing.phase = .running ∧ writing.writeOpen = false ∧ writing.readOpen = true)
    ∧ ({ busyPart with writeResp := some ⟨1, 0, .okay⟩ }.phase ≠ .off
      ∧ { busyPart with writeResp := some ⟨1, 0, .okay⟩ }.writeOpen = false)
    ∧ ((releasing busyPart (.stall 3) (fragAt 7 .backing)).writeOpen = false
      ∧ (releasing busyPart (.stall 3) (fragAt 7 .backing)).readOpen = true
      ∧ (releasing busyPart (.step 3 0 6) (fragAt 7 .backing)).readOpen = false)
    ∧ ({ busyPart with refusedRead := some (read 0x90000104 0 2#4) }.phase ≠ .off
      ∧ { busyPart with refusedRead := some (read 0x90000104 0 2#4) }.readOpen = false)
    ∧ (inTable busyPart (tracked (fragRead false false))).readOpen = false
    ∧ { writing with orders := [.finish 3] }.readOpen = false := by decide +kernel

/-- A soft reset sequence that has drained. -/
def draining : State := { holding with phase := .softReset .drain }

theorem test_witness_SoftResetStopsDrainsAndFlushes :
    holding.phase = .running
    ∧ ({ draining with writeResp := some ⟨1, 0, .okay⟩ }.phase = .softReset .drain
      ∧ { draining with writeResp := some ⟨1, 0, .okay⟩ }.drained = false)
    ∧ ({ draining with release := some ⟨.stall 3, 0, []⟩ }.drained = true
      ∧ { draining with release := some ⟨.stall 3, 0, []⟩ }.holdBusy = true)
    ∧ (draining.drained = true ∧ draining.holdBusy = false ∧ draining.queue ≠ [])
    ∧ { draining with queue := [] }.queue = [] := by decide +kernel

theorem test_witness_SoftResetResumeResetsContexts :
    { scanningAt 1 with phase := .softReset (.flushed 256) }.phase = .softReset (.flushed 256)
    ∧ { scanningAt 1 with phase := .softReset (.flushed 256) }.release = none
    ∧ { scanningAt 1 with phase := .softReset (.flushed 256) }.orders = [] := by decide +kernel

/-- What holds of every aperture and surface holds of every claimed range. -/
theorem forall_claimedBy {s : State} {P : Nat → Nat → Prop}
    (h : (∀ a : ApertureIx, s.apertures[a].state ≠ .closed → P s.apertures[a].fields.base.toNat (s.apertureEnd a))
      ∧ ∀ i : SurfaceIx, s.surfaces[i].defined = true →
          P s.surfaces[i].base.toNat (s.surfaces[i].base.toNat + s.surfaces[i].pitch * s.surfaces[i].height)) :
    ∀ u low stop, s.ClaimedBy u low stop → P low stop := by
  rintro (a | i | k) low stop hc
  · obtain ⟨hs, rfl, rfl⟩ := hc
    exact h.1 a hs
  · obtain ⟨hd, rfl, rfl⟩ := hc
    exact h.2 i hd
  · exact hc.elim

/-- A read of `lenM1 + 1` beats at `addr` by requester 6. -/
def access (addr : Nat) (burst : Burst) (len : Nat) : Access := ⟨false, addr, burst, len, 6#4⟩

theorem test_witness_RequestsAreClassifiedInOrder :
    plain.mode = .bypass ∧ busyPart.mode = .engaged ∧ (access 0xFFFFFFFFF8 .incrementing 2).malformed = true
    ∧ ((access 0xFFFFFFFFF8 .incrementing 1).malformed = false ∧ (access 0 .wrapping 3).malformed = true
      ∧ (access 0 .wrapping 16).malformed = false)
    ∧ busyPart.disjointClaims
    ∧ (busyPart.apertures[0].fields.base.toNat ≤ 0x90176FF8 ∧ 0x90176FF8 < busyPart.apertureEnd 0
      ∧ busyPart.apertures[0].state = .opened)
    ∧ { busyPart with apertures := busyPart.apertures.set 0 ⟨.draining, 1, mapped0⟩ }.apertures[0].state = .draining
    ∧ (busyPart.surfaces[1].defined = true ∧ busyPart.surfaces[1].base.toNat ≤ 0x801427F8
      ∧ 0x801427F8 < busyPart.surfaces[1].base.toNat + busyPart.surfaces[1].pitch * busyPart.surfaces[1].height)
    ∧ (∀ u low stop, busyPart.ClaimedBy u low stop → ¬ (low ≤ 0x7FFFFFF8 ∧ 0x7FFFFFF8 < stop))
    ∧ ((busyPart.ClaimedBy (.surface 0) 0x80000000 0x800C3000
        ∧ ∃ x, (access 0x7FFFFFF8 .incrementing 2).low ≤ x ∧ x ≤ (access 0x7FFFFFF8 .incrementing 2).high
          ∧ 0x80000000 ≤ x ∧ x < 0x800C3000)
      ∧ ∀ u low stop, busyPart.ClaimedBy u low stop → 0x80000000 ≤ low)
    ∧ ∀ u low stop, busyPart.ClaimedBy u low stop →
        ¬ ((access 0x7FFFFFF8 .incrementing 1).low < stop ∧ low ≤ (access 0x7FFFFFF8 .incrementing 1).high) := by
  refine ⟨?_, ?_, ?_, ?_, ⟨?_, ?_, ?_⟩, ?_, ?_, ?_, forall_claimedBy ?_,
    ⟨⟨by show _ ∧ _ ∧ _; decide +kernel, 0x80000000, ?_⟩, forall_claimedBy ?_⟩,
    forall_claimedBy ?_⟩
  all_goals decide +kernel

theorem test_witness_TransparentRefusedAndWaitingWrites :
    (ConsidersWrite (.headWriteConsidered (write 0xA0000000 15 lit)) busyPart (write 0xA0000000 15 lit)
      ∧ busyPart.classify (writeAccess (write 0xA0000000 15 lit)) = .transparent)
    ∧ (ConsidersWrite .waitingWriteReconsidered { busyPart with headWrite := some (write 0x90000104 0 lit) }
        (write 0x90000104 0 lit)
      ∧ { busyPart with headWrite := some (write 0x90000104 0 lit) }.classify (writeAccess (write 0x90000104 0 lit))
        = .refused (.aperture 0) .misaligned)
    ∧ (ConsidersWrite (.headWriteConsidered (write 0xFFFFFFFFF8 1 lit)) busyPart (write 0xFFFFFFFFF8 1 lit)
      ∧ busyPart.classify (writeAccess (write 0xFFFFFFFFF8 1 lit)) = .malformed) :=
  ⟨⟨considers_headWrite (by decide +kernel), by decide +kernel⟩, ⟨considers_waitingWrite (by decide +kernel), by decide +kernel⟩,
    ⟨considers_headWrite (by decide +kernel), by decide +kernel⟩⟩

/-- A write to row 9 of surface 3, which is ahead of a scanner at row 1. -/
def ahead : WriteReq := write 0x80300240 7 lit

theorem test_witness_TransparentRefusedAndWaitingWrites_full :
    (ConsidersWrite (.headWriteConsidered ahead) fullPart ahead
      ∧ (∃ p, fullPart.planOf ahead = some p
        ∧ decide (256 - fullPart.queue.length < heldNeed (fullPart.decideAll [] p.plan.frags)) = true)
      ∧ fullPart.episode = false)
    ∧ (ConsidersWrite .waitingWriteReconsidered { fullPart with headWrite := some ahead, episode := true } ahead
      ∧ { fullPart with headWrite := some ahead, episode := true }.episode = true) :=
  ⟨⟨considers_headWrite (by decide +kernel), exists_of_any (by decide +kernel), rfl⟩, considers_waitingWrite (by decide +kernel), rfl⟩

theorem test_witness_AcceptedWriteJoinsOrIssues :
    (ConsidersWrite (.headWriteConsidered ahead) (scanningAt 9) ahead
      ∧ (∃ p, (scanningAt 9).planOf ahead = some p
        ∧ (decide (heldNeed ((scanningAt 9).decideAll [] p.plan.frags) ≤ 256 - (scanningAt 9).queue.length)
          && ((scanningAt 9).decideAll [] p.plan.frags).all (·.hold)) = true)
      ∧ (scanningAt 9).orders = [])
    ∧ (ConsidersWrite .waitingWriteReconsidered { busyPart with headWrite := some ahead } ahead
      ∧ ∃ p, { busyPart with headWrite := some ahead }.planOf ahead = some p
        ∧ (!({ busyPart with headWrite := some ahead }.decideAll [] p.plan.frags).all (·.hold)) = true) :=
  ⟨⟨considers_headWrite (by decide +kernel), exists_of_any (by decide +kernel), rfl⟩, considers_waitingWrite (by decide +kernel),
    exists_of_any (by decide +kernel)⟩

/-- A write of 16 beats of which every other byte is strobed. -/
def halves (addr : Nat) : WriteReq := { write addr 15 lit with bytes := (List.replicate 64 [lit, ⟨false, 0⟩]).flatten }

theorem test_witness_AcceptedWriteCursorAndEvents :
    (ConsidersWrite (.headWriteConsidered (halves 0x90177100)) busyPart (halves 0x90177100)
      ∧ (∃ p, busyPart.planOf (halves 0x90177100) = some p
        ∧ decide (heldNeed (busyPart.decideAll [] p.plan.frags) ≤ 256 - busyPart.queue.length) = true)
      ∧ busyPart.orders = [] ∧ busyPart.classify (writeAccess (halves 0x90177100)) = .stream 1)
    ∧ (ConsidersWrite (.headWriteConsidered (halves 0x90001000)) busyPart (halves 0x90001000)
      ∧ (∃ p, busyPart.planOf (halves 0x90001000) = some p
        ∧ decide (heldNeed (busyPart.decideAll [] p.plan.frags) ≤ 256 - busyPart.queue.length) = true)
      ∧ busyPart.classify (writeAccess (halves 0x90001000)) = .mapped 0)
    ∧ (ConsidersWrite (.headWriteConsidered ahead) busyPart ahead
      ∧ (∃ p, busyPart.planOf ahead = some p
        ∧ decide (heldNeed (busyPart.decideAll [] p.plan.frags) ≤ 256 - busyPart.queue.length) = true)
      ∧ busyPart.classify (writeAccess ahead) = .backing 3) :=
  ⟨⟨considers_headWrite (by decide +kernel), exists_of_any (by decide +kernel), rfl, by decide +kernel⟩,
    ⟨considers_headWrite (by decide +kernel), exists_of_any (by decide +kernel), by decide +kernel⟩,
    ⟨considers_headWrite (by decide +kernel), exists_of_any (by decide +kernel), by decide +kernel⟩⟩

/-- A write through the stream aperture raises PARTIAL-PIXEL and then STREAM-EXHAUSTED; one through a mapped aperture that converts, PARTIAL-PIXEL. -/
theorem test_eventsOfWrites :
    (after (.headWriteConsidered (halves 0x90177100)) busyPart).events.map (fun r => (r.body.kind, r.body.detail))
      = [(.partialPixel, .stream), (.streamExhausted, .windowEnd)]
    ∧ (after (.headWriteConsidered (halves 0x90001000)) busyPart).events.map (fun r => (r.body.kind, r.body.detail))
      = [(.partialPixel, .convert)] := by decide +kernel

theorem test_witness_HoldDecisionTable :
    HoldOk holding ∧ (∀ g ∈ [fragAt 9 .backing], holding.standsAhead g = true)
    ∧ holding.holdDecision [fragAt 9 .backing] (fragAt 9 .backing) = true
    ∧ holding.holdDecision [] (fragAt 0 .backing) = false := by
  refine ⟨⟨?_, ?_, ?_, ?_, ?_, ?_, ?_⟩, ?_⟩
  all_goals decide +kernel

/-- A part with all but one entry in use, and that one kept by an abandoned tag. -/
def fullTable : State :=
  { busyPart with
    table := (Vector.replicate 32 (some { tracked (fragRead true false) with state := .waiting })).set 31 none
    abandonedTags := [(31, 63)] }

theorem test_witness_TransparentRefusedAndWaitingReads :
    (ConsidersRead (.headReadConsidered (read 0xA0000000 15 7#4) 31) busyPart (read 0xA0000000 15 7#4) 31
      ∧ busyPart.classify (readAccess (read 0xA0000000 15 7#4)) = .transparent ∧ busyPart.pickEntry 31 = some 31)
    ∧ (ConsidersRead (.headReadReconsidered 0) { busyPart with headRead := some (read 0x90000104 0 2#4) } (read 0x90000104 0 2#4) 0
      ∧ { busyPart with headRead := some (read 0x90000104 0 2#4) }.classify (readAccess (read 0x90000104 0 2#4))
        = .refused (.aperture 0) .misaligned)
    ∧ busyPart.classify (readAccess (read 0xFFFFFFFFF8 1 2#4)) = .malformed
    ∧ (ConsidersRead (.headReadConsidered (read 0x80000680 7 4#4) 0) fullTable (read 0x80000680 7 4#4) 0
      ∧ fullTable.classify (readAccess (read 0x80000680 7 4#4)) = .backing 0
      ∧ ∀ e : EntryIx, fullTable.table[e] ≠ none ∨ ∃ p, (e, p) ∈ fullTable.abandonedTags)
    ∧ (ConsidersRead (.headReadConsidered (read 0x80300240 3 3#4) 0) writing (read 0x80300240 3 3#4) 0
      ∧ writing.classify (readAccess (read 0x80300240 3 3#4)) = .scanner 3 ∧ writing.holdBusy = true
      ∧ ((readAccess (read 0x80300240 3 3#4)).low - scanned.base.toNat) / scanned.pitch = scanned.lastRow) :=
  ⟨⟨considers_headRead (by decide +kernel), by decide +kernel, by decide +kernel⟩,
    ⟨considers_waitingRead (by decide +kernel), by decide +kernel⟩, by decide +kernel,
    ⟨considers_headRead (by decide +kernel), by decide +kernel, by decide +kernel⟩,
    ⟨considers_headRead (by decide +kernel), by decide +kernel⟩⟩

theorem test_witness_ApertureAndBackingReadsTaken :
    (ConsidersRead (.headReadConsidered (read 0x90000100 3 2#4) 0) busyPart (read 0x90000100 3 2#4) 0
      ∧ busyPart.pickEntry 0 = some 0 ∧ busyPart.classify (readAccess (read 0x90000100 3 2#4)) = .mapped 0)
    ∧ (ConsidersRead (.headReadConsidered (read 0x90177100 15 4#4) 0) busyPart (read 0x90177100 15 4#4) 0
      ∧ busyPart.classify (readAccess (read 0x90177100 15 4#4)) = .stream 1)
    ∧ (ConsidersRead (.headReadConsidered (read 0x80000680 7 4#4) 0) busyPart (read 0x80000680 7 4#4) 0
      ∧ busyPart.classify (readAccess (read 0x80000680 7 4#4)) = .backing 0) :=
  ⟨⟨considers_headRead (by decide +kernel), by decide +kernel, by decide +kernel⟩,
    ⟨considers_headRead (by decide +kernel), by decide +kernel⟩, ⟨considers_headRead (by decide +kernel), by decide +kernel⟩⟩

/-- The display row of the first byte of a read of surface 3. -/
def rowRead (r : ReadReq) : Nat := ((readAccess r).low - scanned.base.toNat) / scanned.pitch

theorem test_witness_ScannerReadOpensFrame :
    (ConsidersRead (.headReadConsidered (read 0x803001C0 3 3#4) 0) (narrow true) (read 0x803001C0 3 3#4) 0
      ∧ (narrow true).classify (readAccess (read 0x803001C0 3 3#4)) = .scanner 3 ∧ (narrow true).pickEntry 0 = some 0
      ∧ rowRead (read 0x803001C0 3 3#4) = 7 ∧ (narrow true).surfaces[3].lastRow = 7
      ∧ (narrow true).scans[3].state ≠ .scanning ∧ (narrow true).holdBusy = false ∧ (narrow true).surfaces[3].notify = true)
    ∧ (ConsidersRead (.headReadConsidered (read 0x80300080 3 3#4) 0) (narrow false) (read 0x80300080 3 3#4) 0
      ∧ rowRead (read 0x80300080 3 3#4) = 2 ∧ (narrow false).surfaces[3].firstRow = 2
      ∧ (narrow false).surfaces[3].notify = false)
    ∧ ((narrow true).classify (readAccess (read 0x80300040 3 3#4)) = .scanner 3 ∧ rowRead (read 0x80300040 3 3#4) = 1)
    ∧ ((narrow true).classify (readAccess (read 0x80300200 3 3#4)) = .scanner 3 ∧ rowRead (read 0x80300200 3 3#4) = 8) :=
  ⟨⟨considers_headRead (by decide +kernel), by decide +kernel⟩, ⟨considers_headRead (by decide +kernel), by decide +kernel⟩,
    by decide +kernel⟩

/-- `holding` with the scanner at row 4. -/
def holdingAt4 : State := { scanningAt 4 with queue := [fragAt 7 .backing] }

theorem test_witness_ScannerReadStepsOrRestarts :
    (ConsidersRead (.headReadConsidered (read 0x80300240 3 3#4) 0) (scanningAt 9) (read 0x80300240 3 3#4) 0
      ∧ (scanningAt 9).classify (readAccess (read 0x80300240 3 3#4)) = .scanner 3 ∧ (scanningAt 9).pickEntry 0 = some 0
      ∧ (scanningAt 9).scans[3].state = .scanning ∧ (scanningAt 9).holdBusy = false
      ∧ rowRead (read 0x80300240 3 3#4) = 9 ∧ (scanningAt 9).scans[3].c = 9 ∧ (scanningAt 9).queue = [])
    ∧ (ConsidersRead (.headReadConsidered (read 0x80300180 3 3#4) 0) holding (read 0x80300180 3 3#4) 0
      ∧ rowRead (read 0x80300180 3 3#4) = 6
      ∧ ∃ f ∈ holding.queue, f.surface = 3 ∧ holding.scans[3].c ≤ displayRow holding.scans[3].active f.row
        ∧ displayRow holding.scans[3].active f.row < 6)
    ∧ (rowRead (read 0x80300000 3 3#4) = 0 ∧ 0 < (scanningAt 4).scans[3].c ∧ (scanningAt 4).queue = [])
    ∧ (ConsidersRead (.headReadConsidered (read 0x803000C0 3 3#4) 0) holdingAt4 (read 0x803000C0 3 3#4) 0
      ∧ rowRead (read 0x803000C0 3 3#4) = 3 ∧ 3 < holdingAt4.scans[3].c ∧ ∃ f ∈ holdingAt4.queue, f.surface = 3) :=
  ⟨⟨considers_headRead (by decide +kernel), by decide +kernel⟩, ⟨considers_headRead (by decide +kernel), by decide +kernel⟩,
    by decide +kernel, ⟨considers_headRead (by decide +kernel), by decide +kernel⟩⟩

theorem test_witness_AcceptedReadStaysUntilAnswered :
    ReadsOk (inTable busyPart (tracked (fragRead true false)))
    ∧ (∃ t, exec (.downstreamReadReturn 0 0 true []) (inTable busyPart (tracked (fragRead true false))) = .next t)
    ∧ (inTable busyPart (tracked (fragRead true false))).table[0] = some (tracked (fragRead true false)) := by
  refine ⟨⟨?_, ?_, ?_, ?_⟩, ⟨_, rfl⟩, ?_⟩
  all_goals decide +kernel

/-- The part at the issue of the one fragment read of a scanner read of surface 3. -/
def issuing (s : State) (finishes : Bool) : State := inTable s (tracked (fragRead false finishes))

theorem test_witness_FragmentReadIssueTakesSnapshot :
    (issuing holding false).mayIssue .readTracker = true ∧ (issuing holding false).issuingEntry = some 0 ∧ (issuing holding false).stepPending 0 = false
    ∧ (issuing holding false).table[0] = some (tracked (fragRead false false))
    ∧ (tracked (fragRead false false)).nextRead = some 0
    ∧ { tracked (fragRead false false) with reads := [fragRead true false, fragRead false false, fragRead false true] }.nextRead = some 1
    ∧ (tracked (fragRead true false)).nextRead = none
    ∧ (tracked (fragRead false false)).reads[0]? = some (fragRead false false) ∧ (fragRead false false).finishes = false
    ∧ (issuing busyPart true).scans[3].state ≠ .scanning := by decide +kernel

theorem test_witness_FinishingReadFinishesFrame :
    ((issuing holding true).mayIssue .readTracker = true ∧ (issuing holding true).issuingEntry = some 0 ∧ (issuing holding true).stepPending 0 = false
      ∧ (issuing holding true).table[0] = some (tracked (fragRead false true))
      ∧ (tracked (fragRead false true)).nextRead = some 0
      ∧ (tracked (fragRead false true)).reads[0]? = some (fragRead false true) ∧ (fragRead false true).finishes = true
      ∧ (tracked (fragRead false true)).surface = some 3 ∧ (issuing holding true).scans[3].state = .scanning
      ∧ (issuing holding true).holdBusy = false ∧ ∃ f ∈ (issuing holding true).queue, f.surface = 3)
    ∧ ((issuing (scanningAt 9) true).issuingEntry = some 0 ∧ ∀ f ∈ (issuing (scanningAt 9) true).queue, f.surface ≠ 3)
    ∧ ((releasing (issuing (scanningAt 1) true) (.finish 0) ⟨0, 1, 0, Cells.empty, .backing, 1⟩).holdBusy = true
      ∧ (releasing (issuing (scanningAt 1) true) (.finish 0) ⟨0, 1, 0, Cells.empty, .backing, 1⟩).mayIssue .readTracker = true
      ∧ (releasing (issuing (scanningAt 1) true) (.finish 0) ⟨0, 1, 0, Cells.empty, .backing, 1⟩).stepPending 0 = false) := by
  decide +kernel

theorem test_witness_WriteChannelIssuesInOrder :
    ({ busyPart with writeJob := some (.transparent ahead) }.handOver.writeJob = some (.transparent ahead)
      ∧ { busyPart with writeJob := some (.transparent ahead) }.handOver.mayIssue .writeChannel = true)
    ∧ (writing.mayIssue .writeChannel = true ∧ writing.writeJob = some (.fragments 1 0 (⟨false, fragAt 0 (.aperture 0)⟩ :: [⟨true, fragAt 7 (.aperture 0)⟩]))
      ∧ writing.orders = [] ∧ ∀ l, writing.port ≠ .receiving l)
    ∧ ((after (.apertureClose 0) writing).port = .receiving [0x33, 0x00]
      ∧ decodeTransaction [0x33, 0x00] = .apertureClose 0
      ∧ decodeTransaction [0x10, 0x00] = .modeSet 0
      ∧ decodeTransaction (0x20 :: 0x03 :: surfaceBytes scanned) = .surfaceWrite 3 (surfaceBytes scanned)
      ∧ (∃ u, exec (.downstreamWriteIssue .writeChannel) { after (.apertureClose 0) writing with port := .idle } = .next u))
    ∧ shortBytes [0x33] = true := by
  refine ⟨?_, ⟨?_, ?_, ?_, fun l => ?_⟩, ⟨?_, ?_, ?_, ?_, ⟨_, rfl⟩⟩, ?_⟩
  case refine_5 => exact nofun
  all_goals decide +kernel

/-- APERTURE-CLOSE waits behind the fragments of an accepted write through its aperture, and then it finds one held. -/
theorem test_closeWaitsForTheWrite :
    (after (.apertureClose 0) writing).apertures[0].state = .opened
    ∧ (after (.downstreamWriteIssue .writeChannel) (after (.apertureClose 0) writing)).apertures[0] = ⟨.draining, 1, mapped0⟩
    ∧ (after (.downstreamWriteIssue .writeChannel) (after (.apertureClose 0) writing)).port
      = .responding [0x33, 0x00] [0x00] := by decide +kernel

/-- A release of all of surface 3 with fragments of rows 7, 8 and 9 held, the first through aperture 0, DRAINING. -/
def releasing3 (o : Origin) : State :=
  { holdingFrom0 with
    queue := [fragAt 7 o, fragAt 8 .backing, fragAt 9 .backing]
    apertures := holdingFrom0.apertures.set 0 ⟨.draining, 1, mapped0⟩
    release := some ⟨.finish 3, 0, []⟩ }.handOver

theorem test_witness_HeldEntryIssued : ∀ o ∈ [Origin.backing, .aperture 0],
    (releasing3 o).mayIssue .holdQueue = true ∧ (releasing3 o).release = some ⟨.finish 3, 0, []⟩
    ∧ (releasing3 o).queue = [] ++ fragAt 7 o :: [fragAt 8 .backing, fragAt 9 .backing]
    ∧ (releasing3 o).takes (.finish 3) (fragAt 7 o) = true
    ∧ (∃ g ∈ [fragAt 8 .backing, fragAt 9 .backing], (releasing3 o).takes (.finish 3) g = true)
    ∧ (fragAt 7 (.aperture 0)).origin = .aperture 0 ∧ (releasing3 o).apertures[0].state = .draining
    ∧ (releasing3 o).apertures[0].held - 1 = 0 ∧ busyPart.apertures[0].state ≠ .draining := by decide +kernel

/-- The last entry of each kind of work, entry 0 of the table in use. -/
def lastOf (w : Work) : State :=
  { releasing (scanningAt 1) w (fragAt 7 .backing) with
    table := (scanningAt 1).table.set 0 (some (tracked (fragRead false false))), taken := [0] }

theorem test_witness_LastHeldEntryCompletesWork :
    (∀ w ∈ [Work.step 3 0 6, .restart 3 0 0, .finish 3, .stall 3, .fullFlush],
      (lastOf w).mayIssue .holdQueue = true ∧ (lastOf w).release = some ⟨w, 0, []⟩ ∧ (lastOf w).queue = [] ++ fragAt 7 .backing :: []
      ∧ (lastOf w).takes w (fragAt 7 .backing) = true ∧ (lastOf w).orders = [])
    ∧ (lastOf (.restart 3 0 0)).table[0] = some (tracked (fragRead false false))
    ∧ { lastOf .fullFlush with phase := .softReset .flush }.phase = .softReset .flush := by decide +kernel

theorem test_witness_WaitingOrdersAreTakenInOrder :
    (writing.writeJob = some (.fragments 1 0 (⟨false, fragAt 0 (.aperture 0)⟩ :: [⟨true, fragAt 7 (.aperture 0)⟩]))
      ∧ writing.mayIssue .writeChannel = true
      ∧ ∃ u : State, exec (.downstreamWriteIssue .writeChannel) { writing with orders := [] } = .next u.handOver
        ∧ u.handed = (writing.passRequest .writeChannel).handed)
    ∧ (∀ w ∈ [Work.step 3 0 6, .finish 3, .fullFlush],
      (lastOf w).mayIssue .holdQueue = true ∧ (lastOf w).release = some ⟨w, 0, []⟩ ∧ (lastOf w).queue = [] ++ fragAt 7 .backing :: []
      ∧ (lastOf w).takes w (fragAt 7 .backing) = true)
    ∧ (∃ u : State, exec (.downstreamWriteIssue .holdQueue) { lastOf (.finish 3) with orders := [] } = .next u.handOver
      ∧ u.handed = ((lastOf (.finish 3)).passRequest .holdQueue).handed)
    ∧ ((holding.takeOrder (.finish 3)).release ≠ none ∧ (busyPart.takeOrder (.finish 3)).release = none)
    ∧ (busyPart.release = none ∧ busyPart.scans[3].state ≠ .scanning ∧ busyPart.scans[3].timer = none)
    ∧ (holding.release = none ∧ holding.scans[3].state = .scanning ∧ holding.scans[3].timer ≠ none
      ∧ ∃ f ∈ holding.queue, f.surface = 3)
    ∧ ((scanningAt 9).release = none ∧ ∀ f ∈ (scanningAt 9).queue, f.surface ≠ 3)
    ∧ ({ holding with phase := .softReset .flush }.phase = .softReset .flush ∧ holding.queue ≠ [] ∧ plain.queue = []) := by
  refine ⟨⟨?_, ?_, ⟨{ after (.downstreamWriteIssue .writeChannel) writing with handed := [] }, exec_eq_next ?_, ?_⟩⟩, ?_,
    ⟨{ after (.downstreamWriteIssue .holdQueue) (lastOf (.finish 3)) with handed := [] }, exec_eq_next ?_, ?_⟩, ?_⟩
  all_goals decide +kernel

theorem test_witness_MemoryAnswersAreJoined :
    ((inTable busyPart (tracked (fragRead true true))).phase ≠ .off
      ∧ (inTable busyPart (tracked (fragRead true true))).table[0] = some (tracked (fragRead true true))
      ∧ (tracked (fragRead true true)).reads[0]? = some (fragRead true true) ∧ (fragRead true true).status = .issued)
    ∧ (fullTable.phase ≠ .off ∧ fullTable.table[31] = none ∧ ((31 : EntryIx), (63 : ReadPos)) ∈ fullTable.abandonedTags)
    ∧ (busyPart.table[31] = none ∧ ((31 : EntryIx), (63 : ReadPos)) ∉ busyPart.abandonedTags)
    ∧ (fullTable.table[0] = some { tracked (fragRead true false) with state := .waiting } ∧ (tracked (fragRead true false)).reads[63]? = none)
    ∧ (0 < { busyPart with abandonedWrites := 1 }.abandonedWrites ∧ busyPart.abandonedWrites = 0
    ∧ { busyPart with outstanding := [.transparent ahead, .fragment (fragAt 7 .backing)] }.outstanding
      = .transparent ahead :: [.fragment (fragAt 7 .backing)]) := by
  decide +kernel

/-- Requests in each of two groups at the port. -/
def crowded : State := { issuing holding false with handed := [[.writeChannel, .readTracker], [.holdQueue]] }

theorem test_witness_RequestsAreIssuedInHandOverOrder :
    ((issuing holding false).issuingEntry = some 0
      ∧ (inTable holding (tracked (fragRead true false))).issuingEntry = none
      ∧ 0 ∈ (inTable holding (tracked (fragRead true false))).taken
      ∧ (inTable holding (tracked (fragRead true false))).table[0] = some (tracked (fragRead true false)))
    ∧ (crowded.mayIssue .holdQueue = false ∧ plain.mayIssue .writeChannel = false ∧ plain.mayIssue .readTracker = false)
    ∧ (crowded.mayIssue .readTracker = true ∧ (crowded.passRequest .writeChannel).handed = [.readTracker] :: [.holdQueue] :: []
      ∧ (crowded.passRequest .writeChannel).mayIssue .holdQueue = true
      ∧ ((crowded.passRequest .writeChannel).passRequest .holdQueue).handed = [[.readTracker]]) := by decide +kernel

/-- `plain` with surface 3 and a transparent write of BYPASS not yet issued, then ENGAGED and a scanner read. -/
def behindBypassWrite : State :=
  after (.headReadConsidered (read 0x80300000 3 3#4) 0) (after (.modeSet 1) (after (.headWriteConsidered (write 0x80300000 3 lit))
    { plain with surfaces := plain.surfaces.set 3 scanned }))

/-- The scanner read that opens a frame is issued behind the transparent write that was handed over before it. -/
theorem test_scannerReadBehindEarlierWrite :
    behindBypassWrite.scans[3].state = .scanning ∧ behindBypassWrite.handed = [[.writeChannel], [.readTracker]]
    ∧ after .fragmentReadIssue behindBypassWrite = behindBypassWrite
    ∧ (after (.downstreamWriteIssue .writeChannel) behindBypassWrite).handed = [[.readTracker]]
    ∧ (after (.downstreamWriteIssue .writeChannel) behindBypassWrite).outstanding.map (fun w => (w.addr, w.burst, w.lenM1))
      = [(0x80300000, .incrementing, 3)]
    ∧ (after .fragmentReadIssue (after (.downstreamWriteIssue .writeChannel) behindBypassWrite)).tagsInFlight = [(0, 0)] := by
  decide +kernel

/-- A finishing read and a read behind it: at the issue of the first, the release of the finish and the next read are handed
over together, and either may be issued first. -/
theorem test_handedOverTogether :
    (after .fragmentReadIssue { issuing holding true with
      table := (issuing holding true).table.set 1 (some (tracked (fragRead false false))), taken := [0, 1] }).handed
      = [[.holdQueue, .readTracker]] := by decide +kernel

/-- The part of section 9.7: surface 3 without its band, SCANNING at row 4, H1 and H2 held, and requester 4's read accepted. -/
def race : State :=
  after (.headReadConsidered (read 0x80300160 15 4#4) 5) { scanningAt 4 with
    surfaces := busyPart.surfaces.set 3 { scanned with band := none }
    scans := busyPart.scans.set 3 { scanAt 4 with frame := 17, active := none }
    queue := [{ fragAt 6 .backing with cells := Cells.empty.lay 0 (List.replicate 16 (some 7)) }, fragAt 7 .backing] }

/-- The scanner's read of row 7, which orders the release of H1. -/
def scanRow7 : Instr := .headReadConsidered (read 0x803001C0 3 3#4) 5

/-- Section 9.7 after the last fragment read, in order A: H1 is released between positions 1 and 2. -/
def raceA : State :=
  [.fragmentReadIssue, .fragmentReadIssue, scanRow7, .downstreamWriteIssue .holdQueue, .fragmentReadIssue, .fragmentReadIssue,
    .fragmentReadIssue].foldl (fun s c => after c s) race

/-- The same in order B: H1 is released before position 0. -/
def raceB : State :=
  [scanRow7, .downstreamWriteIssue .holdQueue, .fragmentReadIssue, .fragmentReadIssue, .fragmentReadIssue, .fragmentReadIssue,
    .fragmentReadIssue].foldl (fun s c => after c s) race

/-- The snapshots of an entry, as the number of bytes that each covers. -/
def snapshotSizes (s : State) (e : EntryIx) : List (Option Nat) :=
  match s.table[e] with
  | none => []
  | some en => en.reads.map fun r => r.snapshot.map fun c => c.toList.countP (·.isSome)

/-- The worked example of section 9.7: the request of entry 5 stands at the port when the release of H1 is ordered, and H1 is
issued ahead of it; the snapshots of the two orders differ in position 1. -/
theorem test_releaseBeforeFragmentRead :
    (after scanRow7 race).handed = [[.readTracker], [.holdQueue]] ∧ (after scanRow7 race).mayIssue .readTracker = true
    ∧ snapshotSizes raceA 5 = [some 0, some 16, some 0, some 32] ∧ snapshotSizes raceB 5 = [some 0, some 0, some 0, some 32]
    ∧ snapshotSizes raceA 6 = [none] ∧ snapshotSizes raceB 6 = [none]
    ∧ raceA.queue = [fragAt 7 .backing] ∧ raceB.queue = [fragAt 7 .backing] ∧ raceA.handed = [] ∧ raceB.handed = [] := by
  decide +kernel

/-- A fragment write covers its block in 4 beats, with the strobes of its bytes. -/
theorem test_fragmentWriteForm :
    (DsWrite.fragment (fragAt 7 .backing)).addr = 0x803001C0 ∧ (DsWrite.fragment (fragAt 7 .backing)).lenM1 = 3
    ∧ (DsWrite.fragment (fragAt 7 .backing)).lanes.getLast? = some ⟨true, some 7⟩ := by decide +kernel

/-- A part with two answered reads of one requester and tag in entries 0 and 1, the one in entry 1 taken first. -/
def twoReads : State :=
  { busyPart with
    table := (busyPart.table.set 0 (some { tracked (fragRead true false) with state := .responding })).set 1
      (some { tracked (fragRead true false) with state := .responding, error := true })
    taken := [1, 0]
    refusedRead := some (read 0x80300240 3 5#4) }

theorem test_witness_ResponsesAreGivenInOrder :
    { busyPart with writeResp := some ⟨1, 0, .okay⟩ }.writeResp = some ⟨1, 0, .okay⟩
    ∧ (twoReads.table[1] = some { tracked (fragRead true false) with state := .responding, error := true }
      ∧ twoReads.taken.takeWhile (· != 1) = [])
    ∧ (twoReads.table[0] = some { tracked (fragRead true false) with state := .responding }
      ∧ { twoReads with taken := [0, 1] }.taken.takeWhile (· != 0) = [])
    ∧ (twoReads.refusedRead = some (read 0x80300240 3 5#4)
      ∧ ∀ (e : EntryIx) (en : Entry), twoReads.table[e] = some en →
          ¬ (en.req.requester = 5#4 ∧ en.req.tag = 0#4))
    ∧ (∃ e' ∈ twoReads.taken.takeWhile (· != 0), e' = 1)
    ∧ (tracked (fragRead true false)).state ≠ .responding
    ∧ { twoReads with refusedRead := some (read 0x90000104 0 3#4) }.refusedRead = some (read 0x90000104 0 3#4) := by
  decide +kernel

/-- The answer in entry 0 waits behind the earlier-taken one of its requester and tag in entry 1, and so does a refused read. -/
theorem test_responsesWait :
    after (.readResponse (.entry 0)) twoReads = twoReads
    ∧ after (.readResponse .refused) { twoReads with refusedRead := some (read 0x90000104 0 3#4) }
      = { twoReads with refusedRead := some (read 0x90000104 0 3#4) }
    ∧ (after (.readResponse (.entry 1)) twoReads).taken = [0] := by decide +kernel

theorem test_witness_ScanTimerExpiryStalls :
    ((scanningAt 9).scans[3].state = .scanning ∧ (scanningAt 9).scans[3].timer ≠ none ∧ (scanningAt 9).holdBusy = false
      ∧ ∀ f ∈ (scanningAt 9).queue, f.surface ≠ 3)
    ∧ (holding.holdBusy = false ∧ ∃ f ∈ holding.queue, f.surface = 3)
    ∧ ((releasing (scanningAt 1) (.finish 0) ⟨0, 1, 0, Cells.empty, .backing, 1⟩).holdBusy = true
      ∧ (releasing (scanningAt 1) (.finish 0) ⟨0, 1, 0, Cells.empty, .backing, 1⟩).scanWorkOn 3 = false)
    ∧ (∀ w ∈ [Work.step 3 0 6, .restart 3 0 0, .finish 3, .stall 3],
      (releasing (scanningAt 1) w (fragAt 7 .backing)).scanWorkOn 3 = true)
    ∧ busyPart.scans[3].state ≠ .scanning ∧ busyPart.scans[3].timer = none := by decide +kernel

theorem test_witness_OrientationAndBandAreOneToOne :
    (479 < viewWidth mapped0 panel ∧ 799 < viewHeight mapped0 panel) ∧ scanned.bandOk ⟨2, 6, 5⟩ = true
    ∧ scanned.bandOk ⟨0, 10, 0⟩ = true := by decide +kernel

theorem test_witness_CursorPassesWindow :
    stream1.window.colFirst ≤ stream1.window.colLast ∧ stream1.window.rowFirst ≤ stream1.window.rowLast
    ∧ 11 < (stream1.window.colLast - stream1.window.colFirst + 1) * (stream1.window.rowLast - stream1.window.rowFirst + 1)
    ∧ (⟨100, 50, true, false⟩ : Cursor).exhausted = true := by decide +kernel

theorem test_witness_FragmentsHoldTheBytesWritten :
    TablesOk busyPart
    ∧ ((∃ p, busyPart.planOf (halves 0x90001000) = some p) ∧ busyPart.classify (writeAccess (halves 0x90001000)) = .mapped 0)
    ∧ ((∃ p, busyPart.planOf (halves 0x90177100) = some p) ∧ busyPart.classify (writeAccess (halves 0x90177100)) = .stream 1)
    ∧ ((∃ p, busyPart.planOf ahead = some p) ∧ busyPart.classify (writeAccess ahead) = .backing 3)
    ∧ panel.fieldsOk = true ∧ (mappedWritePlan 0 mapped0 panel (write 0x90001000 15 lit)).frags ≠ [] := by
  refine ⟨⟨?_, ?_, ?_, ?_, ?_⟩, ⟨⟨_, rfl⟩, ?_⟩, ⟨⟨_, rfl⟩, ?_⟩, ⟨⟨_, rfl⟩, ?_⟩, ?_⟩
  all_goals decide +kernel

theorem test_witness_ReadsFetchTheBytesNeeded :
    ((readAccess (read 0x90001000 15 1#4)).addr % 8 = 0 ∧ (readAccess (read 0x90001000 15 1#4)).burst = .incrementing
      ∧ 31 < 8 * (readAccess (read 0x90001000 15 1#4)).len / mapped0.format.size)
    ∧ 63 < 8 * ((read 0x90177100 15 1#4).lenM1.val + 1) / stream1.format.size
    ∧ (TablesOk busyPart ∧ busyPart.classify (readAccess (read 0x90001000 15 1#4)) = .mapped 0
      ∧ busyPart.classify (readAccess (read 0x90177100 15 1#4)) = .stream 1
      ∧ busyPart.classify (readAccess (read 0x80000680 7 4#4)) = .backing 0)
    ∧ (scanned.fieldsOk = true ∧ scanned.optBandOk (some ⟨2, 6, 2⟩) = true
      ∧ scanned.base.toNat ≤ (readAccess (read 0x80300238 8 3#4)).addr
      ∧ (readAccess (read 0x80300238 8 3#4)).high < scanned.base.toNat + scanned.pitch * scanned.height
      ∧ (readAccess (read 0x80300238 8 3#4)).burst = .incrementing
      ∧ 8 + 1 ≤ ((readAccess (read 0x80300238 8 3#4)).high - scanned.base.toNat) / scanned.pitch) := by
  refine ⟨?_, ?_, ⟨⟨?_, ?_, ?_, ?_, ?_⟩, ?_⟩, ?_⟩
  all_goals decide +kernel

/-- An answered block. -/
def answered (addr : Nat) : FragRead :=
  ⟨BitVec.ofNat 40 addr, .incrementing, 4, some (BitVec.allOnes 32), false, .returned, some Cells.empty,
    some (List.replicate 32 7)⟩

/-- An answered read of one beat at `addr`: `l` its placement list, `route` its route. -/
def answer (addr : Nat) (route : Route) (l : List PlaceEntry) : Entry :=
  ⟨read addr 0 4#4, route, none, some 0, some (convOf mapped0 panel), l, [answered 0x80000680], false, .responding⟩

theorem test_witness_ResponsesCarryTheMergedBytes :
    ((List.replicate 32 (5 : Byte)).length = 8 * (answered 0).beats ∧ (answered 0).snapshot = some Cells.empty
      ∧ (answered 0).beats = 4 ∧ (fragRead true false).snapshot = none)
    ∧ (((answer 0x80000698 .backing []).reads.map (·.addr)).Nodup
      ∧ (∀ fr ∈ (answer 0x80000698 .backing []).reads, ∃ d ∈ [List.replicate 32 (7 : Byte)], fr.data = some d ∧ d.length = 32)
      ∧ (answer 0x80000698 .backing []).route = .backing
      ∧ ∀ j < (readAccess (answer 0x80000698 .backing []).req).size, ∃ fr ∈ (answer 0x80000698 .backing []).reads,
          fr.addr.toNat = ((readAccess (answer 0x80000698 .backing []).req).low + j) / 32 * 32)
    ∧ ((answer 0x90001000 .mapped [⟨some 0, 0, some (placeAt mapped0 panel 1 15)⟩, ⟨none, 4, none⟩]).conv
        = some (convOf mapped0 panel)
      ∧ (placeAt mapped0 panel 1 15).addr % 32 + (convOf mapped0 panel).stored.size = 32
      ∧ (answered 0x80000680).addr.toNat = (placeAt mapped0 panel 1 15).addr / 32 * 32) := by decide +kernel

theorem test_witness_ForwardingAnswersNewest :
    (∀ f ∈ [fragAt 7 .backing, fragAt 9 .backing], f.block = 0 → f.cells[31] = none)
    ∧ ([fragAt 7 .backing, fragAt 9 .backing] = [] ++ fragAt 7 .backing :: [fragAt 9 .backing]
      ∧ (fragAt 7 .backing).block = 0x803001C0 ∧ (fragAt 7 .backing).cells[31] = some 7
      ∧ ∀ g ∈ [fragAt 9 .backing], g.block = 0x803001C0 → g.cells[31] = none) := by decide +kernel

end Sys2Proof.Tests
end

