-- ==== Sys2Proof/Proofs/Convert.lean ====
section
/-! PROOF. Pixel conversion (Chapter 6): the channels that a pixel's bytes hold, the bytes each policy gives, and the
statement that the conversions follow the tables of R83 to R85. -/

namespace Sys2Proof.Machine

/-! Choosing the conversion (R81) -/

@[simp] theorem toStored_u16_s32 (x : Expansion) (y : Reduction) (l : List Byte) :
    toStored ⟨.u16, .s32, x, y⟩ l = bytes32 (expand x (channels16 l)) := rfl
@[simp] theorem toStored_u32_s16 (x : Expansion) (y : Reduction) (l : List Byte) :
    toStored ⟨.u32, .s16, x, y⟩ l = bytes16 (reduce y (channels32 l)) := rfl
@[simp] theorem toUpstream_u32_s16 (x : Expansion) (y : Reduction) (l : List Byte) :
    toUpstream ⟨.u32, .s16, x, y⟩ l = bytes32 (expand x (channels16 l)) := rfl
@[simp] theorem toUpstream_u16_s32 (x : Expansion) (y : Reduction) (l : List Byte) :
    toUpstream ⟨.u16, .s32, x, y⟩ l = bytes16 (reduce y (channels32 l)) := rfl

/-- Formats of one width convert by identity, in both directions (R82). -/
theorem toStored_toUpstream_of_identityFormats {c : Conv} (h : identityFormats c = true) (l : List Byte) :
    toStored c l = l ∧ toUpstream c l = l := by
  obtain ⟨up, stored, x, y⟩ := c
  cases up <;> cases stored
  case u16.s16 | u32.s32 => exact ⟨rfl, rfl⟩
  case u16.s32 | u32.s16 => exact absurd h Bool.false_ne_true

/-! Channels (R80) -/

/-- Two bytes hold fewer than 65536 values, so the bits from 11 up are five bits: red needs no further cut. -/
theorem channels16_pair (lo hi : Byte) :
    channels16 [lo, hi]
      = ⟨(lo.toNat + 256 * hi.toNat) / 2048, (lo.toNat + 256 * hi.toNat) / 32 % 64, (lo.toNat + 256 * hi.toNat) % 32⟩ := by
  have hred : (lo.toNat + 256 * hi.toNat) / 2048 < 32 := by omega
  simp [channels16, byteNat, Nat.mod_eq_of_lt hred]

theorem channels32_quad (blue green red spare : Byte) :
    channels32 [blue, green, red, spare] = ⟨red.toNat, green.toNat, blue.toNat⟩ := rfl

/-! Expansion (R83, R84) -/

theorem replicate5_le {v : Nat} (h : v < 32) : replicate5 v ≤ 255 := by unfold replicate5; omega

theorem replicate6_le {v : Nat} (h : v < 64) : replicate6 v ≤ 255 := by unfold replicate6; omega

/-- A grey of the 16-bit format, in R84's spelling: all three channels are locked to green's. -/
theorem expand_greyLock_of_grey {c : Channels} (h : c.red = c.blue ∧ c.blue = c.green / 2) :
    expand .greyLock c = ⟨replicate6 c.green, replicate6 c.green, replicate6 c.green⟩ := by
  obtain ⟨hrb, hbg⟩ := h
  exact if_pos ⟨hrb, hrb.trans hbg⟩

theorem expand_greyLock_of_not_grey {c : Channels} (h : ¬ (c.red = c.blue ∧ c.blue = c.green / 2)) :
    expand .greyLock c = expand .replicate c :=
  if_neg fun ⟨hrb, hrg⟩ => h ⟨hrb, hrb.symm.trans hrg⟩

/-- The table of R83 with the exception of R84, as the bytes of the 32-bit pixel. -/
theorem bytes32_expand (x : Expansion) (c : Channels) :
    bytes32 (expand x c) = match x with
      | .zero => [BitVec.ofNat 8 (c.blue * 8), BitVec.ofNat 8 (c.green * 4), BitVec.ofNat 8 (c.red * 8), 0]
      | .replicate =>
        [BitVec.ofNat 8 (replicate5 c.blue), BitVec.ofNat 8 (replicate6 c.green), BitVec.ofNat 8 (replicate5 c.red), 0]
      | .greyLock =>
        if c.red = c.blue ∧ c.blue = c.green / 2 then
          [BitVec.ofNat 8 (replicate6 c.green), BitVec.ofNat 8 (replicate6 c.green), BitVec.ofNat 8 (replicate6 c.green), 0]
        else
          [BitVec.ofNat 8 (replicate5 c.blue), BitVec.ofNat 8 (replicate6 c.green), BitVec.ofNat 8 (replicate5 c.red), 0] := by
  cases x with
  | zero | replicate => rfl
  | greyLock =>
    by_cases hgrey : c.red = c.blue ∧ c.blue = c.green / 2
    · rw [expand_greyLock_of_grey hgrey]; exact (if_pos hgrey).symm
    · rw [expand_greyLock_of_not_grey hgrey]; exact (if_neg hgrey).symm

/-! Reduction (R85) -/

/-- The table of R85, as the bytes of the 16-bit pixel. -/
theorem bytes16_reduce (y : Reduction) (c : Channels) :
    let out := match y with
      | .truncate => (c.red / 8) * 2048 + (c.green / 4) * 32 + c.blue / 8
      | .round => min 31 ((c.red + 4) / 8) * 2048 + min 63 ((c.green + 2) / 4) * 32 + min 31 ((c.blue + 4) / 8)
    bytes16 (reduce y c) = [BitVec.ofNat 8 out, BitVec.ofNat 8 (out / 256)] := by
  cases y <;> rfl

/-- Settles O59: R83 to R85 for every pixel, policy and direction. Both directions of a width change meet the same
table, and the channels of two bytes are below 32 and 64, so REPLICATE stays within a byte. -/
theorem conversionFollowsTables : Obligations.ConversionFollowsTables := by
  refine ⟨fun x y lo hi => ?_, fun x y blue green red spare => ?_, fun x y l => ?_⟩
  · have hred : (lo.toNat + 256 * hi.toNat) / 2048 < 32 := by omega
    have hgreen : (lo.toNat + 256 * hi.toNat) / 32 % 64 < 64 := Nat.mod_lt _ (by decide)
    have hblue : (lo.toNat + 256 * hi.toNat) % 32 < 32 := Nat.mod_lt _ (by decide)
    have hbytes := bytes32_expand x (channels16 [lo, hi])
    rw [channels16_pair] at hbytes
    rw [toStored_u16_s32, toUpstream_u32_s16, channels16_pair]
    exact ⟨hbytes, hbytes, replicate5_le hred, replicate5_le hblue, replicate6_le hgreen⟩
  · have hbytes := bytes16_reduce y (channels32 [blue, green, red, spare])
    rw [channels32_quad] at hbytes
    rw [toStored_u32_s16, toUpstream_u16_s32, channels32_quad]
    exact ⟨hbytes, hbytes⟩
  · obtain ⟨hstored16, hupstream16⟩ :=
      toStored_toUpstream_of_identityFormats (c := ⟨.u16, .s16, x, y⟩) rfl l
    obtain ⟨hstored32, hupstream32⟩ :=
      toStored_toUpstream_of_identityFormats (c := ⟨.u32, .s32, x, y⟩) rfl l
    exact ⟨hstored16, hstored32, hupstream16, hupstream32⟩

end Sys2Proof.Machine
end

