-- ==== Sys2Proof/Proofs/Forwarding.lean ====
section
/-! PROOF. Forwarding queries (Chapter 8): what a position holds after bytes are laid, what one more entry at the end of
the queue does to an answer, and the statement that the newest covering entry answers (R119). -/

namespace Sys2Proof.Machine

/-! Laying bytes (R72) -/

@[simp] theorem Cells.empty_getElem (k : Nat) (h : k < 32) : Cells.empty[k] = none := Vector.getElem_replicate h

@[simp] theorem Cells.lay_nil (cells : Cells) (pos : Nat) : cells.lay pos [] = cells := rfl
@[simp] theorem Cells.lay_cons_none (cells : Cells) (pos : Nat) (bs : List (Option Byte)) :
    cells.lay pos (none :: bs) = cells.lay (pos + 1) bs := rfl
@[simp] theorem Cells.lay_cons_some (cells : Cells) (pos : Nat) (v : Byte) (bs : List (Option Byte)) :
    cells.lay pos (some v :: bs) = Cells.lay (cells.setIfInBounds pos (some v)) (pos + 1) bs := rfl

/-- A position laid with a byte holds that byte; one laid with none, or outside what is laid, keeps what it holds. -/
theorem Cells.lay_getElem (bs : List (Option Byte)) (cells : Cells) (pos k : Nat) (h : k < 32) :
    (cells.lay pos bs)[k] = if pos ≤ k then bs[k - pos]?.join.or cells[k] else cells[k] := by
  induction bs generalizing cells pos with
  | nil => simp
  | cons b bs ih =>
    obtain hbelow | hhere | habove := Nat.lt_trichotomy k pos
    · have hne : pos ≠ k := by omega
      cases b <;> simp [ih, hne, show ¬ pos ≤ k by omega, show ¬ pos + 1 ≤ k by omega]
    · subst hhere
      cases b <;> simp [ih]
    · have hne : pos ≠ k := by omega
      have hrest : k - pos = k - (pos + 1) + 1 := by omega
      cases b <;> simp [ih, hne, hrest, show pos ≤ k by omega, show pos + 1 ≤ k by omega]

/-- Cells laid whole over others cover them: each position holds its new byte, or its old one where there is none. -/
theorem Cells.lay_toList_getElem (below above : Cells) (k : Fin 32) :
    (below.lay 0 above.toList)[k] = above[k].or below[k] := by
  simp [Cells.lay_getElem]

/-! Forwarding queries (R119) -/

@[simp] theorem forwardQuery_nil (block : Addr) : forwardQuery [] block = Cells.empty := rfl

/-- One more entry at the end of the queue lays its bytes over the answer, where it is at the block asked for. -/
theorem forwardQuery_concat (queue : List Frag) (f : Frag) (block : Addr) :
    forwardQuery (queue ++ [f]) block
      = if f.block = block then (forwardQuery queue block).lay 0 f.cells.toList else forwardQuery queue block := by
  simp [forwardQuery]

/-- The newest entry answers each position that it covers. -/
theorem forwardQuery_concat_of_covers (queue : List Frag) {f : Frag} {block : Addr} {k : Fin 32} {b : Byte}
    (hblock : f.block = block) (hcell : f.cells[k] = some b) :
    (forwardQuery (queue ++ [f]) block)[k] = some b := by
  rw [forwardQuery_concat, if_pos hblock, Cells.lay_toList_getElem, hcell, Option.some_or]

/-- An entry of another block, or one whose mask lacks the position, leaves the answer there. -/
theorem forwardQuery_concat_of_uncovered (queue : List Frag) {f : Frag} {block : Addr} {k : Fin 32}
    (hf : f.block = block → f.cells[k] = none) :
    (forwardQuery (queue ++ [f]) block)[k] = (forwardQuery queue block)[k] := by
  rw [forwardQuery_concat]
  split
  case isTrue hblock => rw [Cells.lay_toList_getElem, hf hblock, Option.none_or]
  case isFalse => rfl

/-- Entries that do not cover a position leave the answer of the entries older than them. -/
theorem forwardQuery_append_of_uncovered (older newer : List Frag) {block : Addr} {k : Fin 32}
    (hnewer : ∀ g ∈ newer, g.block = block → g.cells[k] = none) :
    (forwardQuery (older ++ newer) block)[k] = (forwardQuery older block)[k] := by
  induction newer generalizing older with
  | nil => rw [List.append_nil]
  | cons g newer ih =>
    obtain ⟨hg, hrest⟩ := List.forall_mem_cons.mp hnewer
    calc (forwardQuery (older ++ g :: newer) block)[k]
        = (forwardQuery (older ++ [g] ++ newer) block)[k] := by rw [List.append_cons]
      _ = (forwardQuery (older ++ [g]) block)[k] := ih (older ++ [g]) hrest
      _ = (forwardQuery older block)[k] := forwardQuery_concat_of_uncovered older hg

/-- Settles O60: the query lays the entries oldest first, so the entries after the newest covering one change nothing
at the position, and with no covering entry the answer is that of the empty queue. -/
theorem forwardingAnswersNewest : Obligations.ForwardingAnswersNewest := by
  intro queue block k
  refine ⟨fun hnone => ?_, ?_⟩
  · calc (forwardQuery queue block)[k]
        = (forwardQuery [] block)[k] := forwardQuery_append_of_uncovered [] queue hnone
      _ = none := Cells.empty_getElem k k.isLt
  · rintro older newer f b rfl hblock hcell hnewer
    calc (forwardQuery (older ++ f :: newer) block)[k]
        = (forwardQuery (older ++ [f] ++ newer) block)[k] := by rw [List.append_cons]
      _ = (forwardQuery (older ++ [f]) block)[k] := forwardQuery_append_of_uncovered (older ++ [f]) newer hnewer
      _ = some b := forwardQuery_concat_of_covers older hblock hcell

end Sys2Proof.Machine
end

