-- ==== Sys2Proof/Proofs/Events.lean ====
section
/-! PROOF. Events and the ALERT line (Chapter 10): what ALERT reads of the event queue, what counting a dropped event
keeps, and the statements on ALERT (R142) and on a taken event (R138, R139). -/

namespace Sys2Proof.Machine

/-! The ALERT line (R142) -/

theorem State.alert_iff (s : State) : s.alert = true ↔ ∃ r ∈ s.events, enabledIn s.alertMask r.body.kind = true :=
  List.any_eq_true

/-- ALERT reads the records' bodies alone: neither their numbers nor their dropped-after counts. -/
theorem State.alert_eq_any_bodies (s : State) :
    s.alert = (s.events.map (·.body)).any (fun b => enabledIn s.alertMask b.kind) := by
  rw [List.any_map]; rfl

/-- Settles O28: a mask bit enables the kind of its number, so the ALERT line's definition is the statement. -/
theorem alertFollowsQueueAndMask : Obligations.AlertFollowsQueueAndMask := State.alert_iff

/-! A full event queue (R139) -/

/-- Counting a dropped event keeps the list of bodies. -/
theorem countDropped_map_body (l : List EventRec) : (countDropped l).map (·.body) = l.map (·.body) := by
  obtain rfl | ⟨older, newest, rfl⟩ := l.eq_nil_or_concat'
  · rfl
  · simp [countDropped_append]

/-- A dropped event leaves ALERT, as it is nowhere stored. -/
theorem State.raise_alert_of_full (s : State) (b : EventBody) (hfull : Config.eventCapacity ≤ s.events.length) :
    (s.raise b).alert = s.alert := by
  rw [State.alert_eq_any_bodies, State.alert_eq_any_bodies, s.raise_of_full b hfull, countDropped_map_body]

/-- The count that stops at 255, in R139's two cases. -/
theorem min_255_succ (n : Nat) : min 255 (n + 1) = if n < 255 then n + 1 else 255 := by
  split <;> omega

/-- With the list full, the event is counted on the last record and every other one stays. -/
theorem State.raise_of_full_concat (s : State) (b : EventBody) {older : List EventRec} {newest : EventRec}
    (hevents : s.events = older ++ [newest]) (hfull : Config.eventCapacity ≤ s.events.length) :
    s.raise b = { s with
      seqCounter := s.seqCounter + 1
      events := older ++ [{ newest with dropped := if newest.dropped < 255 then newest.dropped + 1 else 255 }] } := by
  rw [s.raise_of_full b hfull, hevents, countDropped_append, min_255_succ]

/-- Settles O29: below 32 records the event is stored; at 32 it is counted on the newest record, which leaves the bodies
of the list and with them ALERT. -/
theorem fullEventQueueCountsDrops : Obligations.FullEventQueueCountsDrops := by
  intro s b
  refine ⟨s.raise_of_room b, fun older newest hevents hfull => ⟨?_, ?_⟩⟩
  · exact s.raise_of_full_concat b hevents hfull
  · exact s.raise_alert_of_full b hfull

end Sys2Proof.Machine
end

