-- ==== Sys2Proof/Proofs/Frames.lean ====
section
/-! PROOF. Which fields each compound operation of the machine can touch: one equation for each, so that what it leaves
alone is read off, and no later proof unfolds the operation for its frame. -/

namespace Sys2Proof.Machine

/-! Scan contexts and the completion of works -/

theorem State.openFrame_eq (s : State) (i : SurfaceIx) (req : ReadReq) (d : Nat) (restarted : Bool) :
    s.openFrame i req d restarted = { s with
      scans := (s.openFrame i req d restarted).scans, events := (s.openFrame i req d restarted).events
      seqCounter := (s.openFrame i req d restarted).seqCounter } := by
  unfold State.openFrame State.raiseIf
  cases restarted <;> cases s.surfaces[i].notify <;> rfl

theorem State.formScanner_eq (s : State) (i : SurfaceIx) (e : EntryIx) :
    s.formScanner i e = { s with table := (s.formScanner i e).table } := by
  unfold State.formScanner
  split <;> rfl

/-- Completing a work ends the release; it touches the contexts, the table, the events, the mark and the stage of the
soft reset. -/
theorem State.complete_eq (s : State) (rel : Release) :
    s.complete rel = { s with
      release := none, scans := (s.complete rel).scans, table := (s.complete rel).table
      events := (s.complete rel).events, seqCounter := (s.complete rel).seqCounter
      highWater := (s.complete rel).highWater, phase := (s.complete rel).phase } := by
  obtain ⟨work, issued, origins⟩ := rel
  cases work with
  | step i e d =>
    simp only [State.complete]
    rw [State.formScanner_eq]
    rfl
  | restart i e d =>
    simp only [State.complete]
    split
    · rfl
    · rw [State.formScanner_eq, State.openFrame_eq]
  | finish i => rfl
  | stall i => rfl
  | fullFlush =>
    simp only [State.complete]
    split <;> rfl

/-- Beginning a work touches what its completion touches, and the release. -/
theorem State.begin_eq (s : State) (w : Work) :
    s.begin w = { s with
      release := (s.begin w).release, scans := (s.begin w).scans, table := (s.begin w).table
      events := (s.begin w).events, seqCounter := (s.begin w).seqCounter
      highWater := (s.begin w).highWater, phase := (s.begin w).phase } := by
  unfold State.begin
  split
  · rfl
  · rw [State.complete_eq]

theorem State.takeOrder_eq (s : State) (o : Order) :
    s.takeOrder o = { s with
      release := (s.takeOrder o).release, scans := (s.takeOrder o).scans, table := (s.takeOrder o).table
      events := (s.takeOrder o).events, seqCounter := (s.takeOrder o).seqCounter
      highWater := (s.takeOrder o).highWater, phase := (s.takeOrder o).phase } := by
  cases o with
  | finish i | stall i =>
    simp only [State.takeOrder]
    split
    · rw [State.begin_eq]
    · rfl
  | fullFlush => exact s.begin_eq .fullFlush

theorem State.takeOrders_eq (l : List Order) (s : State) :
    State.takeOrders l s = { s with
      orders := (State.takeOrders l s).orders
      release := (State.takeOrders l s).release, scans := (State.takeOrders l s).scans
      table := (State.takeOrders l s).table, events := (State.takeOrders l s).events
      seqCounter := (State.takeOrders l s).seqCounter, highWater := (State.takeOrders l s).highWater
      phase := (State.takeOrders l s).phase } := by
  induction l generalizing s with
  | nil => rfl
  | cons o os ih =>
    simp only [State.takeOrders]
    split
    · rw [State.takeOrder_eq]
    · rw [ih, State.takeOrder_eq]

theorem State.order_eq (s : State) (o : Order) :
    s.order o = { s with
      orders := (s.order o).orders
      release := (s.order o).release, scans := (s.order o).scans, table := (s.order o).table
      events := (s.order o).events, seqCounter := (s.order o).seqCounter
      highWater := (s.order o).highWater, phase := (s.order o).phase } := by
  unfold State.order
  split
  · rfl
  · rw [State.takeOrder_eq]

end Sys2Proof.Machine
end

