-- ==== Sys2Proof/Proofs/Invariant.lean ====
section
/-! PROOF. The laws of Safety.lean, arranged for proofs about steps: what holds of one surface and of one aperture, the laws
that also hold between the parts of one command, and the three that a command restores at its end. -/

namespace Sys2Proof.Machine

/-! What holds of one surface and of one aperture -/

/-- What `surfaceOk` says of a record, its scan context and the image of its slot. -/
structure SurfaceOk (r : SurfaceRec) (c : ScanCtx) (image : Option SurfaceRec) : Prop where
  valid : r.valid = true
  fresh : r.defined = true ∨ c = ScanCtx.fresh none
  active : r.optBandOk c.active = true
  pending : r.pendingOk c.pendingBand = true
  row : c.state = .scanning → r.inScanRange c.c = true
  image : ∀ r', image = some r' → r'.valid = true

theorem State.surfaceOk_iff (s : State) (i : SurfaceIx) :
    s.surfaceOk i = true ↔ SurfaceOk s.surfaces[i] s.scans[i] s.sfSlots[i].image := by
  simp only [State.surfaceOk, Bool.and_eq_true, Bool.or_eq_true, beq_iff_eq, bne_iff_ne]
  constructor
  · rintro ⟨⟨⟨⟨⟨hvalid, hfresh⟩, hactive⟩, hpending⟩, hrow⟩, himage⟩
    refine ⟨hvalid, hfresh, hactive, hpending, fun hs => hrow.resolve_left (not_not_intro hs), fun r' hr => ?_⟩
    simpa only [hr] using himage
  · rintro ⟨hvalid, hfresh, hactive, hpending, hrow, himage⟩
    refine ⟨⟨⟨⟨⟨hvalid, hfresh⟩, hactive⟩, hpending⟩, Classical.or_iff_not_imp_left.mpr fun h => hrow (not_not.mp h)⟩, ?_⟩
    split
    · rfl
    · exact himage _ ‹_›

/-- What `apertureOk` says of an aperture, the record of its surface, its cursor and the image of its slot. -/
structure ApertureOk (a : Aperture) (r : SurfaceRec) (c : Cursor) (image : Option ApertureFields) : Prop where
  valid : a.fields.valid = true
  defined : a.state ≠ .closed → r.defined = true
  fits : a.state ≠ .closed → apertureStop a.fields r ≤ addrSpace
  view : a.state ≠ .closed → a.fields.kind = .stream → windowInView a.fields r a.fields.window = true
  within : a.state ≠ .closed → a.fields.kind = .stream → c.within a.fields.window = true
  image : ∀ f, image = some f → f.valid = true

theorem State.claims_iff (s : State) (a : ApertureIx) : s.claims a = true ↔ s.apertures[a].state ≠ .closed := bne_iff_ne

theorem State.claims_eq_false_iff (s : State) (a : ApertureIx) : s.claims a = false ↔ s.apertures[a].state = .closed := by
  simp [State.claims]

theorem ApertureKind.eq_mapped_or_stream (k : ApertureKind) : k = .mapped ∨ k = .stream := by
  cases k
  · exact .inl rfl
  · exact .inr rfl

theorem State.apertureOk_iff (s : State) (a : ApertureIx) :
    s.apertureOk a = true ↔ ApertureOk s.apertures[a] (s.surfaceOf a) s.cursors[a] s.apSlots[a].image := by
  simp only [State.apertureOk, Bool.and_eq_true, Bool.or_eq_true, Bool.not_eq_true', decide_eq_true_eq,
    State.claims_eq_false_iff, beq_iff_eq]
  constructor
  · rintro ⟨⟨hvalid, hclaims⟩, himage⟩
    refine ⟨hvalid, fun ho => ?_, fun ho => ?_, fun ho hk => ?_, fun ho hk => ?_, fun f hf => ?_⟩
    · exact (hclaims.resolve_left ho).1.1
    · exact (hclaims.resolve_left ho).1.2
    · exact ((hclaims.resolve_left ho).2.resolve_left (by rw [hk]; decide)).1
    · exact ((hclaims.resolve_left ho).2.resolve_left (by rw [hk]; decide)).2
    · simpa only [hf] using himage
  · rintro ⟨hvalid, hdefined, hfits, hview, hwithin, himage⟩
    refine ⟨⟨hvalid, Classical.or_iff_not_imp_left.mpr fun ho => ⟨⟨hdefined ho, hfits ho⟩, ?_⟩⟩, ?_⟩
    · exact (ApertureKind.eq_mapped_or_stream _).imp_right fun hk => ⟨hview ho hk, hwithin ho hk⟩
    · split
      · rfl
      · exact himage _ ‹_›

theorem tablesOk_iff (s : State) :
    TablesOk s ↔ (∀ i : SurfaceIx, SurfaceOk s.surfaces[i] s.scans[i] s.sfSlots[i].image)
      ∧ (∀ a : ApertureIx, ApertureOk s.apertures[a] (s.surfaceOf a) s.cursors[a] s.apSlots[a].image) ∧ s.disjointClaims := by
  simp only [TablesOk, State.surfaceOk_iff, State.apertureOk_iff]

/-- Fewer claims on the same ranges are still disjoint. -/
theorem State.disjointClaims_mono {s t : State} (h : s.disjointClaims)
    (hsurf : ∀ i : SurfaceIx, t.surfaces[i].defined = true → s.surfaces[i] = t.surfaces[i])
    (hap : ∀ a : ApertureIx, t.claims a = true → s.claims a = true ∧ s.apertures[a].fields = t.apertures[a].fields
      ∧ s.surfaceOf a = t.surfaceOf a) : t.disjointClaims := by
  obtain ⟨hss, hsa, haa⟩ := h
  have hend : ∀ a, t.claims a = true → s.apertureEnd a = t.apertureEnd a := fun a ha => by
    obtain ⟨-, hf, hr⟩ := hap a ha
    rw [State.apertureEnd, State.apertureEnd, hf, hr]
  refine ⟨fun i j hij hi hj => ?_, fun i a hi ha => ?_, fun a b hab ha hb => ?_⟩
  · rw [← hsurf i hi, ← hsurf j hj]
    exact hss i j hij (by rwa [hsurf i hi]) (by rwa [hsurf j hj])
  · rw [← hsurf i hi, ← hend a ha, ← (hap a ha).2.1]
    exact hsa i a (by rwa [hsurf i hi]) (hap a ha).1
  · rw [← hend a ha, ← hend b hb, ← (hap a ha).2.1, ← (hap b hb).2.1]
    exact haa a b hab (hap a ha).1 (hap b hb).1

/-! The laws that hold between the parts of one command -/

/-- The laws of WorkOk that ask neither for waiting orders nor for the first fragment of the write being handled. -/
structure WorkBase (s : State) : Prop where
  outside : s.working = false → s.queue = [] ∧ s.writeJob = none ∧ s.release = none
  alone : s.release.isSome = true → s.cutting = false
  takes : ∀ rel, s.release = some rel → s.queue.any (s.takes rel.work) = true
  step : s.stepOk = true
  flushing : s.flushing = true → s.writeJob = none
  flushed : s.flushedCount.isSome = true → s.writeJob = none ∧ s.queue = []

/-- A write being handled waits with a fragment to be issued directly (R60). -/
def HeadDirect (s : State) : Prop := ∀ p, s.todo.head? = some p → p.hold = false

/-- Orders wait only behind work in progress (R110). -/
def OrdersBehindWork (s : State) : Prop := s.holdBusy = false → s.orders = []

theorem State.holdBusy_eq_false_iff (s : State) : s.holdBusy = false ↔ s.release = none ∧ s.cutting = false := by
  have hbusy : s.holdBusy = (s.release.isSome || s.cutting) := rfl
  rw [hbusy, Bool.or_eq_false_iff, Option.isSome_eq_false_iff, Option.isNone_iff_eq_none]

theorem State.cutting_of_writeJob_none (s : State) (h : s.writeJob = none) : s.cutting = false := by
  simp [State.cutting, h]

/-- Outside the working part no work is in progress, so that no order waits there follows from the law of the orders. -/
theorem workOk_iff (s : State) : WorkOk s ↔ WorkBase s ∧ HeadDirect s ∧ OrdersBehindWork s := by
  constructor
  · rintro ⟨hout, halone, htakes, hstep, hhead, horders, hflushing, hflushed⟩
    exact ⟨⟨fun hw => ⟨(hout hw).1, (hout hw).2.1, (hout hw).2.2.1⟩, halone, htakes, hstep, hflushing, hflushed⟩, hhead, horders⟩
  · rintro ⟨⟨hout, halone, htakes, hstep, hflushing, hflushed⟩, hhead, horders⟩
    refine ⟨fun hw => ?_, halone, htakes, hstep, hhead, horders, hflushing, hflushed⟩
    obtain ⟨hqueue, hjob, hrelease⟩ := hout hw
    exact ⟨hqueue, hjob, hrelease, horders ((s.holdBusy_eq_false_iff).2 ⟨hrelease, s.cutting_of_writeJob_none hjob⟩)⟩

/-- The laws that hold at every point within a command. -/
structure CoreOk (s : State) : Prop where
  work : WorkBase s
  counts : CountsOk s
  hold : HoldOk s
  tables : TablesOk s
  reads : ReadsOk s

/-- The requests at the port are some of those that have been formed, each once, in groups that are not empty (R39). -/
structure PortFormed (s : State) : Prop where
  formed : ∀ b, s.isHanded b = true → s.formed b = true
  nodup : s.handed.flatten.Nodup
  groups : ∀ group ∈ s.handed, group ≠ []

/-- The laws before a command's requests are handed over. -/
structure StepOk (s : State) : Prop where
  core : CoreOk s
  head : HeadDirect s
  orders : OrdersBehindWork s
  port : PortFormed s

theorem PortOk.portFormed {s : State} (h : PortOk s) : PortFormed s := by
  obtain ⟨hhanded, hnodup, hgroups⟩ := h
  exact ⟨fun b hb => (hhanded b).symm.trans hb, hnodup, hgroups⟩

theorem Inv.stepOk {s : State} (h : Inv s) : StepOk s := by
  obtain ⟨hwork, hcounts, hhold, htables, hreads, hport⟩ := h
  obtain ⟨hbase, hhead, horders⟩ := (workOk_iff s).1 hwork
  exact ⟨⟨hbase, hcounts, hhold, htables, hreads⟩, hhead, horders, hport.portFormed⟩

theorem StepOk.inv {s : State} (h : StepOk s) (hport : PortOk s) : Inv s :=
  ⟨(workOk_iff s).2 ⟨h.core.work, h.head, h.orders⟩, h.core.counts, h.core.hold, h.core.tables, h.core.reads, hport⟩

/-! Handing over -/

theorem State.formed_handOver (s : State) (b : Former) : s.handOver.formed b = s.formed b := by
  rw [State.handOver_eq]; exact s.formed_handed _ b

/-- The groups after a hand-over: those before, and the requests formed since as one more, if there are any. -/
theorem State.handOver_handed (s : State) :
    s.handOver.handed = s.handed ++ if (formers.filter fun b => s.formed b && !s.isHanded b) = [] then []
      else [formers.filter fun b => s.formed b && !s.isHanded b] := by
  unfold State.handOver
  split
  · rename_i h; simp [h]
  · rename_i h; simp [h]

theorem State.isHanded_iff (s : State) (b : Former) : s.isHanded b = true ↔ b ∈ s.handed.flatten := by
  simp [State.isHanded]

/-- A hand-over completes the law of the port (R39). -/
theorem PortFormed.handOver {s : State} (h : PortFormed s) : PortOk s.handOver := by
  have hnew : ∀ b, b ∈ formers.filter (fun b => s.formed b && !s.isHanded b) → s.formed b = true ∧ s.isHanded b = false := by
    intro b hb
    simpa using (List.mem_filter.1 hb).2
  refine ⟨fun b => ?_, ?_, fun group hg => ?_⟩
  · rw [State.formed_handOver, Bool.eq_iff_iff]
    refine ⟨fun hb => ?_, s.handOver_isHanded b⟩
    rw [State.isHanded_iff, State.handOver_handed, List.flatten_append, List.mem_append] at hb
    obtain hold | hb := hb
    · exact h.formed b ((s.isHanded_iff b).2 hold)
    · split at hb
      · simp at hb
      · exact (hnew b (by simpa using hb)).1
  · rw [State.handOver_handed, List.flatten_append, List.nodup_append]
    refine ⟨h.nodup, ?_, fun b hb c hc hbc => ?_⟩
    · split
      · simp
      · simpa using (show formers.Nodup by decide).filter _
    · subst hbc
      split at hc
      · simp at hc
      · have hfree := (hnew b (by simpa using hc)).2
        rw [(s.isHanded_iff b).2 hb] at hfree
        exact absurd hfree (by decide)
  · rw [State.handOver_handed, List.mem_append] at hg
    obtain hold | hg := hg
    · exact h.groups group hold
    · split at hg
      · simp at hg
      · rename_i hne
        simpa [List.mem_singleton.1 hg] using hne

/-- Every law but that of the port is blind to the requests at it. -/
theorem StepOk.handOver {s : State} (h : StepOk s) : Inv s.handOver := by
  have hport : PortOk s.handOver := h.port.handOver
  obtain ⟨⟨hwork, hcounts, hhold, htables, hreads⟩, hhead, horders, -⟩ := h
  rw [State.handOver_eq] at hport ⊢
  have hwork' : WorkOk s := (workOk_iff s).2 ⟨hwork, hhead, horders⟩
  exact ⟨hwork', hcounts, hhold, htables, hreads, hport⟩

end Sys2Proof.Machine
end

