-- ==== Sys2Proof/Proofs/Works.lean ====
section
/-! PROOF. The laws through the works of the hold queue: events, contexts, the fragment reads of a scan step, the completion
of a work, its beginning, and the orders. -/

namespace Sys2Proof.Machine

/-! Events -/

/-- Every law but the bound of the event list is blind to events. -/
theorem CoreOk.with_events {s : State} (h : CoreOk s) {events : List EventRec} (q : BitVec 16)
    (hlength : events.length ≤ Config.eventCapacity) : CoreOk { s with events := events, seqCounter := q } := by
  obtain ⟨⟨hout, halone, htakes, hstep, hflushing, hflushed⟩, ⟨hroom, hheld, hmark, hdiscarded, hcount, -, huses, hsaving⟩, hhold, htables, hreads⟩ := h
  exact ⟨⟨hout, halone, htakes, hstep, hflushing, hflushed⟩, ⟨hroom, hheld, hmark, hdiscarded, hcount, hlength, huses, hsaving⟩, hhold, htables, hreads⟩

theorem CoreOk.events_length_le {s : State} (h : CoreOk s) : s.events.length ≤ Config.eventCapacity := by
  obtain ⟨-, -, -, -, -, hlength, -, -⟩ := h.counts
  exact hlength

theorem CoreOk.raise {s : State} (h : CoreOk s) (b : EventBody) : CoreOk (s.raise b) :=
  h.with_events (s.seqCounter + 1) (s.raise_events_length_le b h.events_length_le)

theorem CoreOk.raiseIf {s : State} (h : CoreOk s) (c : Bool) (b : EventBody) : CoreOk (s.raiseIf c b) := by
  cases c
  · exact h
  · exact h.raise b

/-! What the laws say of a surface -/

theorem CoreOk.surface {s : State} (h : CoreOk s) (i : SurfaceIx) :
    SurfaceOk s.surfaces[i] s.scans[i] s.sfSlots[i].image := ((tablesOk_iff s).1 h.tables).1 i

theorem CoreOk.aperture {s : State} (h : CoreOk s) (a : ApertureIx) :
    ApertureOk s.apertures[a] (s.surfaceOf a) s.cursors[a] s.apSlots[a].image := ((tablesOk_iff s).1 h.tables).2.1 a

theorem CoreOk.disjoint {s : State} (h : CoreOk s) : s.disjointClaims := ((tablesOk_iff s).1 h.tables).2.2

theorem CoreOk.ahead {s : State} (h : CoreOk s) : ∀ f ∈ s.heldAll, s.standsAhead f = true := by
  obtain ⟨hahead, -⟩ := h.hold
  exact hahead

theorem CoreOk.bypass {s : State} (h : CoreOk s) (hm : s.mode = .bypass) :
    (∀ a : ApertureIx, s.apertures[a].state = .closed) ∧ s.queue = [] ∧ s.todo = []
      ∧ ∀ i : SurfaceIx, s.scans[i].state = .idle := by
  obtain ⟨-, hbypass, -⟩ := h.hold
  exact hbypass hm

/-- A surface whose context is not IDLE is in use: the part is ENGAGED and not in the load phase, and the surface is
DEFINED with a scanner. -/
theorem CoreOk.of_not_idle {s : State} (h : CoreOk s) {i : SurfaceIx} (hi : s.scans[i].state ≠ .idle) :
    s.mode ≠ .bypass ∧ s.loadNext = none ∧ s.surfaces[i].scanner ≠ none ∧ s.surfaces[i].defined = true := by
  obtain ⟨-, hbypass, -, hloading, hscanner, -, -⟩ := h.hold
  refine ⟨fun hm => hi ((hbypass hm).2.2.2 i), ?_, fun hs => hi (hscanner i hs), ?_⟩
  · cases hl : s.loadNext with
    | none => rfl
    | some n => exact absurd ((hloading n hl).1 i) hi
  · exact (h.surface i).fresh.resolve_right fun hf => hi (by rw [hf]; rfl)

/-- A held fragment's surface is scanned: that is part of the hold law (R113). -/
theorem State.standsAhead_iff (s : State) (f : Frag) : s.standsAhead f = true ↔
    s.surfaces[f.surface].policy = .trail ∧ s.surfaces[f.surface].scanner.isSome = true
      ∧ s.scans[f.surface].state = .scanning ∧ s.surfaces[f.surface].inScanRange f.row = true
      ∧ s.scans[f.surface].c ≤ displayRow s.scans[f.surface].active f.row := by
  simp only [State.standsAhead, State.rowAhead, Bool.and_eq_true, beq_iff_eq, decide_eq_true_eq]
  tauto

theorem CoreOk.scanning_of_held {s : State} (h : CoreOk s) {f : Frag} (hf : f ∈ s.queue) :
    s.scans[f.surface].state = .scanning :=
  ((s.standsAhead_iff f).1 (h.ahead f (List.mem_append_left _ hf))).2.2.1

theorem CoreOk.working_of_held {s : State} (h : CoreOk s) {f : Frag} (hf : f ∈ s.queue) : s.working = true := by
  cases hw : s.working with
  | true => rfl
  | false => rw [(h.work.outside hw).1] at hf; exact absurd hf List.not_mem_nil

theorem CoreOk.engaged_of_held {s : State} (h : CoreOk s) {f : Frag} (hf : f ∈ s.queue) : s.mode ≠ .bypass :=
  fun hm => by rw [(h.bypass hm).2.1] at hf; exact List.not_mem_nil hf

theorem State.loadNext_of_working {s : State} (h : s.working = true) : s.loadNext = none := by
  unfold State.working at h
  unfold State.loadNext
  split at h <;> simp_all

/-! Contexts -/

/-- With no work in progress, the laws of the works do not ask for contexts. -/
theorem WorkBase.setScan {s : State} (h : WorkBase s) (hrelease : s.release = none) (i : SurfaceIx) (c : ScanCtx) :
    WorkBase (s.setScan i c) := by
  obtain ⟨hout, halone, -, -, hflushing, hflushed⟩ := h
  refine ⟨hout, halone, fun rel hrel => ?_, ?_, hflushing, hflushed⟩
  · rw [State.setScan_release, hrelease] at hrel; cases hrel
  · rw [State.stepOk, State.setScan_release, hrelease]

theorem State.setScan_standsAhead_of_ne (s : State) {i : SurfaceIx} (c : ScanCtx) {f : Frag} (hf : f.surface ≠ i) :
    (s.setScan i c).standsAhead f = s.standsAhead f := by
  simp only [State.standsAhead, State.rowAhead, State.setScan_scans_get, if_neg (Ne.symm hf), State.setScan_surfaces]

/-- The context of surface `i` may become one that its record allows, under which the held fragments of the surface
stand ahead. -/
theorem CoreOk.setScan {s : State} (h : CoreOk s) {i : SurfaceIx} {c : ScanCtx} (hwork : WorkBase (s.setScan i c))
    (hahead : ∀ f ∈ s.heldAll, f.surface = i → (s.setScan i c).standsAhead f = true)
    (hidle : c.state ≠ .idle → s.mode ≠ .bypass ∧ s.loadNext = none ∧ s.surfaces[i].scanner ≠ none)
    (htimer : c.timer.isSome = true → c.state = .scanning)
    (hruns : s.inReset = false → c.state = .scanning → s.surfaces[i].timeout ≠ 0 → c.timer.isSome = true)
    (hsurface : SurfaceOk s.surfaces[i] c s.sfSlots[i].image) : CoreOk (s.setScan i c) := by
  obtain ⟨hsurfaces, happertures, hdisjoint⟩ := (tablesOk_iff s).1 h.tables
  obtain ⟨hall, hbypass, hdraining, hloading, hscanner, htimers, hrun⟩ := h.hold
  have hstate : ∀ j : SurfaceIx, (i = j → c.state = .idle) → (i ≠ j → s.scans[j].state = .idle) →
      (s.setScan i c).scans[j].state = .idle := by
    intro j hc hs
    rw [State.setScan_scans_get]
    split
    · exact hc ‹_›
    · exact hs ‹_›
  refine ⟨hwork, h.counts, ⟨fun f hf => ?_, fun hm => ?_, hdraining, fun n hn => ?_, fun j hj => ?_, fun j hj => ?_,
    fun hr j hj ht => ?_⟩, (tablesOk_iff _).2 ⟨fun j => ?_, happertures, hdisjoint⟩, h.reads⟩
  · by_cases hi : f.surface = i
    · exact hahead f hf hi
    · rw [s.setScan_standsAhead_of_ne c hi]; exact hall f hf
  · obtain ⟨hclosed, hqueue, htodo, hscans⟩ := hbypass hm
    exact ⟨hclosed, hqueue, htodo, fun j => hstate j
      (fun _ => by_contra fun hc => (hidle hc).1 hm) (fun _ => hscans j)⟩
  · exact ⟨fun j => hstate j (fun _ => by_contra fun hc => Option.some_ne_none n (hn.symm.trans (hidle hc).2.1))
      (fun _ => (hloading n hn).1 j), (hloading n hn).2⟩
  · exact hstate j (fun hij => by_contra fun hc => (hidle hc).2.2 (hij ▸ hj)) (fun _ => hscanner j hj)
  · rw [State.setScan_scans_get] at hj ⊢
    split
    · rename_i hij; rw [if_pos hij] at hj; exact htimer hj
    · rename_i hij; rw [if_neg hij] at hj; exact htimers j hj
  · rw [State.setScan_scans_get] at hj ⊢
    split
    · rename_i hij; rw [if_pos hij] at hj; exact hruns hr hj (hij ▸ ht)
    · rename_i hij; rw [if_neg hij] at hj; exact hrun hr j hj ht
  · rw [State.setScan_scans_get]
    split
    · rename_i hij; exact hij ▸ hsurface
    · exact hsurfaces j

/-! The fragment reads of a scan step -/

theorem SurfaceRec.pitch_ge_of_valid {r : SurfaceRec} (h : r.valid = true) : 64 ≤ r.pitch := by
  unfold SurfaceRec.valid at h
  split at h
  · simp only [SurfaceRec.fieldsOk, Bool.and_eq_true, decide_eq_true_eq] at h
    obtain ⟨⟨⟨⟨⟨⟨⟨⟨⟨⟨⟨⟨⟨-, hpitch⟩, -⟩, -⟩, -⟩, -⟩, -⟩, -⟩, -⟩, -⟩, -⟩, -⟩, -⟩, -⟩ := h
    exact hpitch
  · rw [beq_iff_eq.1 h]; decide

/-- A request covers at most 128 bytes (R33). -/
theorem readAccess_high_le (req : ReadReq) : (readAccess req).high ≤ (readAccess req).low + 127 := by
  have hlen := req.lenM1.isLt
  have hsize : (readAccess req).size ≤ 128 := by
    simp only [Access.size, readAccess, readLen]
    split <;> omega
  unfold Access.high
  omega

/-- Rows are at least 64 bytes apart, so a scanner read touches at most three of them. -/
theorem scannerReads_length_le {r : SurfaceRec} (h : 64 ≤ r.pitch) (band : Option Band) (req : ReadReq) :
    (scannerReads r band (readAccess req)).length ≤ 64 := by
  have hhigh := readAccess_high_le req
  have hrows : r.rowOf (readAccess req).high ≤ r.rowOf (readAccess req).low + 2 := by
    unfold SurfaceRec.rowOf
    calc ((readAccess req).high - r.low) / r.pitch
        ≤ ((readAccess req).low - r.low + 2 * r.pitch) / r.pitch := Nat.div_le_div_right (by omega)
      _ = ((readAccess req).low - r.low) / r.pitch + 2 := Nat.add_mul_div_right _ _ (by omega)
  simp only [scannerReads, List.length_map, List.length_range]
  omega

theorem scannerReads_unissued (r : SurfaceRec) (band : Option Band) (q : Access) :
    (scannerReads r band q).any (·.status == .unissued) = true := by
  rw [scannerReads, List.range_succ, List.map_append, List.any_append]
  simp [scannerPiece]

theorem State.formScanner_of_none (s : State) (i : SurfaceIx) {e : EntryIx} (h : s.table[e] = none) :
    s.formScanner i e = s := by
  rw [State.formScanner, h]

theorem State.formScanner_of_some (s : State) (i : SurfaceIx) {e : EntryIx} {en : Entry} (h : s.table[e] = some en) :
    s.formScanner i e = s.setEntry e (some { en with
      reads := scannerReads s.surfaces[i] s.scans[i].active (readAccess en.req) }) := by
  rw [State.formScanner, h]

theorem Entry.consistent_iff (en : Entry) : en.consistent = true ↔ en.reads.length ≤ 64
    ∧ (en.state = .issuing → en.reads = [] ∨ en.reads.any (·.status == .unissued) = true)
    ∧ (en.state = .waiting → en.reads.all (·.status != .unissued) = true)
    ∧ (en.state = .responding → en.reads.all (·.status == .returned) = true) := by
  unfold Entry.consistent
  cases en.state <;> simp

/-- Replacing an entry in use by a consistent one keeps the law of the table. -/
theorem ReadsOk.setEntry_some {s : State} (h : ReadsOk s) {e : EntryIx} {en : Entry} (hused : s.table[e].isSome = true)
    (hconsistent : en.consistent = true) : ReadsOk (s.setEntry e (some en)) := by
  obtain ⟨htaken, hnodup, htags, hentries⟩ := h
  refine ⟨fun d => ?_, hnodup, fun t ht => ?_, fun d en' hd => ?_⟩
  · rw [State.setEntry_table_get]
    split
    · rename_i hed; subst hed; exact ⟨fun _ => rfl, fun _ => (htaken e).2 hused⟩
    · exact htaken d
  · rw [State.setEntry_table_get, if_neg]
    · exact htags t ht
    · rintro rfl; rw [htags t ht] at hused; cases hused
  · rw [State.setEntry_table_get] at hd
    split at hd
    · cases hd; exact hconsistent
    · exact hentries d en' hd

/-- With no work in progress, the laws of the works do not ask for the table. -/
theorem WorkBase.setEntry {s : State} (h : WorkBase s) (hrelease : s.release = none) (e : EntryIx) (en : Option Entry) :
    WorkBase (s.setEntry e en) := by
  obtain ⟨hout, halone, -, -, hflushing, hflushed⟩ := h
  refine ⟨hout, halone, fun rel hrel => ?_, ?_, hflushing, hflushed⟩
  · rw [State.setEntry_release, hrelease] at hrel; cases hrel
  · rw [State.stepOk, State.setEntry_release, hrelease]

theorem CoreOk.setEntry_some {s : State} (h : CoreOk s) {e : EntryIx} {en : Entry}
    (hwork : WorkBase (s.setEntry e (some en))) (hused : s.table[e].isSome = true)
    (hconsistent : en.consistent = true) : CoreOk (s.setEntry e (some en)) :=
  ⟨hwork, h.counts, h.hold, h.tables, h.reads.setEntry_some hused hconsistent⟩

/-- The fragment reads of a scan step are formed in an entry that waits for them. -/
theorem CoreOk.formScanner {s : State} (h : CoreOk s) (hrelease : s.release = none) (i : SurfaceIx) {e : EntryIx}
    (hissuing : ∀ en, s.table[e] = some en → en.state = .issuing) : CoreOk (s.formScanner i e) := by
  cases he : s.table[e] with
  | none => rw [s.formScanner_of_none i he]; exact h
  | some en =>
    rw [s.formScanner_of_some i he]
    refine h.setEntry_some (h.work.setEntry hrelease e _) (by rw [he]; rfl) ?_
    have hstate := hissuing en he
    rw [Entry.consistent_iff]
    refine ⟨scannerReads_length_le (SurfaceRec.pitch_ge_of_valid (h.surface i).valid) _ _,
      fun _ => .inr (scannerReads_unissued _ _ _), fun hw => ?_, fun hr => ?_⟩
    · rw [hstate] at hw; cases hw
    · rw [hstate] at hr; cases hr

/-! Opening a frame -/

theorem timerStart_isSome (r : SurfaceRec) (h : r.timeout ≠ 0) : (timerStart r).isSome = true := by
  rw [timerStart, if_neg h]; rfl

theorem SurfaceOk.openFrame {r : SurfaceRec} {c : ScanCtx} {image : Option SurfaceRec} (h : SurfaceOk r c image)
    (hdefined : r.defined = true) {d : Nat} (hd : r.inScanRange d = true) : SurfaceOk r (c.openFrame r d) image := by
  refine ⟨h.valid, .inl hdefined, ?_, rfl, fun _ => hd, h.image⟩
  show r.optBandOk (appliedBand c) = true
  have hpending := h.pending
  unfold appliedBand
  cases hp : c.pendingBand with
  | none => exact h.active
  | band b => rwa [hp] at hpending
  | remove => rfl

/-- A frame opens on a DEFINED surface with a scanner of which nothing is held (R95, R97), and its fragment reads are formed. -/
theorem CoreOk.openFrame {s : State} (h : CoreOk s) (hrelease : s.release = none) {i : SurfaceIx} {e : EntryIx} {d : Nat}
    (hfree : ∀ f ∈ s.heldAll, f.surface ≠ i) (hmode : s.mode ≠ .bypass) (hload : s.loadNext = none)
    (hscanner : s.surfaces[i].scanner ≠ none) (hdefined : s.surfaces[i].defined = true)
    (hd : s.surfaces[i].inScanRange d = true) (hissuing : ∀ en, s.table[e] = some en → en.state = .issuing)
    (req : ReadReq) (restarted : Bool) : CoreOk ((s.openFrame i req d restarted).formScanner i e) := by
  have hset : CoreOk (s.setScan i (s.scans[i].openFrame s.surfaces[i] d)) :=
    h.setScan (h.work.setScan hrelease i _) (fun f hf hi => absurd hi (hfree f hf)) (fun _ => ⟨hmode, hload, hscanner⟩)
      (fun _ => rfl) (fun _ _ => timerStart_isSome s.surfaces[i]) ((h.surface i).openFrame hdefined hd)
  refine CoreOk.formScanner ((hset.raiseIf _ _).raiseIf _ _) ?_ i ?_
  · simp [hrelease]
  · intro en hen
    simp only [State.raiseIf_table, State.setScan_table] at hen
    exact hissuing en hen

/-! The completion of a work -/

/-- The surface that a work serves; the full flush serves all. -/
def Work.surface : Work → Option SurfaceIx
  | .step i _ _ => some i
  | .restart i _ _ => some i
  | .finish i => some i
  | .stall i => some i
  | .fullFlush => none

/-- The display row of the scan step that a work serves, with the entry that waits for it. -/
def Work.scanStep : Work → Option (EntryIx × Nat)
  | .step _ e d => some (e, d)
  | .restart _ e d => some (e, d)
  | _ => none

/-- What the completion of a work rests on: its surface is scanned, and a scan step leads to a row of the scan range and
has an entry that waits for its fragment reads. -/
structure WorkReady (s : State) (w : Work) : Prop where
  scanning : ∀ i, w.surface = some i → s.scans[i].state = .scanning
  row : ∀ i e d, w.surface = some i → w.scanStep = some (e, d) → s.surfaces[i].inScanRange d = true
  awaits : ∀ i e d, w.surface = some i → w.scanStep = some (e, d) → s.awaitsStep i e = true

/-- A work of a surface takes entries of that surface alone. -/
theorem State.surface_of_takes (s : State) {w : Work} {f : Frag} (h : s.takes w f = true) {i : SurfaceIx}
    (hw : w.surface = some i) : f.surface = i := by
  cases w with
  | step j e d =>
    cases hw
    simp only [State.takes, Bool.and_eq_true, beq_iff_eq] at h
    exact h.1.1
  | restart j e d | finish j | stall j => cases hw; exact beq_iff_eq.1 h
  | fullFlush => cases hw

/-- Works other than a step take every entry of their surface. -/
theorem State.not_takes_of_surface_ne (s : State) {w : Work} {f : Frag} {i : SurfaceIx} (hw : w.surface = some i)
    (hf : f.surface ≠ i) : s.takes w f = false := by
  cases h : s.takes w f with
  | false => rfl
  | true => exact absurd (s.surface_of_takes h hw) hf

theorem State.awaitsStep_issuing {s : State} {i : SurfaceIx} {e : EntryIx} (h : s.awaitsStep i e = true) :
    ∀ en, s.table[e] = some en → en.state = .issuing ∧ en.reads = [] ∧ en.surface = some i := by
  intro en hen
  simp only [State.awaitsStep, hen, Bool.and_eq_true, beq_iff_eq, List.isEmpty_iff] at h
  exact ⟨h.1.1, h.1.2, h.2⟩

theorem State.heldAll_of_not_cutting (s : State) (h : s.cutting = false) : s.heldAll = s.queue := by
  have htodo : s.todo = [] := by
    cases hjob : s.writeJob with
    | none => simp only [State.todo, hjob]
    | some job =>
      cases job with
      | fragments q t todo => simp only [State.cutting, hjob, Bool.true_eq_false] at h
      | transparent w => simp only [State.todo, hjob]
  simp [State.heldAll, State.joining, htodo]

/-- A context that has left SCANNING, with its timer stopped. -/
theorem SurfaceOk.leaveScanning {r : SurfaceRec} {c : ScanCtx} {image : Option SurfaceRec} (h : SurfaceOk r c image)
    (hdefined : r.defined = true) {st : ScanState} (hst : st ≠ .scanning) :
    SurfaceOk r { c with state := st, timer := none } image :=
  ⟨h.valid, .inl hdefined, h.active, h.pending, fun hs => absurd hs hst, h.image⟩

/-- A surface of which nothing is held leaves SCANNING (R99, R101). -/
theorem CoreOk.leaveScanning {s : State} (h : CoreOk s) (hrelease : s.release = none) {i : SurfaceIx}
    (hscanning : s.scans[i].state = .scanning) (hfree : ∀ f ∈ s.heldAll, f.surface ≠ i) {st : ScanState}
    (hst : st ≠ .scanning) : CoreOk (s.setScan i { s.scans[i] with state := st, timer := none }) := by
  obtain ⟨hmode, hload, hscanner, hdefined⟩ := h.of_not_idle (i := i) (by rw [hscanning]; decide)
  exact h.setScan (h.work.setScan hrelease i _) (fun f hf hi => absurd hi (hfree f hf))
    (fun _ => ⟨hmode, hload, hscanner⟩) (fun ht => by cases ht) (fun _ hs => absurd hs hst)
    ((h.surface i).leaveScanning hdefined hst)

/-- A scan step moves the row past rows of which nothing is held (R96). -/
theorem CoreOk.stepTo {s : State} (h : CoreOk s) (hrelease : s.release = none) {i : SurfaceIx} {e : EntryIx} {d : Nat}
    (hscanning : s.scans[i].state = .scanning) (hd : s.surfaces[i].inScanRange d = true)
    (hpassed : ∀ f ∈ s.heldAll, s.takes (.step i e d) f = false) :
    CoreOk (s.setScan i (s.scans[i].stepTo s.surfaces[i] d)) := by
  obtain ⟨hmode, hload, hscanner, hdefined⟩ := h.of_not_idle (i := i) (by rw [hscanning]; decide)
  refine h.setScan (h.work.setScan hrelease i _) (fun f hf hi => ?_) (fun _ => ⟨hmode, hload, hscanner⟩)
    (fun _ => hscanning) (fun _ _ => timerStart_isSome s.surfaces[i]) ?_
  · obtain ⟨hpolicy, hsome, hstate, hrange, hrow⟩ := (s.standsAhead_iff f).1 (h.ahead f hf)
    subst hi
    have hfar : d ≤ displayRow s.scans[f.surface].active f.row := by
      simpa [State.takes, -Fin.getElem_fin, hrow] using hpassed f hf
    rw [State.standsAhead_iff, State.setScan_scans_get, if_pos rfl]
    exact ⟨hpolicy, hsome, hstate, hrange, hfar⟩
  · obtain ⟨hvalid, -, hactive, hpending, -, himage⟩ := h.surface i
    exact ⟨hvalid, .inl hdefined, hactive, hpending, fun _ => hd, himage⟩

/-- The full flush leaves an empty queue with the mark 0, and its count (R118, R151). -/
theorem CoreOk.flushed {s : State} (h : CoreOk s) (hqueue : s.queue = [])
    (hphase : s.phase = .softReset .flush) {n : Nat} (hn : n ≤ Config.holdCapacity) :
    CoreOk { s with highWater := 0, phase := .softReset (.flushed n) } := by
  have hjob : s.writeJob = none := h.work.flushing (by simp [State.flushing, hphase])
  obtain ⟨-, halone, htakes, hstep, -, -⟩ := h.work
  obtain ⟨hroom, hheld, -, hdiscarded, -, hlength, huses, hsaving⟩ := h.counts
  obtain ⟨hahead, hbypass, hdraining, -, hscanner, htimers, hrun⟩ := h.hold
  refine ⟨⟨fun hw => (by cases hw), halone, htakes, hstep, fun hf => (by cases hf), fun _ => ⟨hjob, hqueue⟩⟩,
    ⟨hroom, hheld, Nat.zero_le _, hdiscarded, fun m hm => ?_, hlength, huses, hsaving⟩,
    ⟨hahead, hbypass, fun _ => hdraining (by simp [State.working, hphase]), fun m hm => (by cases hm), hscanner, htimers,
      fun _ => hrun (by simp [State.inReset, hphase])⟩, h.tables, h.reads⟩
  cases hm; exact hn

/-- A work that has no more entry to take is completed. -/
theorem CoreOk.complete {s : State} (h : CoreOk s) (hrelease : s.release = none) (hcutting : s.cutting = false)
    {rel : Release} (htakes : s.queue.any (s.takes rel.work) = false) (hready : WorkReady s rel.work)
    (hissued : rel.issued ≤ Config.holdCapacity) : CoreOk (s.complete rel) := by
  have hself : { s with release := none } = s := by rw [← hrelease]
  have hnone : ∀ f ∈ s.heldAll, s.takes rel.work f = false := by
    rw [s.heldAll_of_not_cutting hcutting]
    simpa using htakes
  obtain ⟨work, issued, origins⟩ := rel
  unfold State.complete
  rw [hself]
  cases work with
  | step i e d =>
    have hscanning := hready.scanning i rfl
    refine CoreOk.formScanner (h.stepTo (e := e) hrelease hscanning (hready.row i e d rfl rfl) hnone) hrelease i ?_
    exact fun en hen => (State.awaitsStep_issuing (hready.awaits i e d rfl rfl) en hen).1
  | restart i e d =>
    have hscanning := hready.scanning i rfl
    obtain ⟨hmode, hload, hscanner, hdefined⟩ := h.of_not_idle (i := i) (by rw [hscanning]; decide)
    simp only
    split
    · exact h
    · refine h.openFrame hrelease (fun f hf => ?_) hmode hload hscanner hdefined (hready.row i e d rfl rfl)
        (fun en hen => (State.awaitsStep_issuing (hready.awaits i e d rfl rfl) en hen).1) _ _
      simpa [State.takes] using hnone f hf
  | finish i =>
    exact h.leaveScanning hrelease (hready.scanning i rfl) (fun f hf => by simpa [State.takes] using hnone f hf)
      (by decide)
  | stall i =>
    exact (h.leaveScanning hrelease (hready.scanning i rfl) (fun f hf => by simpa [State.takes] using hnone f hf)
      (by decide)).raise _
  | fullFlush =>
    have hqueue : s.queue = [] := by
      rw [s.heldAll_of_not_cutting hcutting] at hnone
      exact List.eq_nil_iff_forall_not_mem.2 fun f hf => by simpa [State.takes] using hnone f hf
    simp only
    split
    · exact h.flushed hqueue ‹_› hissued
    · exact h

/-! Beginning a work, and the orders -/

theorem WorkReady.stepOk {s : State} {w : Work} (h : WorkReady s w) (n : Nat) (l : List ApertureIx) :
    State.stepOk { s with release := some ⟨w, n, l⟩ } = true := by
  cases w with
  | step i e d => exact Bool.and_eq_true_iff.2 ⟨h.row i e d rfl rfl, h.awaits i e d rfl rfl⟩
  | restart i e d => exact Bool.and_eq_true_iff.2 ⟨h.row i e d rfl rfl, h.awaits i e d rfl rfl⟩
  | finish i | stall i | fullFlush => rfl

/-- The queue at work on a release that has an entry to take. -/
theorem CoreOk.with_release {s : State} (h : CoreOk s) (hcutting : s.cutting = false) {rel : Release}
    (htakes : s.queue.any (s.takes rel.work) = true) (hready : WorkReady s rel.work)
    (hroom : s.queue.length + rel.issued ≤ Config.holdCapacity) : CoreOk { s with release := some rel } := by
  obtain ⟨f, hf, -⟩ := List.any_eq_true.1 htakes
  obtain ⟨-, -, -, -, hflushing, hflushed⟩ := h.work
  obtain ⟨-, hheld, hmark, hdiscarded, hcount, hlength, huses, hsaving⟩ := h.counts
  have hjoining : s.joining = [] := by
    have hall := s.heldAll_of_not_cutting hcutting
    simpa [State.heldAll] using hall
  refine ⟨⟨fun hw => ?_, fun _ => hcutting, fun rel' hrel => ?_, hready.stepOk _ _, hflushing, hflushed⟩,
    ⟨?_, hheld, hmark, hdiscarded, hcount, hlength, huses, hsaving⟩, h.hold, h.tables, h.reads⟩
  · exact absurd hw (by rw [show State.working { s with release := some rel } = s.working from rfl, h.working_of_held hf]; decide)
  · cases hrel; exact htakes
  · show s.queue.length + s.joining.length + rel.issued ≤ _
    rw [hjoining]; exact hroom

theorem CoreOk.room {s : State} (h : CoreOk s) :
    s.queue.length + s.joining.length + s.releasedCount ≤ Config.holdCapacity := by
  obtain ⟨hroom, -⟩ := h.counts
  exact hroom

theorem CoreOk.begin {s : State} (h : CoreOk s) (hfree : s.holdBusy = false) {w : Work} (hready : WorkReady s w) :
    CoreOk (s.begin w) := by
  obtain ⟨hrelease, hcutting⟩ := s.holdBusy_eq_false_iff.1 hfree
  cases hany : s.queue.any (s.takes w) with
  | true =>
    rw [s.begin_of_any w hany]
    exact h.with_release hcutting hany hready (by have := h.room; simp only; omega)
  | false =>
    rw [s.begin_of_none w hany]
    exact h.complete hrelease hcutting hany hready (Nat.zero_le _)

/-- Finishes and expiries are taken only of a surface that is scanned (R99, R101). -/
theorem CoreOk.takeOrder {s : State} (h : CoreOk s) (hfree : s.holdBusy = false) (o : Order) : CoreOk (s.takeOrder o) := by
  have hready : ∀ (i : SurfaceIx) (w : Work), s.scans[i].state = .scanning → w.surface = some i → w.scanStep = none →
      WorkReady s w := fun i w hi hw hnone =>
    ⟨fun j hj => (by rw [hw] at hj; cases hj; exact hi), fun _ _ _ _ hs => (by rw [hnone] at hs; cases hs),
      fun _ _ _ _ hs => (by rw [hnone] at hs; cases hs)⟩
  cases o with
  | finish i =>
    simp only [State.takeOrder]
    split
    · exact h.begin hfree (hready i _ (beq_iff_eq.1 ‹_›) rfl rfl)
    · exact h
  | stall i =>
    simp only [State.takeOrder]
    split
    · rename_i hi
      exact h.begin hfree (hready i _ (beq_iff_eq.1 (Bool.and_eq_true_iff.1 hi).1) rfl rfl)
    · exact h
  | fullFlush =>
    exact h.begin hfree ⟨fun _ hi => (by cases hi), fun _ _ _ hi => (by cases hi), fun _ _ _ hi => (by cases hi)⟩

/-- Every law but that of the orders is blind to the orders. -/
theorem CoreOk.with_orders {s : State} (h : CoreOk s) (l : List Order) : CoreOk { s with orders := l } := by
  obtain ⟨⟨hout, halone, htakes, hstep, hflushing, hflushed⟩, hcounts, hhold, htables, hreads⟩ := h
  exact ⟨⟨hout, halone, htakes, hstep, hflushing, hflushed⟩, hcounts, hhold, htables, hreads⟩

theorem State.takeOrder_cutting (s : State) (o : Order) : (s.takeOrder o).cutting = s.cutting := by
  rw [State.takeOrder_eq]; rfl

/-- Orders taken by a free hold queue: the laws hold, and orders are left only behind the work that one of them began. -/
theorem CoreOk.takeOrders (l : List Order) {s : State} (h : CoreOk s) (hfree : s.holdBusy = false) :
    CoreOk (State.takeOrders l s) ∧ OrdersBehindWork (State.takeOrders l s) := by
  induction l generalizing s with
  | nil => exact ⟨h.with_orders [], fun _ => rfl⟩
  | cons o os ih =>
    have ho := h.takeOrder hfree o
    simp only [State.takeOrders]
    split
    case isTrue hsome =>
      refine ⟨ho.with_orders os, fun hb => ?_⟩
      rw [(State.holdBusy_eq_false_iff _).1 hb |>.1] at hsome
      cases hsome
    case isFalse hnone =>
      refine ih ho ((State.holdBusy_eq_false_iff _).2 ⟨by simpa using hnone, ?_⟩)
      rw [State.takeOrder_cutting]
      exact (s.holdBusy_eq_false_iff.1 hfree).2

/-- An order is taken by a free hold queue, and waits behind a busy one (R110). -/
theorem CoreOk.order {s : State} (h : CoreOk s) (horders : OrdersBehindWork s) (o : Order) :
    CoreOk (s.order o) ∧ OrdersBehindWork (s.order o) := by
  cases hb : s.holdBusy with
  | true =>
    rw [s.order_of_busy o hb]
    refine ⟨h.with_orders _, fun hfree => ?_⟩
    rw [show State.holdBusy { s with orders := s.orders ++ [o] } = s.holdBusy from rfl, hb] at hfree
    cases hfree
  | false =>
    rw [s.order_of_free o hb]
    refine ⟨h.takeOrder hb o, fun _ => ?_⟩
    rw [State.takeOrder_eq]
    exact horders hb

end Sys2Proof.Machine
end

