-- ==== Sys2Proof/Proofs/Issues.lean ====
section
/-! PROOF. The laws through the handling of a write and through the issue of held entries. -/

namespace Sys2Proof.Machine

/-! Fragments that join -/

/-- A fragment that joins touches the queue, the mark and the held counts. -/
theorem State.join_eq (s : State) (f : Frag) :
    s.join f = { s with
      queue := s.queue ++ [f], highWater := max s.highWater (s.queue.length + 1), apertures := (s.join f).apertures } := by
  obtain ⟨i, row, block, cells, origin, q⟩ := f
  cases origin <;> rfl

theorem State.join_state_fields (s : State) (f : Frag) (a : ApertureIx) :
    (s.join f).apertures[a].state = s.apertures[a].state ∧ (s.join f).apertures[a].fields = s.apertures[a].fields := by
  rw [State.join_apertures_get]
  split <;> exact ⟨rfl, rfl⟩

theorem State.join_held_ge (s : State) (f : Frag) (a : ApertureIx) :
    s.apertures[a].held ≤ (s.join f).apertures[a].held := by
  rw [State.join_apertures_get]
  split
  · exact Nat.le_succ _
  · exact Nat.le_refl _

theorem originCount_singleton (a : ApertureIx) (f : Frag) :
    originCount a [f] = if f.origin = .aperture a then 1 else 0 := by
  by_cases h : f.origin = .aperture a <;> simp [originCount, h]

theorem State.join_held (s : State) (f : Frag) (a : ApertureIx) :
    (s.join f).apertures[a].held = s.apertures[a].held + originCount a [f] := by
  rw [State.join_apertures_get, originCount_singleton]
  split <;> rfl

/-- Changes of held counts alone keep the laws of the tables. -/
theorem TablesOk.with_held {s : State} (h : TablesOk s) {v : Vector Aperture 8}
    (hv : ∀ a : ApertureIx, v[a].state = s.apertures[a].state ∧ v[a].fields = s.apertures[a].fields) :
    TablesOk { s with apertures := v } := by
  obtain ⟨hsurfaces, hapertures, hdisjoint⟩ := (tablesOk_iff s).1 h
  have hof : ∀ a, State.surfaceOf { s with apertures := v } a = s.surfaceOf a := fun a => by
    simp only [State.surfaceOf, (hv a).2]
  refine (tablesOk_iff _).2 ⟨hsurfaces, fun a => ?_, State.disjointClaims_mono hdisjoint (fun _ _ => rfl)
    fun a ha => ⟨?_, (hv a).2.symm, (hof a).symm⟩⟩
  · obtain ⟨hvalid, hdefined, hfits, hview, hwithin, himage⟩ := hapertures a
    rw [hof a]
    obtain ⟨hstate, hfields⟩ := hv a
    exact ⟨by rwa [hfields], fun ho => hdefined (by rwa [← hstate]), fun ho => by rw [hfields]; exact hfits (by rwa [← hstate]),
      fun ho hk => by rw [hfields] at hk ⊢; exact hview (by rwa [← hstate]) hk,
      fun ho hk => by rw [hfields] at hk ⊢; exact hwithin (by rwa [← hstate]) hk, himage⟩
  · rw [State.claims_iff] at ha ⊢
    rwa [← (hv a).1]

/-- A held fragment of the accepted write joins: what was counted as about to join is counted in the queue. -/
theorem CoreOk.join {s : State} {q : Requester} {t : Tag} {p : PendingFrag} {l : List PendingFrag}
    (h : CoreOk { s with writeJob := some (.fragments q t (p :: l)) }) (hp : p.hold = true) :
    CoreOk { s.join p.frag with writeJob := some (.fragments q t l) } := by
  have hheldAll : State.heldAll { s.join p.frag with writeJob := some (.fragments q t l) }
      = State.heldAll { s with writeJob := some (.fragments q t (p :: l)) } := by
    rw [State.join_eq]
    simp [State.heldAll, State.joining, State.todo, hp]
  have hlengths := congrArg List.length hheldAll
  simp only [State.heldAll, List.length_append] at hlengths
  have hstates := s.join_state_fields p.frag
  have hheldGe := s.join_held_ge p.frag
  obtain ⟨hout, halone, -, -, hflushing, hflushed⟩ := h.work
  obtain ⟨hroom, hheld, hmark, hdiscarded, hcount, hlength, huses, hsaving⟩ := h.counts
  obtain ⟨hahead, hbypass, hdraining, hloading, hscanner, htimers, hrun⟩ := h.hold
  have hrelease : s.release = none := by
    cases hr : s.release with
    | none => rfl
    | some rel => cases halone (by show s.release.isSome = true; rw [hr]; rfl)
  have hqueue : s.queue.length + 1 ≤ Config.holdCapacity := by
    have hjoined := congrArg List.length (s.join_queue p.frag)
    rw [List.length_append, List.length_singleton] at hjoined
    change (s.join p.frag).queue.length + _ = s.queue.length + _ at hlengths
    change s.queue.length + _ + _ ≤ _ at hroom
    omega
  have hcounts : CountsOk { s.join p.frag with writeJob := some (.fragments q t l) } := by
    rw [State.join_eq] at hlengths ⊢
    refine ⟨?_, fun a => ?_, Nat.max_le.2 ⟨hmark, hqueue⟩, hdiscarded, hcount, hlength, huses, hsaving⟩
    · exact hlengths ▸ hroom
    · show (s.join p.frag).apertures[a].held = originCount a (s.queue ++ [p.frag])
      rw [State.join_held, originCount_append, show s.apertures[a].held = originCount a s.queue from hheld a]
  have hhold : HoldOk { s.join p.frag with writeJob := some (.fragments q t l) } := by
    rw [State.join_eq] at hheldAll ⊢
    refine ⟨fun f hf => hahead f (hheldAll ▸ hf), fun hm => (by cases (hbypass hm).2.2.1), fun hw a ha => ?_,
      fun n hn => ⟨(hloading n hn).1, fun a => ?_⟩, hscanner, htimers, hrun⟩
    · exact Nat.lt_of_lt_of_le (hdraining hw a ((hstates a).1.symm.trans ha)) (hheldGe a)
    · show (s.join p.frag).apertures[a].state ≠ _ ∧ (_ → (s.join p.frag).apertures[a].state = _)
      rw [(hstates a).1]
      exact (hloading n hn).2 a
  have htables : TablesOk { s.join p.frag with writeJob := some (.fragments q t l) } := by
    rw [State.join_eq]
    exact TablesOk.with_held h.tables hstates
  refine ⟨?_, hcounts, hhold, htables, ?_⟩
  · rw [State.join_eq]
    refine ⟨fun hw => (by cases (hout hw).2.1), fun _ => (by simp [hrelease] at *), fun rel hr => ?_, ?_,
      fun hf => (by cases hflushing hf), fun hf => (by cases (hflushed hf).1)⟩
    · cases hrelease.symm.trans hr
    · simp only [State.stepOk, hrelease]
  · rw [State.join_eq]
    exact h.reads

/-- The handling of an accepted write (R60): its held fragments join up to the first one that is issued directly, and behind
the last one the waiting orders are taken. -/
theorem CoreOk.handle {q : Requester} {t : Tag} (l : List PendingFrag) {s : State}
    (h : CoreOk { s with writeJob := some (.fragments q t l) }) :
    CoreOk (State.handle q t l s) ∧ HeadDirect (State.handle q t l s) ∧ OrdersBehindWork (State.handle q t l s) := by
  induction l generalizing s with
  | nil =>
    obtain ⟨hout, halone, -, -, -, -⟩ := h.work
    have hrelease : s.release = none := by
      cases hr : s.release with
      | none => rfl
      | some rel => cases halone (by show s.release.isSome = true; rw [hr]; rfl)
    have hanswered : CoreOk (s.answerWrite q t .okay) := by
      refine ⟨⟨fun hw => ?_, fun hr => ?_, fun rel hr => ?_, ?_, fun _ => rfl, fun hf => ⟨rfl, (h.work.flushed hf).2⟩⟩,
        h.counts, h.hold, h.tables, h.reads⟩
      · cases (hout hw).2.1
      · rfl
      · cases hrelease.symm.trans hr
      · simp only [State.stepOk, State.answerWrite_release, hrelease]
    have hfree : (s.answerWrite q t .okay).holdBusy = false :=
      (State.holdBusy_eq_false_iff _).2 ⟨hrelease, rfl⟩
    obtain ⟨hcore, horders⟩ := hanswered.takeOrders s.orders hfree
    refine ⟨hcore, fun p hp => ?_, horders⟩
    have hjob : (State.handle q t [] s).writeJob = none := by
      rw [State.handle, State.takeOrders_eq]; rfl
    rw [State.todo, hjob] at hp
    cases hp
  | cons p ps ih =>
    cases hp : p.hold with
    | true =>
      rw [State.handle, if_pos hp]
      exact ih (h.join hp)
    | false =>
      rw [State.handle, if_neg (by rw [hp]; decide)]
      refine ⟨h, fun p' hp' => ?_, fun hb => ?_⟩
      · cases hp'; exact hp
      · cases ((State.holdBusy_eq_false_iff _).1 hb).2

/-! Held entries that leave -/

/-- Whether the issue of one more entry of aperture `a` ends its draining (R27). -/
abbrev State.drains (s : State) (a : ApertureIx) : Prop := s.apertures[a].state = .draining ∧ s.apertures[a].held - 1 = 0

theorem State.leaves_of_backing (s : State) (w : Work) {f : Frag} (h : f.origin = .backing) :
    s.leaves w f = { s with queue := s.queue.eraseP (s.takes w) } := by
  obtain ⟨i, row, block, cells, origin, q⟩ := f
  subst h
  rfl

theorem State.leaves_of_drains (s : State) (w : Work) {f : Frag} {a : ApertureIx} (h : f.origin = .aperture a)
    (hd : s.drains a) :
    s.leaves w f = State.raise { s with
      queue := s.queue.eraseP (s.takes w)
      apertures := s.apertures.set a { s.apertures[a] with state := .closed, held := s.apertures[a].held - 1 }
      release := s.release.map fun rel => { rel with origins := rel.origins.filter (· != a) } }
      (closedEvent a .closeDrained (some s.scans[f.surface].frame)) := by
  obtain ⟨i, row, block, cells, origin, q⟩ := f
  subst h
  obtain ⟨hstate, hheld⟩ := hd
  simp only [Fin.getElem_fin] at hstate hheld
  simp [State.leaves, State.countHeld, State.closeAperture, State.setAperture, hstate, hheld]

theorem State.leaves_of_aperture (s : State) (w : Work) {f : Frag} {a : ApertureIx} (h : f.origin = .aperture a)
    (hd : ¬ s.drains a) :
    s.leaves w f = { s with
      queue := s.queue.eraseP (s.takes w)
      apertures := s.apertures.set a { s.apertures[a] with held := s.apertures[a].held - 1 } } := by
  obtain ⟨i, row, block, cells, origin, q⟩ := f
  subst h
  simp only [State.drains, Fin.getElem_fin] at hd
  simp [State.leaves, State.countHeld, State.setAperture]
  tauto

/-- An entry just issued touches the queue, the apertures, the release and the events. -/
theorem State.leaves_eq (s : State) (w : Work) (f : Frag) :
    s.leaves w f = { s with
      queue := s.queue.eraseP (s.takes w), apertures := (s.leaves w f).apertures, release := (s.leaves w f).release
      events := (s.leaves w f).events, seqCounter := (s.leaves w f).seqCounter } := by
  cases ho : f.origin with
  | backing => rw [s.leaves_of_backing w ho]
  | aperture a =>
    by_cases hd : s.drains a
    · rw [s.leaves_of_drains w ho hd]; rfl
    · rw [s.leaves_of_aperture w ho hd]

/-- The counts, the lifecycle and the event that the issue of an entry leaves (R24, R27, R28). -/
theorem State.leaves_entryLeaves (s : State) (w : Work) (f : Frag) : EntryLeaves s (s.leaves w f) f := by
  refine ⟨fun ho => ?_, fun a ho => ?_⟩
  · rw [s.leaves_of_backing w ho]; exact ⟨rfl, rfl, rfl⟩
  · by_cases hd : s.drains a
    · rw [s.leaves_of_drains w ho hd, if_pos hd]
      exact ⟨rfl, fun _ => ⟨rfl, rfl⟩, fun hn => absurd hd hn⟩
    · rw [s.leaves_of_aperture w ho hd, if_neg hd]
      exact ⟨rfl, fun hp => absurd hp hd, fun _ => ⟨rfl, rfl⟩⟩

/-- The release that goes on counts the entry for its aperture, unless that has just been closed. -/
theorem State.leaves_release (s : State) (w : Work) (f : Frag) {rel : Release} (h : s.release = some rel) :
    (s.leaves w f).release = some ⟨rel.work, rel.issued, match f.origin with
      | .backing => rel.origins
      | .aperture a => if s.drains a then rel.origins.filter (· != a) else rel.origins⟩ := by
  cases ho : f.origin with
  | backing => rw [s.leaves_of_backing w ho]; exact h
  | aperture a =>
    by_cases hd : s.drains a
    · rw [s.leaves_of_drains w ho hd, State.raise_release, h]; simp only [if_pos hd]; rfl
    · rw [s.leaves_of_aperture w ho hd]; simp only [if_neg hd]; exact h

/-- Which entry an issue takes: the oldest one that the work takes, so the queue keeps the others in their order. -/
theorem State.find_takes (s : State) {w : Work} {older newer : List Frag} {f : Frag} (hqueue : s.queue = older ++ f :: newer)
    (holder : ∀ g ∈ older, s.takes w g = false) (hf : s.takes w f = true) :
    s.queue.find? (s.takes w) = some f ∧ s.queue.eraseP (s.takes w) = older ++ newer := by
  have holder' : ∀ g ∈ older, ¬ s.takes w g = true := fun g hg => by simp [holder g hg]
  rw [hqueue]
  refine ⟨List.find?_eq_some_iff_append.2 ⟨hf, older, newer, rfl, fun g hg => by simp [holder g hg]⟩, ?_⟩
  rw [List.eraseP_append_right _ holder', List.eraseP_cons_of_pos hf]

/-- Apertures after the issue of an entry: the state, the held count and the fields of each. -/
theorem EntryLeaves.aperture {s v : State} {f : Frag} (h : EntryLeaves s v f) (a : ApertureIx) :
    v.apertures[a].fields = s.apertures[a].fields
    ∧ v.apertures[a].held = s.apertures[a].held - originCount a [f]
    ∧ (v.apertures[a].state = s.apertures[a].state ∨ v.apertures[a].state = .closed)
    ∧ (v.apertures[a].state = .draining → 0 < s.apertures[a].held → 0 < v.apertures[a].held) := by
  obtain ⟨hbacking, haperture⟩ := h
  rw [originCount_singleton]
  cases ho : f.origin with
  | backing =>
    rw [(hbacking ho).1]
    exact ⟨rfl, (by simp), .inl rfl, fun _ hp => hp⟩
  | aperture b =>
    obtain ⟨hset, -, -⟩ := haperture b ho
    by_cases hab : b = a
    · subst hab
      simp only [hset, Fin.getElem_fin, Vector.getElem_set_self, if_true]
      refine ⟨trivial, trivial, ?_, fun hd _ => ?_⟩
      · split
        · exact .inr rfl
        · exact .inl rfl
      · split at hd
        · cases hd
        · rename_i hstays
          exact Nat.pos_of_ne_zero fun hzero => hstays ⟨hd, hzero⟩
    · have hne : b.val ≠ a.val := fun he => hab (Fin.ext he)
      simp [hset, Fin.getElem_fin, Vector.getElem_set_ne _ _ hne, hab]

theorem EntryLeaves.events_length_le {s v : State} {f : Frag} (h : EntryLeaves s v f)
    (hs : s.events.length ≤ Config.eventCapacity) : v.events.length ≤ Config.eventCapacity := by
  obtain ⟨hbacking, haperture⟩ := h
  cases ho : f.origin with
  | backing => rw [(hbacking ho).2.1]; exact hs
  | aperture a =>
    obtain ⟨-, hdrains, hstays⟩ := haperture a ho
    by_cases hd : s.drains a
    · rw [(hdrains hd).2]; exact s.raise_events_length_le _ hs
    · rw [(hstays hd).2]; exact hs

theorem originCount_remove (a : ApertureIx) (older newer : List Frag) (f : Frag) :
    originCount a (older ++ newer) = originCount a (older ++ f :: newer) - originCount a [f] := by
  rw [← List.singleton_append (l := newer)]
  simp only [originCount_append]
  omega

/-- Apertures that close, or whose held counts fall, keep the laws of the tables. -/
theorem TablesOk.with_closed {s : State} (h : TablesOk s) {v : Vector Aperture 8}
    (hv : ∀ a : ApertureIx, v[a].fields = s.apertures[a].fields
      ∧ (v[a].state = s.apertures[a].state ∨ v[a].state = .closed)) :
    TablesOk { s with apertures := v } := by
  obtain ⟨hsurfaces, hapertures, hdisjoint⟩ := (tablesOk_iff s).1 h
  have hof : ∀ a, State.surfaceOf { s with apertures := v } a = s.surfaceOf a := fun a => by
    simp only [State.surfaceOf, (hv a).1]
  have hopen : ∀ a : ApertureIx, v[a].state ≠ .closed → s.apertures[a].state ≠ .closed := fun a ha => by
    rw [← (hv a).2.resolve_right ha]; exact ha
  refine (tablesOk_iff _).2 ⟨hsurfaces, fun a => ?_, State.disjointClaims_mono hdisjoint (fun _ _ => rfl)
    fun a ha => ⟨(s.claims_iff a).2 (hopen a ((State.claims_iff _ a).1 ha)), (hv a).1.symm, (hof a).symm⟩⟩
  obtain ⟨hvalid, hdefined, hfits, hview, hwithin, himage⟩ := hapertures a
  have hfields := (hv a).1
  rw [hof a]
  exact ⟨by rwa [hfields], fun ho => hdefined (hopen a ho), fun ho => by rw [hfields]; exact hfits (hopen a ho),
    fun ho hk => by rw [hfields] at hk ⊢; exact hview (hopen a ho) hk,
    fun ho hk => by rw [hfields] at hk ⊢; exact hwithin (hopen a ho) hk, himage⟩

theorem CoreOk.workReady {s : State} (h : CoreOk s) {rel : Release} (hrel : s.release = some rel) :
    WorkReady s rel.work := by
  obtain ⟨f, hf, ht⟩ := List.any_eq_true.1 (h.work.takes rel hrel)
  have hstep := h.work.step
  obtain ⟨work, issued, origins⟩ := rel
  rw [State.stepOk, hrel] at hstep
  refine ⟨fun i hi => ?_, fun i e d hi he => ?_, fun i e d hi he => ?_⟩
  · rw [← s.surface_of_takes ht hi]; exact h.scanning_of_held hf
  · cases work <;> cases hi <;> cases he <;> exact (Bool.and_eq_true_iff.1 hstep).1
  · cases work <;> cases hi <;> cases he <;> exact (Bool.and_eq_true_iff.1 hstep).2

/-- An entry of the release in progress has left: until the release goes on or is completed, no work is in progress. -/
theorem CoreOk.leaves {s v : State} (h : CoreOk s) {rel : Release} (hrel : s.release = some rel) {older newer : List Frag}
    {f : Frag} (hqueue : s.queue = older ++ f :: newer) (hleaves : EntryLeaves s v f)
    (hv : v = { s with
      queue := older ++ newer, release := none, outstanding := v.outstanding, apertures := v.apertures
      events := v.events, seqCounter := v.seqCounter }) : CoreOk v := by
  have hf : f ∈ s.queue := by rw [hqueue]; simp
  have hsub : ∀ g ∈ older ++ newer, g ∈ s.queue := by rw [hqueue]; simp; tauto
  have hworking := h.working_of_held hf
  have hcutting : s.cutting = false := h.work.alone (by rw [hrel]; rfl)
  have haperture := hleaves.aperture
  have hevents := hleaves.events_length_le h.events_length_le
  obtain ⟨-, -, -, -, hflushing, hflushed⟩ := h.work
  obtain ⟨hroom, hheld, hmark, hdiscarded, hcount, -, huses, hsaving⟩ := h.counts
  obtain ⟨hahead, -, hdraining, -, hscanner, htimers, hrun⟩ := h.hold
  have htables : TablesOk v := by
    rw [hv]
    exact h.tables.with_closed fun a => ⟨(haperture a).1, (haperture a).2.2.1⟩
  have hreads := h.reads
  refine ⟨?_, ?_, ?_, htables, by rw [hv]; exact hreads⟩
  · rw [hv]
    exact ⟨fun hw => absurd hworking (by rw [show s.working = false from hw]; decide), fun _ => hcutting,
      fun rel' hr => (by cases hr), rfl, hflushing, fun hc => absurd ((hflushed hc).2 ▸ hf) List.not_mem_nil⟩
  · have hlength : (older ++ newer).length ≤ s.queue.length := by rw [hqueue]; simp
    rw [hv]
    refine ⟨?_, fun a => ?_, hmark, hdiscarded, hcount, hevents, huses, hsaving⟩
    · show (older ++ newer).length + s.joining.length + 0 ≤ _
      omega
    · show v.apertures[a].held = originCount a (older ++ newer)
      rw [(haperture a).2.1, hheld a, hqueue]
      exact (originCount_remove a older newer f).symm
  · have hengaged := h.engaged_of_held hf
    have hload := State.loadNext_of_working hworking
    rw [hv]
    refine ⟨fun g hg => ?_, fun hm => absurd hm hengaged, fun hw a ha => ?_,
      fun n hn => absurd (hn.symm.trans hload) (Option.some_ne_none n), hscanner, htimers, hrun⟩
    · have hmem : g ∈ s.heldAll := by
        obtain hg | hg := List.mem_append.1 hg
        · exact List.mem_append_left _ (hsub g hg)
        · exact List.mem_append_right _ hg
      exact hahead g hmem
    · change v.apertures[a].state = .draining at ha
      have hstate := (haperture a).2.2.1.resolve_right (by rw [ha]; decide)
      exact (haperture a).2.2.2 ha (hdraining hw a (hstate ▸ ha))

/-! The issue of a held entry (R117) -/

/-- The work in progress, when it has issued one more entry. -/
def Release.count (rel : Release) (o : Origin) : Release :=
  { rel with issued := rel.issued + 1, origins := addOrigin o rel.origins }

/-- The state in which the memory controller has taken entry `f` and the entry has left the queue. -/
def State.afterIssue (s : State) (rel : Release) (f : Frag) : State :=
  State.leaves { s with release := some (rel.count f.origin), outstanding := s.outstanding ++ [DsWrite.fragment f] } rel.work f

/-- With entries left to take the release goes on; with the last one the work is completed and the orders are taken. -/
theorem State.issueHeld_of_takes (s : State) (rel : Release) {older newer : List Frag} {f : Frag}
    (hqueue : s.queue = older ++ f :: newer) (holder : ∀ g ∈ older, s.takes rel.work g = false)
    (hf : s.takes rel.work f = true) :
    (s.afterIssue rel f).queue = older ++ newer
    ∧ s.issueHeld rel =
      if newer.any (s.takes rel.work) = true then s.afterIssue rel f
      else State.takeOrders s.orders ((s.afterIssue rel f).complete (rel.count f.origin)) := by
  obtain ⟨hfind, herase⟩ := s.find_takes hqueue holder hf
  have hafter : s.afterIssue rel f = { s with
      release := (s.afterIssue rel f).release, outstanding := s.outstanding ++ [DsWrite.fragment f], queue := older ++ newer
      apertures := (s.afterIssue rel f).apertures, events := (s.afterIssue rel f).events
      seqCounter := (s.afterIssue rel f).seqCounter } := by
    rw [← herase]
    exact State.leaves_eq _ _ _
  have hqueue' : (s.afterIssue rel f).queue = older ++ newer := by rw [hafter]
  have hany : (s.afterIssue rel f).queue.any ((s.afterIssue rel f).takes rel.work) = newer.any (s.takes rel.work) := by
    have hnone : older.any (s.takes rel.work) = false := by simpa using holder
    rw [hafter, show ∀ u : State, u.scans = s.scans → u.takes rel.work = s.takes rel.work from fun u hu => by
      funext g; cases rel.work <;> simp only [State.takes, hu]]
    · rw [List.any_append, hnone, Bool.false_or]
    · rfl
  refine ⟨hqueue', ?_⟩
  rw [State.issueHeld, hfind]
  show (if (s.afterIssue rel f).queue.any ((s.afterIssue rel f).takes rel.work) = true then s.afterIssue rel f
    else State.takeOrders ((s.afterIssue rel f).complete (rel.count f.origin)).orders
      ((s.afterIssue rel f).complete (rel.count f.origin))) = _
  rw [hany, State.complete_eq]
  rw [hafter]

/-- `EntryLeaves` asks neither for the release nor for the writes in flight. -/
theorem State.afterIssue_entryLeaves (s : State) (rel : Release) (f : Frag) : EntryLeaves s (s.afterIssue rel f) f :=
  State.leaves_entryLeaves _ rel.work f

theorem State.afterIssue_eq (s : State) (rel : Release) {older newer : List Frag} {f : Frag}
    (hqueue : s.queue = older ++ f :: newer) (holder : ∀ g ∈ older, s.takes rel.work g = false)
    (hf : s.takes rel.work f = true) :
    s.afterIssue rel f = { s with
      outstanding := s.outstanding ++ [DsWrite.fragment f], queue := older ++ newer
      release := (s.afterIssue rel f).release, apertures := (s.afterIssue rel f).apertures
      events := (s.afterIssue rel f).events, seqCounter := (s.afterIssue rel f).seqCounter } := by
  rw [← (s.find_takes hqueue holder hf).2]
  exact State.leaves_eq _ _ _

/-- The release of `afterIssue`: the count of `Release.count`, without the aperture that the issue closed. -/
theorem State.afterIssue_release (s : State) (rel : Release) (f : Frag) :
    (s.afterIssue rel f).release = some ⟨rel.work, rel.issued + 1, match f.origin with
      | .backing => rel.origins
      | .aperture a => if s.drains a then rel.origins.filter (· != a) else a :: rel.origins⟩ := by
  rw [State.afterIssue, State.leaves_release _ rel.work f rfl]
  cases ho : f.origin with
  | backing => rfl
  | aperture a =>
    simp only [Release.count, addOrigin]
    by_cases hd : s.drains a
    · rw [if_pos hd, if_pos (show State.drains _ a from hd)]; simp
    · rw [if_neg hd, if_neg (show ¬ State.drains _ a from hd)]

/-- With the completion of a work its release is over, whatever it was. -/
theorem State.complete_without_release (s : State) (rel : Release) :
    s.complete rel = State.complete { s with release := none } rel := rfl

theorem State.exists_oldest_taken {s : State} {w : Work} (h : s.queue.any (s.takes w) = true) :
    ∃ older f newer, s.queue = older ++ f :: newer ∧ (∀ g ∈ older, s.takes w g = false) ∧ s.takes w f = true := by
  cases hfind : s.queue.find? (s.takes w) with
  | none =>
    obtain ⟨g, hg, htakes⟩ := List.any_eq_true.1 h
    exact absurd htakes (List.find?_eq_none.1 hfind g hg)
  | some f =>
    obtain ⟨hf, older, newer, hqueue, holder⟩ := List.find?_eq_some_iff_append.1 hfind
    exact ⟨older, f, newer, hqueue, fun g hg => by simpa using holder g hg, hf⟩

/-- The issue of a held entry keeps the laws, and orders are left only behind work in progress. -/
theorem CoreOk.issueHeld {s : State} (h : CoreOk s) {rel : Release} (hrel : s.release = some rel) :
    CoreOk (s.issueHeld rel) ∧ OrdersBehindWork (s.issueHeld rel) := by
  obtain ⟨older, f, newer, hqueue, holder, hf⟩ := State.exists_oldest_taken (h.work.takes rel hrel)
  have hcutting : s.cutting = false := h.work.alone (by rw [hrel]; rfl)
  have hready := h.workReady hrel
  have hafter := s.afterIssue_eq rel hqueue holder hf
  have hleft : CoreOk { s.afterIssue rel f with release := none } :=
    h.leaves hrel hqueue (s.afterIssue_entryLeaves rel f) (by rw [hafter])
  have hready' : WorkReady { s.afterIssue rel f with release := none } rel.work := by
    rw [hafter]; exact ⟨hready.scanning, hready.row, hready.awaits⟩
  have hcutting' : State.cutting { s.afterIssue rel f with release := none } = false := by rw [hafter]; exact hcutting
  have htakes : State.takes { s.afterIssue rel f with release := none } rel.work = s.takes rel.work := by
    rw [hafter]; funext g; cases rel.work <;> rfl
  have hissued : older.length + newer.length + (rel.issued + 1) ≤ Config.holdCapacity := by
    have hroom := h.room
    rw [State.releasedCount, hrel, hqueue] at hroom
    simp only [List.length_append, List.length_cons] at hroom
    omega
  obtain ⟨hqueue', hissue⟩ := s.issueHeld_of_takes rel hqueue holder hf
  rw [hissue]
  split
  case isTrue hany =>
    have hrelease := s.afterIssue_release rel f
    refine ⟨?_, fun hfree => by rw [((State.holdBusy_eq_false_iff _).1 hfree).1] at hrelease; cases hrelease⟩
    have hself : ({ ({ s.afterIssue rel f with release := none } : State) with release := (s.afterIssue rel f).release } : State)
      = s.afterIssue rel f := rfl
    rw [← hself, hrelease]
    refine hleft.with_release hcutting' ?_ hready' ?_
    · show (s.afterIssue rel f).queue.any _ = true
      rw [hqueue', List.any_append, Bool.or_eq_true]
      exact .inr (htakes ▸ hany)
    · show (s.afterIssue rel f).queue.length + (rel.issued + 1) ≤ _
      rw [hqueue', List.length_append]
      exact hissued
  case isFalse hnone =>
    have hcomplete : CoreOk ((s.afterIssue rel f).complete (rel.count f.origin)) := by
      rw [State.complete_without_release]
      refine hleft.complete rfl hcutting' ?_ hready' ?_
      · show (s.afterIssue rel f).queue.any _ = false
        rw [hqueue', List.any_append, Bool.or_eq_false_iff]
        refine ⟨?_, ?_⟩
        · simpa [Release.count, htakes] using holder
        · simpa [Release.count, htakes] using hnone
      · show rel.issued + 1 ≤ _
        omega
    refine hcomplete.takeOrders s.orders ((State.holdBusy_eq_false_iff _).2 ⟨State.complete_release _ _, ?_⟩)
    rw [State.complete_eq]
    exact hcutting'

end Sys2Proof.Machine
end

