-- ==== Sys2Proof/Proofs/Formed.lean ====
section
/-! PROOF. Which requests stay formed (R39): what the operations of the hold queue leave of the entries in ISSUING and of the
work in progress. -/

namespace Sys2Proof.Machine

/-! Entries in ISSUING -/

/-- Whether entry `e` has fragment reads to issue. -/
def State.issuing (s : State) (e : EntryIx) : Bool := s.entryIs (·.state == .issuing) e

theorem State.issuingEntry_eq (s : State) : s.issuingEntry = s.taken.find? s.issuing := rfl

theorem State.issuing_iff (s : State) (e : EntryIx) : s.issuing e = true ↔ ∃ en, s.table[e] = some en ∧ en.state = .issuing := by
  unfold State.issuing State.entryIs
  cases s.table[e] <;> simp

/-- An update of an entry that keeps its state keeps which entries are in ISSUING. -/
theorem State.setEntry_issuing (s : State) {e : EntryIx} {en en' : Entry} (he : s.table[e] = some en)
    (hstate : en'.state = en.state) : (s.setEntry e (some en')).issuing = s.issuing := by
  funext d
  unfold State.issuing State.entryIs
  rw [State.setEntry_table_get]
  by_cases hd : e = d
  · subst hd; rw [if_pos rfl, he]; simp [hstate]
  · rw [if_neg hd]

theorem State.formScanner_issuing (s : State) (i : SurfaceIx) (e : EntryIx) : (s.formScanner i e).issuing = s.issuing := by
  cases he : s.table[e] with
  | none => rw [s.formScanner_of_none i he]
  | some en => rw [s.formScanner_of_some i he]; exact s.setEntry_issuing he rfl

theorem State.issuing_of_table {s t : State} (h : t.table = s.table) : t.issuing = s.issuing := by
  funext e
  unfold State.issuing State.entryIs
  rw [h]

theorem State.issuingEntry_of_table {s t : State} (htaken : t.taken = s.taken) (htable : t.table = s.table) :
    t.issuingEntry = s.issuingEntry := by
  rw [State.issuingEntry_eq, State.issuingEntry_eq, htaken, State.issuing_of_table htable]

theorem State.complete_issuing (s : State) (rel : Release) : (s.complete rel).issuing = s.issuing := by
  obtain ⟨work, issued, origins⟩ := rel
  cases work with
  | step i e d => exact State.formScanner_issuing _ i e
  | restart i e d =>
    simp only [State.complete]
    split
    · rfl
    · rw [State.formScanner_issuing, State.openFrame_eq]; rfl
  | finish i | stall i => rfl
  | fullFlush => simp only [State.complete]; split <;> rfl

theorem State.begin_issuing (s : State) (w : Work) : (s.begin w).issuing = s.issuing := by
  unfold State.begin
  split
  · rfl
  · exact s.complete_issuing _

theorem State.takeOrder_issuing (s : State) (o : Order) : (s.takeOrder o).issuing = s.issuing := by
  cases o with
  | finish i | stall i =>
    simp only [State.takeOrder]
    split
    · exact s.begin_issuing _
    · rfl
  | fullFlush => exact s.begin_issuing _

theorem State.takeOrders_issuing (l : List Order) (s : State) : (State.takeOrders l s).issuing = s.issuing := by
  induction l generalizing s with
  | nil => rfl
  | cons o os ih =>
    simp only [State.takeOrders]
    split
    · exact s.takeOrder_issuing o
    · rw [ih, s.takeOrder_issuing o]

theorem State.order_issuing (s : State) (o : Order) : (s.order o).issuing = s.issuing := by
  unfold State.order
  split
  · rfl
  · exact s.takeOrder_issuing o

/-! The work that a release serves -/

/-- The scan step that the release in progress serves. -/
def State.stepEntry (s : State) : Option (EntryIx × Nat) := s.release.bind (·.work.scanStep)

theorem State.stepPending_iff (s : State) (e : EntryIx) : s.stepPending e = true ↔ ∃ d, s.stepEntry = some (e, d) := by
  unfold State.stepPending State.stepEntry
  cases s.release with
  | none => simp
  | some rel =>
    obtain ⟨work, issued, origins⟩ := rel
    cases work <;> simp [Work.scanStep]

theorem State.begin_release (s : State) (w : Work) :
    (s.begin w).release = if s.queue.any (s.takes w) = true then some ⟨w, 0, []⟩ else none := by
  unfold State.begin
  split
  · rfl
  · exact s.complete_release _

/-- A work without a scan step begins. -/
theorem State.begin_stepEntry (s : State) {w : Work} (hw : w.scanStep = none) : (s.begin w).stepEntry = none := by
  unfold State.stepEntry
  rw [State.begin_release]
  split
  · exact hw
  · rfl

theorem State.takeOrder_stepEntry (s : State) (o : Order) (h : s.stepEntry = none) : (s.takeOrder o).stepEntry = none := by
  cases o with
  | finish i | stall i =>
    simp only [State.takeOrder]
    split
    · exact s.begin_stepEntry rfl
    · exact h
  | fullFlush => exact s.begin_stepEntry rfl

theorem State.takeOrders_stepEntry (l : List Order) (s : State) (h : s.stepEntry = none) :
    (State.takeOrders l s).stepEntry = none := by
  induction l generalizing s with
  | nil => exact h
  | cons o os ih =>
    simp only [State.takeOrders]
    split
    · exact s.takeOrder_stepEntry o h
    · exact ih _ (s.takeOrder_stepEntry o h)

/-! Requests that stay formed -/

theorem State.formed_writeChannel_iff (s : State) : s.formed .writeChannel = true ↔ s.writeJob ≠ none := by
  simp [State.formed, Option.isSome_iff_ne_none]

theorem State.formed_holdQueue_iff (s : State) : s.formed .holdQueue = true ↔ s.release ≠ none := by
  simp [State.formed, Option.isSome_iff_ne_none]

theorem State.readToIssue_eq_some_iff (s : State) (e : EntryIx) :
    s.readToIssue = some e ↔ s.issuingEntry = some e ∧ s.stepPending e = false := by
  unfold State.readToIssue
  cases s.issuingEntry with
  | none => simp
  | some d =>
    simp only [Option.some.injEq]
    by_cases h : s.stepPending d = true
    · rw [if_pos h]
      constructor
      · intro hn; cases hn
      · rintro ⟨rfl, hn⟩; rw [h] at hn; cases hn
    · rw [if_neg h]
      constructor
      · intro hs; cases hs; exact ⟨rfl, Bool.eq_false_iff.2 h⟩
      · rintro ⟨rfl, -⟩; rfl

theorem State.formed_readTracker_iff (s : State) :
    s.formed .readTracker = true ↔ ∃ e, s.issuingEntry = some e ∧ s.stepPending e = false := by
  rw [State.formed, Option.isSome_iff_exists]
  exact exists_congr s.readToIssue_eq_some_iff

/-- The read tracker's request stays formed while the entries in ISSUING are the same and no scan step has begun. -/
theorem State.formed_readTracker_mono {s t : State} (htaken : t.taken = s.taken) (hissuing : t.issuing = s.issuing)
    (hstep : t.stepEntry = s.stepEntry ∨ t.stepEntry = none) (h : s.formed .readTracker = true) :
    t.formed .readTracker = true := by
  rw [State.formed_readTracker_iff] at h ⊢
  obtain ⟨e, he, hpending⟩ := h
  refine ⟨e, by rwa [State.issuingEntry_eq, htaken, hissuing], Bool.eq_false_iff.2 fun hp => ?_⟩
  obtain ⟨d, hd⟩ := (State.stepPending_iff t e).1 hp
  obtain hs | hn := hstep
  · rw [(s.stepPending_iff e).2 ⟨d, hs ▸ hd⟩] at hpending; cases hpending
  · rw [hn] at hd; cases hd

/-! The law of the port within a command -/

/-- Updates under which every request that stands at the port stays formed. -/
theorem PortFormed.mono {s t : State} (h : PortFormed s) (hhanded : t.handed = s.handed)
    (hformed : ∀ b, s.formed b = true → t.formed b = true) : PortFormed t := by
  obtain ⟨hport, hnodup, hgroups⟩ := h
  refine ⟨fun b hb => hformed b (hport b ?_), by rwa [hhanded], by rwa [hhanded]⟩
  rwa [State.isHanded, hhanded] at hb

/-- The issue of a block's request, under which the other requests at the port stay formed. -/
theorem PortFormed.pass {s t : State} (h : PortFormed s) (b : Former) (hhanded : t.handed = (s.passRequest b).handed)
    (hformed : ∀ c, c ≠ b → s.formed c = true → t.formed c = true) : PortFormed t := by
  obtain ⟨hport, hnodup, hgroups⟩ := h
  refine ⟨fun c hc => ?_, by rw [hhanded]; exact s.passRequest_nodup b hnodup, by rw [hhanded]; exact s.passRequest_ne_nil b⟩
  rw [State.isHanded, hhanded] at hc
  obtain ⟨hc, hne⟩ := (s.passRequest_isHanded b c).1 hc
  exact hformed c hne (hport c hc)

/-- An order keeps every request formed. -/
theorem State.order_formed (s : State) (o : Order) (b : Former) (h : s.formed b = true) : (s.order o).formed b = true := by
  cases b with
  | writeChannel =>
    rw [State.formed_writeChannel_iff] at h ⊢
    rwa [State.order_eq]
  | holdQueue =>
    rw [State.formed_holdQueue_iff] at h ⊢
    rwa [s.order_of_busy o]
    cases hb : s.holdBusy with
    | true => rfl
    | false => exact absurd (s.holdBusy_eq_false_iff.1 hb).1 h
  | readTracker =>
    refine State.formed_readTracker_mono (by rw [State.order_eq]) (s.order_issuing o) ?_ h
    cases hb : s.holdBusy with
    | true => rw [s.order_of_busy o hb]; exact .inl rfl
    | false =>
      rw [s.order_of_free o hb]
      refine .inr (s.takeOrder_stepEntry o ?_)
      rw [State.stepEntry, (s.holdBusy_eq_false_iff.1 hb).1]; rfl

end Sys2Proof.Machine
end

