-- ==== Sys2Proof/Proofs/Keeping.lean ====
section
/-! PROOF. Commands that form no request and issue none: what they keep of the work in progress, and with it the laws of the
port; and the laws through what the management commands carry out. -/

namespace Sys2Proof.Machine

/-! Commands that leave the requests as they are -/

/-- `t` has the requests of `s`: those at the port, and what the forming blocks have in hand. -/
structure SameRequests (s t : State) : Prop where
  handed : t.handed = s.handed
  writeJob : t.writeJob = s.writeJob
  orders : t.orders = s.orders
  issuing : t.issuingEntry = s.issuingEntry
  work : t.release.map (·.work) = s.release.map (·.work)

theorem SameRequests.refl (s : State) : SameRequests s s := ⟨rfl, rfl, rfl, rfl, rfl⟩

theorem SameRequests.trans {s t u : State} (h : SameRequests s t) (h' : SameRequests t u) : SameRequests s u :=
  ⟨h'.handed.trans h.handed, h'.writeJob.trans h.writeJob, h'.orders.trans h.orders, h'.issuing.trans h.issuing,
    h'.work.trans h.work⟩

theorem SameRequests.release_eq_none_iff {s t : State} (h : SameRequests s t) : t.release = none ↔ s.release = none := by
  rw [← Option.map_eq_none_iff (f := (·.work)), h.work, Option.map_eq_none_iff]

theorem State.stepEntry_eq (s : State) : s.stepEntry = (s.release.map (·.work)).bind Work.scanStep := by
  unfold State.stepEntry
  cases s.release <;> rfl

theorem SameRequests.formed {s t : State} (h : SameRequests s t) (b : Former) : t.formed b = s.formed b := by
  rw [Bool.eq_iff_iff]
  cases b with
  | writeChannel => rw [State.formed_writeChannel_iff, State.formed_writeChannel_iff, h.writeJob]
  | holdQueue => rw [State.formed_holdQueue_iff, State.formed_holdQueue_iff, ne_eq, ne_eq, h.release_eq_none_iff]
  | readTracker =>
    have hpending : ∀ e, t.stepPending e = s.stepPending e := fun e => by
      rw [Bool.eq_iff_iff, State.stepPending_iff, State.stepPending_iff, State.stepEntry_eq, State.stepEntry_eq, h.work]
    simp only [State.formed_readTracker_iff, h.issuing, hpending]

theorem SameRequests.portOk {s t : State} (h : SameRequests s t) (hport : PortOk s) : PortOk t := by
  obtain ⟨hhanded, hnodup, hgroups⟩ := hport
  refine ⟨fun b => ?_, by rwa [h.handed], by rwa [h.handed]⟩
  rw [h.formed, ← hhanded, State.isHanded, State.isHanded, h.handed]

/-- `t` keeps the laws of `s` and has its requests. -/
structure Keeps (s t : State) : Prop where
  core : CoreOk t
  same : SameRequests s t

theorem Keeps.stepOk {s t : State} (h : Keeps s t) (hs : StepOk s) : StepOk t := by
  obtain ⟨hcore, hsame⟩ := h
  refine ⟨hcore, fun p hp => hs.head p ?_, fun hb => ?_, hs.port.mono hsame.handed fun b hb => ?_⟩
  · rwa [State.todo, hsame.writeJob] at hp
  · rw [hsame.orders]
    refine hs.orders ((s.holdBusy_eq_false_iff).2 ?_)
    obtain ⟨hrelease, hcutting⟩ := t.holdBusy_eq_false_iff.1 hb
    rw [State.cutting, hsame.writeJob] at hcutting
    exact ⟨hsame.release_eq_none_iff.1 hrelease, hcutting⟩
  · rwa [hsame.formed]

theorem Keeps.inv {s t : State} (h : Keeps s t) (hs : Inv s) : Inv t := by
  obtain ⟨-, -, -, -, -, hport⟩ := id hs
  exact (h.stepOk hs.stepOk).inv (h.same.portOk hport)

theorem Keeps.refl {s : State} (h : CoreOk s) : Keeps s s := ⟨h, .refl s⟩

theorem Keeps.trans {s t u : State} (h : Keeps s t) (h' : Keeps t u) : Keeps s u := ⟨h'.core, h.same.trans h'.same⟩

theorem CoreOk.setPort {s : State} (h : CoreOk s) (p : Port) : CoreOk (s.setPort p) := by
  obtain ⟨⟨hout, halone, htakes, hstep, hflushing, hflushed⟩, hcounts, hhold, htables, hreads⟩ := h
  exact ⟨⟨hout, halone, htakes, hstep, hflushing, hflushed⟩, hcounts, hhold, htables, hreads⟩

theorem Keeps.setPort {s t : State} (h : Keeps s t) (p : Port) : Keeps s (t.setPort p) :=
  ⟨h.core.setPort p, ⟨h.same.handed, h.same.writeJob, h.same.orders, h.same.issuing, h.same.work⟩⟩

/-! Transactions -/

theorem State.running_of_not_busy {s : State} (hbusy : s.busy = false) (hoff : s.phase ≠ .off) (hlow : s.phase ≠ .resetLow) :
    s.phase = .running := by
  unfold State.busy at hbusy
  cases hp : s.phase <;> simp_all

/-- What holds of a transaction's outcome, when it holds of the state that its command leaves and is blind to the port. A
gated command executes only in the running part (R146). -/
theorem State.command_keeps {P : State → Prop} (hport : ∀ u p, P u → P (u.setPort p)) {s : State} (h : P s) (c : Instr)
    (gated complete waits : Bool) (body : Answer)
    (hbody : (gated = true → s.phase = .running) → complete = true → waits = false → P body.state) :
    P (s.command c gated complete waits body) := by
  unfold State.command
  split
  · exact h
  · exact hport _ _ h
  · rename_i hoff hlow
    split
    · exact hport _ _ h
    · split
      · exact hport _ _ h
      · split
        · exact hport _ _ h
        · rename_i hcomplete hgate hwaits
          refine hport _ _ (hbody (fun hg => State.running_of_not_busy ?_ hoff hlow) (by simpa using hcomplete)
            (by simpa using hwaits))
          simpa [hg] using hgate

/-! Contexts that keep their row and band -/

/-- The works in progress ask of the contexts their rows and their active bands alone. -/
theorem WorkBase.with_scans {s : State} (h : WorkBase s) {v : Vector ScanCtx 4}
    (hv : ∀ i : SurfaceIx, v[i].c = s.scans[i].c ∧ v[i].active = s.scans[i].active) : WorkBase { s with scans := v } := by
  obtain ⟨hout, halone, htakes, hstep, hflushing, hflushed⟩ := h
  refine ⟨hout, halone, fun rel hrel => ?_, hstep, hflushing, hflushed⟩
  have heq : State.takes { s with scans := v } rel.work = s.takes rel.work := by
    funext f
    cases rel.work with
    | step i e d => simp only [State.takes, (hv i).1, (hv i).2]
    | restart i e d | finish i | stall i | fullFlush => rfl
  rw [heq]
  exact htakes rel hrel

/-! Modes (R41) -/

theorem CoreOk.engage {s : State} (h : CoreOk s) : CoreOk { s with mode := .engaged } := by
  obtain ⟨⟨hout, halone, htakes, hstep, hflushing, hflushed⟩, hcounts, ⟨hahead, -, hdraining, hloading, hscanner, htimers, hrun⟩, htables, hreads⟩ := h
  exact ⟨⟨hout, halone, htakes, hstep, hflushing, hflushed⟩, hcounts,
    ⟨hahead, fun hm => (by cases hm), hdraining, hloading, hscanner, htimers, hrun⟩, htables, hreads⟩

theorem State.toBypass_scans_get (s : State) (i : SurfaceIx) : s.toBypass.scans[i] = s.scans[i].bypassed := by
  simp [State.toBypass, mapTable]

theorem SurfaceOk.bypassed {r : SurfaceRec} {c : ScanCtx} {image : Option SurfaceRec} (h : SurfaceOk r c image) :
    SurfaceOk r c.bypassed image :=
  ⟨h.valid, h.fresh.imp_right fun hf => by rw [hf]; rfl, h.active, h.pending, fun hs => (by cases hs), h.image⟩

theorem CoreOk.release_none_of_queue_nil {s : State} (h : CoreOk s) (hqueue : s.queue = []) : s.release = none := by
  cases hr : s.release with
  | none => rfl
  | some rel => have := h.work.takes rel hr; rw [hqueue] at this; cases this

theorem State.heldAll_of_empty {s : State} (hqueue : s.queue = []) (htodo : s.todo = []) : s.heldAll = [] := by
  simp [State.heldAll, State.joining, hqueue, htodo]

/-- BYPASS is taken with no claim, nothing held and no fragment waiting (R41, R42). -/
theorem CoreOk.toBypass {s : State} (h : CoreOk s) (hclosed : ∀ a : ApertureIx, s.apertures[a].state = .closed)
    (hqueue : s.queue = []) (htodo : s.todo = []) : CoreOk s.toBypass := by
  obtain ⟨hsurfaces, happertures, hdisjoint⟩ := (tablesOk_iff s).1 h.tables
  have hidle : ∀ i : SurfaceIx, s.toBypass.scans[i].state = .idle := fun i => by rw [State.toBypass_scans_get]; rfl
  have hstopped : ∀ i : SurfaceIx, s.toBypass.scans[i].timer = none := fun i => by rw [State.toBypass_scans_get]; rfl
  obtain ⟨-, -, hdraining, hloading, -, -, -⟩ := h.hold
  have hwork : WorkBase { s with scans := s.toBypass.scans } := h.work.with_scans (v := s.toBypass.scans) fun i => by
    rw [State.toBypass_scans_get]; exact ⟨rfl, rfl⟩
  obtain ⟨hout, halone, htakes, hstep, hflushing, hflushed⟩ := hwork
  refine ⟨⟨hout, halone, htakes, hstep, hflushing, hflushed⟩, h.counts, ⟨fun f hf => ?_, fun _ => ⟨hclosed, hqueue, htodo, hidle⟩, hdraining,
    fun n hn => ⟨hidle, (hloading n hn).2⟩, fun i _ => hidle i, fun i hi => ?_, fun _ i hi => ?_⟩,
    (tablesOk_iff _).2 ⟨fun i => ?_, happertures, hdisjoint⟩, h.reads⟩
  · rw [State.heldAll_of_empty (s := s.toBypass) hqueue htodo] at hf
    cases hf
  · rw [hstopped i] at hi; cases hi
  · rw [hidle i] at hi; cases hi
  · rw [State.toBypass_scans_get]; exact (hsurfaces i).bypassed

/-- MODE-SET, when it does not wait. -/
theorem Keeps.modeSet {s : State} (h : CoreOk s) (m : Byte) (hwaits : s.modeSetWaits m = false) :
    Keeps s (s.modeSet m).state := by
  unfold State.modeSet
  split
  · rename_i hm
    split
    · exact .refl h
    · rename_i hfree
      simp only [Bool.or_eq_true, Bool.not_eq_true', not_or, Bool.not_eq_true, List.any_eq_false, Bool.not_eq_false,
        List.isEmpty_iff] at hfree
      obtain ⟨hclaims, hqueue⟩ := hfree
      refine ⟨h.toBypass (fun a => ?_) hqueue ?_, ⟨rfl, rfl, rfl, rfl, rfl⟩⟩
      · exact (s.claims_eq_false_iff a).1 (hclaims a (List.mem_finRange a))
      · simpa [State.modeSetWaits, hm] using hwaits
  · split
    · exact ⟨h.engage, ⟨rfl, rfl, rfl, rfl, rfl⟩⟩
    · exact .refl h

end Sys2Proof.Machine
end

