-- ==== Sys2Proof/Proofs/Records.lean ====
section
/-! PROOF. The laws through the commands that write records: surfaces, bands, apertures, windows. -/

namespace Sys2Proof.Machine

/-! Surfaces (R11, R105) -/

/-- Overlap does not depend on which range comes first. -/
theorem overlap_comm (l m l' m' : Nat) : overlap l m l' m' = overlap l' m' l m := by
  simp only [overlap]
  grind

/-- A record read from the port is DEFINED, or the cleared one. -/
theorem parseSurface_defined_or_cleared {l : List Byte} {r : SurfaceRec} (h : parseSurface l = some r) :
    r.defined = true ∨ r = SurfaceRec.cleared := by
  unfold parseSurface at h
  split at h
  · exact .inr (Option.some.inj h).symm
  · split at h
    · cases h
    · simp only at h
      split at h
      · exact .inl (by rw [← Option.some.inj h])
      · exact .inl (by rw [← Option.some.inj h])
      · cases h
      · cases h

theorem SurfaceRec.valid_of_defined {r : SurfaceRec} (hdefined : r.defined = true) : r.valid = r.fieldsOk := by
  rw [SurfaceRec.valid, if_pos hdefined]

theorem SurfaceRec.eq_cleared_of_not_defined {r : SurfaceRec} (hvalid : r.valid = true) (hdefined : r.defined = false) :
    r = SurfaceRec.cleared := by
  rw [SurfaceRec.valid, if_neg (by rw [hdefined]; decide)] at hvalid
  exact beq_iff_eq.1 hvalid

theorem SurfaceRec.cleared_valid : SurfaceRec.cleared.valid = true := by decide

theorem SurfaceRec.optBandOk_of_valid {r : SurfaceRec} (h : r.valid = true) : r.optBandOk r.band = true := by
  cases hd : r.defined with
  | true =>
    rw [SurfaceRec.valid_of_defined hd, SurfaceRec.fieldsOk, Bool.and_eq_true] at h
    exact h.2
  | false => rw [SurfaceRec.eq_cleared_of_not_defined h hd]; rfl

/-- A valid record with the context that its installation leaves. -/
theorem SurfaceOk.fresh_of_valid {r : SurfaceRec} (h : r.valid = true) {image : Option SurfaceRec}
    (himage : ∀ r', image = some r' → r'.valid = true) : SurfaceOk r (ScanCtx.fresh r.band) image := by
  refine ⟨h, ?_, SurfaceRec.optBandOk_of_valid h, rfl, fun hs => (by cases hs), himage⟩
  cases hd : r.defined with
  | true => exact .inl rfl
  | false => rw [SurfaceRec.eq_cleared_of_not_defined h hd]; exact .inr rfl

theorem State.overlapsSurface_eq_false_iff (s : State) (i : SurfaceIx) (r : SurfaceRec) : s.overlapsSurface i r = false ↔
    ∀ j : SurfaceIx, j ≠ i → s.surfaces[j].defined = true →
      overlap r.low r.stop s.surfaces[j].low s.surfaces[j].stop = false := by
  simp [State.overlapsSurface, surfaceIndices, -Fin.getElem_fin]

theorem State.overlapsAperture_eq_false_iff (s : State) (r : SurfaceRec) : s.overlapsAperture r = false ↔
    ∀ a : ApertureIx, s.claims a = true → overlap r.low r.stop s.apertures[a].fields.low (s.apertureEnd a) = false := by
  simp [State.overlapsAperture, apertureIndices, -Fin.getElem_fin]

/-- A record that fits comes among disjoint claims, when no claim names its surface. -/
theorem State.disjointClaims_setSurface {s : State} (h : s.disjointClaims) {i : SurfaceIx} {r : SurfaceRec}
    (hsurface : r.defined = true → s.overlapsSurface i r = false) (haperture : r.defined = true → s.overlapsAperture r = false)
    (hfree : ∀ a, s.claims a = true → s.apertures[a].fields.surface ≠ i) : (s.setSurface i r).disjointClaims := by
  obtain ⟨hss, hsa, haa⟩ := h
  have hend : ∀ a, s.claims a = true → (s.setSurface i r).apertureEnd a = s.apertureEnd a := fun a ha => by
    unfold State.apertureEnd State.surfaceOf
    rw [State.setSurface_surfaces_get, if_neg fun he => hfree a ha he.symm]
    rfl
  refine ⟨fun j k hjk hj hk => ?_, fun j a hj ha => ?_, fun a b hab ha hb => ?_⟩
  · rw [State.setSurface_surfaces_get] at hj hk ⊢
    rw [State.setSurface_surfaces_get]
    by_cases hij : i = j
    · subst hij
      rw [if_pos rfl] at hj ⊢
      rw [if_neg hjk] at hk ⊢
      exact (s.overlapsSurface_eq_false_iff i r).1 (hsurface hj) k hjk.symm hk
    · rw [if_neg hij] at hj ⊢
      by_cases hik : i = k
      · subst hik
        rw [if_pos rfl] at hk ⊢
        rw [overlap_comm]
        exact (s.overlapsSurface_eq_false_iff i r).1 (hsurface hk) j hjk hj
      · rw [if_neg hik] at hk ⊢
        exact hss j k hjk hj hk
  · rw [hend a ha]
    rw [State.setSurface_surfaces_get] at hj ⊢
    by_cases hij : i = j
    · subst hij
      rw [if_pos rfl] at hj ⊢
      exact (s.overlapsAperture_eq_false_iff r).1 (haperture hj) a ha
    · rw [if_neg hij] at hj ⊢
      exact hsa j a hj ha
  · rw [hend a ha, hend b hb]
    exact haa a b hab ha hb

/-- A record is installed on a surface that no claim names and of which no fragment is held or about to join. -/
theorem CoreOk.installSurface {s : State} (h : CoreOk s) {i : SurfaceIx} {r : SurfaceRec} (hvalid : r.valid = true)
    (hsurface : r.defined = true → s.overlapsSurface i r = false) (haperture : r.defined = true → s.overlapsAperture r = false)
    (hfree : ∀ a, s.claims a = true → s.apertures[a].fields.surface ≠ i) (hheld : ∀ f ∈ s.heldAll, f.surface ≠ i) :
    CoreOk (s.installSurface i r) := by
  obtain ⟨hsurfaces, happertures, hdisjoint⟩ := (tablesOk_iff s).1 h.tables
  obtain ⟨hahead, hbypass, hdraining, hloading, hscanner, htimers, hrun⟩ := h.hold
  have hscan : ∀ j : SurfaceIx, (s.installSurface i r).scans[j] = if i = j then ScanCtx.fresh r.band else s.scans[j] :=
    fun j => (s.setSurface i r).setScan_scans_get i j _
  have hsurf : ∀ j : SurfaceIx, (s.installSurface i r).surfaces[j] = if i = j then r else s.surfaces[j] :=
    fun j => s.setSurface_surfaces_get i j r
  have hof : ∀ a, s.claims a = true → (s.installSurface i r).surfaceOf a = s.surfaceOf a := fun a ha => by
    show (s.installSurface i r).surfaces[s.apertures[a].fields.surface] = _
    rw [hsurf, if_neg fun he => hfree a ha he.symm]
    rfl
  have hidle : ∀ j : SurfaceIx, s.scans[j].state = .idle → (s.installSurface i r).scans[j].state = .idle := fun j hj => by
    rw [hscan]; split
    · rfl
    · exact hj
  refine ⟨?_, h.counts, ⟨fun f hf => ?_, fun hm => ?_, hdraining, fun n hn => ⟨fun j => hidle j ((hloading n hn).1 j), (hloading n hn).2⟩,
    fun j hj => ?_, fun j hj => ?_, fun hr j hj ht => ?_⟩, (tablesOk_iff _).2 ⟨fun j => ?_, fun a => ?_, ?_⟩, h.reads⟩
  · obtain ⟨hout, halone, htakes, -, hflushing, hflushed⟩ := h.work
    have hwork : ∀ rel, s.release = some rel → ∀ j, rel.work.surface = some j → j ≠ i := fun rel hrel j hj => by
      obtain ⟨f, hf, ht⟩ := List.any_eq_true.1 (htakes rel hrel)
      rw [← s.surface_of_takes ht hj]
      exact hheld f (List.mem_append_left _ hf)
    refine ⟨hout, halone, fun rel hrel => ?_, ?_, hflushing, hflushed⟩
    · have hsame : (s.installSurface i r).takes rel.work = s.takes rel.work := by
        funext f
        cases hw : rel.work with
        | step j e d =>
          have hj := hwork rel hrel j (by rw [hw]; rfl)
          simp only [State.takes, hscan, if_neg hj.symm]
        | restart j e d | finish j | stall j | fullFlush => rfl
      rw [hsame]
      exact htakes rel hrel
    · cases hrel : s.release with
      | none => rw [State.stepOk, show (s.installSurface i r).release = none from hrel]
      | some rel =>
        have hready := h.workReady hrel
        have hready' : WorkReady (s.installSurface i r) rel.work := by
          refine ⟨fun j hj => ?_, fun j e d hj he => ?_, hready.awaits⟩
          · rw [hscan, if_neg (hwork rel hrel j hj).symm]; exact hready.scanning j hj
          · rw [hsurf, if_neg (hwork rel hrel j hj).symm]; exact hready.row j e d hj he
        have hself : ({ s.installSurface i r with release := some ⟨rel.work, rel.issued, rel.origins⟩ } : State)
            = s.installSurface i r := by
          rw [show (⟨rel.work, rel.issued, rel.origins⟩ : Release) = rel from rfl, ← hrel]; rfl
        exact hself ▸ hready'.stepOk rel.issued rel.origins
  · have hne := hheld f hf
    rw [State.standsAhead, State.rowAhead, hsurf, hscan, if_neg hne.symm, if_neg hne.symm]
    exact hahead f hf
  · obtain ⟨hclosed, hqueue, htodo, hscans⟩ := hbypass hm
    exact ⟨hclosed, hqueue, htodo, fun j => hidle j (hscans j)⟩
  · rw [hsurf] at hj
    rw [hscan]
    split
    · rfl
    · rename_i hij; rw [if_neg hij] at hj; exact hscanner j hj
  · rw [hscan] at hj ⊢
    split
    · rename_i hij; rw [if_pos hij] at hj; cases hj
    · rename_i hij; rw [if_neg hij] at hj; exact htimers j hj
  · rw [hscan] at hj ⊢
    rw [hsurf] at ht
    split
    · rename_i hij; rw [if_pos hij] at hj; cases hj
    · rename_i hij; rw [if_neg hij] at hj ht; exact hrun hr j hj ht
  · rw [hsurf, hscan]
    split
    · exact .fresh_of_valid hvalid (hsurfaces j).image
    · exact hsurfaces j
  · by_cases ha : s.claims a = true
    · rw [hof a ha]; exact happertures a
    · have hclosed : s.apertures[a].state = .closed := by
        rwa [State.claims_iff, ne_eq, not_not] at ha
      obtain ⟨hv, -, -, -, -, hi⟩ := happertures a
      exact ⟨hv, fun ho => absurd hclosed ho, fun ho => absurd hclosed ho, fun ho => absurd hclosed ho,
        fun ho => absurd hclosed ho, hi⟩
  · exact State.disjointClaims_setSurface hdisjoint hsurface haperture hfree

/-- SURFACE-WRITE, when it does not wait (R11, R12). -/
theorem Keeps.surfaceWrite {s : State} (h : CoreOk s) (b : Byte) (l : List Byte) (hwaits : s.surfaceWriteWaits b = false) :
    Keeps s (s.surfaceWrite b l).state := by
  unfold State.surfaceWrite
  cases hi : surfaceIx b with
  | none => exact .refl h
  | some i =>
    simp only
    split
    · exact .refl h
    · rename_i huse
      cases hl : parseSurface l with
      | none => exact .refl h
      | some r =>
        simp only
        split
        · rename_i hfits
          simp only [State.surfaceInUse, Bool.or_eq_true, not_or, Bool.not_eq_true, List.any_eq_false, Bool.and_eq_true,
            not_and, beq_iff_eq] at huse
          obtain ⟨hclaims, hqueue⟩ := huse
          simp only [State.surfaceWriteWaits, hi, List.any_eq_false, beq_iff_eq] at hwaits
          simp only [State.surfaceFits, Bool.or_eq_true, Bool.not_eq_true', Bool.and_eq_true] at hfits
          refine ⟨h.installSurface ?_ (fun hd => ?_) (fun hd => ?_) (fun a => hclaims a (List.mem_finRange a)) fun f hf => ?_,
            ⟨rfl, rfl, rfl, rfl, rfl⟩⟩
          · obtain hd | rfl := parseSurface_defined_or_cleared hl
            · rw [SurfaceRec.valid_of_defined hd]
              exact (hfits.resolve_left (by rw [hd]; decide)).1.1
            · exact SurfaceRec.cleared_valid
          · exact (hfits.resolve_left (by rw [hd]; decide)).1.2
          · exact (hfits.resolve_left (by rw [hd]; decide)).2
          · obtain hf | hf := List.mem_append.1 hf
            · exact hqueue f hf
            · obtain ⟨p, hp, rfl⟩ := List.mem_map.1 hf
              exact hwaits p (List.mem_filter.1 hp).1
        · exact .refl h

/-! Bands (R148) -/

theorem State.setScan_standsAhead (s : State) {i : SurfaceIx} {c : ScanCtx} (hstate : c.state = s.scans[i].state)
    (hrow : c.c = s.scans[i].c) (hactive : c.active = s.scans[i].active) (f : Frag) :
    (s.setScan i c).standsAhead f = s.standsAhead f := by
  simp only [State.standsAhead, State.rowAhead, State.setScan_scans_get, State.setScan_surfaces]
  split
  · rename_i hif; rw [hstate, hrow, hactive, hif]
  · rfl

theorem CoreOk.setPendingBand {s : State} (h : CoreOk s) {i : SurfaceIx} {b : PendingBand}
    (hdefined : s.surfaces[i].defined = true) (hb : s.surfaces[i].pendingOk b = true) : CoreOk (s.setPendingBand i b) := by
  obtain ⟨hvalid, -, hactive, -, hrow, himage⟩ := h.surface i
  obtain ⟨hahead, -, -, -, hscanner, htimers, hrun⟩ := h.hold
  have hwork : WorkBase (s.setPendingBand i b) := h.work.with_scans (v := (s.setPendingBand i b).scans) fun j => by
    rw [State.setPendingBand, State.setScan_scans_get]
    split
    · rename_i hij; subst hij; exact ⟨rfl, rfl⟩
    · exact ⟨rfl, rfl⟩
  refine h.setScan hwork (fun f hf _ => ?_) (fun hc => ?_) (htimers i) (fun hr => hrun hr i)
    ⟨hvalid, .inl hdefined, hactive, hb, hrow, himage⟩
  · exact (s.setScan_standsAhead (i := i) (c := { s.scans[i] with pendingBand := b }) rfl rfl rfl f).trans (hahead f hf)
  · obtain ⟨hmode, hload, hsome, -⟩ := h.of_not_idle (i := i) hc
    exact ⟨hmode, hload, hsome⟩

/-- BAND-SET (R102, R148). -/
theorem Keeps.bandSet {s : State} (h : CoreOk s) (b : Byte) (l : List Byte) : Keeps s (s.bandSet b l).state := by
  unfold State.bandSet
  cases hi : surfaceIx b with
  | none => exact .refl h
  | some i =>
    simp only
    split
    · exact .refl h
    · rename_i hdefined
      have hdefined : s.surfaces[i].defined = true := by simpa using hdefined
      cases hl : parseBand l with
      | absent | bad => exact .refl h
      | remove => exact ⟨h.setPendingBand hdefined rfl, ⟨rfl, rfl, rfl, rfl, rfl⟩⟩
      | band x =>
        simp only
        split
        · rename_i hx; exact ⟨h.setPendingBand hdefined hx, ⟨rfl, rfl, rfl, rfl, rfl⟩⟩
        · exact .refl h

/-! Apertures (R18, R20, R25) -/

/-- One aperture's record and cursor may become a CLOSED one with valid fields, or one whose claim is good. -/
theorem TablesOk.setAperture {s : State} (h : TablesOk s) {a : ApertureIx} {r : Aperture} {c : Cursor}
    (hr : ApertureOk r s.surfaces[r.fields.surface] c s.apSlots[a].image)
    (hsurface : r.state ≠ .closed → ∀ j : SurfaceIx, s.surfaces[j].defined = true →
      overlap s.surfaces[j].low s.surfaces[j].stop r.fields.low (apertureStop r.fields s.surfaces[r.fields.surface]) = false)
    (haperture : r.state ≠ .closed → ∀ b, b ≠ a → s.claims b = true →
      overlap s.apertures[b].fields.low (s.apertureEnd b) r.fields.low (apertureStop r.fields s.surfaces[r.fields.surface]) = false) :
    TablesOk ((s.setAperture a r).setCursor a c) := by
  obtain ⟨hsurfaces, happertures, hss, hsa, haa⟩ := (tablesOk_iff s).1 h
  have hself : ((s.setAperture a r).setCursor a c).apertures[a] = r := by
    rw [State.setCursor_apertures, State.setAperture_apertures_get, if_pos rfl]
  have hother : ∀ b, b ≠ a → ((s.setAperture a r).setCursor a c).apertures[b] = s.apertures[b] := fun b hb => by
    rw [State.setCursor_apertures, State.setAperture_apertures_get, if_neg hb.symm]
  have hofself : ((s.setAperture a r).setCursor a c).surfaceOf a = s.surfaces[r.fields.surface] := by
    simp only [State.surfaceOf, hself]; rfl
  have hofother : ∀ b, b ≠ a → ((s.setAperture a r).setCursor a c).surfaceOf b = s.surfaceOf b := fun b hb => by
    simp only [State.surfaceOf, hother b hb]; rfl
  have hcself : ((s.setAperture a r).setCursor a c).claims a = true → r.state ≠ .closed := fun hc => by
    rwa [State.claims_iff, hself] at hc
  have hcother : ∀ b, b ≠ a → ((s.setAperture a r).setCursor a c).claims b = true → s.claims b = true := fun b hb hc => by
    rwa [State.claims, hother b hb] at hc
  refine (tablesOk_iff _).2 ⟨hsurfaces, fun b => ?_, hss, fun i b hi hb => ?_, fun b d hbd hb hd => ?_⟩
  · by_cases hba : b = a
    · subst hba
      rw [hself, hofself, State.setCursor_cursors_get, if_pos rfl]
      exact hr
    · rw [hother b hba, hofother b hba, State.setCursor_cursors_get, if_neg (Ne.symm hba)]
      exact happertures b
  · by_cases hba : b = a
    · subst hba
      rw [State.apertureEnd, hself, hofself]
      exact hsurface (hcself hb) i hi
    · rw [State.apertureEnd, hother b hba, hofother b hba]
      exact hsa i b hi (hcother b hba hb)
  · by_cases hba : b = a
    · subst hba
      have hdb : d ≠ b := Ne.symm hbd
      rw [State.apertureEnd, State.apertureEnd, hself, hofself, hother d hdb, hofother d hdb, overlap_comm]
      exact haperture (hcself hb) d hdb (hcother d hdb hd)
    · by_cases hda : d = a
      · subst hda
        rw [State.apertureEnd, State.apertureEnd, hself, hofself, hother b hba, hofother b hba]
        exact haperture (hcself hd) b hba (hcother b hba hb)
      · rw [State.apertureEnd, State.apertureEnd, hother b hba, hofother b hba, hother d hda, hofother d hda]
        exact haa b d hbd (hcother b hba hb) (hcother d hda hd)

/-- The hold laws through an aperture whose held count stays: it may open in ENGAGED past the slots of the load phase, and
it drains only while something of it is held. -/
theorem CoreOk.setAperture {s : State} (h : CoreOk s) {a : ApertureIx} {r : Aperture} {c : Cursor}
    (hheld : r.held = s.apertures[a].held)
    (hopen : r.state ≠ .closed → s.mode ≠ .bypass ∧ ∀ n, s.loadNext = some n → 12 < n ∧ r.state ≠ .draining)
    (hdraining : s.working = true → r.state = .draining → 0 < r.held)
    (htables : TablesOk ((s.setAperture a r).setCursor a c)) : CoreOk ((s.setAperture a r).setCursor a c) := by
  obtain ⟨⟨hout, halone, htakes, hstep, hflushing, hflushed⟩, ⟨hroom, hcount, hmark, hdiscarded, hflush, hlength, huses, hsaving⟩,
    ⟨hahead, hbypass, hdrains, hloading, hscanner, htimers, hrun⟩, -, hreads⟩ := h
  have hget : ∀ b : ApertureIx, ((s.setAperture a r).setCursor a c).apertures[b] = if a = b then r else s.apertures[b] :=
    fun b => s.setAperture_apertures_get a b r
  refine ⟨⟨hout, halone, htakes, hstep, hflushing, hflushed⟩,
    ⟨hroom, fun b => ?_, hmark, hdiscarded, hflush, hlength, huses, hsaving⟩,
    ⟨hahead, fun hm => ?_, fun hw b hb => ?_, fun n hn => ⟨(hloading n hn).1, fun b => ?_⟩, hscanner, htimers, hrun⟩, htables, hreads⟩
  · rw [hget]
    split
    · rename_i hab; subst hab; exact hheld.trans (hcount a)
    · exact hcount b
  · obtain ⟨hclosed, hqueue, htodo, hscans⟩ := hbypass hm
    refine ⟨fun b => ?_, hqueue, htodo, hscans⟩
    rw [hget]
    split
    · exact by_contra fun hc => (hopen hc).1 hm
    · exact hclosed b
  · rw [hget] at hb ⊢
    split
    · rename_i hab; rw [if_pos hab] at hb; exact hdraining hw hb
    · rename_i hab; rw [if_neg hab] at hb; exact hdrains hw b hb
  · rw [hget]
    split
    · by_cases hc : r.state = .closed
      · rw [hc]; exact ⟨by decide, fun _ => rfl⟩
      · obtain ⟨hlate, hnot⟩ := (hopen hc).2 n hn
        exact ⟨hnot, fun hle => by omega⟩
    · exact (hloading n hn).2 b

/-- A record read from the port is within its ranges (R16, R18). -/
theorem parseAperture_valid {l : List Byte} {f : ApertureFields} (h : parseAperture l = some f) : f.valid = true := by
  unfold parseAperture at h
  simp only at h
  split at h
  · cases h
  · split at h
    · split at h
      · rename_i hranges
        simp only [Bool.and_eq_true, beq_iff_eq, decide_eq_true_eq] at hranges
        obtain ⟨⟨hbase, hwindow⟩, hfilter⟩ := hranges
        rw [← Option.some.inj h, ApertureFields.valid, Bool.and_eq_true, Bool.and_eq_true]
        refine ⟨⟨?_, hwindow⟩, ?_⟩
        · simp only [BitVec.toNat_ofNat, beq_iff_eq]
          omega
        · simp only
          split
          · rfl
          · rename_i ids hids
            split at hids
            · cases hids
            · rename_i hne
              have hlen : ids.length = min (field l 1 1 / 16) 4 := by
                rw [← Option.some.inj hids]; simp [filterIds]
              simp only [Bool.and_eq_true, decide_eq_true_eq]
              omega
      · cases h
    · cases h

theorem State.setCursor_self (s : State) (a : ApertureIx) : s.setCursor a s.cursors[a] = s := by
  simp [State.setCursor]

/-- New fields for a CLOSED aperture. -/
theorem TablesOk.setFields_of_closed {s : State} (h : TablesOk s) {a : ApertureIx} (hclosed : s.apertures[a].state = .closed)
    {f : ApertureFields} (hf : f.valid = true) (c : Cursor) :
    TablesOk ((s.setAperture a { s.apertures[a] with fields := f }).setCursor a c) := by
  have hn : ¬ s.apertures[a].state ≠ .closed := not_not_intro hclosed
  exact h.setAperture ⟨hf, fun ho => absurd ho hn, fun ho => absurd ho hn, fun ho => absurd ho hn, fun ho => absurd ho hn,
    (((tablesOk_iff s).1 h).2.1 a).image⟩ (fun ho => absurd ho hn) (fun ho => absurd ho hn)

/-- APERTURE-WRITE (R18). -/
theorem Keeps.apertureWrite {s : State} (h : CoreOk s) (b : Byte) (l : List Byte) :
    Keeps s (s.apertureWrite b l).state := by
  unfold State.apertureWrite
  cases ha : apertureIx b with
  | none => exact .refl h
  | some a =>
    simp only
    split
    · exact .refl h
    · rename_i hclaims
      have hclosed := (s.claims_eq_false_iff a).1 (Bool.not_eq_true _ ▸ hclaims)
      cases hl : parseAperture l with
      | none => exact .refl h
      | some f =>
        refine ⟨?_, ⟨rfl, rfl, rfl, rfl, rfl⟩⟩
        have htables := h.tables.setFields_of_closed hclosed (parseAperture_valid hl) s.cursors[a]
        have hcore := h.setAperture (r := { s.apertures[a] with fields := f }) rfl (fun ho => absurd hclosed ho)
          (fun _ hd => by rw [show s.apertures[a].state = .draining from hd] at hclosed; cases hclosed) htables
        have hself : (s.setFields a f).setCursor a s.cursors[a] = s.setFields a f := State.setCursor_self _ a
        show CoreOk (s.setFields a f)
        rw [← hself]
        exact hcore

theorem addrSpace_eq : addrSpace = 2 ^ 40 := rfl

/-- The checks of APERTURE-OPEN, as the statements put them (R20). -/
theorem State.openRefusal_eq_none_iff (s : State) (a : ApertureIx) :
    s.openRefusal a = none ↔ s.mode = .engaged ∧ MayOpen s a := by
  have hmode : s.mode = .engaged ↔ ¬ s.mode = .bypass := by cases s.mode <;> simp
  have hrefuse : ∀ (c : Prop) [Decidable c] (st : Status) (o : Option Status),
      (if c then some st else o) = none ↔ ¬ c ∧ o = none := fun c _ st o => by split <;> simp_all
  simp only [State.openRefusal, MayOpen, hmode, hrefuse, apertureIndices, surfaceIndices, Bool.or_eq_true, beq_iff_eq,
    Bool.not_eq_true', Bool.and_eq_true, List.any_eq_true, List.mem_finRange, true_and, not_exists, not_and, bne_iff_ne,
    State.claims_iff, Bool.not_eq_true, Bool.not_eq_false, and_true, not_or, ne_eq, not_not, not_lt, addrSpace_eq, and_assoc]
  tauto

theorem ApertureFields.windowInRange_of_valid {f : ApertureFields} (h : f.valid = true) : windowInRange f.window = true := by
  simp only [ApertureFields.valid, Bool.and_eq_true] at h
  exact h.1.2

/-- A window in range holds its own start (R69). -/
theorem Cursor.start_within {w : Window} (h : windowInRange w = true) : (Cursor.start w).within w = true := by
  simp only [windowInRange, Bool.and_eq_true, decide_eq_true_eq] at h
  obtain ⟨⟨-, hcol⟩, hrow⟩ := h
  simp [Cursor.within, Cursor.start, hcol, hrow]

/-- An aperture that passes the checks of APERTURE-OPEN opens with its cursor at the window start (R20), in the load phase
too. -/
theorem CoreOk.openAperture {s : State} (h : CoreOk s) {a : ApertureIx} (hopen : s.openRefusal a = none)
    (hload : ∀ n, s.loadNext = some n → 12 < n) : CoreOk (s.openAperture a) := by
  obtain ⟨hmode, hclosed, hdefined, hend, hothers, hsurfaces, hview⟩ := (s.openRefusal_eq_none_iff a).1 hopen
  obtain ⟨hvalid, -, -, -, -, himage⟩ := h.aperture a
  have hwindow : ((s.setAperture a { s.apertures[a] with state := .opened }).apertures[a]).fields.window
      = s.apertures[a].fields.window := by
    rw [State.setAperture_apertures_get, if_pos rfl]
  rw [State.openAperture, State.resetCursor, hwindow]
  refine h.setAperture (r := { s.apertures[a] with state := .opened }) rfl
    (fun _ => ⟨by rw [hmode]; decide, fun n hn => ⟨hload n hn, nofun⟩⟩) (fun _ hd => by cases hd) ?_
  refine h.tables.setAperture ⟨hvalid, fun _ => hdefined, fun _ => hend, fun _ => hview, fun _ _ => ?_, himage⟩
    (fun _ j hj => ?_) (fun _ b hb hc => ?_)
  · exact Cursor.start_within (ApertureFields.windowInRange_of_valid hvalid)
  · rw [overlap_comm]; exact hsurfaces j hj
  · rw [overlap_comm]; exact hothers b hb ((s.claims_iff b).1 hc)

/-- APERTURE-OPEN (R20). -/
theorem Keeps.apertureOpen {s : State} (h : CoreOk s) (hrunning : s.phase = .running) (b : Byte) :
    Keeps s (s.apertureOpen b).state := by
  unfold State.apertureOpen
  cases ha : apertureIx b with
  | none => exact .refl h
  | some a =>
    cases hopen : s.openRefusal a with
    | some st => simp only [hopen]; exact .refl h
    | none =>
      simp only [hopen]
      exact ⟨h.openAperture hopen fun n hn => by simp [State.loadNext, hrunning] at hn, ⟨rfl, rfl, rfl, rfl, rfl⟩⟩

/-- A release in progress that forgets an aperture serves the same work. -/
theorem WorkBase.with_origins {s : State} (h : WorkBase s) (g : List ApertureIx → List ApertureIx) :
    WorkBase { s with release := s.release.map fun rel => { rel with origins := g rel.origins } } := by
  obtain ⟨hout, halone, htakes, hstep, hflushing, hflushed⟩ := h
  cases hr : s.release with
  | none => rw [hr] at hout halone; exact ⟨hout, halone, fun _ hrel => (by cases hrel), rfl, hflushing, hflushed⟩
  | some rel =>
    rw [hr] at hout halone
    refine ⟨fun hw => (by cases (hout hw).2.2), fun _ => halone rfl, fun rel' hrel => ?_, ?_, hflushing, hflushed⟩
    · cases hrel; exact htakes rel hr
    · obtain ⟨work, issued, origins⟩ := rel
      rw [State.stepOk, hr] at hstep
      cases work <;> exact hstep

/-- An aperture of which nothing is held closes (R25). -/
theorem CoreOk.closeAperture {s : State} (h : CoreOk s) (a : ApertureIx) : CoreOk (s.closeAperture a) := by
  have hget : ∀ b : ApertureIx, (s.closeAperture a).apertures[b].fields = s.apertures[b].fields
      ∧ (s.closeAperture a).apertures[b].held = s.apertures[b].held
      ∧ ((s.closeAperture a).apertures[b].state = s.apertures[b].state ∨ (s.closeAperture a).apertures[b].state = .closed) := by
    intro b
    rw [show (s.closeAperture a).apertures = (s.setAperture a { s.apertures[a] with state := .closed }).apertures from rfl,
      State.setAperture_apertures_get]
    split
    · rename_i hab; subst hab; exact ⟨rfl, rfl, .inr rfl⟩
    · exact ⟨rfl, rfl, .inl rfl⟩
  have hcount : (s.closeAperture a).releasedCount = s.releasedCount := by
    simp only [State.releasedCount, State.closeAperture]
    cases s.release <;> rfl
  obtain ⟨hroom, hheld, hmark, hdiscarded, hflush, hlength, huses, hsaving⟩ := h.counts
  obtain ⟨hahead, hbypass, hdrains, hloading, hscanner, htimers, hrun⟩ := h.hold
  obtain ⟨hout, halone, htakes, hstep, hflushing, hflushed⟩ := h.work.with_origins (List.filter (· != a))
  refine ⟨⟨hout, halone, htakes, hstep, hflushing, hflushed⟩, ⟨hcount ▸ hroom, fun b => (hget b).2.1.trans (hheld b), hmark, hdiscarded, hflush, hlength, huses, hsaving⟩,
    ⟨hahead, fun hm => ?_, fun hw b hb => ?_, fun n hn => ⟨(hloading n hn).1, fun b => ?_⟩, hscanner, htimers, hrun⟩,
    h.tables.with_closed fun b => ⟨(hget b).1, (hget b).2.2⟩, h.reads⟩
  · obtain ⟨hclosed, hqueue, htodo, hscans⟩ := hbypass hm
    refine ⟨fun b => ?_, hqueue, htodo, hscans⟩
    obtain hs | hc := (hget b).2.2
    · rw [hs]; exact hclosed b
    · exact hc
  · rw [(hget b).2.1]
    refine hdrains hw b ?_
    rw [← (hget b).2.2.resolve_right (by rw [hb]; decide)]
    exact hb
  · obtain hs | hc := (hget b).2.2
    · rw [hs]; exact (hloading n hn).2 b
    · rw [hc]; exact ⟨by decide, fun _ => rfl⟩

theorem State.closeAperture_same (s : State) (a : ApertureIx) : SameRequests s (s.closeAperture a) := by
  refine ⟨rfl, rfl, rfl, rfl, ?_⟩
  simp only [State.closeAperture]
  cases s.release <;> rfl

/-- APERTURE-CLOSE (R25, R27). -/
theorem Keeps.apertureClose {s : State} (h : CoreOk s) (hrunning : s.phase = .running) (b : Byte) :
    Keeps s (s.apertureClose b).state := by
  unfold State.apertureClose
  cases ha : apertureIx b with
  | none => exact .refl h
  | some a =>
    simp only
    split
    · exact .refl h
    · rename_i hstate
      have hopened : s.apertures[a].state = .opened := by simpa using hstate
      split
      · have hsame := s.closeAperture_same a
        exact ⟨(h.closeAperture a).raise _, ⟨hsame.handed, hsame.writeJob, hsame.orders, hsame.issuing, hsame.work⟩⟩
      · rename_i hheld
        refine ⟨?_, ⟨rfl, rfl, rfl, rfl, rfl⟩⟩
        have hne : s.apertures[a].state ≠ .closed := by rw [hopened]; decide
        obtain ⟨hvalid, hdefined, hfits, hview, hwithin, himage⟩ := h.aperture a
        obtain ⟨-, hsa, haa⟩ := h.disjoint
        have hclaims : s.claims a = true := (s.claims_iff a).2 hne
        have hcore : CoreOk ((s.setAperture a { s.apertures[a] with state := .draining }).setCursor a s.cursors[a]) := by
          refine h.setAperture rfl (fun _ => ⟨fun hm => hne ((h.bypass hm).1 a), fun n hn => ?_⟩)
            (fun _ _ => Nat.pos_of_ne_zero hheld) ?_
          · simp [State.loadNext, hrunning] at hn
          · exact h.tables.setAperture ⟨hvalid, fun _ => hdefined hne, fun _ => hfits hne, fun _ => hview hne, fun _ => hwithin hne, himage⟩
              (fun _ j hj => hsa j a hj hclaims) (fun _ d hd hc => haa d a hd hc hclaims)
        have hself : (s.setAperture a { s.apertures[a] with state := .draining }).setCursor a s.cursors[a]
            = s.setAperture a { s.apertures[a] with state := .draining } := State.setCursor_self _ a
        rw [hself] at hcore
        exact hcore

/-- A new window of an aperture that is CLOSED, or OPEN with the window in its view, and the cursor at its start (R76). -/
theorem CoreOk.setWindow {s : State} (h : CoreOk s) (hrunning : s.phase = .running) {a : ApertureIx} {w : Window}
    (hrange : windowInRange w = true) (hstate : s.apertures[a].state ≠ .draining)
    (hview : s.apertures[a].state = .opened → windowInView s.apertures[a].fields (s.surfaceOf a) w = true) :
    CoreOk ((s.setAperture a { s.apertures[a] with fields := { s.apertures[a].fields with window := w } }).setCursor a
      (Cursor.start w)) := by
  obtain ⟨hvalid, hdefined, hfits, -, -, himage⟩ := h.aperture a
  have hvalid' : ApertureFields.valid { s.apertures[a].fields with window := w } = true := by
    simp only [ApertureFields.valid, Bool.and_eq_true] at hvalid ⊢
    obtain ⟨⟨hbase, -⟩, hfilter⟩ := hvalid
    exact ⟨⟨hbase, hrange⟩, hfilter⟩
  refine h.setAperture rfl (fun ho => ⟨fun hm => ho ((h.bypass hm).1 a), fun n hn => ?_⟩) (fun _ hd => absurd hd hstate) ?_
  · simp [State.loadNext, hrunning] at hn
  · by_cases hclosed : s.apertures[a].state = .closed
    · exact h.tables.setFields_of_closed hclosed hvalid' _
    · have hopened : s.apertures[a].state = .opened := by
        cases hs : s.apertures[a].state with
        | opened => rfl
        | closed => exact absurd hs hclosed
        | draining => exact absurd hs hstate
      have hclaims := (s.claims_iff a).2 hclosed
      obtain ⟨-, hsa, haa⟩ := h.disjoint
      exact h.tables.setAperture ⟨hvalid', fun _ => hdefined hclosed, fun _ => hfits hclosed, fun _ _ => hview hopened,
        fun _ _ => Cursor.start_within hrange, himage⟩ (fun _ j hj => hsa j a hj hclaims) (fun _ d hd hc => haa d a hd hc hclaims)

/-- WINDOW-SET (R76). -/
theorem Keeps.windowSet {s : State} (h : CoreOk s) (hrunning : s.phase = .running) (b : Byte) (l : List Byte) :
    Keeps s (s.windowSet b l).state := by
  unfold State.windowSet
  cases ha : apertureIx b with
  | none => exact .refl h
  | some a =>
    simp only
    split
    · exact .refl h
    · rename_i hkind
      split
      · exact .refl h
      · rename_i hrange
        split
        · exact .refl h
        · rename_i hinview
          refine ⟨?_, ⟨rfl, rfl, rfl, rfl, rfl⟩⟩
          simp only [Bool.or_eq_true, beq_iff_eq, not_or] at hkind
          have hcore := h.setWindow hrunning (a := a) (w := parseWindow l) (by simpa using hrange) hkind.2
            (fun ho => by simpa [-Fin.getElem_fin, ho] using hinview)
          have hwindow : ((s.setFields a { s.apertures[a].fields with window := parseWindow l }).apertures[a]).fields.window
              = parseWindow l := by
            rw [State.setFields, State.setAperture_apertures_get, if_pos rfl]
          show CoreOk (State.resetCursor _ a)
          rw [State.resetCursor, hwindow]
          exact hcore

end Sys2Proof.Machine
end

