-- ==== Sys2Proof/Proofs/Slots.lean ====
section
/-! PROOF. The profile store (R154 to R157): the slot that a number names, use counts, statuses and images through a save, its
end and its cut. -/

namespace Sys2Proof.Machine

/-! The slot that a number names -/

/-- Slots 0 to 7 are those of the apertures, 8 to 11 those of the surfaces, 12 that of the settings (R154). -/
theorem SlotIx.names (k : SlotIx) :
    (∃ a : ApertureIx, k.val = a.val) ∨ (∃ i : SurfaceIx, k.val = i.val + 8) ∨ k.val = 12 := by
  obtain ⟨n, hn⟩ := k
  by_cases h8 : n < 8
  · exact .inl ⟨⟨n, h8⟩, rfl⟩
  · by_cases h12 : n < 12
    · exact .inr (.inl ⟨⟨n - 8, by omega⟩, by simp only; omega⟩)
    · exact .inr (.inr (by simp only; omega))

theorem State.slotUses_aperture (s : State) {k : SlotIx} {a : ApertureIx} (h : k.val = a.val) :
    s.slotUses k = s.apSlots[a].uses := by
  have ha := a.isLt
  simp [State.slotUses, h]

theorem State.slotUses_surface (s : State) {k : SlotIx} {i : SurfaceIx} (h : k.val = i.val + 8) :
    s.slotUses k = s.sfSlots[i].uses := by
  have hi := i.isLt
  simp [State.slotUses, h]

theorem State.slotUses_settings (s : State) {k : SlotIx} (h : k.val = 12) : s.slotUses k = s.setSlot.uses := by
  simp [State.slotUses, h]

theorem State.slotStatus_aperture (s : State) {k : SlotIx} {a : ApertureIx} (h : k.val = a.val) :
    s.slotStatus k = s.apSlots[a].status := by
  have ha := a.isLt
  simp [State.slotStatus, h]

theorem State.slotStatus_surface (s : State) {k : SlotIx} {i : SurfaceIx} (h : k.val = i.val + 8) :
    s.slotStatus k = s.sfSlots[i].status := by
  have hi := i.isLt
  simp [State.slotStatus, h]

theorem State.slotStatus_settings (s : State) {k : SlotIx} (h : k.val = 12) : s.slotStatus k = s.setSlot.status := by
  simp [State.slotStatus, h]

/-- Use counts and statuses are those of the slots alone. -/
theorem State.slotUses_congr {s t : State} (hap : t.apSlots = s.apSlots) (hsf : t.sfSlots = s.sfSlots)
    (hset : t.setSlot = s.setSlot) (k : SlotIx) : t.slotUses k = s.slotUses k := by
  simp only [State.slotUses, hap, hsf, hset]

theorem State.slotStatus_congr {s t : State} (hap : t.apSlots = s.apSlots) (hsf : t.sfSlots = s.sfSlots)
    (hset : t.setSlot = s.setSlot) (k : SlotIx) : t.slotStatus k = s.slotStatus k := by
  simp only [State.slotStatus, hap, hsf, hset]

/-! The check of a slot -/

theorem State.setSlotCheck_aperture (s : State) {k : SlotIx} {a : ApertureIx} (h : k.val = a.val) (ok : Bool) :
    s.setSlotCheck k ok = { s with apSlots := s.apSlots.set a { s.apSlots[a] with checkOk := ok } } := by
  have ha := a.isLt
  simp [State.setSlotCheck, h]

theorem State.setSlotCheck_surface (s : State) {k : SlotIx} {i : SurfaceIx} (h : k.val = i.val + 8) (ok : Bool) :
    s.setSlotCheck k ok = { s with sfSlots := s.sfSlots.set i { s.sfSlots[i] with checkOk := ok } } := by
  have hi := i.isLt
  simp [State.setSlotCheck, h]

theorem State.setSlotCheck_settings (s : State) {k : SlotIx} (h : k.val = 12) (ok : Bool) :
    s.setSlotCheck k ok = { s with setSlot := { s.setSlot with checkOk := ok } } := by
  simp [State.setSlotCheck, h]

theorem State.setSlotCheck_eq (s : State) (k : SlotIx) (ok : Bool) :
    s.setSlotCheck k ok = { s with
      apSlots := (s.setSlotCheck k ok).apSlots, sfSlots := (s.setSlotCheck k ok).sfSlots
      setSlot := (s.setSlotCheck k ok).setSlot } := by
  obtain ⟨a, h⟩ | ⟨i, h⟩ | h := SlotIx.names k
  · rw [s.setSlotCheck_aperture h]
  · rw [s.setSlotCheck_surface h]
  · rw [s.setSlotCheck_settings h]

/-- The check touches no use count. -/
theorem State.setSlotCheck_slotUses (s : State) (k : SlotIx) (ok : Bool) (j : SlotIx) :
    (s.setSlotCheck k ok).slotUses j = s.slotUses j := by
  obtain ⟨a, h⟩ | ⟨i, h⟩ | h := SlotIx.names k
  · rw [s.setSlotCheck_aperture h]
    simp only [State.slotUses]
    split
    · rw [Vector.getElem_set]
      split
      · simp_all
      · rfl
    · rfl
  · rw [s.setSlotCheck_surface h]
    simp only [State.slotUses]
    split
    · rfl
    · split
      · rw [Vector.getElem_set]
        split
        · simp_all
        · rfl
      · rfl
  · rw [s.setSlotCheck_settings h]; rfl

/-- The status of the slot checked is GOOD or DAMAGED as the check says, BLANK while its use count is 0; the others stay. -/
theorem State.setSlotCheck_slotStatus (s : State) (k : SlotIx) (ok : Bool) (j : SlotIx) :
    (s.setSlotCheck k ok).slotStatus j =
      if j = k then (if s.slotUses k = 0 then .blank else if ok then .good else .damaged) else s.slotStatus j := by
  obtain ⟨a, h⟩ | ⟨i, h⟩ | h := SlotIx.names k
  · rw [s.setSlotCheck_aperture h, s.slotUses_aperture h]
    split
    · subst j
      rw [State.slotStatus_aperture _ h]
      simp [Slot.status]
    · rename_i hjk
      have hne : a.val ≠ j.val := fun he => hjk (Fin.ext (by omega))
      simp only [State.slotStatus]
      split
      · rw [Vector.getElem_set_ne _ _ hne]
      · rfl
  · rw [s.setSlotCheck_surface h, s.slotUses_surface h]
    split
    · subst j
      rw [State.slotStatus_surface _ h]
      simp [Slot.status]
    · rename_i hjk
      have hne : ¬ j.val < 8 → i.val ≠ j.val - 8 := fun hj he => hjk (Fin.ext (by omega))
      simp only [State.slotStatus]
      split
      · rfl
      · split
        · rename_i hj _
          rw [Vector.getElem_set_ne _ _ (hne hj)]
        · rfl
  · rw [s.setSlotCheck_settings h, s.slotUses_settings h]
    split
    · subst j
      rw [State.slotStatus_settings _ h]
      rfl
    · rename_i hjk
      have hlt := j.isLt
      have hj : j.val < 12 := by
        have : j.val ≠ 12 := fun he => hjk (Fin.ext (by omega))
        omega
      simp only [State.slotStatus]
      split
      · rfl
      · rw [dif_pos (by omega), dif_pos (by omega)]

/-! The cut of a save (R157) -/

theorem State.abortSave_of_none (s : State) (h : s.saving = none) : s.abortSave = s := by
  simp [State.abortSave, h]

theorem State.abortSave_of_some (s : State) {k : SlotIx} (h : s.saving = some k) :
    s.abortSave = { s.setSlotCheck k false with saving := none } := by
  simp [State.abortSave, h]

theorem State.abortSave_eq (s : State) :
    s.abortSave = { s with
      apSlots := s.abortSave.apSlots, sfSlots := s.abortSave.sfSlots, setSlot := s.abortSave.setSlot, saving := none } := by
  cases h : s.saving with
  | none => rw [s.abortSave_of_none h, ← h]
  | some k => rw [s.abortSave_of_some h]; rw [State.setSlotCheck_eq]

theorem State.abortSave_slotUses (s : State) (j : SlotIx) : s.abortSave.slotUses j = s.slotUses j := by
  cases h : s.saving with
  | none => rw [s.abortSave_of_none h]
  | some k => rw [s.abortSave_of_some h]; exact s.setSlotCheck_slotUses k false j

/-- The slot being programmed is left DAMAGED, unless its use count is 0; the others stay. -/
theorem State.abortSave_slotStatus (s : State) (j : SlotIx) :
    s.abortSave.slotStatus j =
      if s.saving = some j then (if s.slotUses j = 0 then .blank else .damaged) else s.slotStatus j := by
  cases h : s.saving with
  | none => rw [s.abortSave_of_none h, if_neg (by simp)]
  | some k =>
    rw [s.abortSave_of_some h]
    refine (s.setSlotCheck_slotStatus k false j).trans ?_
    by_cases hjk : j = k
    · subst hjk; simp
    · rw [if_neg hjk, if_neg (fun he => hjk (Option.some.inj he).symm)]

/-! A save (R155) -/

theorem State.saveSlot_aperture (s : State) {k : SlotIx} {a : ApertureIx} (h : k.val = a.val) :
    s.saveSlot k = { s with
      saving := some k, apSlots := s.apSlots.set a (s.apSlots[a].program s.apertures[a].fields) } := by
  have ha := a.isLt
  simp [State.saveSlot, h]

theorem State.saveSlot_surface (s : State) {k : SlotIx} {i : SurfaceIx} (h : k.val = i.val + 8) :
    s.saveSlot k = { s with
      saving := some k, sfSlots := s.sfSlots.set i (s.sfSlots[i].program s.surfaces[i]) } := by
  have hi := i.isLt
  simp [State.saveSlot, h]

theorem State.saveSlot_settings (s : State) {k : SlotIx} (h : k.val = 12) :
    s.saveSlot k = { s with saving := some k, setSlot := s.setSlot.program ⟨s.mode, s.alertMask⟩ } := by
  simp [State.saveSlot, h]

theorem State.saveSlot_eq (s : State) (k : SlotIx) :
    s.saveSlot k = { s with
      saving := some k, apSlots := (s.saveSlot k).apSlots, sfSlots := (s.saveSlot k).sfSlots
      setSlot := (s.saveSlot k).setSlot } := by
  obtain ⟨a, h⟩ | ⟨i, h⟩ | h := SlotIx.names k
  · rw [s.saveSlot_aperture h]
  · rw [s.saveSlot_surface h]
  · rw [s.saveSlot_settings h]

/-- The slot saved: its use count has risen by 1, and it is DAMAGED until its programming ends (R154). -/
theorem State.saveSlot_slot (s : State) (k : SlotIx) :
    (s.saveSlot k).slotUses k = s.slotUses k + 1 ∧ (s.saveSlot k).slotStatus k = .damaged := by
  obtain ⟨a, h⟩ | ⟨i, h⟩ | h := SlotIx.names k
  · rw [State.slotUses_aperture _ h, State.slotStatus_aperture _ h, s.slotUses_aperture h, s.saveSlot_aperture h]
    simp [Slot.program, Slot.status]
  · rw [State.slotUses_surface _ h, State.slotStatus_surface _ h, s.slotUses_surface h, s.saveSlot_surface h]
    simp [Slot.program, Slot.status]
  · rw [State.slotUses_settings _ h, State.slotStatus_settings _ h, s.slotUses_settings h, s.saveSlot_settings h]
    simp [Slot.program, Slot.status]

theorem State.saveSlot_other (s : State) {k j : SlotIx} (hjk : j ≠ k) :
    (s.saveSlot k).slotUses j = s.slotUses j ∧ (s.saveSlot k).slotStatus j = s.slotStatus j := by
  have hval : j.val ≠ k.val := fun he => hjk (Fin.ext he)
  obtain ⟨b, hj⟩ | ⟨m, hj⟩ | hj := SlotIx.names j
  · rw [State.slotUses_aperture _ hj, State.slotStatus_aperture _ hj, s.slotUses_aperture hj, s.slotStatus_aperture hj]
    obtain ⟨a, h⟩ | ⟨i, h⟩ | h := SlotIx.names k
    · have hne : a.val ≠ b.val := by omega
      rw [s.saveSlot_aperture h]
      simp [Vector.getElem_set_ne _ _ hne]
    · rw [s.saveSlot_surface h]; exact ⟨rfl, rfl⟩
    · rw [s.saveSlot_settings h]; exact ⟨rfl, rfl⟩
  · rw [State.slotUses_surface _ hj, State.slotStatus_surface _ hj, s.slotUses_surface hj, s.slotStatus_surface hj]
    obtain ⟨a, h⟩ | ⟨i, h⟩ | h := SlotIx.names k
    · rw [s.saveSlot_aperture h]; exact ⟨rfl, rfl⟩
    · have hne : i.val ≠ m.val := by omega
      rw [s.saveSlot_surface h]
      simp [Vector.getElem_set_ne _ _ hne]
    · rw [s.saveSlot_settings h]; exact ⟨rfl, rfl⟩
  · rw [State.slotUses_settings _ hj, State.slotStatus_settings _ hj, s.slotUses_settings hj, s.slotStatus_settings hj]
    obtain ⟨a, h⟩ | ⟨i, h⟩ | h := SlotIx.names k
    · rw [s.saveSlot_aperture h]; exact ⟨rfl, rfl⟩
    · rw [s.saveSlot_surface h]; exact ⟨rfl, rfl⟩
    · omega

/-- The slot saved holds the live record (R155); no other image changes. -/
theorem State.saveSlot_images (s : State) (k : SlotIx) :
    (∀ a : ApertureIx, (s.saveSlot k).apSlots[a].image =
        if a.val = k.val then some s.apertures[a].fields else s.apSlots[a].image)
    ∧ (∀ i : SurfaceIx, (s.saveSlot k).sfSlots[i].image =
        if i.val + 8 = k.val then some s.surfaces[i] else s.sfSlots[i].image)
    ∧ (s.saveSlot k).setSlot.image = if k.val = 12 then some ⟨s.mode, s.alertMask⟩ else s.setSlot.image := by
  obtain ⟨a, h⟩ | ⟨i, h⟩ | h := SlotIx.names k
  · have ha := a.isLt
    rw [s.saveSlot_aperture h, h]
    refine ⟨fun b => ?_, fun m => (if_neg (by omega)).symm, (if_neg (by omega)).symm⟩
    by_cases hab : a = b
    · subst hab; simp [Slot.program]
    · have hne : a.val ≠ b.val := fun he => hab (Fin.ext he)
      rw [if_neg hne.symm]
      simp [Vector.getElem_set_ne _ _ hne]
  · have hi := i.isLt
    rw [s.saveSlot_surface h, h]
    refine ⟨fun b => (if_neg (by omega)).symm, fun m => ?_, (if_neg (by omega)).symm⟩
    by_cases him : i = m
    · subst him; simp [Slot.program]
    · have hne : i.val ≠ m.val := fun he => him (Fin.ext he)
      rw [if_neg (by omega)]
      simp [Vector.getElem_set_ne _ _ hne]
  · rw [s.saveSlot_settings h, h]
    exact ⟨fun b => (if_neg (by omega)).symm, fun m => (if_neg (by omega)).symm, (if_pos rfl).symm⟩

end Sys2Proof.Machine
end

