-- ==== Sys2Proof/Proofs/Commands.lean ====
section
/-! PROOF. The laws through the commands of the management port, the profile store, the clock and the soft reset. -/

namespace Sys2Proof.Machine

/-! Slots -/

/-- New slots within the bounds, with valid images, keep the laws. -/
theorem CoreOk.with_slots {s t : State} (h : CoreOk s)
    (ht : t = { s with apSlots := t.apSlots, sfSlots := t.sfSlots, setSlot := t.setSlot, saving := t.saving })
    (huses : ∀ k : SlotIx, t.slotUses k ≤ 3) (hsaving : ∀ k, t.saving = some k → t.slotStatus k = .damaged)
    (hap : ∀ (a : ApertureIx) f, t.apSlots[a].image = some f → f.valid = true)
    (hsf : ∀ (i : SurfaceIx) r, t.sfSlots[i].image = some r → r.valid = true) : CoreOk t := by
  obtain ⟨hsurfaces, happertures, hdisjoint⟩ := (tablesOk_iff s).1 h.tables
  obtain ⟨hout, halone, htakes, hstep, hflushing, hflushed⟩ := h.work
  obtain ⟨hroom, hheld, hmark, hdiscarded, hcount, hlength, -, -⟩ := h.counts
  have hhold := h.hold
  have hreads := h.reads
  rw [ht] at huses hsaving ⊢
  refine ⟨⟨hout, halone, htakes, hstep, hflushing, hflushed⟩,
    ⟨hroom, hheld, hmark, hdiscarded, hcount, hlength, huses, hsaving⟩, hhold,
    (tablesOk_iff _).2 ⟨fun i => ?_, fun a => ?_, hdisjoint⟩, hreads⟩
  · obtain ⟨hvalid, hfresh, hactive, hpending, hrow, -⟩ := hsurfaces i
    exact ⟨hvalid, hfresh, hactive, hpending, hrow, hsf i⟩
  · obtain ⟨hvalid, hdefined, hfits, hview, hwithin, -⟩ := happertures a
    exact ⟨hvalid, hdefined, hfits, hview, hwithin, hap a⟩

theorem CoreOk.slotUses_le {s : State} (h : CoreOk s) (k : SlotIx) : s.slotUses k ≤ 3 := by
  obtain ⟨-, -, -, -, -, -, huses, -⟩ := h.counts
  exact huses k

theorem CoreOk.saveSlot {s : State} (h : CoreOk s) {k : SlotIx} (hk : s.slotUses k < 3) : CoreOk (s.saveSlot k) := by
  obtain ⟨huses, hstatus⟩ := s.saveSlot_slot k
  obtain ⟨hap, hsf, -⟩ := s.saveSlot_images k
  have hsaving : (s.saveSlot k).saving = some k := by rw [State.saveSlot_eq]
  refine h.with_slots (by rw [hsaving]; exact s.saveSlot_eq k) (fun j => ?_) (fun j hj => ?_) (fun a f hf => ?_) fun i r hr => ?_
  · by_cases hjk : j = k
    · subst hjk; omega
    · rw [(s.saveSlot_other hjk).1]; exact h.slotUses_le j
  · rw [hsaving] at hj; cases hj; exact hstatus
  · rw [hap] at hf
    split at hf
    · cases hf; exact (h.aperture a).valid
    · exact (h.aperture a).image f hf
  · rw [hsf] at hr
    split at hr
    · cases hr; exact (h.surface i).valid
    · exact (h.surface i).image r hr

/-- The end of a save, read back or cut. -/
theorem CoreOk.endSave {s : State} (h : CoreOk s) (k : SlotIx) (ok : Bool) :
    CoreOk { s.setSlotCheck k ok with saving := none } := by
  obtain ⟨hap, hsf, -⟩ := s.setSlotCheck_imagesKept k ok
  refine h.with_slots (by rw [State.setSlotCheck_eq]) (fun j => ?_) (fun j hj => by cases hj) (fun a f hf => ?_) fun i r hr => ?_
  · exact (s.setSlotCheck_slotUses k ok j).trans_le (h.slotUses_le j)
  · exact (h.aperture a).image f ((hap a).symm.trans hf)
  · exact (h.surface i).image r ((hsf i).symm.trans hr)

theorem CoreOk.abortSave {s : State} (h : CoreOk s) : CoreOk s.abortSave := by
  cases hs : s.saving with
  | none => rw [s.abortSave_of_none hs]; exact h
  | some k => rw [s.abortSave_of_some hs]; exact h.endSave k false

/-- PROFILE-SAVE (R155). -/
theorem Keeps.profileSave {s : State} (h : CoreOk s) (b : Byte) : Keeps s (s.profileSave b).state := by
  unfold State.profileSave
  split
  · exact .refl h
  · cases hk : slotIx b with
    | none => exact .refl h
    | some k =>
      simp only
      split
      · exact .refl h
      · rename_i huses
        refine ⟨h.saveSlot (by omega), ?_⟩
        show SameRequests s (s.saveSlot k)
        rw [State.saveSlot_eq]
        exact ⟨rfl, rfl, rfl, rfl, rfl⟩

/-! Marks, masks, stages -/

theorem CoreOk.with_highWater {s : State} (h : CoreOk s) {n : Nat} (hn : n ≤ Config.holdCapacity) :
    CoreOk { s with highWater := n } := by
  obtain ⟨⟨hout, halone, htakes, hstep, hflushing, hflushed⟩, ⟨hroom, hheld, -, hdiscarded, hcount, hlength, huses, hsaving⟩, hhold, htables, hreads⟩ := h
  exact ⟨⟨hout, halone, htakes, hstep, hflushing, hflushed⟩, ⟨hroom, hheld, hn, hdiscarded, hcount, hlength, huses, hsaving⟩,
    hhold, htables, hreads⟩

/-- The occupancy that HOLD-READ sees is within the capacity. -/
theorem CoreOk.occupancySeen_le {s : State} (h : CoreOk s) : s.occupancySeen ≤ Config.holdCapacity := by
  have hroom := h.room
  rw [State.occupancySeen, State.heldAll, List.length_append]
  exact hroom

/-- EVENT-READ takes the oldest record away (R140). -/
theorem Keeps.eventRead {s : State} (h : CoreOk s) : Keeps s s.eventRead.state := by
  unfold State.eventRead
  cases he : s.events with
  | nil => exact .refl h
  | cons r rs =>
    refine ⟨h.with_events s.seqCounter ?_, ⟨rfl, rfl, rfl, rfl, rfl⟩⟩
    have hlength := h.events_length_le
    rw [he, List.length_cons] at hlength
    omega

theorem CoreOk.with_mask {s : State} (h : CoreOk s) (m : BitVec 13) : CoreOk { s with alertMask := m } := by
  obtain ⟨⟨hout, halone, htakes, hstep, hflushing, hflushed⟩, hcounts, hhold, htables, hreads⟩ := h
  exact ⟨⟨hout, halone, htakes, hstep, hflushing, hflushed⟩, hcounts, hhold, htables, hreads⟩

theorem Keeps.alertMaskCommand {s : State} (h : CoreOk s) (action : Byte) (mask : BitVec 16) :
    Keeps s (s.alertMaskCommand action mask).state := by
  unfold State.alertMaskCommand
  split
  · exact .refl h
  · split
    · split
      · exact .refl h
      · exact ⟨h.with_mask _, ⟨rfl, rfl, rfl, rfl, rfl⟩⟩
    · exact .refl h

/-- The soft reset starts: the part still works (R151). -/
theorem CoreOk.startSoftReset {s : State} (h : CoreOk s) (hrunning : s.phase = .running) :
    CoreOk { s with phase := .softReset .drain } := by
  obtain ⟨⟨-, halone, htakes, hstep, -, -⟩, ⟨hroom, hheld, hmark, hdiscarded, -, hlength, huses, hsaving⟩,
    ⟨hahead, hbypass, hdrains, -, hscanner, htimers, hrun⟩, htables, hreads⟩ := h
  exact ⟨⟨fun hw => (by cases hw), halone, htakes, hstep, fun hf => (by cases hf), fun hf => (by cases hf)⟩,
    ⟨hroom, hheld, hmark, hdiscarded, fun n hn => (by cases hn), hlength, huses, hsaving⟩,
    ⟨hahead, hbypass, fun _ => hdrains (by simp [State.working, hrunning]), fun n hn => (by cases hn), hscanner, htimers,
      fun _ => hrun (by simp [State.inReset, hrunning])⟩, htables, hreads⟩

/-! Commands that waited for an accepted write (log entry 36) -/

theorem Keeps.command {s t : State} (h : Keeps s t) (c : Instr) (gated complete waits : Bool) (body : Answer)
    (hbody : (gated = true → t.phase = .running) → complete = true → waits = false → Keeps s body.state) :
    Keeps s (t.command c gated complete waits body) :=
  State.command_keeps (fun _ p hu => hu.setPort p) h c gated complete waits body hbody

theorem Keeps.takeModeSet {s : State} (h : CoreOk s) (m : Byte) : Keeps s (s.takeModeSet m) :=
  (Keeps.refl h).command _ _ _ _ _ fun _ _ hwaits => .modeSet h m hwaits

theorem Keeps.takeSurfaceWrite {s : State} (h : CoreOk s) (b : Byte) (l : List Byte) : Keeps s (s.takeSurfaceWrite b l) :=
  (Keeps.refl h).command _ _ _ _ _ fun _ _ hwaits => .surfaceWrite h b l hwaits

theorem Keeps.takeApertureClose {s : State} (h : CoreOk s) (b : Byte) : Keeps s (s.takeApertureClose b) :=
  (Keeps.refl h).command _ _ _ _ _ fun hrunning _ _ => .apertureClose h (hrunning rfl) b

theorem Keeps.resumePort {s : State} (h : CoreOk s) : Keeps s s.resumePort := by
  unfold State.resumePort
  split
  · split
    · exact .takeModeSet h _
    · exact .takeSurfaceWrite h _ _
    · exact .takeApertureClose h _
    · exact .refl h
  · exact .refl h

/-! The clock -/

theorem SurfaceOk.tick {r : SurfaceRec} {c : ScanCtx} {image : Option SurfaceRec} (h : SurfaceOk r c image) :
    SurfaceOk r { c with timer := c.timer.map timerTick } image :=
  ⟨h.valid, h.fresh.imp_right fun hf => by rw [hf]; rfl, h.active, h.pending, h.row, h.image⟩

/-- One REFCLK period changes remaining times alone, and stops no timer. -/
theorem Keeps.tick {s : State} (h : CoreOk s) : Keeps s s.tick := by
  obtain ⟨hsurfaces, happertures, hdisjoint⟩ := (tablesOk_iff s).1 h.tables
  obtain ⟨hahead, hbypass, hdrains, hloading, hscanner, htimers, hrun⟩ := h.hold
  have hstate : ∀ i : SurfaceIx, s.tick.scans[i].state = s.scans[i].state := fun i => by rw [State.tick_scans_get]
  have htimer : ∀ i : SurfaceIx, s.tick.scans[i].timer.isSome = s.scans[i].timer.isSome := fun i => by
    rw [State.tick_scans_get]; exact Option.isSome_map
  refine ⟨⟨h.work.with_scans fun i => ?_, h.counts, ⟨fun f hf => ?_, fun hm => ?_, hdrains, fun n hn => ?_, fun i hi => ?_,
    fun i hi => ?_, fun hr i hi ht => ?_⟩, (tablesOk_iff _).2 ⟨fun i => ?_, happertures, hdisjoint⟩, h.reads⟩, ⟨rfl, rfl, rfl, rfl, rfl⟩⟩
  · have hi := s.tick_scans_get i
    rw [State.tick] at hi
    rw [hi]; exact ⟨rfl, rfl⟩
  · rw [State.standsAhead_iff, State.tick_scans_get]
    exact (s.standsAhead_iff f).1 (hahead f hf)
  · obtain ⟨hclosed, hqueue, htodo, hscans⟩ := hbypass hm
    exact ⟨hclosed, hqueue, htodo, fun i => (hstate i).trans (hscans i)⟩
  · exact ⟨fun i => (hstate i).trans ((hloading n hn).1 i), (hloading n hn).2⟩
  · exact (hstate i).trans (hscanner i hi)
  · exact (hstate i).trans (htimers i ((htimer i).symm.trans hi))
  · exact (htimer i).trans (hrun hr i ((hstate i).symm.trans hi) ht)
  · rw [State.tick_scans_get]; exact (hsurfaces i).tick

/-! The end of the soft reset (R107, R151) -/

theorem SurfaceOk.softReset {r : SurfaceRec} {c : ScanCtx} {image : Option SurfaceRec} (h : SurfaceOk r c image) :
    SurfaceOk r (c.softReset r) image := by
  refine ⟨h.valid, ?_, SurfaceRec.optBandOk_of_valid h.valid, h.pending, fun hs => (by cases hs), h.image⟩
  cases hd : r.defined with
  | true => exact .inl rfl
  | false =>
    have hc := h.fresh.resolve_left (by rw [hd]; decide)
    rw [SurfaceRec.eq_cleared_of_not_defined h.valid hd, hc]
    exact .inr rfl

/-- Every cursor at the start of its window stands in the window. -/
theorem CoreOk.resetCursors {s : State} (h : CoreOk s) : CoreOk s.resetCursors := by
  obtain ⟨hsurfaces, happertures, hdisjoint⟩ := (tablesOk_iff s).1 h.tables
  obtain ⟨⟨hout, halone, htakes, hstep, hflushing, hflushed⟩, hcounts, hhold, -, hreads⟩ := h
  refine ⟨⟨hout, halone, htakes, hstep, hflushing, hflushed⟩, hcounts, hhold, (tablesOk_iff _).2 ⟨hsurfaces, fun a => ?_, hdisjoint⟩, hreads⟩
  obtain ⟨hvalid, hdefined, hfits, hview, -, himage⟩ := happertures a
  rw [State.resetCursors_get]
  exact ⟨hvalid, hdefined, hfits, hview, fun _ _ => Cursor.start_within (ApertureFields.windowInRange_of_valid hvalid), himage⟩

/-- The contexts after the flush: nothing is held, so none has to be ahead of a scanner. -/
theorem CoreOk.softResetScans {s : State} (h : CoreOk s) (hqueue : s.queue = []) (hjob : s.writeJob = none) :
    CoreOk s.softResetScans := by
  obtain ⟨hsurfaces, happertures, hdisjoint⟩ := (tablesOk_iff s).1 h.tables
  obtain ⟨-, hbypass, hdrains, hloading, -, -, -⟩ := h.hold
  obtain ⟨hout, halone, -, -, hflushing, hflushed⟩ := h.work
  have hrelease := h.release_none_of_queue_nil hqueue
  have hidle : ∀ i : SurfaceIx, s.softResetScans.scans[i].state = .idle := fun i => by rw [State.softResetScans_get]; rfl
  refine ⟨⟨hout, halone, fun rel hr => ?_, ?_, hflushing, hflushed⟩, h.counts, ⟨fun f hf => ?_, fun hm => ?_, hdrains,
    fun n hn => ⟨hidle, (hloading n hn).2⟩, fun i _ => hidle i, fun i hi => ?_, fun _ i hi => ?_⟩,
    (tablesOk_iff _).2 ⟨fun i => ?_, happertures, hdisjoint⟩, h.reads⟩
  · cases hrelease.symm.trans hr
  · rw [State.stepOk, show s.softResetScans.release = none from hrelease]
  · rw [State.heldAll_of_empty (s := s.softResetScans) hqueue (by rw [State.todo, show s.softResetScans.writeJob = none from hjob])] at hf
    cases hf
  · obtain ⟨hclosed, -, htodo, -⟩ := hbypass hm
    exact ⟨hclosed, hqueue, htodo, hidle⟩
  · rw [State.softResetScans_get] at hi; cases hi
  · rw [hidle i] at hi; cases hi
  · rw [State.softResetScans_get]; exact (hsurfaces i).softReset

/-- The part runs again, the mark 0 (log entry 35). -/
theorem CoreOk.resume {s : State} (h : CoreOk s) {n : Nat} (hphase : s.phase = .softReset (.flushed n)) :
    CoreOk { s with phase := .running, highWater := 0 } := by
  obtain ⟨⟨-, halone, htakes, hstep, -, -⟩, ⟨hroom, hheld, -, hdiscarded, -, hlength, huses, hsaving⟩,
    ⟨hahead, hbypass, hdrains, -, hscanner, htimers, hrun⟩, htables, hreads⟩ := h
  exact ⟨⟨fun hw => (by cases hw), halone, htakes, hstep, fun hf => (by cases hf), fun hf => (by cases hf)⟩,
    ⟨hroom, hheld, Nat.zero_le _, hdiscarded, fun n hn => (by cases hn), hlength, huses, hsaving⟩,
    ⟨hahead, hbypass, fun _ => hdrains (by simp [State.working, hphase]), fun n hn => (by cases hn), hscanner, htimers,
      fun _ => hrun (by simp [State.inReset, hphase])⟩, htables, hreads⟩

end Sys2Proof.Machine
end

