-- ==== Sys2Proof/Proofs/Upstream.lean ====
section
/-! PROOF. The laws through the writes and reads that the upstream port considers. -/

namespace Sys2Proof.Machine

/-! Hold decisions (R111) -/

theorem sameRow_iff (l : List Frag) (f : Frag) : sameRow l f = true ↔ ∃ g ∈ l, g.surface = f.surface ∧ g.row = f.row := by
  simp [sameRow]

/-- Fragments of one surface and row stand ahead together. -/
theorem State.standsAhead_of_sameRow (s : State) {f g : Frag} (hsurface : g.surface = f.surface) (hrow : g.row = f.row) :
    s.standsAhead g = s.standsAhead f := by
  rw [State.standsAhead, State.standsAhead, State.rowAhead, State.rowAhead, hrow]
  simp only [hsurface]

/-- Where the hold law stands, line 4 of R111 holds nothing that line 5 would not hold. -/
theorem State.holdDecision_eq_standsAhead {s : State} (hahead : ∀ f ∈ s.heldAll, s.standsAhead f = true) {earlier : List Frag}
    (hearlier : ∀ g ∈ earlier, s.standsAhead g = true) (f : Frag) : s.holdDecision earlier f = s.standsAhead f := by
  have hsame : (sameRow s.queue f || sameRow earlier f) = true → s.standsAhead f = true := by
    rw [Bool.or_eq_true, sameRow_iff, sameRow_iff]
    rintro (⟨g, hg, hsurface, hrow⟩ | ⟨g, hg, hsurface, hrow⟩)
    · rw [← s.standsAhead_of_sameRow hsurface hrow]; exact hahead g (List.mem_append_left _ hg)
    · rw [← s.standsAhead_of_sameRow hsurface hrow]; exact hearlier g hg
  unfold State.holdDecision
  simp only
  split
  · rename_i hpolicy
    rw [Bool.or_eq_true, beq_iff_eq, Option.isNone_iff_eq_none] at hpolicy
    obtain hp | hn := hpolicy <;> simp [State.standsAhead, -Fin.getElem_fin, *]
  · rename_i hpolicy
    rw [Bool.or_eq_true, beq_iff_eq, not_or, Option.isNone_iff_eq_none] at hpolicy
    have htrail : s.surfaces[f.surface].policy = .trail := by
      cases hp : s.surfaces[f.surface].policy with
      | trail => rfl
      | pass => exact absurd hp hpolicy.1
    have hsome : s.surfaces[f.surface].scanner.isSome = true := Option.isSome_iff_ne_none.2 hpolicy.2
    split
    · rename_i hstate
      simp [State.standsAhead, State.rowAhead, -Fin.getElem_fin, bne_iff_ne.1 hstate]
    · split
      · rename_i hrange
        rw [Bool.not_eq_true'] at hrange
        simp [State.standsAhead, State.rowAhead, -Fin.getElem_fin, hrange]
      · split
        · rename_i hs; exact (hsame hs).symm
        · simp [State.standsAhead, -Fin.getElem_fin, htrail, hsome]

/-- The fragments of a write that are decided held stand ahead (R113). -/
theorem State.decideAll_standsAhead {s : State} (hahead : ∀ f ∈ s.heldAll, s.standsAhead f = true) (l earlier : List Frag)
    (hearlier : ∀ g ∈ earlier, s.standsAhead g = true) :
    ∀ p ∈ s.decideAll earlier l, p.hold = true → s.standsAhead p.frag = true := by
  induction l generalizing earlier with
  | nil => intro p hp; cases hp
  | cons f fs ih =>
    intro p hp hhold
    simp only [State.decideAll, List.mem_cons] at hp
    have hdecision := State.holdDecision_eq_standsAhead hahead hearlier f
    obtain rfl | hp := hp
    · exact hdecision ▸ hhold
    · refine ih _ ?_ p hp hhold
      split
      · rename_i hh
        intro g hg
        obtain hg | hg := List.mem_append.1 hg
        · exact hearlier g hg
        · rw [List.mem_singleton.1 hg, ← hdecision]; exact hh
      · exact hearlier

/-! Cursors (R69) -/

theorem Cursor.advance_within {w : Window} (hcol : w.colFirst ≤ w.colLast) (hrow : w.rowFirst ≤ w.rowLast) (ov : Overflow)
    {c : Cursor} (h : c.within w = true) : (c.advance w ov).within w = true := by
  simp only [Cursor.within, Bool.or_eq_true, Bool.and_eq_true, decide_eq_true_eq] at h ⊢
  unfold Cursor.advance
  split
  · exact h
  · rename_i hrunning
    obtain ⟨⟨⟨h1, h2⟩, h3⟩, h4⟩ := h.resolve_left hrunning
    split
    · exact .inr ⟨⟨⟨by simp only; omega, by simp only; omega⟩, h3⟩, h4⟩
    · split
      · exact .inr ⟨⟨⟨by simp only; omega, by simp only; omega⟩, by simp only; omega⟩, by simp only; omega⟩
      · exact .inr ⟨⟨⟨by simp only; omega, by simp only; omega⟩, by simp only; omega⟩, by simp only; omega⟩

theorem Cursor.after_within {w : Window} (hcol : w.colFirst ≤ w.colLast) (hrow : w.rowFirst ≤ w.rowLast) (ov : Overflow)
    (n : Nat) {c : Cursor} (h : c.within w = true) : (cursorAfter w ov n c).within w = true := by
  induction n generalizing c with
  | zero => exact h
  | succ n ih => exact ih (c.advance_within hcol hrow ov h)

/-- The cursor that a stream request leaves stands in the window. -/
theorem streamCursorAfter_within {f : ApertureFields} (hvalid : f.valid = true) (q : Access) {c : Cursor}
    (h : c.within f.window = true) : (streamCursorAfter f q c).within f.window = true := by
  have hrange := ApertureFields.windowInRange_of_valid hvalid
  have hstart := Cursor.start_within hrange
  simp only [windowInRange, Bool.and_eq_true, decide_eq_true_eq] at hrange
  refine Cursor.after_within hrange.1.2 hrange.2 _ _ ?_
  unfold streamCursor
  split
  · exact hstart
  · exact h

/-- A cursor of a claimed stream aperture moves within its window. -/
theorem CoreOk.setCursor {s : State} (h : CoreOk s) {a : ApertureIx} {c : Cursor}
    (hc : s.cursors[a].within s.apertures[a].fields.window = true → c.within s.apertures[a].fields.window = true) :
    CoreOk (s.setCursor a c) := by
  obtain ⟨hsurfaces, happertures, hdisjoint⟩ := (tablesOk_iff s).1 h.tables
  obtain ⟨⟨hout, halone, htakes, hstep, hflushing, hflushed⟩, hcounts, hhold, -, hreads⟩ := h
  refine ⟨⟨hout, halone, htakes, hstep, hflushing, hflushed⟩, hcounts, hhold, (tablesOk_iff _).2 ⟨hsurfaces, fun b => ?_, hdisjoint⟩, hreads⟩
  obtain ⟨hvalid, hdefined, hfits, hview, hwithin, himage⟩ := happertures b
  refine ⟨hvalid, hdefined, hfits, hview, fun ho hk => ?_, himage⟩
  rw [State.setCursor_cursors_get]
  split
  · rename_i hab; subst hab; exact hc (hwithin ho hk)
  · exact hwithin ho hk

/-! Writes -/

theorem CoreOk.takeWrite {s : State} (h : CoreOk s) : CoreOk s.takeWrite := by
  obtain ⟨⟨hout, halone, htakes, hstep, hflushing, hflushed⟩, hcounts, hhold, htables, hreads⟩ := h
  exact ⟨⟨hout, halone, htakes, hstep, hflushing, hflushed⟩, hcounts, hhold, htables, hreads⟩

theorem State.acceptThrough_eq (s : State) (a : ApertureIx) (w : WriteReq) (plan : WritePlan) :
    s.acceptThrough a w plan = { s with
      cursors := (s.acceptThrough a w plan).cursors, events := (s.acceptThrough a w plan).events
      seqCounter := (s.acceptThrough a w plan).seqCounter } := by
  unfold State.acceptThrough State.raiseIf
  cases plan.cursor <;> cases plan.partialDrop <;> cases plan.exhaustedDrop <;> rfl

theorem CoreOk.acceptThrough {s : State} (h : CoreOk s) {a : ApertureIx} {plan : WritePlan}
    (hplan : ∀ c, plan.cursor = some c → s.cursors[a].within s.apertures[a].fields.window = true →
      c.within s.apertures[a].fields.window = true) (w : WriteReq) : CoreOk (s.acceptThrough a w plan) := by
  unfold State.acceptThrough
  refine CoreOk.raiseIf (CoreOk.raiseIf ?_ _ _) _ _
  cases hc : plan.cursor with
  | none => exact h
  | some c => exact h.setCursor (hplan c hc)

/-- The fragments of a write that has room are taken over by the write channel. -/
theorem CoreOk.startWrite {s : State} (h : CoreOk s) (hrunning : s.phase = .running) (hrelease : s.release = none)
    (hmode : s.mode ≠ .bypass) {ds : List PendingFrag} (hroom : heldNeed ds ≤ s.freeEntries)
    (hahead : ∀ p ∈ ds, p.hold = true → s.standsAhead p.frag = true) (q : Requester) (t : Tag) :
    CoreOk { s with writeJob := some (.fragments q t ds) } := by
  have hqueue : s.queue.length ≤ Config.holdCapacity := by have := h.room; omega
  obtain ⟨⟨-, -, -, -, -, -⟩, ⟨-, hheld, hmark, hdiscarded, hcount, hlength, huses, hsaving⟩,
    ⟨hall, -, hdrains, hloading, hscanner, htimers, hrun⟩, htables, hreads⟩ := h
  refine ⟨⟨fun hw => ?_, fun hr => ?_, fun rel hr => ?_, ?_, fun hf => ?_, fun hf => ?_⟩,
    ⟨?_, hheld, hmark, hdiscarded, hcount, hlength, huses, hsaving⟩,
    ⟨fun f hf => ?_, fun hm => absurd hm hmode, hdrains, hloading, hscanner, htimers, hrun⟩, htables, hreads⟩
  · simp [State.working, hrunning] at hw
  · simp [hrelease] at hr
  · cases hrelease.symm.trans hr
  · simp only [State.stepOk, hrelease]
  · simp [State.flushing, hrunning] at hf
  · simp [State.flushedCount, hrunning] at hf
  · have hjoining : (State.joining { s with writeJob := some (.fragments q t ds) }).length = heldNeed ds := by
      simp [State.joining, State.todo, heldNeed, List.countP_eq_length_filter]
    rw [hjoining]
    show s.queue.length + heldNeed ds + s.releasedCount ≤ _
    rw [State.releasedCount, hrelease]
    rw [State.freeEntries] at hroom
    simp only
    omega
  · obtain hf | hf := List.mem_append.1 hf
    · exact hall f (List.mem_append_left _ hf)
    · obtain ⟨p, hp, rfl⟩ := List.mem_map.1 hf
      obtain ⟨hp, hhold⟩ := List.mem_filter.1 hp
      exact hahead p hp hhold

/-- The handling of a write touches the queue and the channel, and what the orders touch. -/
theorem State.handle_touches (q : Requester) (t : Tag) (l : List PendingFrag) (s : State) :
    State.handle q t l s = { s with
      queue := (State.handle q t l s).queue, highWater := (State.handle q t l s).highWater
      apertures := (State.handle q t l s).apertures, writeJob := (State.handle q t l s).writeJob
      writeResp := (State.handle q t l s).writeResp, orders := (State.handle q t l s).orders
      release := (State.handle q t l s).release, scans := (State.handle q t l s).scans
      table := (State.handle q t l s).table, events := (State.handle q t l s).events
      seqCounter := (State.handle q t l s).seqCounter, phase := (State.handle q t l s).phase } := by
  induction l generalizing s with
  | nil =>
    rw [State.handle, State.takeOrders_eq]
    rfl
  | cons p ps ih =>
    rw [State.handle]
    split
    · rw [ih, State.join_eq]
    · rfl

theorem State.handle_issuing (q : Requester) (t : Tag) (l : List PendingFrag) (s : State) :
    (State.handle q t l s).issuing = s.issuing := by
  induction l generalizing s with
  | nil =>
    rw [State.handle, State.takeOrders_issuing]
    exact State.issuing_of_table rfl
  | cons p ps ih =>
    rw [State.handle]
    split
    · rw [ih, State.join_eq]; rfl
    · rfl

theorem State.handle_stepEntry (q : Requester) (t : Tag) (l : List PendingFrag) (s : State) (h : s.stepEntry = none) :
    (State.handle q t l s).stepEntry = none := by
  induction l generalizing s with
  | nil => exact State.takeOrders_stepEntry _ _ h
  | cons p ps ih =>
    rw [State.handle]
    split
    · exact ih _ (by rw [State.join_eq]; exact h)
    · exact h

theorem State.writeOpen_iff (s : State) : s.writeOpen = true ↔
    s.phase = .running ∧ s.writeJob = none ∧ s.writeResp = none ∧ s.release = none := by
  simp [State.writeOpen, and_assoc]

theorem State.classify_of_bypass (s : State) (q : Access) (h : s.mode = .bypass) : s.classify q = .transparent := by
  rw [State.classify, h]

/-- What the acceptance of a write with fragments changes before they are handled: the head of the channel, and what its
aperture's cursor and events ask for. -/
def State.acceptPlan (s : State) (w : WriteReq) (through : Option ApertureIx) (plan : WritePlan) : State :=
  match through with
  | none => s.takeWrite
  | some a => s.takeWrite.acceptThrough a w plan

theorem State.acceptPlan_eq (s : State) (w : WriteReq) (through : Option ApertureIx) (plan : WritePlan) :
    s.acceptPlan w through plan = { s with
      headWrite := none, episode := false, cursors := (s.acceptPlan w through plan).cursors
      events := (s.acceptPlan w through plan).events, seqCounter := (s.acceptPlan w through plan).seqCounter } := by
  cases through with
  | none => rfl
  | some a => simp only [State.acceptPlan]; rw [State.acceptThrough_eq]; rfl

/-- A write with room is accepted whole (R114). -/
theorem State.considerFrags_of_room (s : State) (w : WriteReq) (i : SurfaceIx) (through : Option ApertureIx) (plan : WritePlan)
    (h : heldNeed (s.decideAll [] plan.frags) ≤ s.freeEntries) :
    s.considerFrags w i through plan = (State.handle w.requester w.tag (s.decideAll [] plan.frags) (s.acceptPlan w through plan)).handOver := by
  cases through <;> exact if_pos h

/-- A write without room waits, with HOLD-FULL once for its episode (R115, R116). -/
theorem State.considerFrags_of_full (s : State) (w : WriteReq) (i : SurfaceIx) (through : Option ApertureIx) (plan : WritePlan)
    (h : s.freeEntries < heldNeed (s.decideAll [] plan.frags)) :
    s.considerFrags w i through plan =
      { s.raiseIf (!s.episode) (holdFullEvent i w s.scans[i].frame (heldNeed (s.decideAll [] plan.frags))) with
        headWrite := some w, episode := true } := by
  exact if_neg (Nat.not_le.2 h)

theorem CoreOk.acceptPlan {s : State} (h : CoreOk s) (w : WriteReq) {through : Option ApertureIx} {plan : WritePlan}
    (hplan : ∀ a, through = some a → ∀ c, plan.cursor = some c → s.cursors[a].within s.apertures[a].fields.window = true →
      c.within s.apertures[a].fields.window = true) : CoreOk (s.acceptPlan w through plan) := by
  cases through with
  | none => exact h.takeWrite
  | some a => exact h.takeWrite.acceptThrough (hplan a rfl) w

theorem CoreOk.with_headWrite {s : State} (h : CoreOk s) (w : Option WriteReq) (e : Bool) :
    CoreOk { s with headWrite := w, episode := e } := by
  obtain ⟨⟨hout, halone, htakes, hstep, hflushing, hflushed⟩, hcounts, hhold, htables, hreads⟩ := h
  exact ⟨⟨hout, halone, htakes, hstep, hflushing, hflushed⟩, hcounts, hhold, htables, hreads⟩

/-- A write given fragments: accepted whole with its requests handed over, or left waiting (R114, R115). -/
theorem Inv.considerFrags {s : State} (h : Inv s) (hopen : s.writeOpen = true) (hmode : s.mode ≠ .bypass) (w : WriteReq)
    (i : SurfaceIx) {through : Option ApertureIx} {plan : WritePlan}
    (hplan : ∀ a, through = some a → ∀ c, plan.cursor = some c → s.cursors[a].within s.apertures[a].fields.window = true →
      c.within s.apertures[a].fields.window = true) : Inv (s.considerFrags w i through plan) := by
  obtain ⟨hrunning, hjob, -, hrelease⟩ := s.writeOpen_iff.1 hopen
  have hs := h.stepOk
  obtain hroom | hfull := le_or_gt (heldNeed (s.decideAll [] plan.frags)) s.freeEntries
  · rw [s.considerFrags_of_room w i through plan hroom]
    have hcore := hs.core.acceptPlan w hplan
    have hu := s.acceptPlan_eq w through plan
    have hjoined : CoreOk { s.acceptPlan w through plan with
        writeJob := some (.fragments w.requester w.tag (s.decideAll [] plan.frags)) } := by
      refine hcore.startWrite (by rw [hu]; exact hrunning) (by rw [hu]; exact hrelease) (by rw [hu]; exact hmode)
        (by rw [hu]; exact hroom) (fun p hp hhold => ?_) _ _
      rw [hu]
      exact State.decideAll_standsAhead hs.core.ahead _ [] (fun g hg => by cases hg) p hp hhold
    obtain ⟨hcore', hhead, horders⟩ := CoreOk.handle _ hjoined
    refine StepOk.handOver ⟨hcore', hhead, horders, hs.port.mono ?_ fun b hb => ?_⟩
    · rw [State.handle_touches, hu]
    · cases b with
      | writeChannel => exact absurd hjob ((s.formed_writeChannel_iff).1 hb)
      | holdQueue => exact absurd hrelease ((s.formed_holdQueue_iff).1 hb)
      | readTracker =>
        refine State.formed_readTracker_mono ?_ ?_ (.inr (State.handle_stepEntry _ _ _ _ ?_)) hb
        · rw [State.handle_touches, hu]
        · rw [State.handle_issuing, hu]; rfl
        · rw [hu, State.stepEntry]; simp only [hrelease]; rfl
  · rw [s.considerFrags_of_full w i through plan hfull]
    refine Keeps.inv (s := s) ⟨(hs.core.raiseIf _ _).with_headWrite _ _, ?_⟩ h
    exact ⟨by simp, by simp, by simp, State.issuingEntry_of_table (by simp) (by simp), by simp⟩

theorem streamWritePlan_within {f : ApertureFields} (hvalid : f.valid = true) (a : ApertureIx) (r : SurfaceRec) (w : WriteReq)
    {c c' : Cursor} (hc : (streamWritePlan a f r w c).cursor = some c') (h : c.within f.window = true) :
    c'.within f.window = true := by
  have hafter := streamCursorAfter_within hvalid (writeAccess w) h
  cases hc
  exact hafter

/-- The channel without fragments to handle: with no write, or in the running part with a transparent one. -/
theorem CoreOk.with_writeJob {s : State} (h : CoreOk s) {j : Option WriteJob} (hj : ∀ q t l, j ≠ some (.fragments q t l))
    (hrunning : j ≠ none → s.phase = .running) (r : Option WriteResp) : CoreOk { s with writeJob := j, writeResp := r } := by
  have hcutting : State.cutting { s with writeJob := j, writeResp := r } = false := by
    unfold State.cutting
    split
    · exact absurd ‹_› (hj _ _ _)
    · rfl
  have hheldAll : ∀ f ∈ State.heldAll { s with writeJob := j, writeResp := r }, f ∈ s.heldAll := by
    rw [State.heldAll_of_not_cutting _ hcutting]
    exact fun f hf => List.mem_append_left _ hf
  have htodo : State.todo { s with writeJob := j, writeResp := r } = [] := by
    unfold State.todo
    split
    · exact absurd ‹_› (hj _ _ _)
    · rfl
  have hnone : s.phase ≠ .running → j = none := fun hp => by_contra fun hn => hp (hrunning hn)
  have hroom := h.room
  obtain ⟨⟨hout, halone, htakes, hstep, hflushing, hflushed⟩, ⟨-, hheld, hmark, hdiscarded, hcount, hlength, huses, hsaving⟩,
    ⟨hall, hbypass, hdrains, hloading, hscanner, htimers, hrun⟩, htables, hreads⟩ := h
  refine ⟨⟨fun hw => ⟨(hout hw).1, hnone ?_, (hout hw).2.2⟩, fun _ => hcutting, htakes, hstep, fun hf => hnone ?_,
    fun hf => ⟨hnone ?_, (hflushed hf).2⟩⟩, ⟨?_, hheld, hmark, hdiscarded, hcount, hlength, huses, hsaving⟩,
    ⟨fun f hf => hall f (hheldAll f hf), fun hm => ?_, hdrains, hloading, hscanner, htimers, hrun⟩, htables, hreads⟩
  · intro hp; simp [State.working, hp] at hw
  · intro hp; simp [State.flushing, hp] at hf
  · intro hp; simp [State.flushedCount, hp] at hf
  · have hjoining : State.joining { s with writeJob := j, writeResp := r } = [] := by rw [State.joining, htodo]; rfl
    rw [hjoining]
    show s.queue.length + 0 + s.releasedCount ≤ _
    omega
  · obtain ⟨hclosed, hqueue, -, hscans⟩ := hbypass hm
    exact ⟨hclosed, hqueue, htodo, hscans⟩

/-- The write at the head of an open channel is considered (R34). -/
theorem Inv.considerWrite {s : State} (h : Inv s) (hopen : s.writeOpen = true) (w : WriteReq) : Inv (s.considerWrite w) := by
  obtain ⟨hrunning, hjob, -, hrelease⟩ := s.writeOpen_iff.1 hopen
  have hs := h.stepOk
  have hmode : s.classify (writeAccess w) ≠ .transparent → s.mode ≠ .bypass := fun hc hm =>
    hc (s.classify_of_bypass _ hm)
  have hrefused : ∀ u : State, CoreOk u → SameRequests s u → Inv (u.answerWrite w.requester w.tag .refused) :=
    fun u hu hsame => Keeps.inv (s := s) ⟨hu.with_writeJob (fun _ _ _ hc => by cases hc) (fun hn => absurd rfl hn) _,
      ⟨hsame.handed, hjob.symm, hsame.orders, hsame.issuing, hsame.work⟩⟩ h
  unfold State.considerWrite
  cases hclass : s.classify (writeAccess w) with
  | malformed => exact hrefused _ hs.core.takeWrite ⟨rfl, rfl, rfl, rfl, rfl⟩
  | refused unit detail => exact hrefused _ (hs.core.takeWrite.raise _) ⟨rfl, rfl, rfl, rfl, rfl⟩
  | transparent =>
    have hfree : s.holdBusy = false := (s.holdBusy_eq_false_iff).2 ⟨hrelease, s.cutting_of_writeJob_none hjob⟩
    refine StepOk.handOver ⟨hs.core.takeWrite.with_writeJob (fun _ _ _ hc => by cases hc) (fun _ => hrunning) s.writeResp,
      fun p hp => (by cases hp),
      fun _ => hs.orders hfree, hs.port.mono rfl fun b hb => ?_⟩
    cases b with
    | writeChannel => rfl
    | holdQueue | readTracker => exact hb
  | mapped a =>
    exact h.considerFrags hopen (hmode (by rw [hclass]; nofun)) w _ fun _ _ c hc => by cases hc
  | stream a =>
    refine h.considerFrags hopen (hmode (by rw [hclass]; nofun)) w _ fun a' ha c hc hin => ?_
    cases ha
    exact streamWritePlan_within (hs.core.aperture a).valid _ _ _ hc hin
  | backing i => exact h.considerFrags hopen (hmode (by rw [hclass]; nofun)) w _ fun a ha => by cases ha
  | scanner i => exact h.considerFrags hopen (hmode (by rw [hclass]; nofun)) w _ fun a ha => by cases ha

end Sys2Proof.Machine
end

