-- ==== Sys2Proof/Proofs/Pieces.lean ====
section
/-! PROOF. Cutting into blocks (R59 to R62): what joining a piece to the fragment of its block does, for fragment reads and
for write fragments alike. -/

namespace Sys2Proof.Machine

/-! First occurrences -/

theorem eraseDups_concat {α : Type} [BEq α] [LawfulBEq α] (l : List α) (x : α) [Decidable (x ∈ l)] :
    (l ++ [x]).eraseDups = l.eraseDups ++ if x ∈ l then [] else [x] := by
  rw [List.eraseDups_append]
  by_cases h : x ∈ l
  · simp [List.removeAll, h]
  · simp [List.removeAll, h, List.eraseDups_cons]

theorem eraseDups_nodup {α : Type} [DecidableEq α] (l : List α) : l.eraseDups.Nodup := by
  induction l using List.reverseRecOn with
  | nil => simp
  | append_singleton l y ih =>
    rw [eraseDups_concat]
    by_cases hy : y ∈ l
    · rw [if_pos hy, List.append_nil]; exact ih
    · rw [if_neg hy, List.nodup_append]
      refine ⟨ih, List.nodup_singleton y, fun a ha b hb => ?_⟩
      rw [List.mem_singleton.1 hb]
      rintro rfl
      exact hy (List.mem_eraseDups.1 ha)

/-- Elements that are all equal add at most one first occurrence. -/
theorem eraseDups_append_of_const {α : Type} [DecidableEq α] (l m : List α) (x : α) (hne : m ≠ []) (hm : ∀ y ∈ m, y = x) :
    (l ++ m).eraseDups = l.eraseDups ++ if x ∈ l then [] else [x] := by
  induction m using List.reverseRecOn with
  | nil => exact absurd rfl hne
  | append_singleton m y ih =>
    have hy : y = x := hm y (by simp)
    subst hy
    obtain rfl | hm' := eq_or_ne m []
    · exact eraseDups_concat l y
    · rw [← List.append_assoc, eraseDups_concat, if_pos, List.append_nil]
      · exact ih hm' fun z hz => hm z (List.mem_append_left _ hz)
      · obtain ⟨z, hz⟩ := List.exists_mem_of_ne_nil m hm'
        have := hm z (List.mem_append_left _ hz)
        subst this
        exact List.mem_append_right _ hz

/-! Joining a piece -/

/-- The shape of `addRead` and `addPiece`: the first element that the piece belongs to takes it in, or it stands as a new
one at the end. -/
def joinFirst {α : Type} (p : α → Bool) (g : α → α) (new : α) : List α → List α
  | [] => [new]
  | x :: xs => if p x then g x :: xs else x :: joinFirst p g new xs

theorem joinFirst_of_none {α : Type} {p : α → Bool} (g : α → α) (new : α) {l : List α} (h : ∀ x ∈ l, p x = false) :
    joinFirst p g new l = l ++ [new] := by
  induction l with
  | nil => rfl
  | cons x xs ih =>
    obtain ⟨hx, hxs⟩ := List.forall_mem_cons.1 h
    rw [joinFirst, hx, ih hxs]
    rfl

/-- With at most one element that the piece belongs to, joining updates it and leaves the others. -/
theorem joinFirst_of_mem {α β : Type} {p : α → Bool} (g : α → α) (new : α) (key : α → β) {l : List α} {b : β}
    (hp : ∀ x ∈ l, p x = true ↔ key x = b) (hnodup : (l.map key).Nodup) (hmem : b ∈ l.map key) :
    joinFirst p g new l = l.map fun x => if p x then g x else x := by
  induction l with
  | nil => cases hmem
  | cons x xs ih =>
    rw [List.map_cons, List.nodup_cons] at hnodup
    obtain ⟨hx, hxs⟩ := List.forall_mem_cons.1 hp
    by_cases hk : key x = b
    · have hrest : xs.map (fun y => if p y then g y else y) = xs := by
        refine (List.map_congr_left fun y hy => ?_).trans (List.map_id xs)
        rw [if_neg, id]
        intro hpy
        exact hnodup.1 (by rw [hk, ← (hxs y hy).1 hpy]; exact List.mem_map_of_mem hy)
      rw [joinFirst, if_pos (hx.2 hk), List.map_cons, if_pos (hx.2 hk), hrest]
    · have hpx : ¬ p x = true := fun h => hk (hx.1 h)
      rw [joinFirst, if_neg hpx, List.map_cons, if_neg hpx, ih hxs hnodup.2]
      obtain hb | hb := List.mem_cons.1 hmem
      · exact absurd hb.symm hk
      · exact hb

theorem addRead_eq (block : Nat) (mask : BitVec 32) (l : List FragRead) :
    addRead block mask l = joinFirst (fun g => decide (g.addr = BitVec.ofNat 40 block))
      (fun g => { g with mask := g.mask.map (· ||| mask) }) (blockRead block mask) l := by
  induction l with
  | nil => rfl
  | cons x xs ih => simp only [addRead, joinFirst, ih, decide_eq_true_eq]

theorem addPiece_eq (new : Frag) (pos : Nat) (bytes : List (Option Byte)) (l : List Frag) :
    addPiece new pos bytes l = joinFirst (fun g => decide (g.block = new.block))
      (fun g => { g with cells := g.cells.lay pos bytes }) { new with cells := new.cells.lay pos bytes } l := by
  induction l with
  | nil => rfl
  | cons x xs ih => simp only [addPiece, joinFirst, ih, decide_eq_true_eq]

/-! Blocks and positions -/

theorem ofNat40_toNat {n : Nat} (h : n < 2 ^ 40) : (BitVec.ofNat 40 n).toNat = n := by
  rw [BitVec.toNat_ofNat]; exact Nat.mod_eq_of_lt h

theorem blockOf_lt {a : Nat} (h : a < 2 ^ 40) : blockOf a < 2 ^ 40 := by
  unfold blockOf; omega

/-- Bytes of one block: a piece of `len` bytes that does not leave the block of its first byte. -/
theorem block_of_piece {a len j : Nat} (hfit : a % 32 + len ≤ 32) (hj : j < len) : (a + j) / 32 * 32 = a / 32 * 32 := by
  omega

theorem maskOf_getElem (pos len : Nat) (k : Fin 32) : (maskOf pos len)[k] = decide (pos ≤ k.val ∧ k.val < pos + len) := by
  have hk := k.isLt
  show (maskOf pos len).getLsbD k.val = _
  rw [maskOf, BitVec.getLsbD_ofNat, Nat.testBit_mul_two_pow, Nat.testBit_two_pow_sub_one]
  simp only [hk, decide_true, Bool.true_and]
  by_cases h : pos ≤ k.val
  · simp only [h, decide_true, Bool.true_and, true_and, decide_eq_decide]; omega
  · simp only [h, decide_false, Bool.false_and, false_and]

/-! Fragment reads -/

/-- One more piece: the reads fetch its bytes too. -/
theorem ReadsOf.addRead {reads : List FragRead} {addrs : List Nat} (h : ReadsOf reads addrs) {a len : Nat}
    (ha : a < 2 ^ 40) (hlen : 0 < len) (hfit : a % 32 + len ≤ 32) :
    ReadsOf (addRead (blockOf a) (maskOf (positionOf a) len) reads) (addrs ++ (List.range len).map (a + ·)) := by
  obtain ⟨hblocks, hreads⟩ := h
  have hblock : (BitVec.ofNat 40 (blockOf a)).toNat = a / 32 * 32 := ofNat40_toNat (blockOf_lt ha)
  have hkey : ∀ g ∈ reads, decide (g.addr = BitVec.ofNat 40 (blockOf a)) = true ↔ g.addr.toNat = a / 32 * 32 := fun g _ => by
    rw [decide_eq_true_eq, ← hblock, BitVec.toNat_inj]
  have hnew : ((addrs ++ (List.range len).map (a + ·)).map fun x => x / 32 * 32).eraseDups
      = (addrs.map fun x => x / 32 * 32).eraseDups
        ++ if a / 32 * 32 ∈ addrs.map (fun x => x / 32 * 32) then [] else [a / 32 * 32] := by
    rw [List.map_append]
    refine eraseDups_append_of_const _ _ _ (by simp; omega) fun y hy => ?_
    simp only [List.map_map, List.mem_map, List.mem_range, Function.comp] at hy
    obtain ⟨j, hj, rfl⟩ := hy
    exact block_of_piece hfit hj
  have hmem : a / 32 * 32 ∈ reads.map (·.addr.toNat) ↔ a / 32 * 32 ∈ addrs.map (fun x => x / 32 * 32) := by
    rw [hblocks, List.mem_eraseDups]
  have hpiece : ∀ (b : Nat) (k : Fin 32), b % 32 = 0 → (((List.range len).map (a + ·)).contains (b + k.val)
      = if b = a / 32 * 32 then (maskOf (positionOf a) len)[k] else false) := fun b k hb => by
    have hk := k.isLt
    rw [maskOf_getElem, Bool.eq_iff_iff, List.contains_iff_mem, List.mem_map]
    simp only [List.mem_range]
    split
    · rename_i hba
      rw [decide_eq_true_eq]
      unfold positionOf
      constructor
      · rintro ⟨j, hj, he⟩; omega
      · intro hin; exact ⟨b + k.val - a, by omega, by omega⟩
    · rename_i hba
      constructor
      · rintro ⟨j, hj, he⟩; omega
      · intro hin; cases hin
  have halign : ∀ g ∈ reads, g.addr.toNat % 32 = 0 := fun g hg => by
    have hin : g.addr.toNat ∈ (addrs.map fun x => x / 32 * 32) := by
      rw [← List.mem_eraseDups, ← hblocks]; exact List.mem_map_of_mem hg
    obtain ⟨x, -, hx⟩ := List.mem_map.1 hin
    omega
  rw [addRead_eq]
  by_cases hin : a / 32 * 32 ∈ reads.map (·.addr.toNat)
  · rw [joinFirst_of_mem _ _ (·.addr.toNat) hkey (by rw [hblocks]; exact eraseDups_nodup _) hin]
    refine ⟨?_, fun g hg => ?_⟩
    · rw [hnew, if_pos (hmem.1 hin), List.append_nil, ← hblocks, List.map_map]
      refine List.map_congr_left fun g _ => ?_
      simp only [Function.comp]
      split <;> rfl
    · obtain ⟨g₀, hg₀, rfl⟩ := List.mem_map.1 hg
      obtain ⟨mask, hshape, hmask⟩ := hreads g₀ hg₀
      have hsplit : ∀ k : Fin 32, (addrs ++ (List.range len).map (a + ·)).contains (g₀.addr.toNat + k.val)
          = (mask[k] || if g₀.addr.toNat = a / 32 * 32 then (maskOf (positionOf a) len)[k] else false) := fun k => by
        rw [List.contains_append, hmask, hpiece _ k (halign g₀ hg₀)]
      by_cases hk : g₀.addr.toNat = a / 32 * 32
      · rw [if_pos ((hkey g₀ hg₀).2 hk)]
        refine ⟨mask ||| maskOf (positionOf a) len, ?_, fun k => ?_⟩
        · rw [hshape]; rfl
        · rw [hsplit, if_pos hk]
          exact BitVec.getLsbD_or
      · rw [if_neg fun hd => hk ((hkey g₀ hg₀).1 hd)]
        refine ⟨mask, hshape, fun k => ?_⟩
        rw [hsplit, if_neg hk, Bool.or_false]
  · rw [joinFirst_of_none]
    · refine ⟨?_, fun g hg => ?_⟩
      · rw [hnew, if_neg fun h => hin (hmem.2 h), List.map_append, hblocks]
        simp [blockRead, hblock]
      · obtain hg | hg := List.mem_append.1 hg
        · obtain ⟨mask, hshape, hmask⟩ := hreads g hg
          refine ⟨mask, hshape, fun k => ?_⟩
          rw [List.contains_append, hmask, hpiece _ k (halign g hg), if_neg, Bool.or_false]
          intro he
          exact hin (he ▸ List.mem_map_of_mem hg)
        · rw [List.mem_singleton.1 hg]
          refine ⟨maskOf (positionOf a) len, rfl, fun k => ?_⟩
          have hb : (blockRead (blockOf a) (maskOf (positionOf a) len)).addr.toNat = a / 32 * 32 := hblock
          rw [List.contains_append, hb, hpiece _ k (by omega), if_pos rfl]
          have hold : addrs.contains (a / 32 * 32 + k.val) = false := by
            rw [Bool.eq_false_iff, ne_eq, List.contains_iff_mem]
            intro hx
            have hk := k.isLt
            exact hin (hmem.2 (List.mem_map.2 ⟨_, hx, by omega⟩))
          rw [hold, Bool.false_or]
    · intro g hg
      rw [Bool.eq_false_iff]
      exact fun hd => hin ((hkey g hg).1 hd ▸ List.mem_map_of_mem hg)

theorem ReadsOf.nil : ReadsOf [] [] := ⟨by simp, fun g hg => by cases hg⟩

end Sys2Proof.Machine
end

