-- ==== Sys2Proof/Proofs/Routes.lean ====
section
/-! PROOF. What a request meets that the classifier sends through an aperture or to a surface (Chapter 3), and how many
fragment reads a read can have (R61, R62). -/

namespace Sys2Proof.Machine

/-! What the routes rest on -/

/-- What R44 has found of a request that goes through aperture `a`. -/
structure ThroughAperture (s : State) (a : ApertureIx) (q : Access) : Prop where
  engaged : s.mode = .engaged
  opened : s.apertures[a].state = .opened
  low : s.apertures[a].fields.low ≤ q.addr
  high : q.high < s.apertureEnd a
  burst : q.burst = .incrementing
  aligned : q.addr % 8 = 0
  view : s.apertures[a].fields.kind = .mapped →
    q.high - s.apertures[a].fields.low < viewExtent s.apertures[a].fields (s.surfaceOf a)

/-- What R45 has found of a request to the backing range of surface `i`. -/
structure ToSurface (s : State) (i : SurfaceIx) (q : Access) : Prop where
  engaged : s.mode = .engaged
  formed : q.malformed = false
  defined : s.surfaces[i].defined = true
  low : s.surfaces[i].low ≤ q.addr
  before : q.addr < s.surfaces[i].stop
  high : q.high < s.surfaces[i].stop
  burst : q.burst = .incrementing

theorem Burst.eq_of_not_bne {b : Burst} (h : ¬ (b != .incrementing) = true) : b = .incrementing := by
  rwa [bne_iff_ne, not_not] at h

/-- The routes that R44 gives. -/
theorem State.classifyAperture_cases (s : State) (a : ApertureIx) (q : Access) :
    (∃ detail, s.classifyAperture a q = .refused (.aperture a) detail)
    ∨ (q.high < s.apertureEnd a ∧ q.burst = .incrementing ∧ q.addr % 8 = 0
        ∧ (s.apertures[a].fields.kind = .mapped →
            q.high - s.apertures[a].fields.low < viewExtent s.apertures[a].fields (s.surfaceOf a))
        ∧ ((s.apertures[a].fields.kind = .mapped ∧ s.classifyAperture a q = .mapped a)
            ∨ (s.apertures[a].fields.kind = .stream ∧ s.classifyAperture a q = .stream a))) := by
  simp only [State.classifyAperture]
  split
  · exact .inl ⟨_, rfl⟩
  rename_i hend
  split
  · exact .inl ⟨_, rfl⟩
  split
  · exact .inl ⟨_, rfl⟩
  rename_i hburst
  split
  · exact .inl ⟨_, rfl⟩
  rename_i haligned
  split
  · exact .inl ⟨_, rfl⟩
  rename_i hview
  refine .inr ⟨not_le.1 hend, Burst.eq_of_not_bne hburst, ?_, fun hk => ?_, ?_⟩
  · rwa [bne_iff_ne, not_not] at haligned
  · rw [hk] at hview
    simpa using hview
  · obtain hk | hk := ApertureKind.eq_mapped_or_stream s.apertures[a].fields.kind
    · exact .inl ⟨hk, by rw [hk]⟩
    · exact .inr ⟨hk, by rw [hk]⟩

/-- The routes that R45 gives. -/
theorem State.classifyBacking_cases (s : State) (i : SurfaceIx) (q : Access) :
    (∃ detail, s.classifyBacking i q = .refused (.surface i) detail)
    ∨ (q.high < s.surfaces[i].stop ∧ q.burst = .incrementing
        ∧ ((q.write = false ∧ s.surfaces[i].scanner = some q.requester ∧ s.classifyBacking i q = .scanner i)
            ∨ s.classifyBacking i q = .backing i)) := by
  simp only [State.classifyBacking]
  split
  · exact .inl ⟨_, rfl⟩
  rename_i hend
  split
  · exact .inl ⟨_, rfl⟩
  rename_i hburst
  refine .inr ⟨not_le.1 hend, Burst.eq_of_not_bne hburst, ?_⟩
  split
  · rename_i hscan
    rw [Bool.and_eq_true, Bool.not_eq_true', beq_iff_eq] at hscan
    exact .inl ⟨hscan.1, hscan.2, rfl⟩
  · exact .inr rfl

theorem State.apertureAt_some {s : State} {st : ApertureState} {x : Nat} {a : ApertureIx} (h : s.apertureAt st x = some a) :
    s.apertures[a].state = st ∧ s.apertures[a].fields.low ≤ x ∧ x < s.apertureEnd a := by
  have hp := List.find?_some h
  rw [Bool.and_eq_true, beq_iff_eq, State.apertureHas, Bool.and_eq_true, decide_eq_true_eq, decide_eq_true_eq] at hp
  exact hp

theorem State.surfaceAt_some {s : State} {x : Nat} {i : SurfaceIx} (h : s.surfaceAt x = some i) :
    s.surfaces[i].defined = true ∧ s.surfaces[i].low ≤ x ∧ x < s.surfaces[i].stop := by
  have hp := List.find?_some h
  rw [SurfaceRec.owns, Bool.and_eq_true, Bool.and_eq_true, decide_eq_true_eq, decide_eq_true_eq, and_assoc] at hp
  exact hp

/-- Where the class of a request comes from: it is malformed, transparent or refused, or one of R44 and R45. -/
theorem State.classify_cases (s : State) (q : Access) :
    s.classify q = .malformed ∨ s.classify q = .transparent ∨ (∃ unit detail, s.classify q = .refused unit detail)
    ∨ (∃ a, ThroughAperture s a q ∧ ((s.apertures[a].fields.kind = .mapped ∧ s.classify q = .mapped a)
        ∨ (s.apertures[a].fields.kind = .stream ∧ s.classify q = .stream a)))
    ∨ (∃ i, ToSurface s i q ∧ ((q.write = false ∧ s.surfaces[i].scanner = some q.requester ∧ s.classify q = .scanner i)
        ∨ s.classify q = .backing i)) := by
  rw [State.classify]
  split
  · exact .inr (.inl rfl)
  rename_i hmode
  split
  · exact .inl rfl
  rename_i hformed
  rw [Bool.not_eq_true] at hformed
  split
  · rename_i a ha
    obtain ⟨hopened, hlow, -⟩ := State.apertureAt_some ha
    obtain ⟨detail, hrefused⟩ | ⟨hhigh, hburst, haligned, hview, hroute⟩ := s.classifyAperture_cases a q
    · exact .inr (.inr (.inl ⟨_, _, hrefused⟩))
    · exact .inr (.inr (.inr (.inl ⟨a, ⟨hmode, hopened, hlow, hhigh, hburst, haligned, hview⟩, hroute⟩)))
  split
  · exact .inr (.inr (.inl ⟨_, _, rfl⟩))
  split
  · rename_i i hi
    obtain ⟨hdefined, hlow, hbefore⟩ := State.surfaceAt_some hi
    obtain ⟨detail, hrefused⟩ | ⟨hhigh, hburst, hroute⟩ := s.classifyBacking_cases i q
    · exact .inr (.inr (.inl ⟨_, _, hrefused⟩))
    · exact .inr (.inr (.inr (.inr ⟨i, ⟨hmode, hformed, hdefined, hlow, hbefore, hhigh, hburst⟩, hroute⟩)))
  split
  · exact .inr (.inr (.inl ⟨_, _, rfl⟩))
  · exact .inr (.inl rfl)

/-- A class is one of those that R43 can give it, so it tells what the request met. -/
theorem State.classify_mapped {s : State} {q : Access} {a : ApertureIx} (h : s.classify q = .mapped a) :
    ThroughAperture s a q ∧ s.apertures[a].fields.kind = .mapped := by
  obtain hc | hc | ⟨_, _, hc⟩ | ⟨b, hb, ⟨hk, hc⟩ | ⟨hk, hc⟩⟩ | ⟨_, _, ⟨_, _, hc⟩ | hc⟩ := s.classify_cases q <;> rw [hc] at h <;> cases h
  exact ⟨hb, hk⟩

theorem State.classify_stream {s : State} {q : Access} {a : ApertureIx} (h : s.classify q = .stream a) :
    ThroughAperture s a q ∧ s.apertures[a].fields.kind = .stream := by
  obtain hc | hc | ⟨_, _, hc⟩ | ⟨b, hb, ⟨hk, hc⟩ | ⟨hk, hc⟩⟩ | ⟨_, _, ⟨_, _, hc⟩ | hc⟩ := s.classify_cases q <;> rw [hc] at h <;> cases h
  exact ⟨hb, hk⟩

theorem State.classify_scanner {s : State} {q : Access} {i : SurfaceIx} (h : s.classify q = .scanner i) :
    ToSurface s i q ∧ q.write = false ∧ s.surfaces[i].scanner = some q.requester := by
  obtain hc | hc | ⟨_, _, hc⟩ | ⟨_, _, ⟨_, hc⟩ | ⟨_, hc⟩⟩ | ⟨j, hj, ⟨hw, hs, hc⟩ | hc⟩ := s.classify_cases q <;> rw [hc] at h <;> cases h
  exact ⟨hj, hw, hs⟩

theorem State.classify_backing {s : State} {q : Access} {i : SurfaceIx} (h : s.classify q = .backing i) : ToSurface s i q := by
  obtain hc | hc | ⟨_, _, hc⟩ | ⟨_, _, ⟨_, hc⟩ | ⟨_, hc⟩⟩ | ⟨j, hj, ⟨hw, hs, hc⟩ | hc⟩ := s.classify_cases q <;> rw [hc] at h <;> cases h
  exact hj

/-! How many fragment reads a read can have -/

theorem addRead_length_le (block : Nat) (mask : BitVec 32) (l : List FragRead) :
    (addRead block mask l).length ≤ l.length + 1 := by
  induction l with
  | nil => exact Nat.le_refl 1
  | cons g gs ih =>
    rw [addRead]
    split
    · exact Nat.le_succ _
    · exact Nat.succ_le_succ ih

/-- A property that every step of a fold can lift by one stays below the number of steps. -/
theorem foldl_length_le {α β : Type} (g : List β → α → List β) (hg : ∀ l x, (g l x).length ≤ l.length + 1) (l : List α)
    (init : List β) : (l.foldl g init).length ≤ init.length + l.length := by
  induction l generalizing init with
  | nil => exact Nat.le_refl _
  | cons x xs ih =>
    have := ih (g init x)
    have := hg init x
    simp only [List.foldl_cons, List.length_cons]
    omega

theorem cutReads_length_le (r : SurfaceRec) (l : List PlaceEntry) : (cutReads r l).length ≤ l.length := by
  have h := foldl_length_le (fun reads (e : PlaceEntry) =>
    match e.place with
    | none => reads
    | some p => addRead (blockOf p.addr) (maskOf (positionOf p.addr) r.format.size) reads)
    (fun reads e => by
      split
      · exact Nat.le_succ _
      · exact addRead_length_le _ _ _) l []
  rw [List.length_nil, Nat.zero_add] at h
  exact h

theorem UpFormat.two_le_size (f : UpFormat) : 2 ≤ f.size := by cases f <;> decide

theorem mappedPlacement_length (f : ApertureFields) (r : SurfaceRec) (q : Access) :
    (mappedPlacement f r q).length = 8 * q.len / f.format.size := by
  rw [mappedPlacement, List.length_map, List.length_range]

theorem cursorWalk_length (w : Window) (ov : Overflow) (n : Nat) (c : Cursor) : (cursorWalk w ov n c).length = n := by
  induction n generalizing c with
  | zero => rfl
  | succ n ih => rw [cursorWalk, List.length_cons, ih]

theorem streamPlacement_length (f : ApertureFields) (r : SurfaceRec) (q : Access) (c : Cursor) :
    (streamPlacement f r q c).length = 8 * q.len / f.format.size := by
  rw [streamPlacement, List.length_mapIdx, cursorWalk_length, pixelCount]

/-- A request of at most 16 beats has at most 64 pixels. -/
theorem pixels_le (f : UpFormat) {n : Nat} (hn : n ≤ 16) : 8 * n / f.size ≤ 64 := by
  have h2 := f.two_le_size
  calc 8 * n / f.size ≤ 8 * n / 2 := Nat.div_le_div_left h2 (by decide)
    _ ≤ 64 := by omega

theorem readAccess_len_le (req : ReadReq) : (readAccess req).len ≤ 16 := by
  show req.lenM1.val + 1 ≤ 16
  omega

/-- One byte after the other: the blocks of a range of addresses below the end of the address space (R62). -/
theorem backingReads_readsOf {q : Access} (h : q.low + q.size ≤ 2 ^ 40) :
    ReadsOf (backingReads q) ((List.range q.size).map (q.low + ·)) := by
  unfold backingReads
  generalize q.size = n at h ⊢
  induction n with
  | zero => exact ReadsOf.nil
  | succ n ih =>
    have hlast := (ih (by omega)).addRead (a := q.low + n) (len := 1) (by omega) (by decide) (by omega)
    rw [List.range_succ, List.foldl_append, List.map_append]
    exact hlast

/-- The reads of at most 128 bytes in a row are few: the bytes lie in five blocks. -/
theorem ReadsOf.length_le_of_range {reads : List FragRead} {low n : Nat}
    (h : ReadsOf reads ((List.range n).map (low + ·))) (hn : n ≤ 128) : reads.length ≤ 64 := by
  have hsub : reads.map (·.addr.toNat) ⊆ (List.range 5).map fun k => low / 32 * 32 + 32 * k := fun b hb => by
    rw [h.1, List.mem_eraseDups] at hb
    simp only [List.map_map, List.mem_map, List.mem_range, Function.comp] at hb ⊢
    obtain ⟨j, hj, rfl⟩ := hb
    exact ⟨(low + j) / 32 - low / 32, by omega, by omega⟩
  have hnodup : (reads.map (·.addr.toNat)).Nodup := by rw [h.1]; exact eraseDups_nodup _
  have hle := (hnodup.subperm hsub).length_le
  rw [List.length_map, List.length_map, List.length_range] at hle
  omega

end Sys2Proof.Machine
end

