-- ==== Sys2Proof/Proofs/Acceptance.lean ====
section
/-! PROOF. The laws through the reads that the upstream port considers, and through their responses. -/

namespace Sys2Proof.Machine

/-! Entries and the work in progress -/

/-- What the scan step or early restart in progress rests on, read off its work. -/
theorem State.stepOk_iff (s : State) : s.stepOk = true ↔ ∀ rel, s.release = some rel → ∀ i e d, rel.work.surface = some i →
    rel.work.scanStep = some (e, d) → s.surfaces[i].inScanRange d = true ∧ s.awaitsStep i e = true := by
  unfold State.stepOk
  cases hrel : s.release with
  | none => exact ⟨fun _ rel hr => (by cases hr), fun _ => rfl⟩
  | some rel =>
    obtain ⟨work, issued, origins⟩ := rel
    cases work with
    | step i e d | restart i e d =>
      rw [Bool.and_eq_true]
      refine ⟨fun h rel hr i' e' d' hi hd => ?_, fun h => h _ rfl i e d rfl rfl⟩
      cases hr; cases hi; cases hd
      exact h
    | finish i | stall i | fullFlush =>
      refine ⟨fun _ rel hr i' e' d' _ hd => ?_, fun _ => rfl⟩
      cases hr; cases hd

/-- A table in which the scan step in progress finds its entry still waiting. -/
theorem WorkBase.with_table {s : State} (h : WorkBase s) {v : Vector (Option Entry) 32}
    (hawaits : ∀ i e, s.awaitsStep i e = true → State.awaitsStep { s with table := v } i e = true) :
    WorkBase { s with table := v } := by
  obtain ⟨hout, halone, htakes, hstep, hflushing, hflushed⟩ := h
  refine ⟨hout, halone, htakes, ?_, hflushing, hflushed⟩
  rw [State.stepOk_iff] at hstep ⊢
  intro rel hrel i e d hi hd
  obtain ⟨hrange, hwaits⟩ := hstep rel hrel i e d hi hd
  exact ⟨hrange, hawaits i e hwaits⟩

/-! Accepting a read into a free entry (R36, R125) -/

theorem State.pickEntry_some {s : State} {pick : Nat} {e : EntryIx} (h : s.pickEntry pick = some e) :
    s.table[e] = none ∧ ∀ t ∈ s.abandonedTags, t.1 ≠ e := by
  have hmem : e ∈ s.freeTableEntries := List.mem_of_getElem? h
  rw [State.freeTableEntries, List.mem_filter, Bool.and_eq_true, Option.isNone_iff_eq_none, Bool.not_eq_true',
    List.any_eq_false] at hmem
  obtain ⟨-, hnone, htags⟩ := hmem
  exact ⟨hnone, fun t ht he => htags t ht (by rw [beq_iff_eq]; exact he)⟩

theorem ReadsOk.acceptRead {s : State} (h : ReadsOk s) {e : EntryIx} (hfree : s.table[e] = none)
    (hfresh : ∀ t ∈ s.abandonedTags, t.1 ≠ e) {en : Entry} (hconsistent : en.consistent = true) :
    ReadsOk (s.acceptRead e en) := by
  obtain ⟨htaken, hnodup, htags, hentries⟩ := h
  have hget : ∀ d : EntryIx, (s.acceptRead e en).table[d] = if e = d then some en else s.table[d] :=
    fun d => s.setEntry_table_get e d (some en)
  have hnot : e ∉ s.taken := fun he => by
    have := (htaken e).1 he
    rw [hfree] at this
    cases this
  refine ⟨fun d => ?_, ?_, fun t ht => ?_, fun d en' hd => ?_⟩
  · show d ∈ s.taken ++ [e] ↔ _
    rw [hget, List.mem_append, List.mem_singleton, htaken d]
    split
    · rename_i hed; exact ⟨fun _ => rfl, fun _ => .inr hed.symm⟩
    · rename_i hed; exact ⟨fun hd => hd.resolve_right fun hde => hed hde.symm, .inl⟩
  · show (s.taken ++ [e]).Nodup
    rw [List.nodup_append]
    exact ⟨hnodup, List.nodup_singleton e, fun d hd x hx => by rw [List.mem_singleton.1 hx]; rintro rfl; exact hnot hd⟩
  · rw [hget, if_neg fun hed => hfresh t ht hed.symm]
    exact htags t ht
  · rw [hget] at hd
    split at hd
    · cases hd; exact hconsistent
    · exact hentries d en' hd

theorem CoreOk.acceptRead {s : State} (h : CoreOk s) {e : EntryIx} (hfree : s.table[e] = none)
    (hfresh : ∀ t ∈ s.abandonedTags, t.1 ≠ e) {en : Entry} (hconsistent : en.consistent = true) :
    CoreOk (s.acceptRead e en) := by
  have hwork : WorkBase (s.setEntry e (some en)) := h.work.with_table fun i d hd => by
    have hne : e ≠ d := by
      rintro rfl
      rw [State.awaitsStep, hfree] at hd
      cases hd
    unfold State.awaitsStep at hd ⊢
    rw [show (s.table.set e.val (some en) e.isLt)[d] = s.table[d] from
      (s.setEntry_table_get e d (some en)).trans (if_neg hne)]
    exact hd
  obtain ⟨hout, halone, htakes, hstep, hflushing, hflushed⟩ := hwork
  exact ⟨⟨hout, halone, htakes, hstep, hflushing, hflushed⟩, h.counts, h.hold, h.tables,
    h.reads.acceptRead hfree hfresh hconsistent⟩

/-- The first entry in ISSUING stays the first. -/
theorem State.acceptRead_issuingEntry {s : State} (h : ReadsOk s) {e : EntryIx} (hfree : s.table[e] = none) (en : Entry)
    {d : EntryIx} (hd : s.issuingEntry = some d) : (s.acceptRead e en).issuingEntry = some d := by
  rw [State.issuingEntry_eq] at hd ⊢
  have hsame : s.taken.find? (s.acceptRead e en).issuing = s.taken.find? s.issuing :=
    List.find?_congr fun x hx => by
      have hne : e ≠ x := by
        rintro rfl
        have := (h.1 e).1 hx
        rw [hfree] at this
        cases this
      have hget : (s.acceptRead e en).table[x] = s.table[x] := (s.setEntry_table_get e x (some en)).trans (if_neg hne)
      rw [State.issuing, State.issuing, State.entryIs, State.entryIs, hget]
  show (s.taken ++ [e]).find? _ = _
  rw [List.find?_append, hsame, hd]
  rfl

theorem State.issuingEntry_mem {s : State} {d : EntryIx} (hd : s.issuingEntry = some d) : d ∈ s.taken :=
  List.mem_of_find?_eq_some hd

theorem CoreOk.with_headRead {s : State} (h : CoreOk s) (a b : Option ReadReq) :
    CoreOk { s with headRead := a, refusedRead := b } := by
  obtain ⟨⟨hout, halone, htakes, hstep, hflushing, hflushed⟩, hcounts, hhold, htables, hreads⟩ := h
  exact ⟨⟨hout, halone, htakes, hstep, hflushing, hflushed⟩, hcounts, hhold, htables, hreads⟩

/-! Consistent new entries -/

theorem newEntry_consistent (req : ReadReq) (route : Route) (a : Option ApertureIx) (i : Option SurfaceIx) (conv : Option Conv)
    (placement : List PlaceEntry) {reads : List FragRead} (hlength : reads.length ≤ 64)
    (hunissued : ∀ fr ∈ reads, fr.status = .unissued) :
    (newEntry req route a i conv placement reads).consistent = true := by
  rw [Entry.consistent_iff]
  cases reads with
  | nil => exact ⟨hlength, fun _ => .inl rfl, fun _ => rfl, fun _ => rfl⟩
  | cons fr frs =>
    refine ⟨hlength, fun _ => .inr (List.any_eq_true.2 ⟨fr, List.mem_cons_self, ?_⟩), fun h => (by cases h), fun h => (by cases h)⟩
    rw [hunissued fr List.mem_cons_self]
    rfl

theorem addRead_unissued (block : Nat) (mask : BitVec 32) {l : List FragRead} (h : ∀ fr ∈ l, fr.status = .unissued) :
    ∀ fr ∈ addRead block mask l, fr.status = .unissued := by
  induction l with
  | nil => intro fr hfr; rw [addRead, List.mem_singleton] at hfr; rw [hfr]; rfl
  | cons g gs ih =>
    obtain ⟨hg, hgs⟩ := List.forall_mem_cons.1 h
    rw [addRead]
    split
    · exact List.forall_mem_cons.2 ⟨hg, hgs⟩
    · exact List.forall_mem_cons.2 ⟨hg, ih hgs⟩

theorem foldl_preserves {α β : Type} {P : β → Prop} (g : β → α → β) (hg : ∀ b x, P b → P (g b x)) (l : List α) {init : β}
    (h : P init) : P (l.foldl g init) := by
  induction l generalizing init with
  | nil => exact h
  | cons x xs ih => exact ih (hg init x h)

theorem cutReads_unissued (r : SurfaceRec) (l : List PlaceEntry) : ∀ fr ∈ cutReads r l, fr.status = .unissued := by
  unfold cutReads
  refine foldl_preserves (P := fun reads : List FragRead => ∀ fr ∈ reads, fr.status = .unissued) _ (fun reads e h => ?_) l
    (fun fr hfr => by cases hfr)
  split
  · exact h
  · exact addRead_unissued _ _ h

theorem backingReads_unissued (q : Access) : ∀ fr ∈ backingReads q, fr.status = .unissued := by
  unfold backingReads
  exact foldl_preserves (P := fun reads : List FragRead => ∀ fr ∈ reads, fr.status = .unissued) _
    (fun reads j h => addRead_unissued _ _ h) _ (fun fr hfr => by cases hfr)

theorem SurfaceRec.stop_le_of_valid {r : SurfaceRec} (h : r.valid = true) (hdefined : r.defined = true) :
    r.stop ≤ addrSpace := by
  rw [SurfaceRec.valid, if_pos hdefined] at h
  simp only [SurfaceRec.fieldsOk, Bool.and_eq_true, decide_eq_true_eq] at h
  exact h.1.1.1.1.2

theorem mappedEntry_consistent (a : ApertureIx) (f : ApertureFields) (r : SurfaceRec) (req : ReadReq) :
    (mappedEntry a f r req).consistent = true :=
  newEntry_consistent _ _ _ _ _ _
    ((cutReads_length_le r _).trans (by rw [mappedPlacement_length]; exact pixels_le _ (readAccess_len_le req)))
    (cutReads_unissued r _)

theorem streamEntry_consistent (a : ApertureIx) (f : ApertureFields) (r : SurfaceRec) (req : ReadReq) (c : Cursor) :
    (streamEntry a f r req c).consistent = true :=
  newEntry_consistent _ _ _ _ _ _
    ((cutReads_length_le r _).trans (by rw [streamPlacement_length]; exact pixels_le _ (readAccess_len_le req)))
    (cutReads_unissued r _)

/-- A request to a surface covers whole beats, which end below the end of the address space. -/
theorem ToSurface.covered {s : State} {i : SurfaceIx} {req : ReadReq} (h : ToSurface s i (readAccess req))
    (hvalid : s.surfaces[i].valid = true) :
    (readAccess req).size = 8 * (req.lenM1.val + 1) ∧ (readAccess req).low = req.addr.toNat / 8 * 8
      ∧ (readAccess req).low + (readAccess req).size ≤ 2 ^ 40 := by
  have hstop := SurfaceRec.stop_le_of_valid hvalid h.defined
  have hhigh := h.high
  have hburst : req.burst = .incrementing := h.burst
  have hsize : (readAccess req).size = 8 * (req.lenM1.val + 1) := by
    simp only [Access.size, readAccess, hburst, readLen]
  have hlow : (readAccess req).low = req.addr.toNat / 8 * 8 := by
    simp only [Access.low, readAccess, hburst]
  refine ⟨hsize, hlow, ?_⟩
  rw [Access.high] at hhigh
  rw [addrSpace] at hstop
  omega

theorem backingEntry_consistent {s : State} {i : SurfaceIx} {req : ReadReq} (h : ToSurface s i (readAccess req))
    (hvalid : s.surfaces[i].valid = true) :
    (newEntry req .backing none (some i) none [] (backingReads (readAccess req))).consistent = true := by
  obtain ⟨hsize, -, hend⟩ := h.covered hvalid
  exact newEntry_consistent _ _ _ _ _ _ ((backingReads_readsOf hend).length_le_of_range (by omega)) (backingReads_unissued _)

theorem scannerEntry_consistent (i : SurfaceIx) (req : ReadReq) : (scannerEntry i req).consistent = true := rfl

/-! Scanner reads -/

theorem State.acceptRead_table_self (s : State) (e : EntryIx) (en : Entry) : (s.acceptRead e en).table[e] = some en :=
  (s.setEntry_table_get e e (some en)).trans (if_pos rfl)

/-- The fragment reads of a scanner read formed in the entry that it has just taken. -/
theorem State.acceptRead_formScanner (s : State) (i : SurfaceIx) (e : EntryIx) (en : Entry) :
    (s.acceptRead e en).formScanner i e
      = s.acceptRead e { en with reads := scannerReads s.surfaces[i] s.scans[i].active (readAccess en.req) } := by
  rw [State.formScanner_of_some _ i (s.acceptRead_table_self e en)]
  simp only [State.acceptRead, State.setEntry, Vector.set_set]

/-- The scan step of a tracked read, with the hold queue free (R95, R96, R97). -/
theorem CoreOk.scanStep {s : State} (h : CoreOk s) (hfree : s.holdBusy = false) {i : SurfaceIx} {e : EntryIx} {req : ReadReq}
    (hentry : s.table[e] = some (scannerEntry i req)) (hmode : s.mode ≠ .bypass) (hload : s.loadNext = none)
    (hscanner : s.surfaces[i].scanner ≠ none) (hdefined : s.surfaces[i].defined = true)
    (htracked : trackedRead s.surfaces[i] (readAccess req) = true) : CoreOk (s.scanStep i e req) := by
  obtain ⟨hrelease, hcutting⟩ := s.holdBusy_eq_false_iff.1 hfree
  have hawaits : s.awaitsStep i e = true := by
    rw [State.awaitsStep, hentry]
    simp only [scannerEntry, newEntry, List.isEmpty_nil, Bool.and_true, beq_self_eq_true]
  have hready : s.scans[i].state = .scanning → ∀ w : Work, w.surface = some i →
      w.scanStep = some (e, scanRow s.surfaces[i] (readAccess req)) → WorkReady s w := fun hscanning w hi hstep => by
    refine ⟨fun j hj => ?_, fun j e' d hj hd => ?_, fun j e' d hj hd => ?_⟩
    · rw [hi] at hj; cases hj; exact hscanning
    · rw [hi] at hj; rw [hstep] at hd; cases hj; cases hd; exact htracked
    · rw [hi] at hj; rw [hstep] at hd; cases hj; cases hd; exact hawaits
  unfold State.scanStep
  split
  · rename_i hstate
    rw [bne_iff_ne] at hstate
    refine h.openFrame hrelease (fun f hf hfi => hstate ?_) hmode hload hscanner hdefined htracked
      (fun en hen => ?_) req false
    · rw [s.heldAll_of_not_cutting hcutting] at hf
      rw [← hfi]
      exact h.scanning_of_held hf
    · rw [hentry] at hen; cases hen; rfl
  · rename_i hstate
    rw [bne_iff_ne, not_not] at hstate
    dsimp only
    split
    · exact h.begin hfree (hready hstate _ rfl rfl)
    · exact h.begin hfree (hready hstate _ rfl rfl)

/-- What a scan step touches. -/
theorem State.scanStep_eq (s : State) (i : SurfaceIx) (e : EntryIx) (req : ReadReq) :
    s.scanStep i e req = { s with
      release := (s.scanStep i e req).release, scans := (s.scanStep i e req).scans, table := (s.scanStep i e req).table
      events := (s.scanStep i e req).events, seqCounter := (s.scanStep i e req).seqCounter
      highWater := (s.scanStep i e req).highWater, phase := (s.scanStep i e req).phase } := by
  unfold State.scanStep
  dsimp only
  split
  · rw [State.formScanner_eq, State.openFrame_eq]
  split
  · rw [State.begin_eq]
  · rw [State.begin_eq]

theorem State.scanStep_issuing (s : State) (i : SurfaceIx) (e : EntryIx) (req : ReadReq) :
    (s.scanStep i e req).issuing = s.issuing := by
  unfold State.scanStep
  dsimp only
  split
  · rw [State.formScanner_issuing]
    exact State.issuing_of_table (by rw [State.openFrame_eq])
  split
  · exact s.begin_issuing _
  · exact s.begin_issuing _

/-- The work that a scan step begins is for the read's own entry. -/
theorem State.scanStep_stepEntry {s : State} (hrelease : s.release = none) (i : SurfaceIx) (e : EntryIx) (req : ReadReq)
    {d : EntryIx} {n : Nat} (h : (s.scanStep i e req).stepEntry = some (d, n)) : d = e := by
  have hbegin : ∀ w : Work, w.scanStep = some (e, scanRow s.surfaces[i] (readAccess req)) →
      (s.begin w).stepEntry = some (d, n) → d = e := fun w hw hb => by
    rw [State.stepEntry, State.begin_release] at hb
    split at hb
    · rw [Option.bind_some, hw] at hb; cases hb; rfl
    · cases hb
  unfold State.scanStep at h
  dsimp only at h
  split at h
  · rw [State.formScanner_eq, State.openFrame_eq, State.stepEntry] at h
    change s.release.bind _ = _ at h
    rw [hrelease] at h
    cases h
  split at h
  · exact hbegin _ rfl h
  · exact hbegin _ rfl h

/-! Routes -/

/-- What a route accepts: the entry, before the scan step of a tracked scanner read and but for the cursor of a stream. -/
theorem State.acceptRoute_of_tracked {s : State} {i : SurfaceIx} {req : ReadReq}
    (h : trackedRead s.surfaces[i] (readAccess req) = true) (e : EntryIx) :
    s.acceptRoute (.scanner i) req e = (s.acceptRead e (scannerEntry i req)).scanStep i e req := by
  rw [State.acceptRoute, if_pos h]

theorem State.acceptRoute_of_untracked {s : State} {i : SurfaceIx} {req : ReadReq}
    (h : trackedRead s.surfaces[i] (readAccess req) = false) (e : EntryIx) :
    s.acceptRoute (.scanner i) req e = s.acceptRead e { scannerEntry i req with
      reads := scannerReads s.surfaces[i] s.scans[i].active (readAccess req) } := by
  rw [State.acceptRoute, h, if_neg Bool.false_ne_true, State.acceptRead_formScanner]
  rfl

/-- A read taken into a free entry, whose acceptance forms no work: the laws hold, and the requests at the port stay
formed. -/
theorem StepOk.acceptRead {s : State} (h : StepOk s) {e : EntryIx} (hfree : s.table[e] = none)
    (hfresh : ∀ t ∈ s.abandonedTags, t.1 ≠ e) {en : Entry} (hconsistent : en.consistent = true) :
    StepOk (s.acceptRead e en) := by
  refine ⟨h.core.acceptRead hfree hfresh hconsistent, h.head, h.orders, h.port.mono rfl fun b hb => ?_⟩
  cases b with
  | writeChannel | holdQueue => exact hb
  | readTracker =>
    rw [State.formed_readTracker_iff] at hb ⊢
    obtain ⟨d, hd, hpending⟩ := hb
    exact ⟨d, State.acceptRead_issuingEntry h.core.reads hfree en hd, hpending⟩

theorem StepOk.setCursor {s : State} (h : StepOk s) {a : ApertureIx} {c : Cursor}
    (hc : s.cursors[a].within s.apertures[a].fields.window = true → c.within s.apertures[a].fields.window = true) :
    StepOk (s.setCursor a c) :=
  ⟨h.core.setCursor hc, h.head, h.orders, h.port.mono rfl fun _ hb => hb⟩

/-- The scan step of a tracked read taken into entry `e` keeps the requests at the port formed: the step waits for its
own entry, which is not the one whose fragment read stands at the port. -/
theorem StepOk.acceptTracked {s : State} (h : StepOk s) {e : EntryIx} (hunused : s.table[e] = none)
    (hfree : s.holdBusy = false) {en : Entry} {i : SurfaceIx} {req : ReadReq}
    (hcore : CoreOk ((s.acceptRead e en).scanStep i e req)) : StepOk ((s.acceptRead e en).scanStep i e req) := by
  obtain ⟨hrelease, -⟩ := s.holdBusy_eq_false_iff.1 hfree
  have hjob : ((s.acceptRead e en).scanStep i e req).writeJob = s.writeJob := by rw [State.scanStep_eq]; rfl
  have horders : ((s.acceptRead e en).scanStep i e req).orders = s.orders := by rw [State.scanStep_eq]; rfl
  refine ⟨hcore, fun p hp => h.head p ?_, fun _ => horders.trans (h.orders hfree),
    h.port.mono (by rw [State.scanStep_eq]; rfl) fun b hb => ?_⟩
  · rwa [State.todo, hjob] at hp
  cases b with
  | writeChannel => rw [State.formed_writeChannel_iff] at hb ⊢; rwa [hjob]
  | holdQueue => rw [State.formed_holdQueue_iff, hrelease] at hb; exact absurd rfl hb
  | readTracker =>
    rw [State.formed_readTracker_iff] at hb ⊢
    obtain ⟨d, hd, -⟩ := hb
    have hne : d ≠ e := by
      rintro rfl
      have := (h.core.reads.1 d).1 (State.issuingEntry_mem hd)
      rw [hunused] at this
      cases this
    have hd' := State.acceptRead_issuingEntry h.core.reads hunused en hd
    refine ⟨d, ?_, Bool.eq_false_iff.2 fun hp => ?_⟩
    · rw [State.issuingEntry_eq] at hd' ⊢
      rw [State.scanStep_issuing, ← hd', State.scanStep_eq]
    · obtain ⟨n, hn⟩ := (State.stepPending_iff _ d).1 hp
      exact hne (State.scanStep_stepEntry (s := s.acceptRead e en) hrelease i e req hn)

/-- The read at the head of an open channel is considered (R36). -/
theorem Inv.considerRead {s : State} (h : Inv s) (hrunning : s.phase = .running) (req : ReadReq) (pick : Nat) :
    Inv (s.considerRead req pick) := by
  have hs := h.stepOk
  have hkeeps : ∀ {u : State}, CoreOk u → SameRequests s u → ∀ a b, Inv { u with headRead := a, refusedRead := b } :=
    fun hu hsame a b => Keeps.inv (s := s) ⟨hu.with_headRead a b, ⟨hsame.handed, hsame.writeJob, hsame.orders, hsame.issuing,
      hsame.work⟩⟩ h
  have hload : s.loadNext = none := State.loadNext_of_working (by rw [State.working, hrunning])
  unfold State.considerRead
  split
  · exact hkeeps hs.core (.refl s) _ _
  · exact hkeeps (hs.core.raise _) ⟨rfl, rfl, rfl, rfl, rfl⟩ _ _
  rename_i hformed hpassed
  split
  · exact hkeeps hs.core (.refl s) _ _
  rename_i hwaits
  split
  · exact hkeeps hs.core (.refl s) _ _
  rename_i e hpick
  obtain ⟨hunused, hfresh⟩ := State.pickEntry_some hpick
  refine StepOk.handOver ?_
  cases hclass : s.classify (readAccess req) with
  | malformed => exact absurd hclass hformed
  | refused unit detail => exact absurd hclass (hpassed unit detail)
  | transparent =>
    exact hs.acceptRead hunused hfresh (newEntry_consistent _ _ _ _ _ _ (by decide : 1 ≤ 64)
      fun fr hfr => by rw [List.mem_singleton.1 hfr]; rfl)
  | mapped a => exact hs.acceptRead hunused hfresh (mappedEntry_consistent _ _ _ _)
  | stream a =>
    have ht := hs.acceptRead hunused hfresh (streamEntry_consistent a s.apertures[a].fields (s.surfaceOf a) req s.cursors[a])
    have hvalid : s.apertures[a].fields.valid = true := (hs.core.aperture a).valid
    exact ht.setCursor (streamCursorAfter_within (f := s.apertures[a].fields) hvalid (readAccess req) (c := s.cursors[a]))
  | backing i =>
    exact hs.acceptRead hunused hfresh (backingEntry_consistent (State.classify_backing hclass) (hs.core.surface i).valid)
  | scanner i =>
    obtain ⟨hsurface, -, hscanner⟩ := State.classify_scanner hclass
    cases htracked : trackedRead s.surfaces[i] (readAccess req) with
    | true =>
      have hfree : s.holdBusy = false := by
        rw [hclass, State.stepWaits, htracked, Bool.true_and, Bool.not_eq_true] at hwaits
        exact hwaits
      rw [State.acceptRoute_of_tracked htracked]
      refine hs.acceptTracked hunused hfree (CoreOk.scanStep (hs.core.acceptRead hunused hfresh
        (scannerEntry_consistent i req)) hfree (s.acceptRead_table_self e _) ?_ hload ?_ hsurface.defined htracked)
      · show s.mode ≠ .bypass
        rw [hsurface.engaged]; decide
      · show s.surfaces[i].scanner ≠ none
        rw [hscanner]; nofun
    | false =>
      rw [State.acceptRoute_of_untracked htracked]
      refine hs.acceptRead hunused hfresh ?_
      rw [Entry.consistent_iff]
      exact ⟨scannerReads_length_le (SurfaceRec.pitch_ge_of_valid (hs.core.surface i).valid) _ _,
        fun _ => .inr (scannerReads_unissued _ _ _), nofun, nofun⟩

end Sys2Proof.Machine
end

