-- ==== Sys2Proof/Proofs/Port.lean ====
section
/-! PROOF. The laws through what the downstream port issues and what memory answers, through the responses, and through the
full flush of the soft reset. -/

namespace Sys2Proof.Machine

/-! Fields that the laws between the parts of a command do not ask for -/

theorem CoreOk.with_ports {s : State} (h : CoreOk s) {headWrite : Option WriteReq} {episode : Bool} {headRead refusedRead : Option ReadReq}
    {handed : List (List Former)} {outstanding : List DsWrite} {abandonedWrites : Nat} {writeResp upWrite : Option WriteResp}
    {upRead : Option ReadResp} {port : Port} {pending : List Instr} :
    CoreOk { s with headWrite := headWrite, episode := episode, headRead := headRead, refusedRead := refusedRead,
                    handed := handed, outstanding := outstanding, abandonedWrites := abandonedWrites, writeResp := writeResp,
                    upWrite := upWrite, upRead := upRead, port := port, pending := pending } := by
  obtain ⟨⟨hout, halone, htakes, hstep, hflushing, hflushed⟩, hcounts, hhold, htables, hreads⟩ := h
  exact ⟨⟨hout, halone, htakes, hstep, hflushing, hflushed⟩, hcounts, hhold, htables, hreads⟩

theorem CoreOk.passRequest {s : State} (h : CoreOk s) (b : Former) : CoreOk (s.passRequest b) := h.with_ports

/-! Entries of the table -/

/-- An entry in use that changes, with its state in agreement, and stays what a scan step in progress waits for. -/
theorem CoreOk.changeEntry {s : State} (h : CoreOk s) {e : EntryIx} {en en' : Entry} (he : s.table[e] = some en)
    (hreads : en.reads ≠ []) (hconsistent : en'.consistent = true) : CoreOk (s.setEntry e (some en')) := by
  refine h.setEntry_some (h.work.with_table fun i d hd => ?_) (by rw [he]; rfl) hconsistent
  have hne : e ≠ d := by
    rintro rfl
    exact hreads (State.awaitsStep_issuing hd en he).2.1
  unfold State.awaitsStep at hd ⊢
  rwa [show (s.table.set e.val (some en') e.isLt)[d] = s.table[d] from
    (s.setEntry_table_get e d (some en')).trans (if_neg hne)]

/-- An entry that is in ISSUING after a change if and only if it was before: the entries in ISSUING are the same. -/
theorem State.changeEntry_issuing (s : State) {e : EntryIx} {en en' : Entry} (he : s.table[e] = some en)
    (hstate : en'.state = .issuing ↔ en.state = .issuing) : (s.setEntry e (some en')).issuing = s.issuing := by
  funext d
  rw [Bool.eq_iff_iff, State.issuing_iff, State.issuing_iff, State.setEntry_table_get]
  split
  · rename_i hed
    subst hed
    rw [he]
    constructor
    · rintro ⟨_, hx, hs⟩; cases hx; exact ⟨en, rfl, hstate.1 hs⟩
    · rintro ⟨_, hx, hs⟩; cases hx; exact ⟨en', rfl, hstate.2 hs⟩
  · rfl

theorem Entry.nextRead_some {en : Entry} {n : Nat} (h : en.nextRead = some n) :
    ∃ fr, en.reads[n]? = some fr ∧ fr.status = .unissued := by
  obtain ⟨hn, hp, -⟩ := List.findIdx?_eq_some_iff_getElem.1 h
  exact ⟨en.reads[n], List.getElem?_eq_getElem hn, by simpa using hp⟩

theorem Entry.reads_ne_nil {en : Entry} {n : Nat} {fr : FragRead} (h : en.reads[n]? = some fr) : en.reads ≠ [] := by
  intro hnil
  rw [hnil] at h
  cases h

theorem all_not_unissued_of_not_any {l : List FragRead} (h : l.any (·.status == .unissued) = false) :
    l.all (·.status != .unissued) = true := by
  rw [List.any_eq_false] at h
  rw [List.all_eq_true]
  exact fun fr hfr => by rw [bne, Bool.not_eq_true', Bool.eq_false_iff]; exact h fr hfr

theorem Entry.issue_consistent {en : Entry} (h : en.consistent = true) (n : Nat) (queue : List Frag) :
    (en.issue n queue).consistent = true := by
  obtain ⟨hlength, -, -, -⟩ := (Entry.consistent_iff en).1 h
  rw [Entry.consistent_iff]
  refine ⟨by rw [Entry.issue, List.length_modify]; exact hlength, fun hs => .inr ?_, fun hs => ?_, fun hs => ?_⟩
  all_goals
    rw [Entry.issue] at hs ⊢
    dsimp only at hs ⊢
    split at hs
  · assumption
  · cases hs
  · cases hs
  · rename_i hany
    exact all_not_unissued_of_not_any (Bool.not_eq_true _ ▸ hany)
  · cases hs
  · cases hs

/-! Issuing a fragment read (R126, R128) -/

theorem State.issueRead_of_next {s : State} {e : EntryIx} {en : Entry} {n : Nat} {fr : FragRead} (he : s.table[e] = some en)
    (hn : en.nextRead = some n) (hfr : en.reads[n]? = some fr) :
    s.issueRead e = (s.setEntry e (some (en.issue n s.queue))).finishAt en fr := by
  simp only [State.issueRead, he, hn, hfr]

theorem State.issueRead_of_none {s : State} {e : EntryIx} (h : ∀ en, s.table[e] = some en → en.nextRead = none) :
    s.issueRead e = s := by
  unfold State.issueRead
  split
  · rfl
  · rename_i en he
    rw [h en he]

theorem State.finishAt_cases (s : State) (en : Entry) (fr : FragRead) :
    s.finishAt en fr = s ∨ ∃ i, s.finishAt en fr = s.order (.finish i) := by
  unfold State.finishAt
  split
  · exact .inl rfl
  · split
    · exact .inr ⟨_, rfl⟩
    · exact .inl rfl

theorem StepOk.order {s : State} (h : StepOk s) (o : Order) : StepOk (s.order o) := by
  obtain ⟨hcore, horders⟩ := h.core.order h.orders o
  have hjob : (s.order o).writeJob = s.writeJob := by rw [State.order_eq]
  refine ⟨hcore, fun p hp => h.head p ?_, horders, h.port.mono (by rw [State.order_eq]) fun b => s.order_formed o b⟩
  rwa [State.todo, hjob] at hp

/-- The port issues the read tracker's request: the others that stand at the port stay formed. -/
theorem Inv.issueRead {s : State} (h : Inv s) (e : EntryIx) :
    Inv ((s.passRequest .readTracker).issueRead e).handOver := by
  have hs := h.stepOk
  have hpass : ∀ t : State, CoreOk t → t.handed = (s.passRequest .readTracker).handed → t.writeJob = s.writeJob →
      t.release = s.release → t.orders = s.orders → StepOk t := fun t hcore hhanded hjob hrelease horders => by
    have hbusy : t.holdBusy = s.holdBusy := by rw [State.holdBusy, State.holdBusy, hrelease, hjob]
    refine ⟨hcore, fun p hp => hs.head p ?_, fun hfree => horders.trans (hs.orders (hbusy ▸ hfree)),
      hs.port.pass .readTracker hhanded fun c hc hformed => ?_⟩
    · rwa [State.todo, hjob] at hp
    · cases c with
      | writeChannel => rw [State.formed_writeChannel_iff] at hformed ⊢; rwa [hjob]
      | holdQueue => rw [State.formed_holdQueue_iff] at hformed ⊢; rwa [hrelease]
      | readTracker => exact absurd rfl hc
  refine StepOk.handOver ?_
  by_cases hnext : ∃ en n, s.table[e] = some en ∧ en.nextRead = some n
  · obtain ⟨en, n, he, hn⟩ := hnext
    obtain ⟨fr, hfr, -⟩ := Entry.nextRead_some hn
    rw [State.issueRead_of_next (s := s.passRequest .readTracker) he hn hfr]
    have hcore : CoreOk ((s.passRequest .readTracker).setEntry e (some (en.issue n s.queue))) :=
      (hs.core.passRequest .readTracker).changeEntry he (Entry.reads_ne_nil hfr)
        (Entry.issue_consistent (hs.core.reads.2.2.2 e en he) n s.queue)
    have ht := hpass _ hcore rfl rfl rfl rfl
    obtain hkept | ⟨i, hordered⟩ := State.finishAt_cases ((s.passRequest .readTracker).setEntry e (some (en.issue n s.queue))) en fr
    · exact hkept.symm ▸ ht
    · exact hordered.symm ▸ ht.order (.finish i)
  · rw [State.issueRead_of_none]
    · exact hpass _ (hs.core.passRequest .readTracker) rfl rfl rfl rfl
    · intro en he
      cases hn : en.nextRead with
      | none => rfl
      | some n => exact absurd ⟨en, n, he, hn⟩ hnext

/-! Issuing a write (R60) -/

/-- The fragment that the port takes directly leaves the write being handled. -/
theorem CoreOk.takeDirect {s : State} (h : CoreOk s) {q : Requester} {t : Tag} {p : PendingFrag} {l : List PendingFrag}
    (hjob : s.writeJob = some (.fragments q t (p :: l))) (hdirect : p.hold = false) :
    CoreOk { s with writeJob := some (.fragments q t l) } := by
  have hjoining : s.joining = State.joining { s with writeJob := some (.fragments q t l) } := by
    simp only [State.joining, State.todo, hjob, List.filter_cons, hdirect, Bool.false_eq_true, if_false]
  have hcutting : s.cutting = true := by rw [State.cutting, hjob]
  obtain ⟨⟨hout, halone, htakes, hstep, hflushing, hflushed⟩, ⟨hroom, hcounts⟩,
    ⟨hall, hbypass, hrest⟩, htables, hreads⟩ := h
  refine ⟨⟨fun hw => ?_, fun hr => ?_, htakes, hstep, fun hf => ?_, fun hf => ?_⟩, ⟨?_, hcounts⟩,
    ⟨fun f hf => hall f ?_, fun hm => ?_, hrest⟩, htables, hreads⟩
  · cases hjob.symm.trans (hout hw).2.1
  · rw [halone hr] at hcutting; cases hcutting
  · cases hjob.symm.trans (hflushing hf)
  · cases hjob.symm.trans (hflushed hf).1
  · rwa [hjoining] at hroom
  · rw [State.heldAll, hjoining]
    exact hf
  · obtain ⟨-, -, htodo, -⟩ := hbypass hm
    rw [State.todo, hjob] at htodo
    cases htodo

/-- After the write channel's request is issued: what is left of the write is handled, and then the command that waits for
it executes. -/
theorem StepOk.handleRest {s u : State} (h : StepOk s) {q : Requester} {t : Tag} {l l' : List PendingFrag}
    (hjob : s.writeJob = some (.fragments q t l')) (hcore : CoreOk { u with writeJob := some (.fragments q t l) })
    (hhanded : u.handed = (s.passRequest .writeChannel).handed) (hrelease : u.release = s.release) (htaken : u.taken = s.taken)
    (htable : u.table = s.table) : StepOk (State.handle q t l u).resumePort := by
  have hcutting : s.cutting = true := by rw [State.cutting, hjob]
  have hfree : s.release = none := by
    cases hr : s.release with
    | none => rfl
    | some rel =>
      have := h.core.work.alone (by rw [hr]; rfl)
      rw [hcutting] at this
      cases this
  obtain ⟨hcore', hhead, horders⟩ := CoreOk.handle l hcore
  have hstep : ∀ v : State, v.release = none → v.stepEntry = none := fun v hv => by rw [State.stepEntry, hv]; rfl
  refine (Keeps.resumePort hcore').stepOk ⟨hcore', hhead, horders, h.port.pass .writeChannel ?_ fun c hc hformed => ?_⟩
  · rw [State.handle_touches]; exact hhanded
  · cases c with
    | writeChannel => exact absurd rfl hc
    | holdQueue => rw [State.formed_holdQueue_iff] at hformed; exact absurd hfree hformed
    | readTracker =>
      refine State.formed_readTracker_mono (by rw [State.handle_touches]; exact htaken) ?_
        (.inr (State.handle_stepEntry q t l u (hstep u (hrelease.trans hfree)))) hformed
      rw [State.handle_issuing]
      exact State.issuing_of_table htable

theorem Inv.issueWrite {s : State} (h : Inv s) : Inv (s.passRequest .writeChannel).issueWrite.handOver := by
  have hs := h.stepOk
  refine StepOk.handOver ?_
  have hsame : (s.passRequest .writeChannel).writeJob = s.writeJob := rfl
  rw [State.issueWrite, hsame]
  split
  · rename_i hjob
    refine ⟨hs.core.passRequest _, hs.head, hs.orders, hs.port.pass .writeChannel rfl fun c hc hformed => ?_⟩
    cases c with
    | writeChannel => exact absurd rfl hc
    | holdQueue | readTracker => exact hformed
  · rename_i w hjob
    have hcutting : s.cutting = false := by rw [State.cutting, hjob]
    refine ⟨CoreOk.with_writeJob (s := { s.passRequest .writeChannel with outstanding := s.outstanding ++ [DsWrite.transparent w] })
        ((hs.core.passRequest .writeChannel).with_ports) (fun _ _ _ hc => by cases hc) (fun hn => absurd rfl hn) _,
      fun p hp => (by cases hp), fun hfree => hs.orders ?_, hs.port.pass .writeChannel rfl fun c hc hformed => ?_⟩
    · exact (s.holdBusy_eq_false_iff).2 ⟨((State.holdBusy_eq_false_iff _).1 hfree).1, hcutting⟩
    · cases c with
      | writeChannel => exact absurd rfl hc
      | holdQueue | readTracker => exact hformed
  · rename_i q t hjob
    refine hs.handleRest (u := s.passRequest .writeChannel) hjob ?_ rfl rfl rfl rfl
    have := hs.core.passRequest .writeChannel
    rw [← hjob]
    exact this
  · rename_i q t p ps hjob
    have hdirect : p.hold = false := hs.head p (by rw [State.todo, hjob]; rfl)
    exact hs.handleRest hjob (CoreOk.with_ports (CoreOk.takeDirect hs.core hjob hdirect)) rfl rfl rfl rfl

/-! Issuing a held entry (R117) -/

theorem State.issueHeld_touches (s : State) (rel : Release) :
    (s.issueHeld rel).handed = s.handed ∧ (s.issueHeld rel).writeJob = s.writeJob ∧ (s.issueHeld rel).taken = s.taken
      ∧ (s.issueHeld rel).issuing = s.issuing := by
  unfold State.issueHeld
  split
  · exact ⟨rfl, rfl, rfl, rfl⟩
  rename_i f hf
  dsimp only
  have hleaves : ∀ u : State, (u.leaves rel.work f).handed = u.handed ∧ (u.leaves rel.work f).writeJob = u.writeJob
      ∧ (u.leaves rel.work f).taken = u.taken ∧ (u.leaves rel.work f).table = u.table := fun u => by
    rw [State.leaves_eq]; exact ⟨rfl, rfl, rfl, rfl⟩
  split
  · obtain ⟨hhanded, hjob, htaken, htable⟩ := hleaves { s with
      release := some { rel with issued := rel.issued + 1, origins := addOrigin f.origin rel.origins }
      outstanding := s.outstanding ++ [DsWrite.fragment f] }
    exact ⟨hhanded, hjob, htaken, State.issuing_of_table htable⟩
  · obtain ⟨hhanded, hjob, htaken, htable⟩ := hleaves { s with
      release := some { rel with issued := rel.issued + 1, origins := addOrigin f.origin rel.origins }
      outstanding := s.outstanding ++ [DsWrite.fragment f] }
    refine ⟨?_, ?_, ?_, ?_⟩
    · rw [State.takeOrders_eq, State.complete_eq]; exact hhanded
    · rw [State.takeOrders_eq, State.complete_eq]; exact hjob
    · rw [State.takeOrders_eq, State.complete_eq]; exact htaken
    · rw [State.takeOrders_issuing, State.complete_issuing]; exact State.issuing_of_table htable

theorem State.complete_stepEntry (s : State) (rel : Release) : (s.complete rel).stepEntry = none := by
  rw [State.stepEntry, State.complete_release]; rfl

/-- The issue of an entry either goes on with the same work or ends it. -/
theorem State.issueHeld_stepEntry {s : State} {rel : Release} (hrel : s.release = some rel) :
    (s.issueHeld rel).stepEntry = s.stepEntry ∨ (s.issueHeld rel).stepEntry = none := by
  unfold State.issueHeld
  split
  · exact .inl rfl
  dsimp only
  split
  · refine .inl ?_
    rw [State.stepEntry, State.leaves_release _ _ _ rfl, State.stepEntry, hrel]
    rfl
  · exact .inr (State.takeOrders_stepEntry _ _ (State.complete_stepEntry _ _))

theorem Inv.issueRelease {s : State} (h : Inv s) : Inv (s.passRequest .holdQueue).issueRelease.handOver := by
  have hs := h.stepOk
  refine StepOk.handOver ?_
  have hsame : (s.passRequest .holdQueue).release = s.release := rfl
  rw [State.issueRelease, hsame]
  cases hrel : s.release with
  | none =>
    refine ⟨hs.core.passRequest _, hs.head, hs.orders, hs.port.pass .holdQueue rfl fun c hc hformed => ?_⟩
    cases c with
    | holdQueue => exact absurd rfl hc
    | writeChannel | readTracker => exact hformed
  | some rel =>
    obtain ⟨hcore, horders⟩ := (hs.core.passRequest .holdQueue).issueHeld (hsame.trans hrel)
    obtain ⟨hhanded, hjob, htaken, hissuing⟩ := (s.passRequest .holdQueue).issueHeld_touches rel
    refine ⟨hcore, fun p hp => hs.head p ?_, horders, hs.port.pass .holdQueue hhanded fun c hc hformed => ?_⟩
    · rwa [State.todo, hjob] at hp
    · cases c with
      | holdQueue => exact absurd rfl hc
      | writeChannel => rw [State.formed_writeChannel_iff] at hformed ⊢; rwa [hjob]
      | readTracker =>
        exact State.formed_readTracker_mono htaken hissuing (State.issueHeld_stepEntry (hsame.trans hrel)) hformed

end Sys2Proof.Machine
end

