-- ==== Sys2Proof/Proofs/Answers.lean ====
section
/-! PROOF. The laws through what memory answers, through the responses of the upstream port, the scan timers, and the stages
of the soft reset. -/

namespace Sys2Proof.Machine

/-! Returns of memory (R130, R133) -/

theorem Entry.awaits_iff (en : Entry) (p : ReadPos) :
    en.awaits p = true ↔ ∃ fr, en.reads[p.val]? = some fr ∧ fr.status = .issued := by
  unfold Entry.awaits
  split
  · rename_i hnone
    rw [hnone]
    exact ⟨fun h => (by cases h), fun ⟨_, h, _⟩ => (by cases h)⟩
  · rename_i fr hfr
    rw [hfr, beq_iff_eq]
    exact ⟨fun h => ⟨fr, rfl, h⟩, fun ⟨_, h, hs⟩ => by cases h; exact hs⟩

/-- Whether some read is unissued, all are issued or all have returned, when one read that was issued changes to RETURNED. -/
theorem any_unissued_modify {l : List FragRead} {n : Nat} {fr : FragRead} (hfr : l[n]? = some fr) (hissued : fr.status = .issued)
    (g : FragRead → FragRead) (hg : ∀ x, (g x).status = .returned) :
    (l.modify n g).any (·.status == .unissued) = l.any (·.status == .unissued) := by
  induction l generalizing n with
  | nil => cases hfr
  | cons x xs ih =>
    cases n with
    | zero =>
      cases hfr
      simp only [List.modify_zero_cons, List.any_cons, hg, hissued]
      rfl
    | succ n => rw [List.modify_succ_cons, List.any_cons, List.any_cons, ih hfr]

theorem all_issued_iff_not_any (l : List FragRead) :
    l.all (·.status != .unissued) = !l.any (·.status == .unissued) := by
  rw [List.not_any_eq_all_not]
  rfl

/-- What a return does to the state of its entry: it was not RESPONDING, and becomes so with the last return, from which no
read is left to issue. -/
theorem Entry.returned_consistent {en : Entry} (h : en.consistent = true) {p : ReadPos} (hawaits : en.awaits p = true)
    (error : Bool) (data : List Byte) :
    (en.returned p.val error data).consistent = true
      ∧ ((en.returned p.val error data).state = .issuing ↔ en.state = .issuing) := by
  obtain ⟨fr, hfr, hissued⟩ := (Entry.awaits_iff en p).1 hawaits
  obtain ⟨hlength, hissuing, hwaiting, hresponding⟩ := (Entry.consistent_iff en).1 h
  have hnonempty := Entry.reads_ne_nil hfr
  unfold Entry.returned
  dsimp only
  generalize hg : (fun x : FragRead => ({ x with
    status := .returned, data := if (!error && !en.error) = true then some (merged x data) else none } : FragRead)) = g
  have hany := any_unissued_modify hfr hissued g fun x => by rw [← hg]
  have hlen : (en.reads.modify p.val g).length ≤ 64 := by rw [List.length_modify]; exact hlength
  cases hall : (en.reads.modify p.val g).all (·.status == .returned) with
  | true =>
    rw [if_pos rfl]
    have hnone : en.reads.any (·.status == .unissued) = false := by
      rw [← hany, List.any_eq_false]
      rw [List.all_eq_true] at hall
      intro x hx
      rw [eq_of_beq (hall x hx)]
      decide
    refine ⟨?_, fun hs => (by cases hs), fun hs => ?_⟩
    · rw [Entry.consistent_iff]
      exact ⟨hlen, fun hs => (by cases hs), fun hs => (by cases hs), fun _ => hall⟩
    · rw [hnone] at hissuing
      exact absurd (hissuing hs) (by simp [hnonempty])
  | false =>
    rw [if_neg Bool.false_ne_true]
    refine ⟨?_, Iff.rfl⟩
    rw [Entry.consistent_iff]
    refine ⟨hlen, fun hs => .inr ?_, fun hs => ?_, fun hs => ?_⟩
    · rw [hany]
      exact (hissuing hs).resolve_left hnonempty
    · rw [all_issued_iff_not_any, hany, ← all_issued_iff_not_any]
      exact hwaiting hs
    · have hret := List.all_eq_true.1 (hresponding hs) fr (List.mem_of_getElem? hfr)
      rw [hissued] at hret
      cases hret

theorem Keeps.joinReturn {s : State} (h : CoreOk s) {e : EntryIx} {en : Entry} (he : s.table[e] = some en) {p : ReadPos}
    (hawaits : en.awaits p = true) (error : Bool) (data : List Byte) : Keeps s (s.joinReturn e en p error data) := by
  obtain ⟨fr, hfr, -⟩ := (Entry.awaits_iff en p).1 hawaits
  obtain ⟨hconsistent, hstate⟩ := Entry.returned_consistent (h.reads.2.2.2 e en he) hawaits error data
  have hissuing := s.changeEntry_issuing he hstate
  unfold State.joinReturn
  refine ⟨(h.changeEntry he (Entry.reads_ne_nil hfr) hconsistent).raiseIf _ _, ⟨?_, ?_, ?_, ?_, ?_⟩⟩
  · rw [State.raiseIf_handed]; rfl
  · rw [State.raiseIf_writeJob]; rfl
  · rw [State.raiseIf_orders]; rfl
  · rw [State.issuingEntry_of_table (s := s.setEntry e _) (by rw [State.raiseIf_taken]) (by rw [State.raiseIf_table]),
      State.issuingEntry_eq, hissuing]
    rfl
  · rw [State.raiseIf_release]; rfl

theorem Keeps.raiseIf {s : State} (h : CoreOk s) (c : Bool) (b : EventBody) : Keeps s (s.raiseIf c b) := by
  refine ⟨h.raiseIf c b, ?_⟩
  cases c
  · exact .refl s
  · exact ⟨rfl, rfl, rfl, rfl, rfl⟩

theorem Keeps.strayReturn {s : State} (h : CoreOk s) (e : EntryIx) (p : ReadPos) : Keeps s (s.strayReturn e p) := by
  unfold State.strayReturn
  split
  · obtain ⟨⟨hout, halone, htakes, hstep, hflushing, hflushed⟩, hcounts, hhold, htables, ⟨htaken, hnodup, htags, hentries⟩⟩ := h
    exact ⟨⟨⟨hout, halone, htakes, hstep, hflushing, hflushed⟩, hcounts, hhold, htables,
      ⟨htaken, hnodup, fun t ht => htags t (List.mem_of_mem_erase ht), hentries⟩⟩, ⟨rfl, rfl, rfl, rfl, rfl⟩⟩
  · exact ⟨h.raise _, ⟨rfl, rfl, rfl, rfl, rfl⟩⟩

/-! Responses (R131) -/

theorem find?_erase_of_neg {α : Type} [DecidableEq α] {p : α → Bool} {x : α} (h : p x = false) (l : List α) :
    (l.erase x).find? p = l.find? p := by
  induction l with
  | nil => rfl
  | cons y ys ih =>
    by_cases hy : y = x
    · subst hy
      rw [List.erase_cons_head, List.find?_cons, h]
    · rw [List.erase_cons_tail (by simpa using hy), List.find?_cons, List.find?_cons, ih]

/-- An answered entry becomes free. -/
theorem Keeps.freeEntry {s : State} (h : CoreOk s) {e : EntryIx} {en : Entry} (he : s.table[e] = some en)
    (hstate : en.state = .responding) (r : Option ReadResp) :
    Keeps s { s.setEntry e none with taken := s.taken.erase e, upRead := r } := by
  have hget : ∀ d : EntryIx, (s.table.set e.val none e.isLt)[d] = if e = d then none else s.table[d] :=
    fun d => s.setEntry_table_get e d none
  have hwork : WorkBase (s.setEntry e none) := h.work.with_table fun i d hd => by
    have hne : e ≠ d := by
      rintro rfl
      have := (State.awaitsStep_issuing hd en he).1
      rw [hstate] at this
      cases this
    unfold State.awaitsStep at hd ⊢
    rwa [show (s.table.set e.val none e.isLt)[d] = s.table[d] from (hget d).trans (if_neg hne)]
  have hissuing : State.issuing { s.setEntry e none with taken := s.taken.erase e, upRead := r } = s.issuing := by
    funext d
    rw [Bool.eq_iff_iff, State.issuing_iff, State.issuing_iff]
    show (∃ en', (s.table.set e.val none e.isLt)[d] = some en' ∧ _) ↔ _
    rw [hget]
    split
    · rename_i hed
      subst hed
      rw [he]
      exact ⟨fun ⟨_, hx, _⟩ => (by cases hx), fun ⟨_, hx, hs⟩ => by cases hx; rw [hstate] at hs; cases hs⟩
    · rfl
  have hnot : s.issuing e = false := by
    rw [Bool.eq_false_iff, ne_eq, State.issuing_iff]
    rintro ⟨_, hx, hs⟩
    rw [he] at hx; cases hx; rw [hstate] at hs; cases hs
  obtain ⟨hout, halone, htakes, hstep, hflushing, hflushed⟩ := hwork
  obtain ⟨htaken, hnodup, htags, hentries⟩ := h.reads
  refine ⟨⟨⟨hout, halone, htakes, hstep, hflushing, hflushed⟩, h.counts, h.hold, h.tables, fun d => ?_, hnodup.erase e,
    fun t ht => ?_, fun d en' hd => ?_⟩, ⟨rfl, rfl, rfl, ?_, rfl⟩⟩
  · show d ∈ s.taken.erase e ↔ ((s.table.set e.val none e.isLt)[d]).isSome = true
    rw [hget, hnodup.mem_erase_iff, htaken d]
    split
    · rename_i hed
      exact ⟨fun hd => absurd hed.symm hd.1, fun hd => by cases hd⟩
    · rename_i hed
      exact ⟨fun hd => hd.2, fun hd => ⟨fun hde => hed hde.symm, hd⟩⟩
  · show (s.table.set e.val none e.isLt)[t.1] = none
    rw [hget, htags t ht, ite_self]
  · change (s.table.set e.val none e.isLt)[d] = some en' at hd
    rw [hget] at hd
    split at hd
    · cases hd
    · exact hentries d en' hd
  · rw [State.issuingEntry_eq, State.issuingEntry_eq, hissuing]
    exact find?_erase_of_neg hnot s.taken

theorem Keeps.respondEntry {s : State} (h : CoreOk s) (e : EntryIx) : Keeps s (s.respondEntry e) := by
  unfold State.respondEntry
  split
  · exact .refl h
  rename_i en he
  split
  · rename_i hready
    rw [Bool.and_eq_true, beq_iff_eq] at hready
    exact .freeEntry h he hready.1 _
  · exact .refl h

theorem Keeps.respondRefused {s : State} (h : CoreOk s) : Keeps s s.respondRefused := by
  unfold State.respondRefused
  split
  · exact .refl h
  split
  · exact .refl h
  · exact ⟨h.with_ports, ⟨rfl, rfl, rfl, rfl, rfl⟩⟩

/-! Write responses of memory (R40, R49, R50) -/

theorem Keeps.downstreamWriteResponse {s t : State} (h : CoreOk s) {error : Bool}
    (ht : execDownstreamWriteResponse error s = .next t) : Keeps s t := by
  unfold execDownstreamWriteResponse at ht
  cases ht
  split
  · exact ⟨h.with_ports, ⟨rfl, rfl, rfl, rfl, rfl⟩⟩
  split
  · exact .refl h
  · rename_i ws _
    exact Keeps.trans (t := { s with outstanding := ws }) ⟨h.with_ports, ⟨rfl, rfl, rfl, rfl, rfl⟩⟩ (.raiseIf h.with_ports _ _)

/-! The stages of the soft reset (R151) -/

theorem State.drained_iff (s : State) : s.drained = true ↔ s.writeJob = none ∧ s.writeResp = none ∧ ∀ e : EntryIx, s.table[e] = none := by
  rw [State.drained, Bool.and_eq_true, Bool.and_eq_true, Option.isNone_iff_eq_none, Option.isNone_iff_eq_none, and_assoc,
    Bool.not_eq_true', State.tableInUse, List.any_eq_false]
  refine and_congr_right fun _ => and_congr_right fun _ => ?_
  constructor
  · intro h e
    have := h e (List.mem_finRange e)
    rwa [Bool.not_eq_true, Option.isSome_eq_false_iff, Option.isNone_iff_eq_none] at this
  · intro h e _
    rw [h e]
    decide

/-- The full flush is ordered once the channels are drained. -/
theorem StepOk.startFlush {s : State} (h : StepOk s) (hphase : s.phase = .softReset .drain) (hjob : s.writeJob = none) :
    StepOk { s with phase := .softReset .flush } := by
  obtain ⟨⟨⟨-, halone, htakes, hstep, -, -⟩, ⟨hroom, hheld, hmark, hdiscarded, -, hlength, huses, hsaving⟩,
    ⟨hahead, hbypass, hdrains, -, hscanner, htimers, hrun⟩, htables, hreads⟩, hhead, horders, hport⟩ := h
  refine ⟨⟨⟨fun hw => (by cases hw), halone, htakes, hstep, fun _ => hjob, fun hf => (by cases hf)⟩,
    ⟨hroom, hheld, hmark, hdiscarded, fun n hn => (by cases hn), hlength, huses, hsaving⟩,
    ⟨hahead, hbypass, fun _ => hdrains (by simp [State.working, hphase]), fun n hn => (by cases hn), hscanner, htimers,
      fun _ => hrun (by simp [State.inReset, hphase])⟩, htables, hreads⟩, hhead, horders, hport.mono rfl fun b hb => hb⟩

theorem Inv.softResetFlush {s t : State} (h : Inv s) (ht : execSoftResetFlush s = .next t) : Inv t := by
  unfold execSoftResetFlush at ht
  cases ht
  split
  · rename_i hphase
    split
    · rename_i hdrained
      exact ((h.stepOk.startFlush hphase ((s.drained_iff).1 hdrained).1).order .fullFlush).handOver
    · exact h
  · exact h

theorem Keeps.softResetResume {s t : State} (h : CoreOk s) (ht : execSoftResetResume s = .next t) : Keeps s t := by
  unfold execSoftResetResume at ht
  cases ht
  split
  · rename_i n hphase
    split
    · obtain ⟨hjob, hqueue⟩ := h.work.flushed (by rw [State.flushedCount, hphase]; rfl)
      exact ⟨((h.softResetScans hqueue hjob).resetCursors.raise _).resume hphase, ⟨rfl, rfl, rfl, rfl, rfl⟩⟩
    · exact .refl h
  · exact .refl h

/-! Scan timers (R101) -/

theorem Inv.scanTimerExpiry {s t : State} (h : Inv s) {i : SurfaceIx} (ht : execScanTimerExpiry i s = .next t) : Inv t := by
  unfold execScanTimerExpiry at ht
  cases ht
  split
  · exact (h.stepOk.order (.stall i)).handOver
  · exact h

/-! The profile store (R156) -/

theorem Keeps.programmingComplete {s t : State} (h : CoreOk s) {ok : Bool}
    (ht : execProfileProgrammingComplete ok s = .next t) : Keeps s t := by
  unfold execProfileProgrammingComplete at ht
  cases ht
  split
  · exact .refl h
  · rename_i k _
    refine ⟨(h.endSave k ok).raise _, ?_⟩
    rw [State.setSlotCheck_eq]
    exact ⟨rfl, rfl, rfl, rfl, rfl⟩

end Sys2Proof.Machine
end

