-- ==== Sys2Proof/Proofs/Loading.lean ====
section
/-! PROOF. The items of the load phase (R158, R159): what each of them does, what none of them touches, and the laws through
them. -/

namespace Sys2Proof.Machine

/-! What a slot offers (R13, R31, R141) -/

/-- The fields that the load gives an aperture from its slot. -/
def Slot.fields (k : Slot ApertureFields) : ApertureFields :=
  match k.status, k.image with
  | .good, some f => f
  | _, _ => ApertureFields.cleared

/-- The record that a slot offers to the load of its surface. -/
def Slot.record (k : Slot SurfaceRec) : SurfaceRec :=
  match k.status, k.image with
  | .good, some r => if r.defined then r else SurfaceRec.cleared
  | _, _ => SurfaceRec.cleared

/-- The settings that the load gives the part. -/
def Slot.settings (k : Slot Settings) : Settings :=
  match k.status, k.image with
  | .good, some x => x
  | _, _ => ⟨.bypass, defaultMask⟩

theorem Slot.fields_of_good {k : Slot ApertureFields} {f : ApertureFields} (hgood : k.status = .good) (himage : k.image = some f) :
    k.fields = f := by
  rw [Slot.fields, hgood, himage]

theorem Slot.fields_of_not_good {k : Slot ApertureFields} (h : k.status ≠ .good) : k.fields = ApertureFields.cleared := by
  unfold Slot.fields
  split
  · exact absurd ‹_› h
  · rfl

theorem Slot.record_of_good {k : Slot SurfaceRec} {r : SurfaceRec} (hgood : k.status = .good) (himage : k.image = some r) :
    k.record = if r.defined then r else SurfaceRec.cleared := by
  rw [Slot.record, hgood, himage]

theorem Slot.record_of_not_good {k : Slot SurfaceRec} (h : k.status ≠ .good) : k.record = SurfaceRec.cleared := by
  unfold Slot.record
  split
  · exact absurd ‹_› h
  · rfl

theorem Slot.settings_of_good {k : Slot Settings} {x : Settings} (hgood : k.status = .good) (himage : k.image = some x) :
    k.settings = x := by
  rw [Slot.settings, hgood, himage]

theorem Slot.settings_of_not_good {k : Slot Settings} (h : k.status ≠ .good) : k.settings = ⟨.bypass, defaultMask⟩ := by
  unfold Slot.settings
  split
  · exact absurd ‹_› h
  · rfl

theorem Slot.fields_valid {k : Slot ApertureFields} (h : ∀ f, k.image = some f → f.valid = true) : k.fields.valid = true := by
  unfold Slot.fields
  split
  · rename_i himage
    exact h _ himage
  · decide

theorem Slot.record_valid {k : Slot SurfaceRec} (h : ∀ r, k.image = some r → r.valid = true) : k.record.valid = true := by
  unfold Slot.record
  split
  · rename_i himage
    split
    · exact h _ himage
    · exact SurfaceRec.cleared_valid
  · exact SurfaceRec.cleared_valid

/-! What each item does -/

/-- Whether the record offered to surface `i` meets a surface loaded before it (R13). -/
def State.clashes (s : State) (i : SurfaceIx) : Bool := s.sfSlots[i].record.defined && s.overlapsSurface i s.sfSlots[i].record

/-- The record that the load gives surface `i`. -/
def State.loadedRecord (s : State) (i : SurfaceIx) : SurfaceRec :=
  if s.clashes i then SurfaceRec.cleared else s.sfSlots[i].record

theorem State.loadAperture_eq (s : State) (a : ApertureIx) :
    s.loadAperture a = (s.setAperture a ⟨.closed, 0, s.apSlots[a].fields⟩).raiseIf (s.apSlots[a].status == SlotStatus.damaged)
      (loadFaultEvent ⟨a.val, by omega⟩ .damaged) := rfl

theorem State.loadSurface_eq (s : State) (i : SurfaceIx) :
    s.loadSurface i = ((s.installSurface i (s.loadedRecord i)).raiseIf (s.sfSlots[i].status == SlotStatus.damaged)
      (loadFaultEvent ⟨i.val + 8, by omega⟩ .damaged)).raiseIf (s.clashes i) (loadFaultEvent ⟨i.val + 8, by omega⟩ .surfaceOverlap) := rfl

theorem State.loadSettings_eq (s : State) :
    s.loadSettings = State.raiseIf { s with alertMask := s.setSlot.settings.mask, mode := s.setSlot.settings.mode }
      (s.setSlot.status == SlotStatus.damaged) (loadFaultEvent 12 .damaged) := rfl

theorem State.openAtStart_of_opens {s : State} {a : ApertureIx} (hmode : s.mode = .engaged)
    (hflag : s.apertures[a].fields.openAtStart = true) (hopen : s.openRefusal a = none) : s.openAtStart a = s.openAperture a := by
  unfold State.openAtStart
  rw [if_pos (by rw [hmode, hflag]; rfl), hopen]

theorem State.openAtStart_of_refused {s : State} {a : ApertureIx} (hmode : s.mode = .engaged)
    (hflag : s.apertures[a].fields.openAtStart = true) (hopen : s.openRefusal a ≠ none) :
    s.openAtStart a = s.raise (loadFaultEvent ⟨a.val, by omega⟩ .openRefused) := by
  unfold State.openAtStart
  rw [if_pos (by rw [hmode, hflag]; rfl)]
  split
  · exact absurd ‹_› hopen
  · rfl

theorem State.openAtStart_of_not {s : State} {a : ApertureIx}
    (h : ¬ (s.mode = .engaged ∧ s.apertures[a].fields.openAtStart = true)) : s.openAtStart a = s := by
  unfold State.openAtStart
  rw [if_neg]
  rwa [Bool.and_eq_true, beq_iff_eq]

theorem State.loadItem_aperture (s : State) (a : ApertureIx) :
    s.loadItem a.val = if a.val = 7 then (s.loadAperture a).resetCursors else s.loadAperture a := by
  rw [State.loadItem, dif_pos a.isLt]

theorem State.loadItem_surface (s : State) (i : SurfaceIx) : s.loadItem (i.val + 8) = s.loadSurface i := by
  have hi := i.isLt
  rw [State.loadItem, dif_neg (by omega), dif_pos (by omega)]
  rfl

theorem State.loadItem_settings (s : State) : s.loadItem 12 = s.loadSettings := by
  rw [State.loadItem, dif_neg (by omega), dif_neg (by omega), if_pos rfl]

theorem State.loadItem_open (s : State) (a : ApertureIx) : s.loadItem (a.val + 13) = s.openAtStart a := by
  have ha := a.isLt
  rw [State.loadItem, dif_neg (by omega), dif_neg (by omega), if_neg (by omega), dif_pos (by omega)]
  rfl

theorem State.loadItem_past (s : State) {n : Nat} (h : 21 ≤ n) : s.loadItem n = s := by
  rw [State.loadItem, dif_neg (by omega), dif_neg (by omega), if_neg (by omega), dif_neg (by omega)]

/-- The items by their kinds: a statement about every item is one about each kind. -/
theorem loadItem_cases {P : Nat → Prop} (haperture : ∀ a : ApertureIx, P a.val) (hsurface : ∀ i : SurfaceIx, P (i.val + 8))
    (hsettings : P 12) (hopen : ∀ a : ApertureIx, P (a.val + 13)) (hpast : ∀ n, 21 ≤ n → P n) (n : Nat) : P n := by
  by_cases h8 : n < 8
  · exact haperture ⟨n, h8⟩
  by_cases h12 : n < 12
  · have := hsurface ⟨n - 8, by omega⟩
    rwa [show n - 8 + 8 = n by omega] at this
  by_cases he : n = 12
  · exact he ▸ hsettings
  by_cases h21 : n < 21
  · have := hopen ⟨n - 13, by omega⟩
    rwa [show n - 13 + 13 = n by omega] at this
  · exact hpast n (by omega)

/-! What no item touches -/

theorem State.raiseIf_frame (s : State) (c : Bool) (b : EventBody) :
    s.raiseIf c b = { s with events := (s.raiseIf c b).events, seqCounter := (s.raiseIf c b).seqCounter } := by
  cases c <;> rfl

theorem State.openAtStart_cases (s : State) (a : ApertureIx) :
    s.openAtStart a = s ∨ s.openAtStart a = s.openAperture a
      ∨ s.openAtStart a = s.raise (loadFaultEvent ⟨a.val, by omega⟩ .openRefused) := by
  by_cases h : s.mode = .engaged ∧ s.apertures[a].fields.openAtStart = true
  · by_cases hopen : s.openRefusal a = none
    · exact .inr (.inl (State.openAtStart_of_opens h.1 h.2 hopen))
    · exact .inr (.inr (State.openAtStart_of_refused h.1 h.2 hopen))
  · exact .inl (State.openAtStart_of_not h)

theorem State.loadItem_eq (s : State) (n : Nat) :
    s.loadItem n = { s with
      surfaces := (s.loadItem n).surfaces, apertures := (s.loadItem n).apertures, cursors := (s.loadItem n).cursors
      scans := (s.loadItem n).scans, mode := (s.loadItem n).mode, alertMask := (s.loadItem n).alertMask
      events := (s.loadItem n).events, seqCounter := (s.loadItem n).seqCounter } := by
  induction n using loadItem_cases with
  | haperture a =>
    rw [State.loadItem_aperture, State.loadAperture_eq, State.raiseIf_frame]
    split <;> rfl
  | hsurface i =>
    rw [State.loadItem_surface, State.loadSurface_eq, State.raiseIf_frame, State.raiseIf_frame (s.installSurface i _)]
    rfl
  | hsettings => rw [State.loadItem_settings, State.loadSettings_eq, State.raiseIf_frame]
  | hopen a =>
    rw [State.loadItem_open]
    obtain h | h | h := s.openAtStart_cases a
    · rw [h]
    · rw [h]; rfl
    · rw [h]; rfl
  | hpast n h => rw [s.loadItem_past h]

/-- An item does not ask for the phase. -/
theorem State.loadItem_phase (s : State) (n : Nat) (p : Phase) :
    State.loadItem { s with phase := p } n = { s.loadItem n with phase := p } := by
  have hraise : ∀ (u : State) (c : Bool) (b : EventBody), State.raiseIf { u with phase := p } c b = { u.raiseIf c b with phase := p } :=
    fun u c b => by cases c <;> rfl
  induction n using loadItem_cases with
  | haperture a =>
    rw [State.loadItem_aperture, State.loadItem_aperture, State.loadAperture_eq, State.loadAperture_eq]
    have := hraise (s.setAperture a ⟨.closed, 0, s.apSlots[a].fields⟩) (s.apSlots[a].status == SlotStatus.damaged)
      (loadFaultEvent ⟨a.val, by omega⟩ .damaged)
    split
    · exact congrArg State.resetCursors this
    · exact this
  | hsurface i =>
    rw [State.loadItem_surface, State.loadItem_surface, State.loadSurface_eq, State.loadSurface_eq, ← hraise, ← hraise]
    rfl
  | hsettings => rw [State.loadItem_settings, State.loadItem_settings, State.loadSettings_eq, State.loadSettings_eq, ← hraise]
  | hopen a =>
    rw [State.loadItem_open, State.loadItem_open]
    have hsame : State.openRefusal { s with phase := p } a = s.openRefusal a := rfl
    by_cases h : s.mode = .engaged ∧ s.apertures[a].fields.openAtStart = true
    · by_cases hopen : s.openRefusal a = none
      · rw [State.openAtStart_of_opens h.1 h.2 hopen, State.openAtStart_of_opens (s := { s with phase := p }) h.1 h.2 hopen]
        rfl
      · rw [State.openAtStart_of_refused h.1 h.2 hopen, State.openAtStart_of_refused (s := { s with phase := p }) h.1 h.2 hopen]
        rfl
    · rw [State.openAtStart_of_not h, State.openAtStart_of_not (s := { s with phase := p }) h]
  | hpast n h => rw [State.loadItem_past _ h, s.loadItem_past h]

theorem State.runLoad_phase (k n : Nat) (s : State) : (State.runLoad k n s).phase = .loading (n + k) := by
  induction k generalizing n s with
  | zero => rfl
  | succ k ih => rw [State.runLoad, ih]; congr 1; omega

theorem State.runLoad_eq (k n : Nat) (s : State) :
    State.runLoad k n s = { s with
      phase := .loading (n + k)
      surfaces := (State.runLoad k n s).surfaces, apertures := (State.runLoad k n s).apertures
      cursors := (State.runLoad k n s).cursors, scans := (State.runLoad k n s).scans, mode := (State.runLoad k n s).mode
      alertMask := (State.runLoad k n s).alertMask, events := (State.runLoad k n s).events
      seqCounter := (State.runLoad k n s).seqCounter } := by
  induction k generalizing n s with
  | zero => rfl
  | succ k ih =>
    rw [State.runLoad, ih, State.loadItem_eq, show n + 1 + k = n + (k + 1) by omega]

/-- A run of items is blind to the phase it starts in. -/
theorem State.runLoad_of_phase (k n : Nat) (s : State) (p : Phase) :
    State.runLoad k n { s with phase := p } = State.runLoad k n s := by
  induction k generalizing n s with
  | zero => rfl
  | succ k ih => rw [State.runLoad, State.loadItem_phase, ih, State.runLoad]

/-- Items handled in one run or in two. -/
theorem State.runLoad_add (j k n : Nat) (s : State) :
    State.runLoad (j + k) n s = State.runLoad k (n + j) (State.runLoad j n s) := by
  induction j generalizing n s with
  | zero =>
    rw [State.runLoad, Nat.zero_add, Nat.add_zero]
    exact (State.runLoad_of_phase k n s _).symm
  | succ j ih =>
    rw [Nat.succ_add, State.runLoad, ih, State.runLoad, show n + 1 + j = n + (j + 1) by omega]

end Sys2Proof.Machine
end

