-- ==== Sys2Proof/Proofs/Power.lean ====
section
/-! PROOF. The laws through the load phase, line reset and power. -/

namespace Sys2Proof.Machine

/-! The items of the load (R158, R159) -/

theorem CoreOk.loading_facts {s : State} (h : CoreOk s) {n : Nat} (hphase : s.phase = .loading n) :
    s.queue = [] ∧ s.writeJob = none ∧ s.release = none ∧ (∀ i : SurfaceIx, s.scans[i].state = .idle)
      ∧ (∀ a : ApertureIx, s.apertures[a].state ≠ .draining) ∧ (n ≤ 12 → ∀ a : ApertureIx, s.apertures[a].state = .closed) := by
  obtain ⟨hqueue, hjob, hrelease⟩ := h.work.outside (by rw [State.working, hphase])
  obtain ⟨-, -, -, hloading, -⟩ := h.hold
  obtain ⟨hidle, happertures⟩ := hloading n (by rw [State.loadNext, hphase])
  exact ⟨hqueue, hjob, hrelease, hidle, fun a => (happertures a).1, fun hn a => (happertures a).2 hn⟩

theorem CoreOk.loadAperture {s : State} (h : CoreOk s) (hqueue : s.queue = []) (a : ApertureIx) : CoreOk (s.loadAperture a) := by
  have hheld : s.apertures[a].held = 0 := by
    rw [h.counts.2.1 a, hqueue]
    rfl
  have hset := h.setAperture (a := a) (r := ⟨.closed, 0, s.apSlots[a].fields⟩) (c := s.cursors[a]) hheld.symm
    (fun hc => absurd rfl hc) (fun _ hd => by cases hd)
    (h.tables.setAperture ⟨Slot.fields_valid (h.aperture a).image, fun hc => absurd rfl hc, fun hc => absurd rfl hc,
      fun hc => absurd rfl hc, fun hc => absurd rfl hc, (h.aperture a).image⟩ (fun hc => absurd rfl hc) (fun hc => absurd rfl hc))
  rw [show (s.setAperture a ⟨.closed, 0, s.apSlots[a].fields⟩).setCursor a s.cursors[a]
    = s.setAperture a ⟨.closed, 0, s.apSlots[a].fields⟩ from State.setCursor_self (s.setAperture a _) a] at hset
  rw [State.loadAperture_eq]
  exact hset.raiseIf _ _

theorem CoreOk.loadSurface {s : State} (h : CoreOk s) (hheldAll : s.heldAll = [])
    (hclosed : ∀ a : ApertureIx, s.apertures[a].state = .closed) (i : SurfaceIx) : CoreOk (s.loadSurface i) := by
  have hclaims : ∀ a, s.claims a ≠ true := fun a ha => by
    rw [State.claims_iff] at ha
    exact ha (hclosed a)
  have hfits : (s.loadedRecord i).valid = true
      ∧ ((s.loadedRecord i).defined = true → s.overlapsSurface i (s.loadedRecord i) = false) := by
    unfold State.loadedRecord State.clashes
    split
    · exact ⟨SurfaceRec.cleared_valid, fun hc => by cases hc⟩
    · rename_i hclash
      refine ⟨Slot.record_valid (h.surface i).image, fun hdefined => ?_⟩
      rwa [hdefined, Bool.true_and, Bool.not_eq_true] at hclash
  rw [State.loadSurface_eq]
  refine ((h.installSurface hfits.1 hfits.2 (fun _ => ?_) (fun a ha => absurd ha (hclaims a)) ?_).raiseIf _ _).raiseIf _ _
  · rw [State.overlapsAperture_eq_false_iff]
    exact fun a ha => absurd ha (hclaims a)
  · rw [hheldAll]
    exact fun f hf => by cases hf

theorem CoreOk.with_mode {s : State} (h : CoreOk s) (m : Mode) (hclosed : ∀ a : ApertureIx, s.apertures[a].state = .closed)
    (hqueue : s.queue = []) (htodo : s.todo = []) (hidle : ∀ i : SurfaceIx, s.scans[i].state = .idle) :
    CoreOk { s with mode := m } := by
  obtain ⟨⟨hout, halone, htakes, hstep, hflushing, hflushed⟩, hcounts, ⟨hahead, -, hrest⟩, htables, hreads⟩ := h
  exact ⟨⟨hout, halone, htakes, hstep, hflushing, hflushed⟩, hcounts, ⟨hahead, fun _ => ⟨hclosed, hqueue, htodo, hidle⟩, hrest⟩,
    htables, hreads⟩

theorem CoreOk.loadItem {s : State} (h : CoreOk s) {n : Nat} (hphase : s.phase = .loading n) : CoreOk (s.loadItem n) := by
  obtain ⟨hqueue, hjob, -, hidle, -, hclosed⟩ := h.loading_facts hphase
  have htodo : s.todo = [] := by rw [State.todo, hjob]
  induction n using loadItem_cases with
  | haperture a =>
    rw [State.loadItem_aperture]
    split
    · exact (h.loadAperture hqueue a).resetCursors
    · exact h.loadAperture hqueue a
  | hsurface i =>
    have hi := i.isLt
    rw [State.loadItem_surface]
    exact h.loadSurface (State.heldAll_of_empty hqueue htodo) (hclosed (by omega)) i
  | hsettings =>
    rw [State.loadItem_settings, State.loadSettings_eq]
    exact ((h.with_mode s.setSlot.settings.mode (hclosed (Nat.le_refl _)) hqueue htodo hidle).with_mask
      s.setSlot.settings.mask).raiseIf _ _
  | hopen a =>
    rw [State.loadItem_open]
    by_cases hon : s.mode = .engaged ∧ s.apertures[a].fields.openAtStart = true
    · by_cases hopen : s.openRefusal a = none
      · rw [State.openAtStart_of_opens hon.1 hon.2 hopen]
        refine h.openAperture hopen fun m hm => ?_
        rw [State.loadNext, hphase] at hm
        cases hm
        omega
      · rw [State.openAtStart_of_refused hon.1 hon.2 hopen]
        exact h.raise _
    · rw [State.openAtStart_of_not hon]
      exact h
  | hpast n hn => rw [State.loadItem_past s hn]; exact h

/-- The load goes on, or ends with the part running: an item further the laws ask less. -/
theorem CoreOk.nextItem {s : State} (h : CoreOk s) {n m : Nat} (hphase : s.phase = .loading n) (hm : n ≤ m) :
    CoreOk { s with phase := .loading m } := by
  have hfacts := h.loading_facts hphase
  obtain ⟨⟨hout, halone, htakes, hstep, -, -⟩, ⟨hroom, hheld, hmark, hdiscarded, -, hlength, huses, hsaving⟩,
    ⟨hahead, hbypass, -, hloading, hscanner, htimers, hrun⟩, htables, hreads⟩ := h
  exact ⟨⟨fun _ => hout (by rw [State.working, hphase]), halone, htakes, hstep, fun hf => (by cases hf), fun hf => (by cases hf)⟩,
    ⟨hroom, hheld, hmark, hdiscarded, fun n hn => (by cases hn), hlength, huses, hsaving⟩,
    ⟨hahead, hbypass, fun hw => (by cases hw), fun k hk => ⟨hfacts.2.2.2.1, fun a => ⟨hfacts.2.2.2.2.1 a, fun hk12 =>
      hfacts.2.2.2.2.2 (by cases hk; omega) a⟩⟩, hscanner, htimers, fun _ => hrun (by rw [State.inReset, hphase])⟩, htables, hreads⟩

theorem CoreOk.runLoad (k : Nat) {n : Nat} {s : State} (h : CoreOk s) (hphase : s.phase = .loading n) :
    CoreOk (State.runLoad k n s) := by
  induction k generalizing n s with
  | zero => exact h.nextItem hphase (Nat.le_refl n)
  | succ k ih =>
    have hitem := h.loadItem hphase
    have hkept : (s.loadItem n).phase = .loading n := by rw [State.loadItem_eq]; exact hphase
    rw [State.runLoad, ← State.runLoad_of_phase k (n + 1) (s.loadItem n) (.loading (n + 1))]
    exact ih (hitem.nextItem hkept (Nat.le_succ n)) rfl

/-- The load ends and the part runs (R159). -/
theorem CoreOk.endLoad {s : State} (h : CoreOk s) {n : Nat} (hphase : s.phase = .loading n) : CoreOk { s with phase := .running } := by
  obtain ⟨-, -, -, -, hdraining, -⟩ := h.loading_facts hphase
  obtain ⟨⟨-, halone, htakes, hstep, -, -⟩, ⟨hroom, hheld, hmark, hdiscarded, -, hlength, huses, hsaving⟩,
    ⟨hahead, hbypass, -, -, hscanner, htimers, hrun⟩, htables, hreads⟩ := h
  exact ⟨⟨fun hw => (by cases hw), halone, htakes, hstep, fun hf => (by cases hf), fun hf => (by cases hf)⟩,
    ⟨hroom, hheld, hmark, hdiscarded, fun n hn => (by cases hn), hlength, huses, hsaving⟩,
    ⟨hahead, hbypass, fun _ a ha => absurd ha (hdraining a), fun n hn => (by cases hn), hscanner, htimers,
      fun _ => hrun (by rw [State.inReset, hphase])⟩, htables, hreads⟩

/-! The beginning of the load (R31; log entry 34) -/

theorem State.beginLoad_surfaces_get (s : State) (i : SurfaceIx) : s.beginLoad.surfaces[i] = SurfaceRec.cleared :=
  Vector.getElem_replicate i.isLt

theorem State.beginLoad_apertures_get (s : State) (a : ApertureIx) : s.beginLoad.apertures[a] = Aperture.cleared :=
  Vector.getElem_replicate a.isLt

theorem State.beginLoad_scans_get (s : State) (i : SurfaceIx) : s.beginLoad.scans[i] = ScanCtx.fresh none :=
  Vector.getElem_replicate i.isLt

/-- From any state without work: nothing is loaded, and what the slots keep is valid. -/
theorem CoreOk.beginLoad {s : State} (h : CoreOk s) (hidle : s.working = false) : CoreOk s.beginLoad := by
  obtain ⟨hqueue, hjob, hrelease⟩ := h.work.outside hidle
  have hscan : ∀ i : SurfaceIx, s.beginLoad.scans[i].state = .idle := fun i => by rw [State.beginLoad_scans_get]; rfl
  have hclosed : ∀ a : ApertureIx, s.beginLoad.apertures[a].state = .closed := fun a => by rw [State.beginLoad_apertures_get]; rfl
  have hclaims : ∀ a, s.beginLoad.claims a = true → False := fun a ha => by
    rw [State.claims_iff] at ha
    exact ha (hclosed a)
  have htodo : s.beginLoad.todo = [] := by rw [State.todo, show s.beginLoad.writeJob = none from hjob]
  have hdefined : ∀ i : SurfaceIx, s.beginLoad.surfaces[i].defined = true → False := fun i hi => by
    rw [State.beginLoad_surfaces_get] at hi
    cases hi
  obtain ⟨hroom, -, hmark, hdiscarded, -, hlength, huses, hsaving⟩ := h.counts
  refine ⟨⟨fun _ => ⟨hqueue, hjob, hrelease⟩, fun hr => ?_, fun rel hr => ?_, ?_, fun hf => (by cases hf), fun hf => (by cases hf)⟩,
    ⟨hroom, fun a => ?_, hmark, hdiscarded, fun n hn => (by cases hn), hlength, huses, hsaving⟩,
    ⟨fun f hf => ?_, fun _ => ⟨hclosed, hqueue, htodo, hscan⟩, fun hw => (by cases hw),
      fun n _ => ⟨hscan, fun a => ⟨by rw [hclosed a]; decide, fun _ => hclosed a⟩⟩, fun i _ => hscan i, fun i hi => ?_,
      fun _ i hi => ?_⟩,
    (tablesOk_iff _).2 ⟨fun i => ?_, fun a => ?_, fun i j _ hi => (hdefined i hi).elim, fun i a hi => (hdefined i hi).elim,
      fun a b _ ha => (hclaims a ha).elim⟩, h.reads⟩
  · rw [show s.beginLoad.release = none from hrelease] at hr; cases hr
  · cases hrelease.symm.trans hr
  · rw [State.stepOk, show s.beginLoad.release = none from hrelease]
  · rw [State.beginLoad_apertures_get, show s.beginLoad.queue = [] from hqueue]; rfl
  · rw [State.heldAll_of_empty (s := s.beginLoad) hqueue htodo] at hf; cases hf
  · rw [State.beginLoad_scans_get] at hi; cases hi
  · rw [hscan i] at hi; cases hi
  · rw [State.beginLoad_surfaces_get, State.beginLoad_scans_get]
    exact SurfaceOk.fresh_of_valid SurfaceRec.cleared_valid (h.surface i).image
  · have hc := hclosed a
    exact ⟨by rw [State.beginLoad_apertures_get]; decide, fun hn => absurd hc hn, fun hn => absurd hc hn,
      fun hn => absurd hc hn, fun hn => absurd hc hn, (h.aperture a).image⟩

theorem CoreOk.load {s : State} (h : CoreOk s) (hidle : s.working = false) (cut : Option Nat) : CoreOk (s.load cut) :=
  (h.beginLoad hidle).runLoad _ rfl

/-- What the load leaves alone. -/
theorem State.load_eq (s : State) (cut : Option Nat) :
    s.load cut = { s with
      phase := .loading (loadCount cut)
      surfaces := (s.load cut).surfaces, apertures := (s.load cut).apertures, cursors := (s.load cut).cursors
      scans := (s.load cut).scans, mode := (s.load cut).mode, alertMask := (s.load cut).alertMask
      events := (s.load cut).events, seqCounter := (s.load cut).seqCounter } := by
  unfold State.load
  rw [State.runLoad_eq, Nat.zero_add]
  rfl

theorem Keeps.load {s : State} (h : CoreOk s) (hidle : s.working = false) (cut : Option Nat) : Keeps s (s.load cut) :=
  ⟨h.load hidle cut, by rw [State.load_eq]; exact ⟨rfl, rfl, rfl, rfl, rfl⟩⟩

theorem Keeps.loadPhaseEnd {s t : State} (h : CoreOk s) (ht : execLoadPhaseEnd s = .next t) : Keeps s t := by
  unfold execLoadPhaseEnd at ht
  cases ht
  split
  · rename_i n hphase
    refine ⟨(h.runLoad _ hphase).endLoad (State.runLoad_phase _ _ _), ?_⟩
    rw [State.runLoad_eq]
    exact ⟨rfl, rfl, rfl, rfl, rfl⟩
  · exact .refl h

/-! Without work: power and line reset (R50, R122, R154, R157, R160) -/

/-- The laws of a state with nothing going on at its ports, its hold queue and its read table. -/
theorem CoreOk.inv_of_empty {s : State} (h : CoreOk s) (hjob : s.writeJob = none) (hrelease : s.release = none)
    (horders : s.orders = []) (htaken : s.taken = []) (hhanded : s.handed = []) : Inv s := by
  have htodo : s.todo = [] := by rw [State.todo, hjob]
  refine StepOk.inv ⟨h, fun p hp => ?_, fun _ => horders, fun b hb => ?_, ?_, ?_⟩ ⟨fun b => ?_, ?_, ?_⟩
  · rw [htodo] at hp; cases hp
  · rw [State.isHanded, hhanded] at hb; cases hb
  · rw [hhanded]; exact List.nodup_nil
  · rw [hhanded]; exact fun g hg => by cases hg
  · rw [State.isHanded, hhanded]
    cases b with
    | writeChannel => rw [State.formed, hjob]; rfl
    | holdQueue => rw [State.formed, hrelease]; rfl
    | readTracker => rw [State.formed, State.readToIssue, State.issuingEntry, htaken]; rfl
  · rw [hhanded]; exact List.nodup_nil
  · rw [hhanded]; exact fun g hg => by cases hg

theorem State.reset_table_get (e : EntryIx) : State.reset.table[e] = none := Vector.getElem_replicate e.isLt

theorem State.reset_surfaces_get (i : SurfaceIx) : State.reset.surfaces[i] = SurfaceRec.cleared := Vector.getElem_replicate i.isLt

theorem State.reset_apertures_get (a : ApertureIx) : State.reset.apertures[a] = Aperture.cleared := Vector.getElem_replicate a.isLt

theorem State.reset_scans_get (i : SurfaceIx) : State.reset.scans[i] = ScanCtx.fresh none := Vector.getElem_replicate i.isLt

/-- A part that holds nothing but its slots, in any phase without work. -/
theorem CoreOk.of_slots {s : State} (hs : s = { State.reset with
      phase := s.phase, apSlots := s.apSlots, sfSlots := s.sfSlots, setSlot := s.setSlot, pending := s.pending })
    (hidle : s.working = false) (hap : ∀ (a : ApertureIx) f, s.apSlots[a].image = some f → f.valid = true)
    (hsf : ∀ (i : SurfaceIx) r, s.sfSlots[i].image = some r → r.valid = true) (huses : ∀ k : SlotIx, s.slotUses k ≤ 3) :
    CoreOk s := by
  have hflushing : s.flushing = false ∧ s.flushedCount = none := by
    unfold State.working at hidle
    unfold State.flushing State.flushedCount
    cases hp : s.phase with
    | off | resetLow | loading n => exact ⟨rfl, rfl⟩
    | running | softReset stage =>
      rw [hp] at hidle
      cases hidle
  have hqueue : s.queue = [] := by rw [hs]; rfl
  have hjob : s.writeJob = none := by rw [hs]; rfl
  have hrelease : s.release = none := by rw [hs]; rfl
  have htodo : s.todo = [] := by rw [State.todo, hjob]
  have hscan : ∀ i : SurfaceIx, s.scans[i] = ScanCtx.fresh none := by rw [hs]; exact State.reset_scans_get
  have hscanIdle : ∀ i : SurfaceIx, s.scans[i].state = .idle := fun i => by rw [hscan i]; rfl
  have happ : ∀ a : ApertureIx, s.apertures[a] = Aperture.cleared := by rw [hs]; exact State.reset_apertures_get
  have hclosed : ∀ a : ApertureIx, s.apertures[a].state = .closed := fun a => by rw [happ a]; rfl
  have hclaims : ∀ a, s.claims a = true → False := fun a ha => by
    rw [State.claims_iff] at ha
    exact ha (hclosed a)
  have hsurf : ∀ i : SurfaceIx, s.surfaces[i] = SurfaceRec.cleared := by rw [hs]; exact State.reset_surfaces_get
  have hdefined : ∀ i : SurfaceIx, s.surfaces[i].defined = true → False := fun i hi => by rw [hsurf i] at hi; cases hi
  have htable : ∀ e : EntryIx, s.table[e] = none := by rw [hs]; exact State.reset_table_get
  have htaken : s.taken = [] := by rw [hs]; rfl
  refine ⟨⟨fun _ => ⟨hqueue, hjob, hrelease⟩, fun hr => ?_, fun rel hr => ?_, ?_, fun hf => ?_, fun hf => ?_⟩,
    ⟨?_, fun a => ?_, ?_, ?_, fun n hn => ?_, ?_, huses, fun k hk => ?_⟩,
    ⟨fun f hf => ?_, fun _ => ⟨hclosed, hqueue, htodo, hscanIdle⟩, fun hw => ?_,
      fun n _ => ⟨hscanIdle, fun a => ⟨by rw [hclosed a]; decide, fun _ => hclosed a⟩⟩, fun i _ => hscanIdle i, fun i hi => ?_,
      fun _ i hi => ?_⟩,
    (tablesOk_iff _).2 ⟨fun i => ?_, fun a => ?_, fun i j _ hi => (hdefined i hi).elim, fun i a hi => (hdefined i hi).elim,
      fun a b _ ha => (hclaims a ha).elim⟩, ⟨fun e => ?_, ?_, fun t _ => htable t.1, fun e en he => ?_⟩⟩
  · rw [hrelease] at hr; cases hr
  · rw [hrelease] at hr; cases hr
  · rw [State.stepOk, hrelease]
  · rw [hflushing.1] at hf; cases hf
  · rw [hflushing.2] at hf; cases hf
  · rw [State.joining, htodo, State.releasedCount, hrelease, hqueue]; exact Nat.zero_le _
  · rw [happ a, hqueue]; rfl
  · rw [hs]; exact Nat.zero_le _
  · rw [hs]; exact Nat.zero_le _
  · rw [hflushing.2] at hn; cases hn
  · rw [hs]; exact Nat.zero_le _
  · rw [hs] at hk; cases hk
  · rw [State.heldAll_of_empty hqueue htodo] at hf; cases hf
  · rw [hidle] at hw; cases hw
  · rw [hscan i] at hi; cases hi
  · rw [hscanIdle i] at hi; cases hi
  · rw [hsurf i, hscan i]
    exact SurfaceOk.fresh_of_valid SurfaceRec.cleared_valid (hsf i)
  · have hc := hclosed a
    exact ⟨by rw [happ a]; decide, fun hn => absurd hc hn, fun hn => absurd hc hn, fun hn => absurd hc hn,
      fun hn => absurd hc hn, hap a⟩
  · rw [htaken, htable e]; exact ⟨fun he => (by cases he), fun he => (by cases he)⟩
  · rw [htaken]; exact List.nodup_nil
  · rw [htable e] at he; cases he

theorem CoreOk.unpowered {s : State} (h : CoreOk s) : CoreOk s.unpowered := by
  have hp := h.abortSave
  exact CoreOk.of_slots rfl rfl (fun a => (hp.aperture a).image) (fun i => (hp.surface i).image) hp.slotUses_le

theorem Inv.unpowered {s : State} (h : Inv s) : Inv s.unpowered :=
  h.stepOk.core.unpowered.inv_of_empty rfl rfl rfl rfl rfl

theorem State.reset_inv : Inv State.reset :=
  CoreOk.inv_of_empty (CoreOk.of_slots rfl rfl (fun a f hf => by
      rw [show State.reset.apSlots[a] = Slot.blank from Vector.getElem_replicate a.isLt] at hf; cases hf)
    (fun i r hr => by rw [show State.reset.sfSlots[i] = Slot.blank from Vector.getElem_replicate i.isLt] at hr; cases hr)
    (by decide)) rfl rfl rfl rfl rfl

/-! Line reset -/

theorem State.lineReset_apertures_get (s : State) (a : ApertureIx) :
    s.lineReset.apertures[a] = { s.apertures[a] with held := 0 } :=
  mapTable_getElem _ s.apertures a.val a.isLt

theorem State.lineReset_scans_get (s : State) (i : SurfaceIx) : s.lineReset.scans[i] = { s.scans[i] with timer := none } :=
  mapTable_getElem _ s.scans i.val i.isLt

theorem State.lineReset_table_get (s : State) (e : EntryIx) : s.lineReset.table[e] = none := Vector.getElem_replicate e.isLt

/-- The parts of the state that a line reset takes from the state with its save cut. -/
theorem State.lineReset_same (s : State) : s.lineReset.mode = s.mode ∧ s.lineReset.surfaces = s.surfaces
    ∧ s.lineReset.cursors = s.cursors ∧ s.lineReset.events = s.events ∧ s.lineReset.seqCounter = s.seqCounter
    ∧ s.lineReset.alertMask = s.alertMask ∧ s.lineReset.headWrite = s.headWrite ∧ s.lineReset.headRead = s.headRead
    ∧ s.lineReset.saving = none := by
  unfold State.lineReset
  rw [State.abortSave_eq]
  exact ⟨rfl, rfl, rfl, rfl, rfl, rfl, rfl, rfl, rfl⟩

theorem SurfaceOk.stopTimer {r : SurfaceRec} {c : ScanCtx} {image : Option SurfaceRec} (h : SurfaceOk r c image) :
    SurfaceOk r { c with timer := none } image :=
  ⟨h.valid, h.fresh.imp_right fun hf => by rw [hf]; rfl, h.active, h.pending, h.row, h.image⟩

theorem CoreOk.lineReset {s : State} (h : CoreOk s) : CoreOk s.lineReset := by
  have hp := h.abortSave
  obtain ⟨hmode, hsurfaces, hcursors, hevents, -, -, -, -, hsaving⟩ := s.lineReset_same
  have hheldAll : s.lineReset.heldAll = [] := State.heldAll_of_empty rfl rfl
  have hstate : ∀ i : SurfaceIx, s.lineReset.scans[i].state = s.scans[i].state := fun i => by rw [State.lineReset_scans_get]
  have htimer : ∀ i : SurfaceIx, s.lineReset.scans[i].timer = none := fun i => by rw [State.lineReset_scans_get]
  have hqueue : s.queue.length ≤ Config.holdCapacity := by have := h.room; omega
  have htables : TablesOk { s with apertures := s.lineReset.apertures } :=
    h.tables.with_held fun a => by rw [State.lineReset_apertures_get]; exact ⟨rfl, rfl⟩
  obtain ⟨hsurfaceOk, hapertureOk, hdisjoint⟩ := (tablesOk_iff _).1 htables
  refine ⟨⟨fun _ => ⟨rfl, rfl, rfl⟩, fun hr => (by cases hr), fun rel hr => (by cases hr), rfl, fun hf => (by cases hf),
      fun hf => (by cases hf)⟩,
    ⟨Nat.zero_le _, fun a => ?_, Nat.zero_le _, hqueue, fun n hn => (by cases hn), ?_, hp.slotUses_le, fun k hk => ?_⟩,
    ⟨fun f hf => ?_, fun hm => ?_, fun hw => (by cases hw), fun n hn => (by cases hn), fun i hi => ?_, fun i hi => ?_,
      fun hr => (by cases hr)⟩,
    (tablesOk_iff _).2 ⟨fun i => ?_, fun a => ?_, ?_⟩, ⟨fun e => ?_, List.nodup_nil, fun t _ => s.lineReset_table_get t.1, fun e en he => ?_⟩⟩
  · rw [State.lineReset_apertures_get]; rfl
  · rw [hevents]; exact h.events_length_le
  · rw [hsaving] at hk; cases hk
  · rw [hheldAll] at hf; cases hf
  · obtain ⟨hclosed, -, -, hidle⟩ := h.bypass (hmode.symm.trans hm)
    exact ⟨fun a => by rw [State.lineReset_apertures_get]; exact hclosed a, rfl, rfl, fun i => (hstate i).trans (hidle i)⟩
  · rw [hsurfaces] at hi
    obtain ⟨-, -, -, -, hscanner, -⟩ := h.hold
    exact (hstate i).trans (hscanner i hi)
  · rw [htimer i] at hi; cases hi
  · rw [hsurfaces, State.lineReset_scans_get]
    exact ⟨(h.surface i).valid, (h.surface i).stopTimer.fresh, (h.surface i).active, (h.surface i).pending, (h.surface i).row,
      (hp.surface i).image⟩
  · have ha := hapertureOk a
    rw [State.surfaceOf, hsurfaces, hcursors]
    exact ⟨ha.valid, ha.defined, ha.fits, ha.view, ha.within, (hp.aperture a).image⟩
  · unfold State.disjointClaims State.claims State.apertureEnd State.surfaceOf at hdisjoint ⊢
    rw [hsurfaces]
    exact hdisjoint
  · rw [State.lineReset_table_get]
    exact ⟨fun he => (by cases he), fun he => (by cases he)⟩
  · rw [State.lineReset_table_get] at he; cases he

theorem Inv.lineReset {s : State} (h : Inv s) : Inv s.lineReset :=
  h.stepOk.core.lineReset.inv_of_empty rfl rfl rfl rfl rfl

end Sys2Proof.Machine
end

