-- ==== Sys2Proof/Proofs/Steps.lean ====
section
/-! PROOF. Every command keeps the laws of Safety.lean, and so does every step. -/

namespace Sys2Proof.Machine

/-! Upstream and downstream commands -/

theorem State.readOpen_running {s : State} (h : s.readOpen = true) : s.phase = .running := by
  rw [State.readOpen, Bool.and_eq_true, Bool.and_eq_true, beq_iff_eq] at h
  exact h.1.1

theorem Inv.with_headWrite {s : State} (h : Inv s) (w : Option WriteReq) : Inv { s with headWrite := w } :=
  Keeps.inv (s := s) ⟨h.stepOk.core.with_ports, ⟨rfl, rfl, rfl, rfl, rfl⟩⟩ h

theorem Inv.with_headRead {s : State} (h : Inv s) (r : Option ReadReq) : Inv { s with headRead := r } :=
  Keeps.inv (s := s) ⟨h.stepOk.core.with_ports, ⟨rfl, rfl, rfl, rfl, rfl⟩⟩ h

theorem Inv.headWriteArrives {s : State} (h : Inv s) (w : WriteReq) : Inv (s.headWriteArrives w) := by
  unfold State.headWriteArrives
  split
  · exact h
  split
  · exact h
  split
  · rename_i hopen
    exact h.considerWrite hopen w
  · exact h.with_headWrite _

theorem Inv.waitingWriteReconsidered {s t : State} (h : Inv s) (ht : execWaitingWriteReconsidered s = .next t) : Inv t := by
  unfold execWaitingWriteReconsidered at ht
  cases ht
  split
  · exact h
  split
  · rename_i hopen
    exact h.considerWrite hopen _
  · exact h

theorem Inv.headReadArrives {s : State} (h : Inv s) (r : ReadReq) (pick : Nat) : Inv (s.headReadArrives r pick) := by
  unfold State.headReadArrives
  split
  · exact h
  split
  · exact h
  split
  · rename_i hopen
    exact h.considerRead (State.readOpen_running hopen) r pick
  · exact h.with_headRead _

theorem Inv.headReadReconsidered {s t : State} (h : Inv s) {pick : Nat} (ht : execHeadReadReconsidered pick s = .next t) :
    Inv t := by
  unfold execHeadReadReconsidered at ht
  cases ht
  split
  · exact h
  split
  · rename_i hopen
    exact h.considerRead (State.readOpen_running hopen) _ pick
  · exact h

theorem Keeps.writeResponse {s t : State} (h : CoreOk s) (ht : execWriteResponse s = .next t) : Keeps s t := by
  unfold execWriteResponse at ht
  cases ht
  split
  · exact .refl h
  · exact ⟨h.with_ports, ⟨rfl, rfl, rfl, rfl, rfl⟩⟩

theorem Inv.fragmentReadIssue {s t : State} (h : Inv s) (ht : execFragmentReadIssue s = .next t) : Inv t := by
  unfold execFragmentReadIssue at ht
  cases ht
  split
  · split
    · exact h
    · exact h.issueRead _
  · exact h

theorem Inv.downstreamWriteIssue {s t : State} (h : Inv s) {src : WriteSource} (ht : execDownstreamWriteIssue src s = .next t) :
    Inv t := by
  unfold execDownstreamWriteIssue at ht
  cases ht
  split
  · cases src with
    | writeChannel => exact h.issueWrite
    | holdQueue => exact h.issueRelease
  · exact h

theorem Keeps.downstreamReadReturn {s t : State} (h : CoreOk s) {e : EntryIx} {p : ReadPos} {error : Bool} {data : List Byte}
    (ht : execDownstreamReadReturn e p error data s = .next t) : Keeps s t := by
  unfold execDownstreamReadReturn at ht
  cases ht
  split
  · exact .refl h
  split
  · exact .strayReturn h e p
  rename_i en he
  split
  · rename_i hawaits
    exact .joinReturn h he hawaits error data
  · exact .strayReturn h e p

theorem Keeps.readResponse {s t : State} (h : CoreOk s) {who : Responder} (ht : execReadResponse who s = .next t) : Keeps s t := by
  unfold execReadResponse at ht
  cases ht
  cases who with
  | entry e => exact .respondEntry h e
  | refused => exact .respondRefused h

/-! Management commands -/

/-- A gated command whose effect keeps the laws in the running part. -/
theorem Keeps.transaction {s : State} (h : CoreOk s) (c : Instr) (gated complete waits : Bool) (body : Answer)
    (hbody : (gated = true → s.phase = .running) → waits = false → Keeps s body.state) :
    Keeps s (s.command c gated complete waits body) :=
  (Keeps.refl h).command c gated complete waits body fun hrunning _ hwaits => hbody hrunning hwaits

theorem Keeps.readUnit {s : State} (h : CoreOk s) {α : Type} (ix : Option α) (bytes : α → List Byte) :
    Keeps s (s.readUnit ix bytes).state := by
  cases ix <;> exact .refl h

theorem Keeps.gather {s : State} (h : CoreOk s) (received : List Byte) (ended : Bool) : Keeps s (s.gather received ended) := by
  obtain hkept | ⟨p, hset⟩ := s.gather_cases received ended
  · rw [hkept]; exact .refl h
  · rw [hset]; exact (Keeps.refl h).setPort p

/-! Every command -/

/-- Every command keeps the laws. -/
theorem Inv.exec {s t : State} (h : Inv s) {c : Instr} (ht : exec c s = .next t) : Inv t := by
  have hc := h.stepOk.core
  have hkeeps : ∀ {u : State}, Keeps s u → Host.Outcome.next (φ := Fault) (ρ := Refusal) u = .next t → Inv t :=
    fun hu he => by cases he; exact hu.inv h
  cases c with
  | powerOn cut => cases ht; exact (Keeps.load hc.unpowered rfl cut).inv h.unpowered
  | powerLoss => cases ht; exact h.unpowered
  | resetnFall =>
    cases ht
    split
    · exact h.lineReset
    · exact h
  | resetnRise cut =>
    cases ht
    split
    · rename_i hlow
      rw [beq_iff_eq] at hlow
      have hraised : Keeps s (s.raise (lineResetEvent s.discarded)) := ⟨hc.raise _, ⟨rfl, rfl, rfl, rfl, rfl⟩⟩
      exact (hraised.trans (.load hraised.core (by rw [State.working, State.raise_phase, hlow]) cut)).inv h
    · exact h
  | loadPhaseEnd => exact (Keeps.loadPhaseEnd hc ht).inv h
  | headWriteConsidered w => cases ht; exact h.headWriteArrives w
  | waitingWriteReconsidered => exact h.waitingWriteReconsidered ht
  | writeResponse => exact (Keeps.writeResponse hc ht).inv h
  | headReadConsidered r pick => cases ht; exact h.headReadArrives r pick
  | headReadReconsidered pick => exact h.headReadReconsidered ht
  | fragmentReadIssue => exact h.fragmentReadIssue ht
  | downstreamWriteIssue src => exact h.downstreamWriteIssue ht
  | downstreamReadReturn e p error data => exact (Keeps.downstreamReadReturn hc ht).inv h
  | downstreamWriteResponse error => exact (Keeps.downstreamWriteResponse hc ht).inv h
  | readResponse who => exact (Keeps.readResponse hc ht).inv h
  | scanTimerExpiry i => exact h.scanTimerExpiry ht
  | profileProgrammingComplete ok => exact (Keeps.programmingComplete hc ht).inv h
  | shortTransaction bytes => exact hkeeps (.gather hc bytes.received bytes.ended) ht
  | unknownCommand code => exact hkeeps (.transaction hc _ _ _ _ _ fun _ _ => .refl hc) ht
  | ident => exact hkeeps (.transaction hc _ _ _ _ _ fun _ _ => .refl hc) ht
  | modeSet m => exact hkeeps (.takeModeSet hc m) ht
  | modeRead => exact hkeeps (.transaction hc _ _ _ _ _ fun _ _ => .refl hc) ht
  | surfaceWrite index record => exact hkeeps (.takeSurfaceWrite hc index record) ht
  | surfaceRead index => exact hkeeps (.transaction hc _ _ _ _ _ fun _ _ => .readUnit hc _ _) ht
  | bandSet index block => exact hkeeps (.transaction hc _ _ _ _ _ fun _ _ => .bandSet hc index block) ht
  | scanRead index => exact hkeeps (.transaction hc _ _ _ _ _ fun _ _ => .readUnit hc _ _) ht
  | apertureWrite index record => exact hkeeps (.transaction hc _ _ _ _ _ fun _ _ => .apertureWrite hc index record) ht
  | apertureRead index => exact hkeeps (.transaction hc _ _ _ _ _ fun _ _ => .readUnit hc _ _) ht
  | apertureOpen index => exact hkeeps (.transaction hc _ _ _ _ _ fun hrunning _ => .apertureOpen hc (hrunning rfl) index) ht
  | apertureClose index => exact hkeeps (.takeApertureClose hc index) ht
  | windowSet index window => exact hkeeps (.transaction hc _ _ _ _ _ fun hrunning _ => .windowSet hc (hrunning rfl) index window) ht
  | cursorRead index => exact hkeeps (.transaction hc _ _ _ _ _ fun _ _ => .readUnit hc _ _) ht
  | holdRead =>
    exact hkeeps (.transaction hc _ _ _ _ _ fun _ _ =>
      ⟨hc.with_highWater hc.occupancySeen_le, ⟨rfl, rfl, rfl, rfl, rfl⟩⟩) ht
  | eventRead => exact hkeeps (.transaction hc _ _ _ _ _ fun _ _ => .eventRead hc) ht
  | eventCount => exact hkeeps (.transaction hc _ _ _ _ _ fun _ _ => .refl hc) ht
  | alertMaskRead mask => exact hkeeps (.transaction hc _ _ _ _ _ fun _ _ => .alertMaskCommand hc 0 mask) ht
  | alertMaskWrite action mask => exact hkeeps (.transaction hc _ _ _ _ _ fun _ _ => .alertMaskCommand hc action mask) ht
  | profileSave slot => exact hkeeps (.transaction hc _ _ _ _ _ fun _ _ => .profileSave hc slot) ht
  | profileRead => exact hkeeps (.transaction hc _ _ _ _ _ fun _ _ => .refl hc) ht
  | softReset =>
    exact hkeeps (.transaction hc _ _ _ _ _ fun hrunning _ => ⟨hc.startSoftReset (hrunning rfl), ⟨rfl, rfl, rfl, rfl, rfl⟩⟩) ht
  | softResetFlush => exact h.softResetFlush ht
  | softResetResume => exact (Keeps.softResetResume hc ht).inv h

/-- A step is a command on the state without it, or a period of the clock; both keep the laws. -/
theorem Inv.step {s t : State} (h : Inv s) (ht : step s = .next t) : Inv t := by
  unfold Sys2Proof.Machine.step at ht
  split at ht
  · cases ht
    exact (Keeps.tick h.stepOk.core).inv h
  · rename_i c cs _
    have hrest : Inv { s with pending := cs } :=
      Keeps.inv (s := s) ⟨h.stepOk.core.with_ports, ⟨rfl, rfl, rfl, rfl, rfl⟩⟩ h
    exact hrest.exec ht

/-! The statements -/

/-- Settles O3: the state after reset holds nothing. -/
theorem resetSatisfiesInv : Obligations.ResetSatisfiesInv := State.reset_inv

/-- Settles O4: every step keeps the laws together, these two among them. -/
theorem stepKeepsWorkAndCounts : Obligations.StepKeepsWorkAndCounts := by
  intro s t h ht
  obtain ⟨hwork, hcounts, -⟩ := h.step ht
  exact ⟨hwork, hcounts⟩

/-- Settles O5: every step keeps the laws together, the hold laws among them. -/
theorem stepKeepsHoldLaws : Obligations.StepKeepsHoldLaws := by
  intro s t h ht
  obtain ⟨-, -, hhold, -⟩ := h.step ht
  exact hhold

/-- Settles O6: every step keeps the laws together, those of the tables among them. -/
theorem stepKeepsTables : Obligations.StepKeepsTables := by
  intro s t h ht
  obtain ⟨-, -, -, htables, -⟩ := h.step ht
  exact htables

/-- Settles O7: every step keeps the laws together, those of the read table and of the port among them. -/
theorem stepKeepsReadTableAndPort : Obligations.StepKeepsReadTableAndPort := by
  intro s t h ht
  obtain ⟨-, -, -, -, hreads, hport⟩ := h.step ht
  exact ⟨hreads, hport⟩

end Sys2Proof.Machine
end

