-- ==== Sys2Proof/Proofs/Answering.lean ====
section
/-! PROOF. What no command touches: the queue of waiting commands, and the use counts of the slots but to raise them. -/

namespace Sys2Proof.Machine

/-! Steps -/

/-- Settles O1: the step's two branches, and what a period of the clock does. -/
theorem stepRunsFrontCommand : Obligations.StepRunsFrontCommand := by
  refine ⟨fun c cs s h => ?_, fun s h => ⟨s.tick, ?_, rfl, fun i => ?_⟩⟩
  · rw [step, h]
  · rw [step, h]
  · exact s.tick_scans_get i

/-! What every command keeps -/

/-- The queue of waiting commands is the same in `t` as in `s`, and no slot's use count is lower. -/
structure Upkeep (s t : State) : Prop where
  pending : t.pending = s.pending
  uses : ∀ k : SlotIx, s.slotUses k ≤ t.slotUses k

theorem Upkeep.refl (s : State) : Upkeep s s := ⟨rfl, fun _ => Nat.le_refl _⟩

theorem Upkeep.trans {s t u : State} (h : Upkeep s t) (h' : Upkeep t u) : Upkeep s u :=
  ⟨h'.pending.trans h.pending, fun k => (h.uses k).trans (h'.uses k)⟩

/-- What leaves the queue and the slots alone. -/
theorem Upkeep.of_same {s t : State} (hpending : t.pending = s.pending) (hap : t.apSlots = s.apSlots) (hsf : t.sfSlots = s.sfSlots)
    (hset : t.setSlot = s.setSlot) : Upkeep s t :=
  ⟨hpending, fun k => by rw [State.slotUses_congr hap hsf hset k]⟩

theorem Upkeep.handOver {s t : State} (h : Upkeep s t) : Upkeep s t.handOver :=
  h.trans (.of_same (by rw [State.handOver_eq]) (by rw [State.handOver_eq]) (by rw [State.handOver_eq]) (by rw [State.handOver_eq]))

theorem Upkeep.raise {s t : State} (h : Upkeep s t) (b : EventBody) : Upkeep s (t.raise b) :=
  h.trans (.of_same rfl rfl rfl rfl)

theorem Upkeep.raiseIf {s t : State} (h : Upkeep s t) (c : Bool) (b : EventBody) : Upkeep s (t.raiseIf c b) := by
  cases c
  · exact h
  · exact h.raise b

theorem Upkeep.order {s t : State} (h : Upkeep s t) (o : Order) : Upkeep s (t.order o) :=
  h.trans (.of_same (by rw [State.order_eq]) (by rw [State.order_eq]) (by rw [State.order_eq]) (by rw [State.order_eq]))

theorem Upkeep.handle {s t : State} (h : Upkeep s t) (q : Requester) (g : Tag) (l : List PendingFrag) :
    Upkeep s (State.handle q g l t) :=
  h.trans (.of_same (by rw [State.handle_touches]) (by rw [State.handle_touches]) (by rw [State.handle_touches])
    (by rw [State.handle_touches]))

/-! Transactions -/

theorem Upkeep.saveSlot (s : State) (k : SlotIx) : Upkeep s (s.saveSlot k) := by
  refine ⟨by rw [State.saveSlot_eq], fun j => ?_⟩
  by_cases hj : j = k
  · rw [hj, (s.saveSlot_slot k).1]; exact Nat.le_succ _
  · rw [(s.saveSlot_other hj).1]

theorem Upkeep.endSave (s : State) (k : SlotIx) (ok : Bool) : Upkeep s { s.setSlotCheck k ok with saving := none } :=
  ⟨by rw [State.setSlotCheck_eq], fun j => (s.setSlotCheck_slotUses k ok j).ge⟩

theorem Upkeep.abortSave (s : State) : Upkeep s s.abortSave :=
  ⟨by rw [State.abortSave_eq], fun j => (s.abortSave_slotUses j).ge⟩

/-- A transaction keeps what its command's effect keeps. -/
theorem Upkeep.command {s : State} (c : Instr) (gated complete waits : Bool) (body : Answer) (hbody : Upkeep s body.state) :
    Upkeep s (s.command c gated complete waits body) :=
  State.command_keeps (P := Upkeep s) (fun _ _ hu => hu.trans (.of_same rfl rfl rfl rfl)) (.refl s) c gated complete waits body
    fun _ _ _ => hbody

theorem Upkeep.modeSet (s : State) (m : Byte) : Upkeep s (s.modeSet m).state := by
  unfold State.modeSet
  split
  · split <;> exact .of_same rfl rfl rfl rfl
  · split <;> exact .of_same rfl rfl rfl rfl

theorem Upkeep.surfaceWrite (s : State) (b : Byte) (l : List Byte) : Upkeep s (s.surfaceWrite b l).state := by
  unfold State.surfaceWrite
  split
  · exact .of_same rfl rfl rfl rfl
  split
  · exact .of_same rfl rfl rfl rfl
  split
  · exact .of_same rfl rfl rfl rfl
  split <;> exact .of_same rfl rfl rfl rfl

theorem Upkeep.bandSet (s : State) (b : Byte) (l : List Byte) : Upkeep s (s.bandSet b l).state := by
  unfold State.bandSet
  split
  · exact .of_same rfl rfl rfl rfl
  split
  · exact .of_same rfl rfl rfl rfl
  split
  · exact .of_same rfl rfl rfl rfl
  · exact .of_same rfl rfl rfl rfl
  · exact .of_same rfl rfl rfl rfl
  · split <;> exact .of_same rfl rfl rfl rfl

theorem Upkeep.apertureWrite (s : State) (b : Byte) (l : List Byte) : Upkeep s (s.apertureWrite b l).state := by
  unfold State.apertureWrite
  split
  · exact .of_same rfl rfl rfl rfl
  split
  · exact .of_same rfl rfl rfl rfl
  split <;> exact .of_same rfl rfl rfl rfl

theorem Upkeep.apertureOpen (s : State) (b : Byte) : Upkeep s (s.apertureOpen b).state := by
  unfold State.apertureOpen
  split
  · exact .of_same rfl rfl rfl rfl
  split <;> exact .of_same rfl rfl rfl rfl

theorem Upkeep.apertureClose (s : State) (b : Byte) : Upkeep s (s.apertureClose b).state := by
  unfold State.apertureClose
  split
  · exact .of_same rfl rfl rfl rfl
  split
  · exact .of_same rfl rfl rfl rfl
  split <;> exact .of_same rfl rfl rfl rfl

theorem Upkeep.windowSet (s : State) (b : Byte) (l : List Byte) : Upkeep s (s.windowSet b l).state := by
  unfold State.windowSet
  split
  · exact .of_same rfl rfl rfl rfl
  dsimp only
  split
  · exact .of_same rfl rfl rfl rfl
  split
  · exact .of_same rfl rfl rfl rfl
  split <;> exact .of_same rfl rfl rfl rfl

theorem Upkeep.eventRead (s : State) : Upkeep s s.eventRead.state := by
  unfold State.eventRead
  split <;> exact .of_same rfl rfl rfl rfl

theorem Upkeep.alertMaskCommand (s : State) (action : Byte) (mask : BitVec 16) :
    Upkeep s (s.alertMaskCommand action mask).state := by
  unfold State.alertMaskCommand
  split
  · exact .of_same rfl rfl rfl rfl
  split
  · split <;> exact .of_same rfl rfl rfl rfl
  · exact .of_same rfl rfl rfl rfl

theorem Upkeep.profileSave (s : State) (b : Byte) : Upkeep s (s.profileSave b).state := by
  unfold State.profileSave
  split
  · exact .refl s
  split
  · exact .refl s
  split
  · exact .refl s
  · exact .saveSlot s _

theorem Upkeep.readUnit {α : Type} (s : State) (ix : Option α) (bytes : α → List Byte) : Upkeep s (s.readUnit ix bytes).state := by
  cases ix <;> exact .refl s

theorem Upkeep.takeModeSet (s : State) (m : Byte) : Upkeep s (s.takeModeSet m) := .command _ _ _ _ _ (.modeSet s m)

theorem Upkeep.takeSurfaceWrite (s : State) (b : Byte) (l : List Byte) : Upkeep s (s.takeSurfaceWrite b l) :=
  .command _ _ _ _ _ (.surfaceWrite s b l)

theorem Upkeep.takeApertureClose (s : State) (b : Byte) : Upkeep s (s.takeApertureClose b) :=
  .command _ _ _ _ _ (.apertureClose s b)

theorem Upkeep.resumePort (s : State) : Upkeep s s.resumePort := by
  unfold State.resumePort
  split
  · split
    · exact .takeModeSet s _
    · exact .takeSurfaceWrite s _ _
    · exact .takeApertureClose s _
    · exact .refl s
  · exact .refl s

/-! The upstream port -/

theorem Upkeep.acceptPlan (s : State) (w : WriteReq) (through : Option ApertureIx) (plan : WritePlan) :
    Upkeep s (s.acceptPlan w through plan) :=
  .of_same (by rw [State.acceptPlan_eq]) (by rw [State.acceptPlan_eq]) (by rw [State.acceptPlan_eq]) (by rw [State.acceptPlan_eq])

theorem Upkeep.considerFrags (s : State) (w : WriteReq) (i : SurfaceIx) (through : Option ApertureIx) (plan : WritePlan) :
    Upkeep s (s.considerFrags w i through plan) := by
  by_cases h : heldNeed (s.decideAll [] plan.frags) ≤ s.freeEntries
  · rw [s.considerFrags_of_room w i through plan h]
    exact ((Upkeep.acceptPlan s w through plan).handle _ _ _).handOver
  · rw [s.considerFrags_of_full w i through plan (by omega)]
    exact ((Upkeep.refl s).raiseIf _ _).trans (.of_same rfl rfl rfl rfl)

theorem Upkeep.considerWrite (s : State) (w : WriteReq) : Upkeep s (s.considerWrite w) := by
  unfold State.considerWrite
  split
  · exact .of_same rfl rfl rfl rfl
  · exact .of_same rfl rfl rfl rfl
  · refine Upkeep.handOver ?_
    exact .of_same rfl rfl rfl rfl
  · exact .considerFrags s w _ _ _
  · exact .considerFrags s w _ _ _
  · exact .considerFrags s w _ _ _
  · exact .considerFrags s w _ _ _

theorem Upkeep.headWriteArrives (s : State) (w : WriteReq) : Upkeep s (s.headWriteArrives w) := by
  unfold State.headWriteArrives
  split
  · exact .refl s
  split
  · exact .refl s
  split
  · exact .considerWrite s w
  · exact .of_same rfl rfl rfl rfl

theorem Upkeep.scanStep (s : State) (i : SurfaceIx) (e : EntryIx) (req : ReadReq) : Upkeep s (s.scanStep i e req) :=
  .of_same (by rw [State.scanStep_eq]) (by rw [State.scanStep_eq]) (by rw [State.scanStep_eq]) (by rw [State.scanStep_eq])

theorem Upkeep.acceptRead (s : State) (e : EntryIx) (en : Entry) : Upkeep s (s.acceptRead e en) := .of_same rfl rfl rfl rfl

theorem Upkeep.acceptRoute (s : State) (cls : Class) (req : ReadReq) (e : EntryIx) : Upkeep s (s.acceptRoute cls req e) := by
  cases cls with
  | malformed => exact .refl s
  | refused _ _ => exact .refl s
  | transparent => exact .acceptRead s e _
  | mapped a => exact .acceptRead s e _
  | stream a => exact .of_same rfl rfl rfl rfl
  | backing i => exact .acceptRead s e _
  | scanner i =>
    cases htracked : trackedRead s.surfaces[i] (readAccess req) with
    | true =>
      rw [State.acceptRoute_of_tracked htracked]
      exact (Upkeep.acceptRead s e _).trans (.scanStep _ i e req)
    | false =>
      rw [State.acceptRoute_of_untracked htracked]
      exact .acceptRead s e _

theorem Upkeep.considerRead (s : State) (req : ReadReq) (pick : Nat) : Upkeep s (s.considerRead req pick) := by
  unfold State.considerRead
  split
  · exact .of_same rfl rfl rfl rfl
  · exact .of_same rfl rfl rfl rfl
  split
  · exact .of_same rfl rfl rfl rfl
  split
  · exact .of_same rfl rfl rfl rfl
  · exact (Upkeep.acceptRoute s _ req _).handOver

theorem Upkeep.headReadArrives (s : State) (req : ReadReq) (pick : Nat) : Upkeep s (s.headReadArrives req pick) := by
  unfold State.headReadArrives
  split
  · exact .refl s
  split
  · exact .refl s
  split
  · exact .considerRead s req pick
  · exact .of_same rfl rfl rfl rfl

theorem Upkeep.respondEntry (s : State) (e : EntryIx) : Upkeep s (s.respondEntry e) := by
  unfold State.respondEntry
  split
  · exact .refl s
  split <;> exact .of_same rfl rfl rfl rfl

theorem Upkeep.respondRefused (s : State) : Upkeep s s.respondRefused := by
  unfold State.respondRefused
  split
  · exact .refl s
  split <;> exact .of_same rfl rfl rfl rfl

/-! The downstream port -/

theorem Upkeep.passRequest (s : State) (b : Former) : Upkeep s (s.passRequest b) := .of_same rfl rfl rfl rfl

theorem Upkeep.finishAt (s : State) (en : Entry) (fr : FragRead) : Upkeep s (s.finishAt en fr) := by
  obtain hkept | ⟨i, hordered⟩ := s.finishAt_cases en fr
  · rw [hkept]; exact .refl s
  · rw [hordered]; exact (Upkeep.refl s).order _

theorem Upkeep.issueRead (s : State) (e : EntryIx) : Upkeep s (s.issueRead e) := by
  unfold State.issueRead
  split
  · exact .refl s
  split
  · exact .refl s
  split
  · exact .refl s
  · refine Upkeep.trans ?_ (.finishAt _ _ _)
    exact .of_same rfl rfl rfl rfl

theorem Upkeep.issueWrite (s : State) : Upkeep s s.issueWrite := by
  unfold State.issueWrite
  split
  · exact .refl s
  · exact .of_same rfl rfl rfl rfl
  · exact ((Upkeep.refl s).handle _ _ _).trans (.resumePort _)
  · refine Upkeep.trans (Upkeep.handle ?_ _ _ _) (.resumePort _)
    exact .of_same rfl rfl rfl rfl

theorem Upkeep.leaves (s : State) (w : Work) (f : Frag) : Upkeep s (s.leaves w f) :=
  .of_same (by rw [State.leaves_eq]) (by rw [State.leaves_eq]) (by rw [State.leaves_eq]) (by rw [State.leaves_eq])

theorem Upkeep.complete (s : State) (rel : Release) : Upkeep s (s.complete rel) :=
  .of_same (by rw [State.complete_eq]) (by rw [State.complete_eq]) (by rw [State.complete_eq]) (by rw [State.complete_eq])

theorem Upkeep.takeOrders (l : List Order) (s : State) : Upkeep s (State.takeOrders l s) :=
  .of_same (by rw [State.takeOrders_eq]) (by rw [State.takeOrders_eq]) (by rw [State.takeOrders_eq]) (by rw [State.takeOrders_eq])

theorem Upkeep.issueHeld (s : State) (rel : Release) : Upkeep s (s.issueHeld rel) := by
  unfold State.issueHeld
  split
  · exact .refl s
  rename_i f _
  dsimp only
  have hleaves : ∀ r : Release, Upkeep s (State.leaves { s with
      release := some r, outstanding := s.outstanding ++ [DsWrite.fragment f] } rel.work f) :=
    fun r => Upkeep.trans (t := { s with release := some r, outstanding := s.outstanding ++ [DsWrite.fragment f] })
      (.of_same rfl rfl rfl rfl) (.leaves _ _ _)
  split
  · exact hleaves _
  · exact ((hleaves _).trans (.complete _ _)).trans (.takeOrders _ _)

theorem Upkeep.issueRelease (s : State) : Upkeep s s.issueRelease := by
  unfold State.issueRelease
  split
  · exact .refl s
  · exact .issueHeld s _

theorem Upkeep.strayReturn (s : State) (e : EntryIx) (p : ReadPos) : Upkeep s (s.strayReturn e p) := by
  unfold State.strayReturn
  split <;> exact .of_same rfl rfl rfl rfl

/-! Power -/

theorem Upkeep.unpowered (s : State) : Upkeep s s.unpowered := ⟨rfl, (Upkeep.abortSave s).uses⟩

theorem Upkeep.load (s : State) (cut : Option Nat) : Upkeep s (s.load cut) :=
  .of_same (by rw [State.load_eq]) (by rw [State.load_eq]) (by rw [State.load_eq]) (by rw [State.load_eq])

/-- Settles O2: command by command. -/
theorem everyCommandAnswersNext : Obligations.EveryCommandAnswersNext := by
  intro c s
  have hanswer : ∀ t, Upkeep s t →
      ∃ u, Host.Outcome.next (φ := Fault) (ρ := Refusal) t = .next u ∧ u.pending = s.pending ∧ ∀ k : SlotIx, s.slotUses k ≤ u.slotUses k :=
    fun t ht => ⟨t, rfl, ht.pending, ht.uses⟩
  cases c with
  | powerOn cut => exact hanswer _ ((Upkeep.unpowered s).trans (.load _ cut))
  | powerLoss => exact hanswer _ (.unpowered s)
  | resetnFall =>
    refine hanswer _ ?_
    split
    · exact ⟨(Upkeep.abortSave s).pending, (Upkeep.abortSave s).uses⟩
    · exact .refl s
  | resetnRise cut =>
    refine hanswer _ ?_
    split
    · exact ((Upkeep.refl s).raise _).trans (.load _ cut)
    · exact .refl s
  | loadPhaseEnd =>
    refine hanswer _ ?_
    split
    · exact .of_same (by rw [State.runLoad_eq]) (by rw [State.runLoad_eq]) (by rw [State.runLoad_eq]) (by rw [State.runLoad_eq])
    · exact .refl s
  | headWriteConsidered w => exact hanswer _ (.headWriteArrives s w)
  | waitingWriteReconsidered =>
    refine hanswer _ ?_
    split
    · exact .refl s
    split
    · exact .considerWrite s _
    · exact .refl s
  | writeResponse =>
    refine hanswer _ ?_
    split <;> exact .of_same rfl rfl rfl rfl
  | headReadConsidered r pick => exact hanswer _ (.headReadArrives s r pick)
  | headReadReconsidered pick =>
    refine hanswer _ ?_
    split
    · exact .refl s
    split
    · exact .considerRead s _ pick
    · exact .refl s
  | fragmentReadIssue =>
    refine hanswer _ ?_
    split
    · split
      · exact .refl s
      · exact ((Upkeep.passRequest s _).trans (.issueRead _ _)).handOver
    · exact .refl s
  | downstreamWriteIssue src =>
    refine hanswer _ ?_
    split
    · cases src with
      | writeChannel => exact ((Upkeep.passRequest s _).trans (.issueWrite _)).handOver
      | holdQueue => exact ((Upkeep.passRequest s _).trans (.issueRelease _)).handOver
    · exact .refl s
  | downstreamReadReturn e p error data =>
    refine hanswer _ ?_
    split
    · exact .refl s
    split
    · exact .strayReturn s e p
    split
    · refine Upkeep.raiseIf ?_ _ _
      exact .of_same rfl rfl rfl rfl
    · exact .strayReturn s e p
  | downstreamWriteResponse error =>
    refine hanswer _ ?_
    split
    · exact .of_same rfl rfl rfl rfl
    split
    · exact .refl s
    · refine Upkeep.raiseIf ?_ _ _
      exact .of_same rfl rfl rfl rfl
  | readResponse who =>
    refine hanswer _ ?_
    cases who with
    | entry e => exact .respondEntry s e
    | refused => exact .respondRefused s
  | scanTimerExpiry i =>
    refine hanswer _ ?_
    split
    · exact ((Upkeep.refl s).order _).handOver
    · exact .refl s
  | profileProgrammingComplete ok =>
    refine hanswer _ ?_
    split
    · exact .refl s
    · exact (Upkeep.endSave s _ ok).raise _
  | shortTransaction bytes =>
    refine hanswer _ ?_
    obtain hkept | ⟨p, hset⟩ := s.gather_cases bytes.received bytes.ended
    · rw [hkept]; exact .refl s
    · rw [hset]; exact .of_same rfl rfl rfl rfl
  | unknownCommand code => exact hanswer _ (.command _ _ _ _ _ (.refl s))
  | ident => exact hanswer _ (.command _ _ _ _ _ (.refl s))
  | modeSet m => exact hanswer _ (.takeModeSet s m)
  | modeRead => exact hanswer _ (.command _ _ _ _ _ (.refl s))
  | surfaceWrite index record => exact hanswer _ (.takeSurfaceWrite s index record)
  | surfaceRead index => exact hanswer _ (.command _ _ _ _ _ (.readUnit s _ _))
  | bandSet index block => exact hanswer _ (.command _ _ _ _ _ (.bandSet s index block))
  | scanRead index => exact hanswer _ (.command _ _ _ _ _ (.readUnit s _ _))
  | apertureWrite index record => exact hanswer _ (.command _ _ _ _ _ (.apertureWrite s index record))
  | apertureRead index => exact hanswer _ (.command _ _ _ _ _ (.readUnit s _ _))
  | apertureOpen index => exact hanswer _ (.command _ _ _ _ _ (.apertureOpen s index))
  | apertureClose index => exact hanswer _ (.takeApertureClose s index)
  | windowSet index window => exact hanswer _ (.command _ _ _ _ _ (.windowSet s index window))
  | cursorRead index => exact hanswer _ (.command _ _ _ _ _ (.readUnit s _ _))
  | holdRead => exact hanswer _ (.command _ _ _ _ _ (.of_same rfl rfl rfl rfl))
  | eventRead => exact hanswer _ (.command _ _ _ _ _ (.eventRead s))
  | eventCount => exact hanswer _ (.command _ _ _ _ _ (.refl s))
  | alertMaskRead mask => exact hanswer _ (.command _ _ _ _ _ (.alertMaskCommand s 0 mask))
  | alertMaskWrite action mask => exact hanswer _ (.command _ _ _ _ _ (.alertMaskCommand s action mask))
  | profileSave slot => exact hanswer _ (.command _ _ _ _ _ (.profileSave s slot))
  | profileRead => exact hanswer _ (.command _ _ _ _ _ (.refl s))
  | softReset => exact hanswer _ (.command _ _ _ _ _ (.of_same rfl rfl rfl rfl))
  | softResetFlush =>
    refine hanswer _ ?_
    split
    · split
      · refine (Upkeep.order ?_ _).handOver
        exact .of_same rfl rfl rfl rfl
      · exact .refl s
    · exact .refl s
  | softResetResume =>
    refine hanswer _ ?_
    split
    · split
      · exact .of_same rfl rfl rfl rfl
      · exact .refl s
    · exact .refl s

end Sys2Proof.Machine
end

