-- ==== Sys2Proof/Proofs/LoadItems.lean ====
section
/-! PROOF. The load phase item by item (R158, R159): the event that an item raises, and the statement that LOAD_PHASE_END
handles what is left. -/

namespace Sys2Proof.Machine

/-! One item -/

/-- The state after item `n`, the next item in line. -/
def State.afterItem (s : State) (n : Nat) : State := { s.loadItem n with phase := .loading (n + 1) }

/-- An item that changes the tables, the contexts, the mode and the mask, and raises what one optional event raises. -/
theorem LoadItemOf.of_raiseIf {s t : State} {n : Nat} {raised : Bool} {b : EventBody} (ht : t = { s with
      surfaces := t.surfaces, apertures := t.apertures, cursors := t.cursors, scans := t.scans, mode := t.mode,
      alertMask := t.alertMask, events := (s.raiseIf raised b).events, seqCounter := (s.raiseIf raised b).seqCounter }) :
    LoadItemOf s { t with phase := .loading (n + 1) } n raised b := by
  unfold LoadItemOf
  rw [ht]

theorem State.raiseIf_congr {s t : State} (hevents : t.events = s.events) (hseq : t.seqCounter = s.seqCounter) (c : Bool)
    (b : EventBody) : (t.raiseIf c b).events = (s.raiseIf c b).events ∧ (t.raiseIf c b).seqCounter = (s.raiseIf c b).seqCounter := by
  cases c
  · exact ⟨hevents, hseq⟩
  · unfold State.raiseIf State.raise
    simp only [if_true, hevents, hseq, and_self]

/-- An update of the tables and contexts that raises one optional event at its end. -/
theorem LoadItemOf.of_update {s u : State} (hu : u = { s with
      surfaces := u.surfaces, apertures := u.apertures, cursors := u.cursors, scans := u.scans, mode := u.mode,
      alertMask := u.alertMask }) (n : Nat) (raised : Bool) (b : EventBody) :
    LoadItemOf s { u.raiseIf raised b with phase := .loading (n + 1) } n raised b := by
  obtain ⟨hevents, hseq⟩ := State.raiseIf_congr (s := s) (t := u) (by rw [hu]) (by rw [hu]) raised b
  refine LoadItemOf.of_raiseIf ?_
  rw [← hevents, ← hseq, State.raiseIf_frame u]
  rw [hu]

/-! Apertures (R31) -/

theorem State.afterItem_aperture (s : State) (a : ApertureIx) :
    (s.afterItem a.val).apertures = s.apertures.set a ⟨.closed, 0, s.apSlots[a].fields⟩
    ∧ (s.afterItem a.val).surfaces = s.surfaces ∧ (s.afterItem a.val).scans = s.scans
    ∧ (s.afterItem a.val).mode = s.mode ∧ (s.afterItem a.val).alertMask = s.alertMask
    ∧ (a.val ≠ 7 → (s.afterItem a.val).cursors = s.cursors)
    ∧ (a.val = 7 → ∀ b : ApertureIx, (s.afterItem a.val).cursors[b] = Cursor.start (s.afterItem a.val).apertures[b].fields.window)
    ∧ LoadItemOf s (s.afterItem a.val) a.val (s.apSlots[a].status == SlotStatus.damaged)
        ⟨.loadFault, some (.slot ⟨a.val, by omega⟩), none, none, none, .damaged⟩ := by
  unfold State.afterItem
  rw [State.loadItem_aperture]
  have hitem := LoadItemOf.of_update (s := s) (u := s.setAperture a ⟨.closed, 0, s.apSlots[a].fields⟩) rfl a.val
    (s.apSlots[a].status == SlotStatus.damaged) (loadFaultEvent ⟨a.val, by omega⟩ .damaged)
  split
  · rename_i h7
    rw [State.loadAperture_eq, State.raiseIf_frame]
    refine ⟨rfl, rfl, rfl, rfl, rfl, fun h => absurd h7 h, fun _ b => State.resetCursors_get _ b, ?_⟩
    unfold LoadItemOf at hitem ⊢
    rw [State.raiseIf_frame] at hitem
    rw [State.raiseIf_frame s]
    have hevents := congrArg State.events hitem
    have hseq := congrArg State.seqCounter hitem
    simp only at hevents hseq
    unfold State.resetCursors
    simp only [hevents, hseq]
    rfl
  · rename_i h7
    rw [State.loadAperture_eq]
    refine ⟨?_, ?_, ?_, ?_, ?_, fun _ => ?_, fun h => absurd h h7, hitem⟩
    all_goals rw [State.raiseIf_frame]; rfl

/-! Surfaces (R13) -/

theorem Slot.record_defined {k : Slot SurfaceRec} (h : k.record.defined = true) : k.status = .good := by
  by_contra hn
  rw [Slot.record_of_not_good hn] at h
  cases h

theorem State.clashes_of_not_good {s : State} {i : SurfaceIx} (h : s.sfSlots[i].status ≠ .good) : s.clashes i = false := by
  rw [State.clashes, Slot.record_of_not_good h]
  rfl

theorem State.loadedRecord_of_not_good {s : State} {i : SurfaceIx} (h : s.sfSlots[i].status ≠ .good) :
    s.loadedRecord i = SurfaceRec.cleared := by
  rw [State.loadedRecord, State.clashes_of_not_good h, if_neg Bool.false_ne_true, Slot.record_of_not_good h]

theorem State.clashes_of_good {s : State} {i : SurfaceIx} {r : SurfaceRec} (hgood : s.sfSlots[i].status = .good)
    (himage : s.sfSlots[i].image = some r) : s.clashes i = (r.defined && s.overlapsSurface i r) := by
  rw [State.clashes, Slot.record_of_good hgood himage]
  cases hdefined : r.defined with
  | true => rw [if_pos rfl, hdefined]
  | false => rfl

theorem State.loadedRecord_of_good {s : State} {i : SurfaceIx} {r : SurfaceRec} (hgood : s.sfSlots[i].status = .good)
    (himage : s.sfSlots[i].image = some r) :
    s.loadedRecord i = if r.defined && !(r.defined && s.overlapsSurface i r) then r else SurfaceRec.cleared := by
  rw [State.loadedRecord, State.clashes_of_good hgood himage, Slot.record_of_good hgood himage]
  cases r.defined <;> cases s.overlapsSurface i r <;> rfl

theorem State.afterItem_surface (s : State) (i : SurfaceIx) :
    (s.afterItem (i.val + 8)).apertures = s.apertures ∧ (s.afterItem (i.val + 8)).cursors = s.cursors
    ∧ (s.afterItem (i.val + 8)).mode = s.mode ∧ (s.afterItem (i.val + 8)).alertMask = s.alertMask
    ∧ (s.afterItem (i.val + 8)).surfaces = s.surfaces.set i (s.loadedRecord i)
    ∧ (s.afterItem (i.val + 8)).scans = s.scans.set i (ScanCtx.fresh (s.loadedRecord i).band) := by
  unfold State.afterItem
  rw [State.loadItem_surface, State.loadSurface_eq, State.raiseIf_frame, State.raiseIf_frame (s.installSurface i _)]
  exact ⟨rfl, rfl, rfl, rfl, rfl, rfl⟩

/-- At most one event: a record that is offered is not that of a DAMAGED slot. -/
theorem State.afterItem_surface_event (s : State) (i : SurfaceIx) :
    LoadItemOf s (s.afterItem (i.val + 8)) (i.val + 8)
      (s.sfSlots[i].status == SlotStatus.damaged || s.clashes i)
      (loadFaultEvent ⟨i.val + 8, by omega⟩ (if s.sfSlots[i].status = .damaged then .damaged else .surfaceOverlap)) := by
  unfold State.afterItem
  rw [State.loadItem_surface, State.loadSurface_eq]
  by_cases hdamaged : s.sfSlots[i].status = .damaged
  · rw [if_pos hdamaged, State.clashes_of_not_good (by rw [hdamaged]; decide), hdamaged, Bool.or_false]
    exact LoadItemOf.of_update (s := s) (u := s.installSurface i (s.loadedRecord i)) rfl (i.val + 8) true _
  · have hnot : (s.sfSlots[i].status == SlotStatus.damaged) = false := beq_eq_false_iff_ne.2 hdamaged
    rw [if_neg hdamaged, hnot, Bool.false_or]
    exact LoadItemOf.of_update (s := s) (u := s.installSurface i (s.loadedRecord i)) rfl (i.val + 8) (s.clashes i) _

/-! Settings (R141) and openings at start (R159) -/

theorem State.afterItem_settings (s : State) :
    (s.afterItem 12).apertures = s.apertures ∧ (s.afterItem 12).cursors = s.cursors ∧ (s.afterItem 12).surfaces = s.surfaces
    ∧ (s.afterItem 12).scans = s.scans ∧ (s.afterItem 12).mode = s.setSlot.settings.mode
    ∧ (s.afterItem 12).alertMask = s.setSlot.settings.mask
    ∧ LoadItemOf s (s.afterItem 12) 12 (s.setSlot.status == SlotStatus.damaged) (loadFaultEvent 12 .damaged) := by
  unfold State.afterItem
  rw [State.loadItem_settings, State.loadSettings_eq]
  refine ⟨?_, ?_, ?_, ?_, ?_, ?_, LoadItemOf.of_update (s := s)
    (u := { s with alertMask := s.setSlot.settings.mask, mode := s.setSlot.settings.mode }) rfl 12 _ _⟩
  all_goals rw [State.raiseIf_frame]

/-- Whether the opening at start of aperture `a` is asked for. -/
def State.wantsOpen (s : State) (a : ApertureIx) : Bool := s.mode == .engaged && s.apertures[a].fields.openAtStart

theorem State.wantsOpen_iff (s : State) (a : ApertureIx) :
    s.wantsOpen a = true ↔ s.mode = .engaged ∧ s.apertures[a].fields.openAtStart = true := by
  rw [State.wantsOpen, Bool.and_eq_true, beq_iff_eq]

theorem State.afterItem_open (s : State) (a : ApertureIx) :
    (s.afterItem (a.val + 13)).surfaces = s.surfaces ∧ (s.afterItem (a.val + 13)).scans = s.scans
    ∧ (s.afterItem (a.val + 13)).mode = s.mode ∧ (s.afterItem (a.val + 13)).alertMask = s.alertMask
    ∧ (s.mode = .engaged ∧ s.apertures[a].fields.openAtStart = true ∧ MayOpen s a →
        (s.afterItem (a.val + 13)).apertures = s.apertures.set a { s.apertures[a] with state := .opened }
        ∧ (s.afterItem (a.val + 13)).cursors = s.cursors.set a (Cursor.start s.apertures[a].fields.window))
    ∧ (¬ (s.mode = .engaged ∧ s.apertures[a].fields.openAtStart = true ∧ MayOpen s a) →
        (s.afterItem (a.val + 13)).apertures = s.apertures ∧ (s.afterItem (a.val + 13)).cursors = s.cursors)
    ∧ LoadItemOf s (s.afterItem (a.val + 13)) (a.val + 13) (s.wantsOpen a && !decide (MayOpen s a))
        ⟨.loadFault, some (.slot ⟨a.val, by omega⟩), none, none, none, .openRefused⟩ := by
  unfold State.afterItem
  rw [State.loadItem_open]
  by_cases hwants : s.mode = .engaged ∧ s.apertures[a].fields.openAtStart = true
  · have hflag := (s.wantsOpen_iff a).2 hwants
    by_cases hmay : MayOpen s a
    · have hopen := (s.openRefusal_eq_none_iff a).2 ⟨hwants.1, hmay⟩
      rw [State.openAtStart_of_opens hwants.1 hwants.2 hopen, hflag, decide_eq_true hmay]
      refine ⟨rfl, rfl, rfl, rfl, fun _ => ⟨rfl, ?_⟩, fun hn => absurd ⟨hwants.1, hwants.2, hmay⟩ hn, rfl⟩
      show s.cursors.set a (Cursor.start ((s.setAperture a { s.apertures[a] with state := .opened }).apertures[a]).fields.window) = _
      rw [State.setAperture_apertures_get, if_pos rfl]
    · have hopen : s.openRefusal a ≠ none := fun hc => hmay ((s.openRefusal_eq_none_iff a).1 hc).2
      rw [State.openAtStart_of_refused hwants.1 hwants.2 hopen, hflag, decide_eq_false hmay]
      exact ⟨rfl, rfl, rfl, rfl, fun hw => absurd hw.2.2 hmay, fun _ => ⟨rfl, rfl⟩, rfl⟩
  · have hflag : s.wantsOpen a = false := Bool.eq_false_iff.2 fun h => hwants ((s.wantsOpen_iff a).1 h)
    rw [State.openAtStart_of_not hwants, hflag]
    exact ⟨rfl, rfl, rfl, rfl, fun hw => absurd ⟨hw.1, hw.2.1⟩ hwants, fun _ => ⟨rfl, rfl⟩, rfl⟩

/-- Every item raises at most one event. -/
theorem State.afterItem_loadItemOf (s : State) (n : Nat) : ∃ raised b, LoadItemOf s (s.afterItem n) n raised b := by
  induction n using loadItem_cases with
  | haperture a =>
    obtain ⟨-, -, -, -, -, -, -, h⟩ := s.afterItem_aperture a
    exact ⟨_, _, h⟩
  | hsurface i => exact ⟨_, _, s.afterItem_surface_event i⟩
  | hsettings =>
    obtain ⟨-, -, -, -, -, -, h⟩ := s.afterItem_settings
    exact ⟨_, _, h⟩
  | hopen a =>
    obtain ⟨-, -, -, -, -, -, h⟩ := s.afterItem_open a
    exact ⟨_, _, h⟩
  | hpast n h =>
    refine ⟨false, lineResetEvent 0, ?_⟩
    rw [State.afterItem, State.loadItem_past s h]
    rfl

/-! The items that are left -/

theorem State.runLoad_succ_afterItem (k n : Nat) (s : State) : State.runLoad (k + 1) n s = State.runLoad k (n + 1) (s.afterItem n) := by
  rw [State.runLoad, State.afterItem]
  exact (State.runLoad_of_phase k (n + 1) (s.loadItem n) _).symm

/-- The last of a run of items. -/
theorem State.runLoad_concat (k n : Nat) (s : State) : State.runLoad (k + 1) n s = (State.runLoad k n s).afterItem (n + k) := by
  rw [State.runLoad_add k 1 n s, State.runLoad_succ_afterItem]
  rfl

theorem exec_loadPhaseEnd {s : State} {n : Nat} (h : s.phase = .loading n) :
    exec .loadPhaseEnd s = .next { State.runLoad (loadItems - n) n s with phase := .running } := by
  show execLoadPhaseEnd s = _
  rw [execLoadPhaseEnd, h]

theorem exec_loadPhaseEnd_afterItem {s : State} {n : Nat} (h : s.phase = .loading n) (hn : n < 21) :
    exec .loadPhaseEnd s = exec .loadPhaseEnd (s.afterItem n) := by
  rw [exec_loadPhaseEnd h, exec_loadPhaseEnd (s := s.afterItem n) rfl, show loadItems - n = (loadItems - (n + 1)) + 1 by rw [loadItems]; omega,
    State.runLoad_succ_afterItem]

/-- A load that stops at an item and ends with LOAD_PHASE_END is the load run through. -/
theorem State.load_then_end (s : State) (k : Nat) :
    exec .loadPhaseEnd (s.load (some k)) = .next { s.load none with phase := .running } := by
  have hcount : loadCount (some k) ≤ 21 := Nat.min_le_left 21 k
  have hphase : (s.load (some k)).phase = .loading (loadCount (some k)) := by rw [State.load_eq]
  rw [exec_loadPhaseEnd hphase]
  have hsplit := State.runLoad_add (loadCount (some k)) (loadItems - loadCount (some k)) 0 s.beginLoad
  rw [Nat.zero_add, Nat.add_sub_cancel' hcount] at hsplit
  rw [State.load, ← hsplit]
  rfl

/-- Settles O13: the items left are handled one by one, each as its kind of item is. -/
theorem loadPhaseEndHandlesWhatIsLeft : Obligations.LoadPhaseEndHandlesWhatIsLeft := by
  refine ⟨fun s h => ?_, fun c c' s t u k hc ht hu => ?_, fun s a h => ?_, fun s i h => ?_, fun s h => ?_, fun s a h => ?_⟩
  · rw [exec_loadPhaseEnd h]
    rfl
  · obtain ⟨rfl, rfl⟩ | ⟨rfl, rfl, hlow⟩ := hc
    · cases ht; cases hu
      exact State.load_then_end s.unpowered k
    · have hrise : ∀ cut, exec (.resetnRise cut) s = .next ((s.raise (lineResetEvent s.discarded)).load cut) := fun cut => by
        show execResetnRise cut s = _
        rw [execResetnRise, hlow]
        rfl
      rw [hrise] at ht hu
      cases ht; cases hu
      exact State.load_then_end _ k
  · obtain ⟨hap, hsf, hscans, hmode, hmask, hcursors, hstart, hitem⟩ := s.afterItem_aperture a
    refine ⟨s.afterItem a.val, exec_loadPhaseEnd_afterItem h (by omega), hitem, hsf, hscans, hmode, hmask, hcursors, hstart,
      fun f hgood himage => ?_, fun hbad => ?_⟩
    · rw [hap, Slot.fields_of_good hgood himage]
    · rw [hap, Slot.fields_of_not_good hbad]
  · obtain ⟨hap, hcursors, hmode, hmask, hsf, hscans⟩ := s.afterItem_surface i
    have hitem := s.afterItem_surface_event i
    have hrecord : (s.afterItem (i.val + 8)).surfaces[i] = s.loadedRecord i := by
      rw [hsf]; exact (s.setSurface_surfaces_get i i _).trans (if_pos rfl)
    refine ⟨s.afterItem (i.val + 8), exec_loadPhaseEnd_afterItem h (by omega), hap, hcursors, hmode, hmask, ?_,
      fun hbad => ⟨?_, ?_⟩, fun r hgood himage => ⟨?_, ?_⟩⟩
    · rw [hrecord, hscans]; rfl
    · rw [hsf, State.loadedRecord_of_not_good hbad]
    · rw [State.clashes_of_not_good hbad, Bool.or_false] at hitem
      by_cases hdamaged : s.sfSlots[i].status = .damaged
      · rwa [if_pos hdamaged] at hitem
      · have hnot : (s.sfSlots[i].status == SlotStatus.damaged) = false := beq_eq_false_iff_ne.2 hdamaged
        rw [hnot] at hitem ⊢
        exact hitem
    · rw [hsf, State.loadedRecord_of_good hgood himage]; rfl
    · have hnot : (s.sfSlots[i].status == SlotStatus.damaged) = false := beq_eq_false_iff_ne.2 (by rw [hgood]; decide)
      rw [hnot, Bool.false_or, if_neg (by rw [hgood]; decide), State.clashes_of_good hgood himage] at hitem
      exact hitem
  · obtain ⟨hap, hcursors, hsf, hscans, hmode, hmask, hitem⟩ := s.afterItem_settings
    refine ⟨s.afterItem 12, exec_loadPhaseEnd_afterItem h (by omega), hitem, hap, hcursors, hsf, hscans,
      fun x hgood himage => ?_, fun hbad => ?_⟩
    · rw [hmode, hmask, Slot.settings_of_good hgood himage]; exact ⟨rfl, rfl⟩
    · rw [hmode, hmask, Slot.settings_of_not_good hbad]; exact ⟨rfl, rfl⟩
  · obtain ⟨hsf, hscans, hmode, hmask, hopens, hkept, hitem⟩ := s.afterItem_open a
    exact ⟨s.afterItem (a.val + 13), exec_loadPhaseEnd_afterItem h (by omega), hitem, hsf, hscans, hmode, hmask, hopens, hkept⟩

end Sys2Proof.Machine
end

