-- ==== Sys2Proof/Proofs/Loaded.lean ====
section
/-! PROOF. What a load has done after its first items: the tables, the cursors, the contexts, the settings, and the events;
and the statements about power-on and about the end of a line reset. -/

namespace Sys2Proof.Machine

/-! The first items of a load -/

/-- The state after the first `k` items of the load that starts from `s`. -/
def State.loaded (s : State) (k : Nat) : State := State.runLoad k 0 s.beginLoad

theorem State.load_eq_loaded (s : State) (cut : Option Nat) : s.load cut = s.loaded (loadCount cut) := rfl

theorem State.loaded_succ (s : State) (k : Nat) : s.loaded (k + 1) = (s.loaded k).afterItem k := by
  rw [State.loaded, State.runLoad_concat, Nat.zero_add]
  rfl

theorem State.loaded_phase (s : State) (k : Nat) : (s.loaded k).phase = .loading k := by
  rw [State.loaded, State.runLoad_phase, Nat.zero_add]

theorem State.loaded_slots (s : State) (k : Nat) : (s.loaded k).apSlots = s.apSlots ∧ (s.loaded k).sfSlots = s.sfSlots
    ∧ (s.loaded k).setSlot = s.setSlot := by
  rw [State.loaded, State.runLoad_eq]
  exact ⟨rfl, rfl, rfl⟩

theorem SurfaceRec.set_get (v : Vector SurfaceRec 4) (i j : SurfaceIx) (r : SurfaceRec) :
    (v.set i r)[j] = if i = j then r else v[j] := by
  rw [Fin.getElem_fin, Vector.getElem_set]
  simp only [Fin.ext_iff]
  rfl

theorem Aperture.set_get (v : Vector Aperture 8) (a b : ApertureIx) (r : Aperture) :
    (v.set a r)[b] = if a = b then r else v[b] := by
  rw [Fin.getElem_fin, Vector.getElem_set]
  simp only [Fin.ext_iff]
  rfl

/-- What the load has made of an aperture. -/
structure LoadedAperture (s t : State) (k : Nat) (a : ApertureIx) : Prop where
  held : t.apertures[a].held = 0
  fields : t.apertures[a].fields = if a.val < k then s.apSlots[a].fields else ApertureFields.cleared
  quiet : t.apertures[a].state ≠ .draining
  opened : t.apertures[a].state = .opened → 12 < k ∧ t.mode = .engaged ∧ t.apertures[a].fields.openAtStart = true

theorem State.loaded_aperture (s : State) (k : Nat) (a : ApertureIx) : LoadedAperture s (s.loaded k) k a := by
  induction k with
  | zero =>
    have hget : (s.loaded 0).apertures[a] = Aperture.cleared := s.beginLoad_apertures_get a
    exact ⟨by rw [hget]; rfl, by rw [hget, if_neg (Nat.not_lt_zero _)]; rfl, by rw [hget]; decide,
      fun h => by rw [hget] at h; cases h⟩
  | succ k ih =>
    rw [State.loaded_succ]
    obtain ⟨hslots, -, -⟩ := s.loaded_slots k
    generalize s.loaded k = t at ih hslots ⊢
    obtain ⟨hheld, hfields, hquiet, hopened⟩ := ih
    induction k using loadItem_cases with
    | haperture b =>
      obtain ⟨hap, -, -, hmode, -⟩ := t.afterItem_aperture b
      by_cases hab : b = a
      · subst hab
        have hget : (t.afterItem b.val).apertures[b] = ⟨.closed, 0, t.apSlots[b].fields⟩ := by
          rw [hap, Aperture.set_get, if_pos rfl]
        exact ⟨by rw [hget], by rw [hget, if_pos (Nat.lt_succ_self _), hslots], by rw [hget]; exact nofun,
          fun h => by rw [hget] at h; cases h⟩
      · have hget : (t.afterItem b.val).apertures[a] = t.apertures[a] := by rw [hap, Aperture.set_get, if_neg hab]
        have hne : b.val ≠ a.val := fun h => hab (Fin.ext h)
        refine ⟨by rw [hget]; exact hheld, ?_, by rw [hget]; exact hquiet, fun h => ?_⟩
        · rw [hget, hfields]
          by_cases hlt : a.val < b.val
          · rw [if_pos hlt, if_pos (by omega)]
          · rw [if_neg hlt, if_neg (by omega)]
        · rw [hget] at h
          have := (hopened h).1
          omega
    | hsurface i =>
      obtain ⟨hap, -, hmode, -⟩ := t.afterItem_surface i
      refine ⟨by rw [hap]; exact hheld, ?_, by rw [hap]; exact hquiet, fun h => ?_⟩
      · rw [hap, hfields, if_pos (by omega), if_pos (by omega)]
      · rw [hap] at h
        have := (hopened h).1
        omega
    | hsettings =>
      obtain ⟨hap, -⟩ := t.afterItem_settings
      refine ⟨by rw [hap]; exact hheld, ?_, by rw [hap]; exact hquiet, fun h => ?_⟩
      · rw [hap, hfields, if_pos (by omega), if_pos (by omega)]
      · rw [hap] at h
        have := (hopened h).1
        omega
    | hopen b =>
      obtain ⟨-, -, hmode, -, hopens, hkept, -⟩ := t.afterItem_open b
      have hall : t.apertures[a].fields = s.apSlots[a].fields := by rw [hfields, if_pos (by omega)]
      by_cases hw : t.mode = .engaged ∧ t.apertures[b].fields.openAtStart = true ∧ MayOpen t b
      · obtain ⟨hap, -⟩ := hopens hw
        by_cases hab : b = a
        · subst hab
          have hget : (t.afterItem (b.val + 13)).apertures[b] = { t.apertures[b] with state := .opened } := by
            rw [hap, Aperture.set_get, if_pos rfl]
          exact ⟨by rw [hget]; exact hheld, by rw [hget, if_pos (by omega)]; exact hall, by rw [hget]; exact nofun,
            fun _ => ⟨by omega, by rw [hmode]; exact hw.1, by rw [hget]; exact hw.2.1⟩⟩
        · have hget : (t.afterItem (b.val + 13)).apertures[a] = t.apertures[a] := by rw [hap, Aperture.set_get, if_neg hab]
          exact ⟨by rw [hget]; exact hheld, by rw [hget, if_pos (by omega)]; exact hall, by rw [hget]; exact hquiet,
            fun h => ⟨by omega, by rw [hmode]; exact hw.1, by rw [hget] at h ⊢; exact (hopened h).2.2⟩⟩
      · obtain ⟨hap, -⟩ := hkept hw
        refine ⟨by rw [hap]; exact hheld, by rw [hap, if_pos (by omega)]; exact hall, by rw [hap]; exact hquiet, fun h => ?_⟩
        rw [hap] at h
        rw [hap, hmode]
        exact ⟨by omega, (hopened h).2⟩
    | hpast n hn =>
      have hkept : t.afterItem n = { t with phase := .loading (n + 1) } := by rw [State.afterItem, State.loadItem_past t hn]
      rw [hkept]
      exact ⟨hheld, by rw [if_pos (by omega)]; rw [if_pos (by omega)] at hfields; exact hfields, hquiet,
        fun h => ⟨by omega, (hopened h).2⟩⟩

theorem State.loaded_cursor (s : State) {k : Nat} (hk : 8 ≤ k) (a : ApertureIx) :
    (s.loaded k).cursors[a] = Cursor.start (s.loaded k).apertures[a].fields.window := by
  induction k, hk using Nat.le_induction with
  | base =>
    rw [show s.loaded 8 = (s.loaded 7).afterItem 7 from s.loaded_succ 7]
    generalize s.loaded 7 = t
    obtain ⟨-, -, -, -, -, -, hstart, -⟩ := t.afterItem_aperture ⟨7, by decide⟩
    exact hstart rfl a
  | succ k hk ih =>
    rw [State.loaded_succ]
    generalize s.loaded k = t at ih ⊢
    induction k using loadItem_cases with
    | haperture b => omega
    | hsurface i =>
      obtain ⟨hap, hcursors, -⟩ := t.afterItem_surface i
      rw [hap, hcursors, ih]
    | hsettings =>
      obtain ⟨hap, hcursors, -⟩ := t.afterItem_settings
      rw [hap, hcursors, ih]
    | hopen b =>
      obtain ⟨-, -, -, -, hopens, hkept, -⟩ := t.afterItem_open b
      by_cases hw : t.mode = .engaged ∧ t.apertures[b].fields.openAtStart = true ∧ MayOpen t b
      · obtain ⟨hap, hcursors⟩ := hopens hw
        rw [hap, hcursors, Aperture.set_get, show (t.cursors.set b.val (Cursor.start t.apertures[b].fields.window) b.isLt)[a]
          = if b = a then Cursor.start t.apertures[b].fields.window else t.cursors[a] from t.setCursor_cursors_get b a _]
        by_cases hab : b = a
        · subst hab; rw [if_pos rfl, if_pos rfl]
        · rw [if_neg hab, if_neg hab, ih]
      · obtain ⟨hap, hcursors⟩ := hkept hw
        rw [hap, hcursors, ih]
    | hpast n hn =>
      have hkept : t.afterItem n = { t with phase := .loading (n + 1) } := by rw [State.afterItem, State.loadItem_past t hn]
      rw [hkept]
      exact ih

theorem State.loaded_settings (s : State) {k : Nat} (hk : 13 ≤ k) :
    (s.loaded k).mode = s.setSlot.settings.mode ∧ (s.loaded k).alertMask = s.setSlot.settings.mask := by
  induction k, hk using Nat.le_induction with
  | base =>
    obtain ⟨-, -, hslot⟩ := s.loaded_slots 12
    rw [show s.loaded 13 = (s.loaded 12).afterItem 12 from s.loaded_succ 12, ← hslot]
    obtain ⟨-, -, -, -, hmode, hmask, -⟩ := (s.loaded 12).afterItem_settings
    exact ⟨hmode, hmask⟩
  | succ k hk ih =>
    rw [State.loaded_succ]
    generalize s.loaded k = t at ih ⊢
    induction k using loadItem_cases with
    | haperture b => omega
    | hsurface i => omega
    | hsettings => omega
    | hopen b =>
      obtain ⟨-, -, hmode, hmask, -⟩ := t.afterItem_open b
      rw [hmode, hmask]
      exact ih
    | hpast n hn =>
      have hkept : t.afterItem n = { t with phase := .loading (n + 1) } := by rw [State.afterItem, State.loadItem_past t hn]
      rw [hkept]
      exact ih

/-! Surfaces (R13) -/

theorem Slot.record_of_not_defined {k : Slot SurfaceRec} (h : k.record.defined = false) : k.record = SurfaceRec.cleared := by
  unfold Slot.record at h ⊢
  split
  · rename_i r hgood himage
    rw [hgood, himage] at h
    dsimp only at h
    split
    · rename_i hdefined
      rw [if_pos hdefined, hdefined] at h
      cases h
    · rfl
  · rfl

/-- Whether a record meets a DEFINED surface before surface `i`. -/
def State.meetsEarlier (t : State) (i : SurfaceIx) (r : SurfaceRec) : Prop :=
  ∃ j : SurfaceIx, j < i ∧ t.surfaces[j].defined = true ∧ overlap r.low r.stop t.surfaces[j].low t.surfaces[j].stop = true

/-- What the load has made of a surface. -/
structure LoadedSurface (s t : State) (k : Nat) (i : SurfaceIx) : Prop where
  scan : t.scans[i] = ScanCtx.fresh t.surfaces[i].band
  before : k ≤ i.val + 8 → t.surfaces[i] = SurfaceRec.cleared
  clash : i.val + 8 < k → t.meetsEarlier i s.sfSlots[i].record → t.surfaces[i] = SurfaceRec.cleared
  fits : i.val + 8 < k → ¬ t.meetsEarlier i s.sfSlots[i].record → t.surfaces[i] = s.sfSlots[i].record

/-- A later item that changes neither the surface, nor those before it, nor its context. -/
theorem LoadedSurface.mono {s t u : State} {k : Nat} {i : SurfaceIx} (h : LoadedSurface s t k i) (hscan : u.scans[i] = t.scans[i])
    (hsurfaces : ∀ j : SurfaceIx, j ≤ i → u.surfaces[j] = t.surfaces[j]) (hk : k ≠ i.val + 8) : LoadedSurface s u (k + 1) i := by
  have hsame : u.meetsEarlier i s.sfSlots[i].record ↔ t.meetsEarlier i s.sfSlots[i].record := by
    constructor
    · rintro ⟨j, hj, hdefined, hover⟩
      rw [hsurfaces j (Fin.le_of_lt hj)] at hdefined hover
      exact ⟨j, hj, hdefined, hover⟩
    · rintro ⟨j, hj, hdefined, hover⟩
      rw [← hsurfaces j (Fin.le_of_lt hj)] at hdefined hover
      exact ⟨j, hj, hdefined, hover⟩
  have hi := hsurfaces i (Fin.le_refl i)
  exact ⟨by rw [hscan, hi]; exact h.scan, fun hb => hi.trans (h.before (by omega)),
    fun hc hm => hi.trans (h.clash (by omega) (hsame.1 hm)), fun hc hm => hi.trans (h.fits (by omega) fun hn => hm (hsame.2 hn))⟩

theorem State.loaded_surface (s : State) (k : Nat) : ∀ i : SurfaceIx, LoadedSurface s (s.loaded k) k i := by
  induction k with
  | zero =>
    intro i
    have hsurface : (s.loaded 0).surfaces[i] = SurfaceRec.cleared := s.beginLoad_surfaces_get i
    have hscan : (s.loaded 0).scans[i] = ScanCtx.fresh none := s.beginLoad_scans_get i
    exact ⟨by rw [hsurface, hscan]; rfl, fun _ => hsurface, fun hc => (by omega), fun hc => (by omega)⟩
  | succ k ih =>
    intro i
    rw [State.loaded_succ]
    obtain ⟨-, hslots, -⟩ := s.loaded_slots k
    generalize s.loaded k = t at ih hslots ⊢
    induction k using loadItem_cases with
    | haperture b =>
      obtain ⟨-, hsf, hscans, -⟩ := t.afterItem_aperture b
      exact (ih i).mono (by rw [hscans]) (fun j _ => by rw [hsf]) (by omega)
    | hsurface c =>
      obtain ⟨-, -, -, -, hsf, hscans⟩ := t.afterItem_surface c
      have hget : ∀ j, (t.afterItem (c.val + 8)).surfaces[j] = if c = j then t.loadedRecord c else t.surfaces[j] := fun j => by
        rw [hsf]; exact SurfaceRec.set_get _ _ _ _
      have hscan : (t.afterItem (c.val + 8)).scans[i] = if c = i then ScanCtx.fresh (t.loadedRecord c).band else t.scans[i] := by
        rw [hscans]; exact t.setScan_scans_get c i _
      by_cases hci : c = i
      · subst hci
        have hclash : t.overlapsSurface c s.sfSlots[c].record = true ↔ (t.afterItem (c.val + 8)).meetsEarlier c s.sfSlots[c].record := by
          rw [← Bool.not_eq_false, State.overlapsSurface_eq_false_iff]
          constructor
          · intro hn
            by_contra hm
            refine hn fun j hj hdefined => Bool.eq_false_iff.2 fun hover => ?_
            obtain hlt | hge := lt_or_ge j c
            · exact hm ⟨j, hlt, by rw [hget, if_neg (Fin.ne_of_gt hlt)]; exact hdefined,
                by rw [hget, if_neg (Fin.ne_of_gt hlt)]; exact hover⟩
            · have hle : c.val ≤ j.val := hge
              rw [(ih j).before (by omega)] at hdefined
              cases hdefined
          · rintro ⟨j, hlt, hdefined, hover⟩ hall
            rw [hget, if_neg (Fin.ne_of_gt hlt)] at hdefined hover
            rw [hall j (Fin.ne_of_lt hlt) hdefined] at hover
            cases hover
        have hrecord : (t.afterItem (c.val + 8)).surfaces[c] = t.loadedRecord c := by rw [hget, if_pos rfl]
        have hsame : t.loadedRecord c
            = if s.sfSlots[c].record.defined && t.overlapsSurface c s.sfSlots[c].record then SurfaceRec.cleared
              else s.sfSlots[c].record := by
          rw [State.loadedRecord, State.clashes, hslots]
        refine ⟨by rw [hscan, if_pos rfl, hrecord], fun hb => (by omega), fun _ hm => ?_, fun _ hm => ?_⟩
        · rw [hrecord, hsame, hclash.2 hm, Bool.and_true]
          split
          · rfl
          · exact Slot.record_of_not_defined (Bool.not_eq_true _ ▸ ‹_›)
        · rw [hrecord, hsame, Bool.eq_false_iff.2 fun ho => hm (hclash.1 ho), Bool.and_false, if_neg Bool.false_ne_true]
      · have hne : c.val ≠ i.val := fun h => hci (Fin.ext h)
        obtain hlt | hgt := Nat.lt_or_gt_of_ne hne
        · have hcleared : t.surfaces[i] = SurfaceRec.cleared := (ih i).before (by omega)
          have hkept : (t.afterItem (c.val + 8)).surfaces[i] = t.surfaces[i] := by rw [hget, if_neg hci]
          exact ⟨by rw [hscan, if_neg hci, hkept]; exact (ih i).scan, fun _ => hkept.trans hcleared, fun hc => (by omega),
            fun hc => (by omega)⟩
        · exact (ih i).mono (by rw [hscan, if_neg hci]) (fun j hj => by
            have hj : j.val ≤ i.val := hj
            rw [hget, if_neg]
            rintro rfl
            omega) (by omega)
    | hsettings =>
      obtain ⟨-, -, hsf, hscans, -⟩ := t.afterItem_settings
      exact (ih i).mono (by rw [hscans]) (fun j _ => by rw [hsf]) (by omega)
    | hopen b =>
      obtain ⟨hsf, hscans, -⟩ := t.afterItem_open b
      exact (ih i).mono (by rw [hscans]) (fun j _ => by rw [hsf]) (by omega)
    | hpast n hn =>
      have hkept : t.afterItem n = { t with phase := .loading (n + 1) } := by rw [State.afterItem, State.loadItem_past t hn]
      rw [hkept]
      exact (ih i).mono rfl (fun j _ => rfl) (by omega)

/-! Slots at the beginning of a load (R154, R157) -/

theorem State.slotStatus_of_no_uses {s : State} {k : SlotIx} (h : s.slotUses k = 0) : s.slotStatus k = .blank := by
  obtain ⟨a, ha⟩ | ⟨i, hi⟩ | hset := SlotIx.names k
  · rw [s.slotUses_aperture ha] at h
    rw [s.slotStatus_aperture ha, Slot.status, if_pos h]
  · rw [s.slotUses_surface hi] at h
    rw [s.slotStatus_surface hi, Slot.status, if_pos h]
  · rw [s.slotUses_settings hset] at h
    rw [s.slotStatus_settings hset, Slot.status, if_pos h]

theorem State.unpowered_slotUses (s : State) (k : SlotIx) : s.unpowered.slotUses k = s.slotUses k := s.abortSave_slotUses k

/-- A save that the loss of power cuts leaves its slot DAMAGED. -/
theorem State.unpowered_slotStatus (s : State) (k : SlotIx) :
    s.unpowered.slotStatus k = if s.saving = some k ∧ s.slotUses k ≠ 0 then .damaged else s.slotStatus k := by
  have h : s.unpowered.slotStatus k = _ := s.abortSave_slotStatus k
  rw [h]
  by_cases hs : s.saving = some k
  · rw [if_pos hs]
    by_cases hu : s.slotUses k = 0
    · rw [if_pos hu, if_neg fun hn => hn.2 hu, State.slotStatus_of_no_uses hu]
    · rw [if_neg hu, if_pos ⟨hs, hu⟩]
  · rw [if_neg hs, if_neg fun hn => hs hn.1]

/-- What a load from `s` leaves, run through. -/
theorem exec_load {c : Instr} {s : State} (h : c = .powerOn none ∨ (c = .resetnRise none ∧ s.phase = .resetLow)) :
    ∃ u, exec c s = .next (u.loaded 21) ∧ ImagesKept s u ∧ (∀ k : SlotIx, u.slotUses k = s.slotUses k
      ∧ u.slotStatus k = (if c = .powerOn none ∧ s.saving = some k ∧ s.slotUses k ≠ 0 then .damaged else s.slotStatus k)) := by
  obtain rfl | ⟨rfl, hlow⟩ := h
  · refine ⟨s.unpowered, rfl, s.abortSave_imagesKept, fun k => ⟨s.unpowered_slotUses k, ?_⟩⟩
    rw [s.unpowered_slotStatus k]
    simp only [true_and]
  · refine ⟨s.raise (lineResetEvent s.discarded), ?_, ⟨fun _ => rfl, fun _ => rfl, rfl⟩, fun k => ⟨rfl, ?_⟩⟩
    · show execResetnRise none s = _
      rw [execResetnRise, hlow]
      rfl
    · rw [if_neg fun hn => nomatch hn.1]
      rfl

/-- Settles O12: what the load makes of each table, by induction on the items handled. -/
theorem loadPhaseFillsTables : Obligations.LoadPhaseFillsTables := by
  intro c s hc
  obtain ⟨u, hexec, ⟨himageAp, himageSf, himageSet⟩, hslots⟩ := exec_load hc
  obtain ⟨hap, hsf, hset⟩ := u.loaded_slots 21
  refine ⟨u.loaded 21, hexec, u.loaded_phase 21, fun k => ?_, fun a => ?_, fun i => ?_, ?_, fun x hgood himage => ?_,
    fun hbad => ?_⟩
  · rw [State.slotUses_congr hap hsf hset, State.slotStatus_congr hap hsf hset]
    exact hslots k
  · obtain ⟨hheld, hfields, hquiet, hopened⟩ := u.loaded_aperture 21 a
    have hcursor := u.loaded_cursor (k := 21) (by omega) a
    rw [if_pos (by omega), ← hap] at hfields
    generalize u.loaded 21 = t at *
    refine ⟨hheld, fun f hgood himage => ?_, fun hbad => ?_, ?_, hcursor, hquiet, fun h => (hopened h).2⟩
    · rw [hfields, Slot.fields_of_good hgood himage]
    · rw [hfields, Slot.fields_of_not_good hbad]
    · rw [hap]; exact himageAp a
  · obtain ⟨hscan, -, hclash, hfits⟩ := u.loaded_surface 21 i
    have hi : i.val + 8 < 21 := by omega
    rw [← hsf] at hclash hfits
    have hcleared : (u.loaded 21).sfSlots[i].record = SurfaceRec.cleared → (u.loaded 21).surfaces[i] = SurfaceRec.cleared :=
      fun hr => by
        by_cases hm : (u.loaded 21).meetsEarlier i (u.loaded 21).sfSlots[i].record
        · exact hclash hi hm
        · exact (hfits hi hm).trans hr
    refine ⟨hscan, ?_, fun r hgood himage hdefined => ?_, fun r hgood himage hdefined => hcleared ?_,
      fun hbad => hcleared (Slot.record_of_not_good hbad)⟩
    · rw [hsf]; exact himageSf i
    · rw [Slot.record_of_good hgood himage, if_pos hdefined] at hclash hfits
      split
      · rename_i hm
        exact hclash hi hm
      · rename_i hm
        exact hfits hi hm
    · rw [Slot.record_of_good hgood himage, hdefined, if_neg Bool.false_ne_true]
  · rw [hset]; exact himageSet
  · obtain ⟨hmode, hmask⟩ := u.loaded_settings (k := 21) (by omega)
    rw [← hset, Slot.settings_of_good hgood himage] at hmode hmask
    exact ⟨hmode, hmask⟩
  · obtain ⟨hmode, hmask⟩ := u.loaded_settings (k := 21) (by omega)
    rw [← hset, Slot.settings_of_not_good hbad] at hmode hmask
    exact ⟨hmode, hmask⟩

/-! Events of a load -/

/-- Records numbered from 0 on, none dropped. -/
structure Numbered (s : State) (k : Nat) : Prop where
  few : s.events.length ≤ k
  seq : ∀ (j : Nat) (r : EventRec), s.events[j]? = some r → r.seq = BitVec.ofNat 16 j
  counter : s.seqCounter = BitVec.ofNat 16 s.events.length

theorem Numbered.raise {s : State} {k : Nat} (h : Numbered s k) (hk : k < 32) (b : EventBody) : Numbered (s.raise b) (k + 1) := by
  obtain ⟨hfew, hseq, hcounter⟩ := h
  rw [s.raise_of_room b (Nat.lt_of_le_of_lt hfew hk)]
  refine ⟨by simp only [List.length_append, List.length_singleton]; omega, fun j r hr => ?_, ?_⟩
  · rw [List.getElem?_append] at hr
    split at hr
    · exact hseq j r hr
    · rename_i hj
      rw [List.getElem?_singleton] at hr
      split at hr
      · cases hr
        rw [hcounter, show s.events.length = j by omega]
      · cases hr
  · simp only [List.length_append, List.length_singleton, hcounter]
    rw [BitVec.ofNat_add]
    rfl

theorem State.afterItem_events (s : State) (n : Nat) : ∃ raised b, (s.afterItem n).events = (s.raiseIf raised b).events
    ∧ (s.afterItem n).seqCounter = (s.raiseIf raised b).seqCounter := by
  obtain ⟨raised, b, hitem⟩ := s.afterItem_loadItemOf n
  unfold LoadItemOf at hitem
  exact ⟨raised, b, by rw [hitem], by rw [hitem]⟩

theorem Numbered.congr {s t : State} {k : Nat} (h : Numbered s k) (hevents : t.events = s.events)
    (hseq : t.seqCounter = s.seqCounter) : Numbered t k :=
  ⟨by rw [hevents]; exact h.few, by rw [hevents]; exact h.seq, by rw [hevents, hseq]; exact h.counter⟩

theorem Numbered.loaded {s : State} (h : Numbered s 0) {k : Nat} (hk : k ≤ 21) : Numbered (s.loaded k) k := by
  induction k with
  | zero => exact h.congr rfl rfl
  | succ k ih =>
    have hprev := ih (by omega)
    obtain ⟨raised, b, hevents, hseq⟩ := (s.loaded k).afterItem_events k
    rw [State.loaded_succ]
    refine Numbered.congr ?_ hevents hseq
    cases raised
    · exact ⟨hprev.few.trans (Nat.le_succ k), hprev.seq, hprev.counter⟩
    · exact hprev.raise (by omega) b

/-! A load from slots that are all BLANK -/

theorem State.setAperture_self (s : State) (a : ApertureIx) : s.setAperture a s.apertures[a] = s := by
  rw [State.setAperture, Fin.getElem_fin, Vector.set_getElem_self]

theorem State.setSurface_self (s : State) (i : SurfaceIx) : s.setSurface i s.surfaces[i] = s := by
  rw [State.setSurface, Fin.getElem_fin, Vector.set_getElem_self]

theorem State.setScan_self (s : State) (i : SurfaceIx) : s.setScan i s.scans[i] = s := by
  rw [State.setScan, Fin.getElem_fin, Vector.set_getElem_self]

/-- Slots that are all BLANK, and the part as the loss of power leaves it. -/
structure BlankStart (s : State) : Prop where
  uses : ∀ k : SlotIx, s.slotUses k = 0
  cursors : s.cursors = State.reset.cursors
  mode : s.mode = .bypass
  mask : s.alertMask = defaultMask

/-- With no slot in use an item changes nothing: what the load clears is clear. -/
theorem BlankStart.loadItem {s : State} (h : BlankStart s) (n : Nat) : s.beginLoad.loadItem n = s.beginLoad := by
  obtain ⟨huses, hcursors, hmode, hmask⟩ := h
  induction n using loadItem_cases with
  | haperture a =>
    have hslot : s.beginLoad.apSlots[a].status = .blank :=
      (s.slotStatus_aperture (k := ⟨a.val, by omega⟩) rfl).symm.trans (State.slotStatus_of_no_uses (huses _))
    have hsame : s.beginLoad.loadAperture a = s.beginLoad := by
      rw [State.loadAperture_eq, hslot, Slot.fields_of_not_good (by rw [hslot]; decide)]
      have hself := s.beginLoad.setAperture_self a
      rwa [State.beginLoad_apertures_get] at hself
    have hreset : s.beginLoad.resetCursors = s.beginLoad := by
      have hstart : mapTable (fun r : Aperture => Cursor.start r.fields.window) s.beginLoad.apertures = s.beginLoad.cursors :=
        (by decide : mapTable (fun r : Aperture => Cursor.start r.fields.window) (Vector.replicate 8 Aperture.cleared)
          = State.reset.cursors).trans hcursors.symm
      rw [State.resetCursors, hstart]
    rw [State.loadItem_aperture, hsame, hreset, ite_self]
  | hsurface i =>
    have hslot : s.beginLoad.sfSlots[i].status = .blank :=
      (s.slotStatus_surface (k := ⟨i.val + 8, by omega⟩) rfl).symm.trans (State.slotStatus_of_no_uses (huses _))
    have hbad : s.beginLoad.sfSlots[i].status ≠ .good := by rw [hslot]; decide
    rw [State.loadItem_surface, State.loadSurface_eq, hslot, State.clashes_of_not_good hbad, State.loadedRecord_of_not_good hbad]
    have hsurface := s.beginLoad.setSurface_self i
    have hscan := s.beginLoad.setScan_self i
    rw [State.beginLoad_surfaces_get] at hsurface
    rw [State.beginLoad_scans_get] at hscan
    show State.setScan (s.beginLoad.setSurface i SurfaceRec.cleared) i (ScanCtx.fresh none) = _
    rw [hsurface, hscan]
  | hsettings =>
    have hslot : s.beginLoad.setSlot.status = .blank :=
      (s.slotStatus_settings (k := 12) rfl).symm.trans (State.slotStatus_of_no_uses (huses _))
    rw [State.loadItem_settings, State.loadSettings_eq, hslot, Slot.settings_of_not_good (by rw [hslot]; decide)]
    show { s.beginLoad with alertMask := defaultMask, mode := .bypass } = s.beginLoad
    rw [← hmask, ← hmode]
    rfl
  | hopen a =>
    rw [State.loadItem_open, State.openAtStart_of_not fun hw => ?_]
    have hm : s.mode = .engaged := hw.1
    rw [hmode] at hm
    cases hm
  | hpast n hn => rw [State.loadItem_past _ hn]

theorem BlankStart.loaded {s : State} (h : BlankStart s) (k : Nat) : s.loaded k = { s.beginLoad with phase := .loading k } := by
  induction k with
  | zero => rfl
  | succ k ih => rw [State.loaded_succ, ih, State.afterItem, State.loadItem_phase, h.loadItem]

/-! Power-on (R158) -/

theorem State.abortSave_saving_none {s : State} (h : s.saving = none) :
    s.unpowered = { State.reset with
      phase := .off, apSlots := s.apSlots, sfSlots := s.sfSlots, setSlot := s.setSlot, pending := s.pending } := by
  rw [State.unpowered, s.abortSave_of_none h]

/-- Settles O9: the load fills tables and raises events, and nothing else; from BLANK slots it leaves the reset state. -/
theorem powerOnLeavesNothingHeld : Obligations.PowerOnLeavesNothingHeld := by
  refine ⟨fun s cut => ⟨s.unpowered.load cut, rfl, ?_⟩, fun s hsaving huses => ?_, fun s hsaving => ?_⟩
  · have hcount : loadCount cut ≤ 21 := Nat.min_le_left _ _
    have hnumbered : Numbered (s.unpowered.load cut) (loadCount cut) :=
      Numbered.loaded (s := s.unpowered) ⟨Nat.le_refl 0, fun j r hr => (by cases hr), rfl⟩ hcount
    have hheld : ∀ a : ApertureIx, (s.unpowered.load cut).apertures[a].held = 0 :=
      fun a => (s.unpowered.loaded_aperture (loadCount cut) a).held
    have huses : ∀ k : SlotIx, (s.unpowered.load cut).slotUses k = s.slotUses k := fun k =>
      (State.slotUses_congr (by rw [State.load_eq]) (by rw [State.load_eq]) (by rw [State.load_eq]) k).trans (s.unpowered_slotUses k)
    obtain ⟨-, hseq, hcounter⟩ := hnumbered
    have htable : ∀ e : EntryIx, (s.unpowered.load cut).table[e] = none := by
      rw [State.load_eq]; exact State.reset_table_get
    refine ⟨?_, ?_, ?_, ?_, ?_, ?_, ?_, ?_, ?_, ?_, htable, ?_, ?_, ?_, ?_, ?_, hheld, ?_, huses, hseq, hcounter, ?_⟩
    all_goals rw [State.load_eq]; rfl
  · have hstart : BlankStart s.unpowered := ⟨fun k => (s.unpowered_slotUses k).trans (huses k), rfl, rfl, rfl⟩
    show Host.Outcome.next (s.unpowered.loaded 21) = _
    rw [hstart.loaded, State.abortSave_saving_none hsaving]
    rfl
  · show Host.Outcome.next s.unpowered = _
    rw [State.abortSave_saving_none hsaving]

/-! The end of a line reset (R139, R158, R160) -/

/-- The list `l'` goes on from `l`: the newest record of `l` may have counted more drops, and records may follow it, unless
the list was full. -/
def Continues (l l' : List EventRec) : Prop :=
  ∃ front newest dropped more, l = front ++ [newest] ∧ l' = front ++ { newest with dropped := dropped } :: more
    ∧ min 255 newest.dropped ≤ dropped ∧ (Config.eventCapacity ≤ l.length → more = [])

theorem Continues.refl {l : List EventRec} {front : List EventRec} {newest : EventRec} (h : l = front ++ [newest]) : Continues l l :=
  ⟨front, newest, newest.dropped, [], h, h, Nat.min_le_right _ _, fun _ => rfl⟩

theorem Continues.raise {l : List EventRec} {s : State} (h : Continues l s.events) (b : EventBody) : Continues l (s.raise b).events := by
  obtain ⟨front, newest, dropped, more, hl, hevents, hdropped, hmore⟩ := h
  by_cases hroom : s.events.length < Config.eventCapacity
  · rw [s.raise_of_room b hroom]
    refine ⟨front, newest, dropped, more ++ [⟨s.seqCounter, b, 0⟩], hl, ?_, hdropped, fun hfull => ?_⟩
    · show s.events ++ _ = _
      rw [hevents, List.append_assoc, List.cons_append]
    · rw [hmore hfull] at hevents
      rw [hl, List.length_append, List.length_singleton] at hfull
      rw [hevents, List.length_append, List.length_singleton] at hroom
      omega
  · rw [s.raise_of_full b (Nat.le_of_not_lt hroom)]
    show Continues l (countDropped s.events)
    obtain hnil | ⟨rest, last, hlast⟩ := List.eq_nil_or_concat' more
    · rw [hnil] at hevents
      refine ⟨front, newest, min 255 (dropped + 1), [], hl, ?_, by omega, fun _ => rfl⟩
      rw [hevents, countDropped_append]
    · refine ⟨front, newest, dropped, rest ++ [{ last with dropped := min 255 (last.dropped + 1) }], hl, ?_, hdropped,
        fun hfull => ?_⟩
      · rw [hevents, hlast, ← List.cons_append, ← List.append_assoc, countDropped_append, List.append_assoc, List.cons_append]
      · rw [hmore hfull] at hlast
        exact absurd hlast.symm (by simp)

theorem Continues.loaded {l : List EventRec} {s : State} (h : Continues l s.events) (k : Nat) : Continues l (s.loaded k).events := by
  induction k with
  | zero => exact h
  | succ k ih =>
    obtain ⟨raised, b, hevents, -⟩ := (s.loaded k).afterItem_events k
    rw [State.loaded_succ, hevents]
    cases raised
    · exact ih
    · exact ih.raise b

theorem exec_resetnRise {s : State} (h : s.phase = .resetLow) (cut : Option Nat) :
    exec (.resetnRise cut) s = .next ((s.raise (lineResetEvent s.discarded)).load cut) := by
  show execResetnRise cut s = _
  rw [execResetnRise, h]
  rfl

/-- Settles O11: the events of the load go on from the list that LINE-RESET has joined. -/
theorem resetnRiseRaisesLineResetFirst : Obligations.ResetnRiseRaisesLineResetFirst := by
  intro s cut hlow
  refine ⟨_, exec_resetnRise hlow cut, fun hroom => ?_, fun hfull => ?_, ?_⟩
  · have hraised : (s.raise (lineResetEvent s.discarded)).events = s.events ++ [⟨s.seqCounter, lineResetEvent s.discarded, 0⟩] := by
      rw [s.raise_of_room _ hroom]
    obtain ⟨front, newest, dropped, more, hl, hevents, -, -⟩ :=
      (Continues.refl hraised).loaded (s := s.raise (lineResetEvent s.discarded)) (loadCount cut)
    obtain ⟨hfront, hnewest⟩ := List.append_inj' (hraised.symm.trans hl) rfl
    cases hnewest
    rw [State.load_eq_loaded, hevents, ← hfront]
    exact ⟨List.take_left, by rw [List.getElem?_append_right (Nat.le_refl _), Nat.sub_self]; rfl⟩
  · have hraised : (s.raise (lineResetEvent s.discarded)).events = countDropped s.events := by rw [s.raise_of_full _ hfull]
    have hne : s.events ≠ [] := fun hnil => by rw [hnil] at hfull; exact absurd hfull (by decide)
    obtain ⟨older, last, hlast⟩ := (List.eq_nil_or_concat' s.events).resolve_left hne
    rw [hlast, countDropped_append] at hraised
    obtain ⟨front, newest, dropped, more, hl, hevents, hdropped, hmore⟩ :=
      (Continues.refl hraised).loaded (s := s.raise (lineResetEvent s.discarded)) (loadCount cut)
    obtain ⟨hfront, hnewest⟩ := List.append_inj' (hraised.symm.trans hl) rfl
    cases hnewest
    have hempty : more = [] := hmore (by
      rw [hraised, List.length_append, List.length_singleton]
      rw [hlast, List.length_append, List.length_singleton] at hfull
      exact hfull)
    rw [State.load_eq_loaded, hevents, ← hfront, hempty, hlast]
    refine ⟨?_, fun r hr => ⟨_, List.getLast?_concat, ?_⟩⟩
    · rw [List.map_append, List.map_append]
      rfl
    · rw [List.getLast?_concat] at hr
      cases hr
      dsimp only at hdropped ⊢
      omega
  · rw [State.load_eq]
    exact ⟨rfl, rfl, rfl, rfl, rfl, rfl, rfl, rfl⟩

end Sys2Proof.Machine
end

