-- ==== Sys2Proof/Proofs/Transactions.lean ====
section
/-! PROOF. The commands of the management port, one by one (Chapter 11): each executes to its answer, waits, or is stopped by
the gate, and its checks are taken in the order of R146. -/

namespace Sys2Proof.Machine

/-! Answers -/

theorem Answer.sent_refuse (s : State) (st : Status) (received : List Byte) :
    (s.refuse st).sent received = { s with port := .responding received [st.code] } := rfl

theorem Answer.sent_done (s : State) (bytes received : List Byte) :
    (s.done bytes).sent received = { s with port := .responding received (0x00 :: bytes) } := rfl

theorem exec_next_congr {t u : State} (h : t = u) : Host.Outcome.next (φ := Fault) (ρ := Refusal) t = .next u := by rw [h]

/-- A complete command in the running part that waits for nothing. -/
theorem State.command_takes {s : State} (hrunning : s.phase = .running) (c : Instr) (gated : Bool) {complete waits : Bool}
    (hcomplete : complete = true) (hwaits : waits = false) (body : Answer) :
    s.command c gated complete waits body = body.sent c.wire := by
  rw [hcomplete, hwaits]
  exact s.command_of_running c gated body hrunning

/-- A complete command in the running part that waits for an accepted write. -/
theorem State.command_keeps_bytes {s : State} (hrunning : s.phase = .running) (c : Instr) (gated : Bool) {complete waits : Bool}
    (hcomplete : complete = true) (hwaits : waits = true) (body : Answer) :
    s.command c gated complete waits body = { s with port := .receiving c.wire } := by
  rw [hcomplete, hwaits]
  exact s.command_of_waits c gated body hrunning

theorem claims_any_iff (s : State) : apertureIndices.any s.claims = true ↔ ∃ a : ApertureIx, s.apertures[a].state ≠ .closed := by
  rw [List.any_eq_true]
  exact ⟨fun ⟨a, _, h⟩ => ⟨a, (s.claims_iff a).1 h⟩, fun ⟨a, h⟩ => ⟨a, List.mem_finRange a, (s.claims_iff a).2 h⟩⟩

/-! Modes (R41, R42) -/

theorem exec_modeSet {s : State} (hrunning : s.phase = .running) {m : Byte} (hwaits : s.modeSetWaits m = false) :
    exec (.modeSet m) s = .next ((s.modeSet m).sent [0x10, m]) :=
  exec_next_congr (State.command_takes hrunning (.modeSet m) true rfl hwaits _)

theorem State.modeSetWaits_eq_false {s : State} {m : Byte} (h : m.toNat ≠ 0) : s.modeSetWaits m = false := by
  rw [State.modeSetWaits, beq_eq_false_iff_ne.2 h, Bool.false_and]

/-- Settles O14: the two modes, and what a change to BYPASS asks and waits for. -/
theorem modeSetChangesMode : Obligations.ModeSetChangesMode := by
  intro s hrunning
  have hbypass : s.todo = [] → s.modeSetWaits 0 = false := fun h => by rw [State.modeSetWaits, h]; rfl
  refine ⟨exec_modeSet hrunning (State.modeSetWaits_eq_false (by decide)), fun htodo hclosed hqueue => ?_,
    fun htodo hbusy => ?_, fun htodo => ?_, fun m hm => ?_⟩
  · have hfree : (apertureIndices.any s.claims || !s.queue.isEmpty) = false := by
      rw [hqueue, List.isEmpty_nil, Bool.not_true, Bool.or_false, Bool.eq_false_iff, ne_eq, claims_any_iff]
      exact fun ⟨a, ha⟩ => ha (hclosed a)
    refine ⟨{ s.toBypass with port := .responding [0x10, 0x00] [0x00] },
      (exec_modeSet hrunning (hbypass htodo)).trans (exec_next_congr ?_), rfl, fun i => s.toBypass_scans_get i⟩
    rw [State.modeSet, if_pos (by decide), hfree]
    rfl
  · have hrefused : (apertureIndices.any s.claims || !s.queue.isEmpty) = true := by
      rw [Bool.or_eq_true, claims_any_iff, Bool.not_eq_true', List.isEmpty_eq_false_iff]
      exact hbusy
    rw [exec_modeSet hrunning (hbypass htodo), State.modeSet, if_pos (by decide), hrefused]
    rfl
  · refine exec_next_congr (State.command_keeps_bytes hrunning (.modeSet 0) true rfl ?_ _)
    rw [State.modeSetWaits, List.isEmpty_eq_false_iff.2 htodo]
    rfl
  · rw [exec_modeSet hrunning (State.modeSetWaits_eq_false (by omega)), State.modeSet, if_neg (by omega), if_neg (by omega)]
    rfl

/-! Commands that read -/

theorem beBytes_two (n : Nat) : beBytes 2 n = [BitVec.ofNat 8 (n / 256), BitVec.ofNat 8 n] := by
  simp [beBytes]

theorem beBytes_one (n : Nat) : beBytes 1 n = [BitVec.ofNat 8 n] := by
  simp [beBytes]

theorem State.readUnit_some (s : State) {α : Type} {ix : Option α} {i : α} (h : ix = some i) (bytes : α → List Byte) :
    s.readUnit ix bytes = s.done (bytes i) := by
  rw [h]; rfl

/-- Settles O15: each of these commands answers DONE with its bytes. -/
theorem readingCommandsChangeNothing : Obligations.ReadingCommandsChangeNothing := by
  intro s hrunning
  have hread : ∀ (c : Instr) (bytes : List Byte),
      s.command c true true false (s.done bytes) = { s with port := .responding c.wire (0x00 :: bytes) } :=
    fun c bytes => s.command_of_running c true _ hrunning
  have hunit : ∀ (c : Instr) {n : Nat} (ix : Option (Fin n)) (i : Fin n) (bytes : Fin n → List Byte), ix = some i →
      s.command c true true false (s.readUnit ix bytes) = { s with port := .responding c.wire (0x00 :: bytes i) } :=
    fun c n ix i bytes h => by rw [s.readUnit_some h]; exact hread c _
  refine ⟨exec_next_congr ((hread .modeRead _).trans ?_), exec_next_congr ((hread .eventCount _).trans ?_), fun mask =>
    exec_next_congr ((hread (.alertMaskRead mask) _).trans ?_), exec_next_congr ((hread .profileRead _).trans ?_), fun b i hb => ?_,
    fun b a hb => ?_⟩
  · cases s.mode <;> rfl
  · rw [beBytes_one]; rfl
  · rw [beBytes_two]; rfl
  · have hslots : (List.finRange 13).map s.slotByte = (List.finRange 13).map fun k => BitVec.ofNat 8 (s.slotUses k
        + (match s.slotStatus k with
            | .blank => 0
            | .good => 16
            | .damaged => 32)
        + if s.saving = some k then 128 else 0) := by
      refine List.map_congr_left fun k _ => ?_
      rw [State.slotByte]
      cases s.slotStatus k <;> by_cases hs : s.saving = some k <;> simp [slotStatusCode, bitAt, hs]
    rw [hslots]
    rfl
  · have hix := surfaceIx_of_toNat b i hb
    exact ⟨exec_next_congr (hunit (.surfaceRead b) _ i _ hix), exec_next_congr (hunit (.scanRead b) _ i _ hix)⟩
  · have hix := apertureIx_of_toNat b a hb
    exact ⟨exec_next_congr (hunit (.apertureRead b) _ a _ hix), exec_next_congr (hunit (.cursorRead b) _ a _ hix)⟩

/-! The gate (R146), short transactions (R145), RESETN (R153) -/

/-- A gated command is a transaction of the gated kind, complete when its lists have their lengths. -/
theorem exec_gated {c : Instr} (hgated : gatedCommand c = true) (s : State) : ∃ complete waits body,
    exec c s = .next (s.command c true complete waits body) ∧ (c.wellFormed = true → complete = true) := by
  have hlength : ∀ {l : List Byte} {n : Nat}, (l.length == n) = true → decide (n ≤ l.length) = true := fun h => by
    rw [eq_of_beq h, decide_eq_true_eq]
  cases c with
  | surfaceWrite index record => exact ⟨_, s.surfaceWriteWaits index, s.surfaceWrite index record, rfl, hlength⟩
  | bandSet index block => exact ⟨_, false, s.bandSet index block, rfl, hlength⟩
  | apertureWrite index record => exact ⟨_, false, s.apertureWrite index record, rfl, hlength⟩
  | windowSet index window => exact ⟨_, false, s.windowSet index window, rfl, hlength⟩
  | modeSet m => exact ⟨true, s.modeSetWaits m, s.modeSet m, rfl, fun _ => rfl⟩
  | apertureClose index => exact ⟨true, s.apertureCloseWaits index, s.apertureClose index, rfl, fun _ => rfl⟩
  | modeRead | surfaceRead | scanRead | apertureRead | apertureOpen | cursorRead | holdRead | eventRead | eventCount
  | alertMaskRead | alertMaskWrite | profileSave | profileRead | softReset => exact ⟨true, false, _, rfl, fun _ => rfl⟩
  | _ => cases hgated

theorem surfaceIx_eq_none {b : Byte} (h : 3 < b.toNat) : surfaceIx b = none := by
  rw [surfaceIx, dif_neg (by omega)]

theorem apertureIx_eq_none {b : Byte} (h : 7 < b.toNat) : apertureIx b = none := by
  rw [apertureIx, dif_neg (by omega)]

/-- A command whose index byte names no unit is refused RANGE (R146 step 2). -/
theorem exec_without_unit {s : State} (hrunning : s.phase = .running) {c : Instr} (hformed : c.wellFormed = true) {b : Byte}
    (hindex : (surfaceIndexOf c = some b ∧ 3 < b.toNat) ∨ (apertureIndexOf c = some b ∧ 7 < b.toNat)) :
    exec c s = .next { s with port := .responding c.wire [0x03] } := by
  have hrefused : ∀ {complete waits : Bool} {body : Answer}, complete = true → waits = false → body = s.refuse .range →
      s.command c true complete waits body = { s with port := .responding c.wire [0x03] } := fun hcomplete hwaits hbody => by
    rw [State.command_takes hrunning c true hcomplete hwaits, hbody]
    rfl
  obtain ⟨hunit, hb⟩ | ⟨hunit, hb⟩ := hindex
  · have hnone := surfaceIx_eq_none hb
    cases c with
    | surfaceWrite index record =>
      cases hunit
      have hlength : record.length = 27 := eq_of_beq hformed
      exact exec_next_congr (hrefused (by rw [hlength]; rfl) (by rw [State.surfaceWriteWaits, hnone])
        (by rw [State.surfaceWrite, hnone]))
    | surfaceRead index => cases hunit; exact exec_next_congr (hrefused rfl rfl (by rw [hnone]; rfl))
    | bandSet index block =>
      cases hunit
      have hlength : block.length = 7 := eq_of_beq hformed
      exact exec_next_congr (hrefused (by rw [hlength]; rfl) rfl (by rw [State.bandSet, hnone]))
    | scanRead index => cases hunit; exact exec_next_congr (hrefused rfl rfl (by rw [hnone]; rfl))
    | _ => cases hunit
  · have hnone := apertureIx_eq_none hb
    cases c with
    | apertureWrite index record =>
      cases hunit
      have hlength : record.length = 18 := eq_of_beq hformed
      exact exec_next_congr (hrefused (by rw [hlength]; rfl) rfl (by rw [State.apertureWrite, hnone]))
    | apertureRead index => cases hunit; exact exec_next_congr (hrefused rfl rfl (by rw [hnone]; rfl))
    | apertureOpen index => cases hunit; exact exec_next_congr (hrefused rfl rfl (by rw [State.apertureOpen, hnone]))
    | apertureClose index =>
      cases hunit
      exact exec_next_congr (hrefused rfl (by rw [State.apertureCloseWaits, hnone]) (by rw [State.apertureClose, hnone]))
    | windowSet index window =>
      cases hunit
      have hlength : window.length = 8 := eq_of_beq hformed
      exact exec_next_congr (hrefused (by rw [hlength]; rfl) rfl (by rw [State.windowSet, hnone]))
    | cursorRead index => cases hunit; exact exec_next_congr (hrefused rfl rfl (by rw [hnone]; rfl))
    | _ => cases hunit

/-- A command that the gate lets through executes whenever RESETN is high. -/
theorem State.command_of_ungated {s : State} (hoff : s.phase ≠ .off) (hlow : s.phase ≠ .resetLow) (c : Instr) (body : Answer) :
    s.command c false true false body = body.sent c.wire := by
  unfold State.command
  split
  · exact absurd ‹_› hoff
  · exact absurd ‹_› hlow
  · rfl

theorem State.resetnHigh_iff (s : State) : s.resetnHigh = true ↔ s.phase ≠ .off ∧ s.phase ≠ .resetLow := by
  unfold State.resetnHigh
  cases s.phase <;> simp

/-- Settles O16: the gate, the commands it lets through, and what leaves everything but the port alone. -/
theorem gateAndTransactionsWithoutEffect : Obligations.GateAndTransactionsWithoutEffect := by
  refine ⟨fun s c hbusy hgated hformed => ?_, fun s hoff hlow => ?_, fun s c hlow hc => ?_, fun s l hlow => ?_,
    fun s l hhigh hshort => ?_, fun s b hhigh => ?_, fun s c b hrunning hformed hindex => exec_without_unit hrunning hformed hindex⟩
  · obtain ⟨complete, waits, body, hexec, hcomplete⟩ := exec_gated hgated s
    rw [hexec, hcomplete hformed, s.command_of_busy c waits body hbusy]
    rfl
  · exact exec_next_congr (State.command_of_ungated hoff hlow .ident _)
  · have hignored : ∀ gated complete waits body, Host.Outcome.next (φ := Fault) (ρ := Refusal)
        (s.command c gated complete waits body) = .next { s with port := .ignored } := fun gated complete waits body =>
      exec_next_congr (s.command_of_resetLow c gated complete waits body hlow)
    obtain hgated | rfl | ⟨b, rfl⟩ := hc
    · obtain ⟨complete, waits, body, hexec, -⟩ := exec_gated hgated s
      rw [hexec]
      exact hignored _ _ _ _
    · exact hignored _ _ _ _
    · exact hignored _ _ _ _
  · have hgather : ∀ ended, s.gather l ended = s.setPort (if ended then .idle else .ignored) := fun ended => by
      rw [State.gather, hlow]
    exact ⟨exec_next_congr (hgather true), exec_next_congr (hgather false)⟩
  · obtain ⟨hoff, hlow⟩ := s.resetnHigh_iff.1 hhigh
    have hgather : ∀ ended, s.gather l ended = s.setPort (if ended then .idle else if s.port = .ignored then .ignored
        else .receiving l) := fun ended => by
      unfold State.gather
      split
      · exact absurd ‹_› hoff
      · exact absurd ‹_› hlow
      · rw [if_pos hshort]
    refine ⟨exec_next_congr (hgather true), fun hport => exec_next_congr ((hgather false).trans ?_),
      fun hport => exec_next_congr ((hgather false).trans ?_)⟩
    · rw [if_neg Bool.false_ne_true, if_neg hport]; rfl
    · rw [if_neg Bool.false_ne_true, if_pos hport, ← hport]; rfl
  · obtain ⟨hoff, hlow⟩ := s.resetnHigh_iff.1 hhigh
    exact exec_next_congr (State.command_of_ungated hoff hlow (.unknownCommand b) _)

end Sys2Proof.Machine
end

