-- ==== Sys2Proof/Proofs/RecordCommands.lean ====
section
/-! PROOF. The commands that write surfaces, bands, apertures and windows, open and close, and those of the hold counters, the
events and the mask. -/

namespace Sys2Proof.Machine

/-! Ranges (R10, R17, R21) -/

theorem overlap_eq_false_iff (low stop low' stop' : Nat) :
    overlap low stop low' stop' = false ↔ ∀ x, ¬ (low ≤ x ∧ x < stop ∧ low' ≤ x ∧ x < stop') := by
  rw [Bool.eq_false_iff, ne_eq, overlap]
  simp only [Bool.and_eq_true, decide_eq_true_eq]
  constructor
  · intro h x hx
    omega
  · intro h hx
    exact h (max low low') (by omega)

theorem StoredFormat.size_eq (f : StoredFormat) : f.size = if f = .s16 then 2 else 4 := by cases f <;> rfl

theorem UpFormat.size_eq (f : UpFormat) : f.size = if f = .u16 then 2 else 4 := by cases f <;> rfl

theorem viewExtent_eq (f : ApertureFields) (r : SurfaceRec) :
    viewExtent f r = r.width * r.height * if f.format = .u16 then 2 else 4 := by
  rw [viewExtent, viewWidth, viewHeight, UpFormat.size_eq]
  cases f.exchange
  · rfl
  · simp only [if_true, Nat.mul_comm r.height r.width]

theorem windowInRange_iff (w : Window) : windowInRange w = true ↔
    w.colFirst ≤ 4095 ∧ w.colLast ≤ 4095 ∧ w.rowFirst ≤ 4095 ∧ w.rowLast ≤ 4095
      ∧ w.colFirst ≤ w.colLast ∧ w.rowFirst ≤ w.rowLast := by
  rw [windowInRange]
  simp only [Bool.and_eq_true, decide_eq_true_eq]
  omega

theorem windowInView_iff (f : ApertureFields) (r : SurfaceRec) (w : Window) : windowInView f r w = true ↔
    w.colLast < (if f.exchange then r.height else r.width) ∧ w.rowLast < (if f.exchange then r.width else r.height) := by
  rw [windowInView, Bool.and_eq_true, decide_eq_true_eq, decide_eq_true_eq]
  rfl

/-! SURFACE_WRITE (R11, R12) -/

theorem exec_surfaceWrite {s : State} (hrunning : s.phase = .running) {b : Byte} {i : SurfaceIx} {l : List Byte}
    (hb : b.toNat = i.val) (hlength : l.length = 27) (htodo : ∀ p ∈ s.todo, p.frag.surface ≠ i) :
    exec (.surfaceWrite b l) s = .next ((s.surfaceWrite b l).sent (0x20 :: b :: l)) := by
  refine exec_next_congr (State.command_takes hrunning (.surfaceWrite b l) true (by rw [hlength]; rfl) ?_ _)
  rw [State.surfaceWriteWaits, surfaceIx_of_toNat b i hb, List.any_eq_false]
  exact fun p hp => by rw [beq_iff_eq]; exact htodo p hp

theorem State.surfaceInUse_iff (s : State) (i : SurfaceIx) : s.surfaceInUse i = true ↔
    (∃ a : ApertureIx, s.apertures[a].state ≠ .closed ∧ s.apertures[a].fields.surface = i) ∨ ∃ f ∈ s.queue, f.surface = i := by
  rw [State.surfaceInUse, Bool.or_eq_true, List.any_eq_true, List.any_eq_true]
  refine or_congr ⟨fun ⟨a, _, h⟩ => ?_, fun ⟨a, hopen, hnames⟩ => ⟨a, List.mem_finRange a, ?_⟩⟩
    ⟨fun ⟨f, hf, h⟩ => ⟨f, hf, eq_of_beq h⟩, fun ⟨f, hf, h⟩ => ⟨f, hf, beq_iff_eq.2 h⟩⟩
  · rw [Bool.and_eq_true, beq_iff_eq] at h
    exact ⟨a, (s.claims_iff a).1 h.1, h.2⟩
  · rw [Bool.and_eq_true, beq_iff_eq]
    exact ⟨(s.claims_iff a).2 hopen, hnames⟩

theorem SurfaceRec.optBandOk_iff (r : SurfaceRec) : r.optBandOk r.band = true ↔ ∀ b, r.band = some b →
    2 ≤ b.height ∧ b.height ≤ r.lastRow - r.firstRow + 1 ∧ b.offset ≤ b.height - 1
      ∧ r.firstRow ≤ b.top ∧ b.top + b.height - 1 ≤ r.lastRow := by
  cases r.band with
  | none => exact ⟨fun _ b hb => (by cases hb), fun _ => rfl⟩
  | some x =>
    simp only [SurfaceRec.optBandOk, SurfaceRec.bandOk, Bool.and_eq_true, decide_eq_true_eq, Option.some.injEq, forall_eq']
    omega

theorem SurfaceRec.fieldsOk_iff (r : SurfaceRec) : r.fieldsOk = true ↔
    r.base.toNat % 64 = 0 ∧ 64 ≤ r.pitch ∧ r.pitch ≤ 65536 ∧ r.pitch % 64 = 0
      ∧ 1 ≤ r.width ∧ r.width ≤ 4096 ∧ 1 ≤ r.height ∧ r.height ≤ 4096 ∧ r.timeout ≤ 65535
      ∧ r.width * (if r.format = .s16 then 2 else 4) ≤ r.pitch
      ∧ r.base.toNat + r.pitch * r.height ≤ 2 ^ 40
      ∧ r.firstRow ≤ r.lastRow ∧ r.lastRow < r.height
      ∧ (∀ b, r.band = some b → 2 ≤ b.height ∧ b.height ≤ r.lastRow - r.firstRow + 1 ∧ b.offset ≤ b.height - 1
          ∧ r.firstRow ≤ b.top ∧ b.top + b.height - 1 ≤ r.lastRow) := by
  rw [← r.optBandOk_iff, ← StoredFormat.size_eq]
  rw [← addrSpace_eq]
  simp only [SurfaceRec.fieldsOk, Bool.and_eq_true, decide_eq_true_eq, beq_iff_eq]
  constructor
  · rintro ⟨⟨⟨⟨⟨⟨⟨⟨⟨⟨⟨⟨⟨hbase, hp1⟩, hp2⟩, hp3⟩, hw1⟩, hw2⟩, hh1⟩, hh2⟩, hrow⟩, hstop⟩, hfirst⟩, hlast⟩, htimeout⟩, hband⟩
    exact ⟨hbase, hp1, hp2, hp3, hw1, hw2, hh1, hh2, Nat.le_of_lt_succ htimeout, hrow, hstop, hfirst, hlast, hband⟩
  · rintro ⟨hbase, hp1, hp2, hp3, hw1, hw2, hh1, hh2, htimeout, hrow, hstop, hfirst, hlast, hband⟩
    exact ⟨⟨⟨⟨⟨⟨⟨⟨⟨⟨⟨⟨⟨hbase, hp1⟩, hp2⟩, hp3⟩, hw1⟩, hw2⟩, hh1⟩, hh2⟩, hrow⟩, hstop⟩, hfirst⟩, hlast⟩,
      Nat.lt_succ_of_le htimeout⟩, hband⟩

/-- Settles O19: the order of the checks, and the RANGE group spelled out. -/
theorem surfaceWriteInstallsOrRefuses : Obligations.SurfaceWriteInstallsOrRefuses := by
  refine ⟨fun s b i l hrunning hb hlength => ⟨fun ⟨p, hp, hsurface⟩ => ?_, fun htodo => ⟨fun huse => ?_, fun hap hqueue => ?_⟩⟩,
    fun s i r => ⟨fun hdefined => ?_, fun hdefined => ?_⟩⟩
  · refine exec_next_congr (State.command_keeps_bytes hrunning (.surfaceWrite b l) true (by rw [hlength]; rfl) ?_ _)
    rw [State.surfaceWriteWaits, surfaceIx_of_toNat b i hb, List.any_eq_true]
    exact ⟨p, hp, beq_iff_eq.2 hsurface⟩
  · rw [exec_surfaceWrite hrunning hb hlength htodo, State.surfaceWrite, surfaceIx_of_toNat b i hb]
    simp only [(s.surfaceInUse_iff i).2 huse, if_true]
    rfl
  · have hfree : s.surfaceInUse i = false := by
      rw [Bool.eq_false_iff, ne_eq, State.surfaceInUse_iff]
      rintro (⟨a, hopen, hnames⟩ | ⟨f, hf, hsurface⟩)
      · exact hap a hopen hnames
      · exact hqueue f hf hsurface
    rw [exec_surfaceWrite hrunning hb hlength htodo, State.surfaceWrite, surfaceIx_of_toNat b i hb]
    refine ⟨fun hnone => ?_, fun r hr hfits => ?_, fun r hr hfits => ?_⟩
    · simp only [hfree, Bool.false_eq_true, if_false, hnone]
      rfl
    · simp only [hfree, Bool.false_eq_true, if_false, hr, hfits]
      rfl
    · simp only [hfree, Bool.false_eq_true, if_false, hr, hfits, if_true]
      rfl
  · rw [State.surfaceFits, hdefined]; rfl
  · rw [State.surfaceFits, hdefined, Bool.not_true, Bool.false_or, Bool.and_eq_true, Bool.and_eq_true, Bool.not_eq_true',
      Bool.not_eq_true', State.overlapsSurface_eq_false_iff, State.overlapsAperture_eq_false_iff, SurfaceRec.fieldsOk_iff]
    simp only [overlap_eq_false_iff, State.claims_iff]
    tauto

/-! BAND_SET (R148) -/

theorem exec_bandSet {s : State} (hrunning : s.phase = .running) (b : Byte) {l : List Byte} (hlength : l.length = 7) :
    exec (.bandSet b l) s = .next ((s.bandSet b l).sent (0x22 :: b :: l)) :=
  exec_next_congr (State.command_takes hrunning (.bandSet b l) true (by rw [hlength]; rfl) rfl _)

/-- Settles O20: a DEFINED surface, and a block that R8 and R148 allow. -/
theorem bandSetPlacesPendingBand : Obligations.BandSetPlacesPendingBand := by
  intro s b i l hrunning hb hlength
  rw [exec_bandSet hrunning b hlength, State.bandSet, surfaceIx_of_toNat b i hb]
  dsimp only
  refine ⟨fun hdefined => ?_, fun hdefined => ⟨?_, fun hremove => ?_, fun x hx hok => ?_⟩⟩
  · rw [hdefined]; rfl
  · rw [hdefined]
    rintro (habsent | hbad | ⟨x, hx, hok⟩)
    · rw [habsent]; rfl
    · rw [hbad]; rfl
    · rw [hx]; dsimp only; rw [hok]; rfl
  · rw [hdefined, hremove]; rfl
  · rw [hdefined, hx]; dsimp only; rw [hok]; rfl

/-! APERTURE_WRITE (R18) -/

/-- Settles O21: a CLOSED aperture, and fields within their ranges. -/
theorem apertureWriteReplacesFields : Obligations.ApertureWriteReplacesFields := by
  intro s b a l hrunning hb hlength
  have hexec : exec (.apertureWrite b l) s = .next ((s.apertureWrite b l).sent (0x30 :: b :: l)) :=
    exec_next_congr (State.command_takes hrunning (.apertureWrite b l) true (by rw [hlength]; rfl) rfl _)
  rw [hexec, State.apertureWrite, apertureIx_of_toNat b a hb]
  dsimp only
  refine ⟨fun hopen => ?_, fun hclosed hnone => ?_, fun f hclosed hf => ?_⟩
  · rw [(s.claims_iff a).2 hopen]; rfl
  · rw [(s.claims_eq_false_iff a).2 hclosed, hnone]; rfl
  · rw [(s.claims_eq_false_iff a).2 hclosed, hf]
    simp only [State.setFields, hclosed]
    rfl

/-! APERTURE_OPEN (R20) -/

theorem exec_apertureOpen {s : State} (hrunning : s.phase = .running) {b : Byte} {a : ApertureIx} (hb : b.toNat = a.val) :
    exec (.apertureOpen b) s = .next ((match s.openRefusal a with
      | some st => s.refuse st
      | none => (s.openAperture a).done).sent [0x32, b]) := by
  refine exec_next_congr ((State.command_takes hrunning (.apertureOpen b) true rfl rfl _).trans ?_)
  rw [State.apertureOpen, apertureIx_of_toNat b a hb]
  rfl

/-- The STATE checks come first, and every other check refuses RANGE. -/
theorem State.openRefusal_eq (s : State) (a : ApertureIx) : s.openRefusal a =
    if s.apertures[a].state ≠ .closed ∨ s.mode = .bypass then some .state else if MayOpen s a then none else some .range := by
  by_cases hstate : s.apertures[a].state ≠ .closed ∨ s.mode = .bypass
  · rw [if_pos hstate]
    unfold State.openRefusal
    dsimp only
    rw [if_pos]
    rw [Bool.or_eq_true, State.claims_iff, beq_iff_eq]
    exact hstate
  · rw [if_neg hstate]
    split
    · rename_i hmay
      refine (s.openRefusal_eq_none_iff a).2 ⟨?_, hmay⟩
      cases hm : s.mode with
      | engaged => rfl
      | bypass => exact absurd (.inr hm) hstate
    · rename_i hmay
      have hsome : s.openRefusal a ≠ none := fun hn => hmay ((s.openRefusal_eq_none_iff a).1 hn).2
      have hchecks : (s.claims a || s.mode == .bypass) = false := by
        rw [Bool.eq_false_iff, ne_eq, Bool.or_eq_true, State.claims_iff, beq_iff_eq]
        exact hstate
      unfold State.openRefusal at hsome ⊢
      dsimp only at hsome ⊢
      rw [hchecks, if_neg Bool.false_ne_true] at hsome ⊢
      split
      · rfl
      split
      · rfl
      split
      · rfl
      split
      · rfl
      split
      · rfl
      · rename_i h1 h2 h3 h4 h5
        rw [if_neg h1, if_neg h2, if_neg h3, if_neg h4, if_neg h5] at hsome
        exact absurd rfl hsome

/-- Settles O22: the checks in their order, spelled out, and the ranges of the two kinds. -/
theorem apertureOpenChecksAndOpens : Obligations.ApertureOpenChecksAndOpens := by
  refine ⟨fun s b a hrunning hb => ⟨fun hstate => ?_, fun hclosed hmode hmay => ?_, fun hclosed hmode hmay => ?_⟩, fun s a => ?_⟩
  · rw [exec_apertureOpen hrunning hb, s.openRefusal_eq, if_pos hstate]; rfl
  · have hstate : ¬ (s.apertures[a].state ≠ .closed ∨ s.mode = .bypass) := by rw [hclosed, hmode]; simp
    rw [exec_apertureOpen hrunning hb, s.openRefusal_eq, if_neg hstate, if_neg hmay]; rfl
  · rw [exec_apertureOpen hrunning hb, (s.openRefusal_eq_none_iff a).2 ⟨hmode, hmay⟩]
    show Host.Outcome.next ((s.openAperture a).setPort (.responding [0x32, b] [0x00])) = _
    rw [State.openAperture, State.resetCursor, State.setAperture_apertures_get, if_pos rfl]
    rfl
  · dsimp only
    refine ⟨?_, fun hkind => ?_, fun hkind => ?_⟩
    · simp only [MayOpen, overlap_eq_false_iff, State.surfaceOf, windowInView_iff, ApertureFields.low]
    · rw [State.apertureEnd, apertureStop, apertureSpan, hkind, ApertureFields.low, State.surfaceOf, viewExtent_eq]
      dsimp only
      generalize (s.surfaces[s.apertures[a].fields.surface]).width * (s.surfaces[s.apertures[a].fields.surface]).height
        * (if s.apertures[a].fields.format = .u16 then 2 else 4) = n
      omega
    · rw [State.apertureEnd, apertureStop, apertureSpan, hkind, ApertureFields.low]

/-! APERTURE_CLOSE (R25, R29) -/

/-- Settles O23: what it waits for, and what becomes of the state with and without held fragments. -/
theorem apertureCloseClosesOrDrains : Obligations.ApertureCloseClosesOrDrains := by
  intro s b a hrunning hb
  have hwaits : s.apertureCloseWaits b = s.todo.any fun p => p.frag.origin == .aperture a := by
    rw [State.apertureCloseWaits, apertureIx_of_toNat b a hb]
  refine ⟨fun ⟨p, hp, horigin⟩ => ?_, fun htodo => ?_⟩
  · refine exec_next_congr (State.command_keeps_bytes hrunning (.apertureClose b) true rfl ?_ _)
    rw [hwaits, List.any_eq_true]
    exact ⟨p, hp, beq_iff_eq.2 horigin⟩
  · have hfree : s.apertureCloseWaits b = false := by
      rw [hwaits, List.any_eq_false]
      exact fun p hp => by rw [beq_iff_eq]; exact htodo p hp
    have hexec : exec (.apertureClose b) s = .next ((s.apertureClose b).sent [0x33, b]) :=
      exec_next_congr (State.command_takes hrunning (.apertureClose b) true rfl hfree _)
    rw [hexec, State.apertureClose, apertureIx_of_toNat b a hb]
    dsimp only
    refine ⟨fun hstate => ?_, fun hstate hheld => ?_, fun hstate hheld => ?_⟩
    · rw [if_pos (bne_iff_ne.2 hstate)]; rfl
    · rw [hstate, if_neg (by decide), if_pos hheld]
      rfl
    · rw [hstate, if_neg (by decide), if_neg (by omega)]
      rfl

/-! WINDOW_SET (R76) -/

/-- Settles O24: the checks on the window, and where the cursor then stands. -/
theorem windowSetReplacesWindow : Obligations.WindowSetReplacesWindow := by
  refine ⟨windowInRange_iff, windowInView_iff, fun s b a l hrunning hb hlength => ?_⟩
  have hexec : exec (.windowSet b l) s = .next ((s.windowSet b l).sent (0x34 :: b :: l)) :=
    exec_next_congr (State.command_takes hrunning (.windowSet b l) true (by rw [hlength]; rfl) rfl _)
  rw [hexec, State.windowSet, apertureIx_of_toNat b a hb]
  dsimp only
  refine ⟨fun hrefused => ?_, fun hkind hstate => ?_⟩
  · rw [if_pos]
    · rfl
    · rw [Bool.or_eq_true, beq_iff_eq, beq_iff_eq]; exact hrefused
  · rw [if_neg (by rw [Bool.or_eq_true, beq_iff_eq, beq_iff_eq, hkind]; simpa using hstate)]
    refine ⟨fun hbad => ?_, fun hrange hview => ?_⟩
    · by_cases hrange : windowInRange (parseWindow l) = false
      · rw [hrange]; rfl
      · rw [Bool.not_eq_false] at hrange
        obtain hn | ⟨hopened, hview⟩ := hbad
        · rw [hrange] at hn; cases hn
        · rw [hrange, hopened, hview]; rfl
    · rw [hrange, Bool.not_true, if_neg Bool.false_ne_true, if_neg]
      · show Host.Outcome.next (State.setPort (State.resetCursor _ a) _) = _
        rw [State.resetCursor, State.setFields, State.setAperture_apertures_get, if_pos rfl]
        rfl
      · rw [Bool.and_eq_true, beq_iff_eq, Bool.not_eq_true', not_and, Bool.not_eq_false]
        exact hview

/-! HOLD_READ, EVENT_READ, ALERT_MASK_WRITE (R121, R140, R149) -/

/-- Settles O25: the occupancy as it is seen from outside, and the mark. -/
theorem holdReadReportsAndLowersMark : Obligations.HoldReadReportsAndLowersMark := by
  intro s hrunning
  refine ⟨exec_next_congr (State.command_takes hrunning .holdRead true rfl rfl _), ?_, fun hrelease hjob => ?_⟩
  · rw [State.occupancySeen, State.heldAll, List.length_append]
    rfl
  · rw [State.occupancySeen, State.heldAll, State.releasedCount, State.joining, State.todo, hrelease, hjob]
    simp

/-- Settles O26: the list is empty, or its oldest record leaves. -/
theorem eventReadGivesOldest : Obligations.EventReadGivesOldest := by
  intro s hrunning
  have hexec : exec .eventRead s = .next (s.eventRead.sent [0x50]) :=
    exec_next_congr (State.command_takes hrunning .eventRead true rfl rfl _)
  refine ⟨fun hnil => ?_, fun r rs hcons => ?_⟩
  · have hread : s.eventRead = s.done (beBytes 1 0) := by rw [State.eventRead, hnil]
    rw [hexec, hread]
    rfl
  · rw [hexec, State.eventRead, hcons]
    dsimp only
    rw [beBytes_one]
    rfl

/-- Settles O27: the action, and the three bits that a mask does not have. -/
theorem alertMaskWriteReplacesMask : Obligations.AlertMaskWriteReplacesMask := by
  intro s mask hrunning
  have hexec : ∀ action, exec (.alertMaskWrite action mask) s
      = .next ((s.alertMaskCommand action mask).sent (0x52 :: action :: word2 mask)) := fun action =>
    exec_next_congr (State.command_takes hrunning (.alertMaskWrite action mask) true rfl rfl _)
  refine ⟨fun hmask => ?_, fun hmask => ?_, fun action haction => ?_⟩
  · rw [hexec, State.alertMaskCommand, if_neg (by decide), if_pos (by decide), if_neg (by omega), beBytes_two]
    have hbytes : ([BitVec.ofNat 8 (mask.toNat / 256), BitVec.ofNat 8 mask.toNat] : List Byte) = word2 mask := by
      rw [word2]
      congr 1
      · apply BitVec.eq_of_toNat_eq
        simp [Nat.shiftRight_eq_div_pow]
    rw [hbytes]
    rfl
  · rw [hexec, State.alertMaskCommand, if_neg (by decide), if_pos (by decide), if_pos hmask]
    rfl
  · rw [hexec, State.alertMaskCommand, if_neg (by omega), if_neg (by omega)]
    rfl

end Sys2Proof.Machine
end

