-- ==== Sys2Proof/Proofs/OrderedWork.lean ====
section
/-! PROOF. What an order does when the hold queue takes it (R99, R101, R110, R118), and the commands that order work: the expiry
of a scan timer and the stages of the soft reset. -/

namespace Sys2Proof.Machine

/-! What a finish, an expiry and the full flush take -/

theorem State.takes_finish (s : State) (i : SurfaceIx) : s.takes (.finish i) = fun f => f.surface == i := rfl

theorem State.takes_stall (s : State) (i : SurfaceIx) : s.takes (.stall i) = fun f => f.surface == i := rfl

theorem any_surface_iff (l : List Frag) (i : SurfaceIx) : (l.any fun f => f.surface == i) = true ↔ ∃ f ∈ l, f.surface = i := by
  simp only [List.any_eq_true, beq_iff_eq]

theorem any_surface_eq_false_iff (l : List Frag) (i : SurfaceIx) :
    (l.any fun f => f.surface == i) = false ↔ ∀ f ∈ l, f.surface ≠ i := by
  simp only [List.any_eq_false, beq_iff_eq, ne_eq]

theorem State.takes_free {s : State} {w : Work} {i : SurfaceIx} (hw : s.takes w = fun f => f.surface == i)
    (h : ∀ f ∈ s.queue, f.surface ≠ i) : s.queue.any (s.takes w) = false := by
  rw [hw]
  exact (any_surface_eq_false_iff _ i).2 h

theorem State.begin_finish_of_held {s : State} {i : SurfaceIx} (h : ∃ f ∈ s.queue, f.surface = i) :
    s.begin (.finish i) = { s with release := some ⟨.finish i, 0, []⟩ } :=
  s.begin_of_any _ ((any_surface_iff _ i).2 h)

theorem State.begin_stall_of_held {s : State} {i : SurfaceIx} (h : ∃ f ∈ s.queue, f.surface = i) :
    s.begin (.stall i) = { s with release := some ⟨.stall i, 0, []⟩ } :=
  s.begin_of_any _ ((any_surface_iff _ i).2 h)

theorem State.with_release_none {s : State} (h : s.release = none) : { s with release := none } = s := by
  rw [← h]

theorem State.begin_finish_of_free {s : State} {i : SurfaceIx} (hrelease : s.release = none)
    (h : ∀ f ∈ s.queue, f.surface ≠ i) :
    s.begin (.finish i) = { s with scans := s.scans.set i { s.scans[i] with state := .blanking, timer := none } } := by
  rw [s.begin_of_none _ (State.takes_free (s.takes_finish i) h), State.complete, State.with_release_none hrelease]
  rfl

theorem State.begin_stall_of_free {s : State} {i : SurfaceIx} (hrelease : s.release = none)
    (h : ∀ f ∈ s.queue, f.surface ≠ i) :
    s.begin (.stall i) = { s with
      scans := s.scans.set i { s.scans[i] with state := .stalled, timer := none }
      seqCounter := s.seqCounter + 1
      events := (s.raise ⟨.scanStall, some (.surface i), none, none, some s.scans[i].frame, .number s.scans[i].c⟩).events } := by
  rw [s.begin_of_none _ (State.takes_free (s.takes_stall i) h), State.complete, State.with_release_none hrelease]
  rfl

theorem State.begin_fullFlush_of_held {s : State} (h : s.queue ≠ []) :
    s.begin .fullFlush = { s with release := some ⟨.fullFlush, 0, []⟩ } := by
  obtain ⟨f, hf⟩ := List.exists_mem_of_ne_nil _ h
  exact s.begin_of_any _ (List.any_eq_true.2 ⟨f, hf, rfl⟩)

theorem State.begin_fullFlush_of_empty {s : State} (hrelease : s.release = none) (hphase : s.phase = .softReset .flush)
    (h : s.queue = []) : s.begin .fullFlush = { s with highWater := 0, phase := .softReset (.flushed 0) } := by
  rw [s.begin_of_none _ (by rw [h]; rfl), State.complete, State.with_release_none hrelease]
  dsimp only
  rw [hphase]

/-! Taking an order (R99, R101) -/

theorem State.takeOrder_finish {s : State} {i : SurfaceIx} (h : s.scans[i].state = .scanning) :
    s.takeOrder (.finish i) = s.begin (.finish i) := by
  rw [State.takeOrder, h]; rfl

theorem State.takeOrder_finish_of_not {s : State} {i : SurfaceIx} (h : s.scans[i].state ≠ .scanning) :
    s.takeOrder (.finish i) = s := by
  rw [State.takeOrder, if_neg (by rw [beq_iff_eq]; exact h)]

theorem State.takeOrder_stall {s : State} {i : SurfaceIx} (h : s.scans[i].state = .scanning) (htimer : s.scans[i].timer ≠ none) :
    s.takeOrder (.stall i) = s.begin (.stall i) := by
  rw [State.takeOrder, if_pos (by rw [Bool.and_eq_true, beq_iff_eq, Option.isSome_iff_ne_none]; exact ⟨h, htimer⟩)]

theorem State.takeOrder_stall_of_not {s : State} {i : SurfaceIx} (h : ¬ (s.scans[i].state = .scanning ∧ s.scans[i].timer ≠ none)) :
    s.takeOrder (.stall i) = s := by
  rw [State.takeOrder, if_neg (by rw [Bool.and_eq_true, beq_iff_eq, Option.isSome_iff_ne_none]; exact h)]

/-! The expiry of a scan timer (R101) -/

theorem State.scanWorkOn_iff (s : State) (i : SurfaceIx) : s.scanWorkOn i = true ↔ ∃ rel, s.release = some rel
    ∧ ((∃ e d, rel.work = .step i e d) ∨ (∃ e d, rel.work = .restart i e d) ∨ rel.work = .finish i ∨ rel.work = .stall i) := by
  rw [State.scanWorkOn]
  match s.release with
  | none => exact ⟨nofun, fun ⟨_, h, _⟩ => (by cases h)⟩
  | some ⟨.step j e d, n, l⟩ => simp
  | some ⟨.restart j e d, n, l⟩ => simp
  | some ⟨.finish j, n, l⟩ => simp
  | some ⟨.stall j, n, l⟩ => simp
  | some ⟨.fullFlush, n, l⟩ => simp

theorem State.scanWorkOn_of_free {s : State} (h : s.holdBusy = false) (i : SurfaceIx) : s.scanWorkOn i = false := by
  rw [State.scanWorkOn, ((s.holdBusy_eq_false_iff).1 h).1]

theorem exec_scanTimerExpiry {s : State} {i : SurfaceIx} (h : s.scans[i].state = .scanning) (htimer : s.scans[i].timer ≠ none)
    (hwork : s.scanWorkOn i = false) : exec (.scanTimerExpiry i) s = .next (s.order (.stall i)).handOver := by
  show Host.Outcome.next (if _ then _ else _) = _
  rw [if_pos (by rw [h, Option.isSome_iff_ne_none.2 htimer, hwork]; rfl)]

/-- Settles O53: the order of a stall, taken at once or waiting. -/
theorem scanTimerExpiryStalls : Obligations.ScanTimerExpiryStalls := by
  refine ⟨State.scanWorkOn_iff, fun s i hnot => ?_, fun s i hscanning htimer => ⟨fun hfree hheld => ?_, fun hfree hheld => ?_,
    fun hbusy hwork => ?_⟩⟩
  · show Host.Outcome.next (if _ then _ else _) = _
    rw [if_neg]
    rw [Bool.and_eq_true, Bool.and_eq_true, beq_iff_eq, Option.isSome_iff_ne_none, Bool.not_eq_true']
    rintro ⟨⟨hscanning, htimer⟩, hwork⟩
    obtain hon | hstate | hnone := hnot
    · rw [hon] at hwork; cases hwork
    · exact hstate hscanning
    · exact htimer hnone
  · rw [exec_scanTimerExpiry hscanning htimer (State.scanWorkOn_of_free hfree i), State.order_of_free _ _ hfree,
      State.takeOrder_stall hscanning htimer, State.begin_stall_of_free ((s.holdBusy_eq_false_iff).1 hfree).1 hheld]
  · rw [exec_scanTimerExpiry hscanning htimer (State.scanWorkOn_of_free hfree i), State.order_of_free _ _ hfree,
      State.takeOrder_stall hscanning htimer, State.begin_stall_of_held hheld]
  · rw [exec_scanTimerExpiry hscanning htimer hwork, State.order_of_busy _ _ hbusy]

/-! Soft reset (R151) -/

theorem State.holdBusy_iff (s : State) :
    s.holdBusy = true ↔ s.release ≠ none ∨ ∃ q g ps, s.writeJob = some (.fragments q g ps) := by
  rw [State.holdBusy, Bool.or_eq_true, Option.isSome_iff_ne_none]
  refine or_congr_right ?_
  match s.writeJob with
  | none => simp
  | some (.transparent w) => simp
  | some (.fragments q g ps) => simp

theorem exec_softResetFlush {s : State} (hphase : s.phase = .softReset .drain) (hdrained : s.drained = true) :
    exec .softResetFlush s = .next (State.order { s with phase := .softReset .flush } .fullFlush).handOver := by
  show execSoftResetFlush s = _
  rw [execSoftResetFlush, hphase]
  dsimp only
  rw [if_pos hdrained]

/-- Settles O32: the order of the full flush, taken at once or waiting. -/
theorem softResetStopsDrainsAndFlushes : Obligations.SoftResetStopsDrainsAndFlushes := by
  refine ⟨fun s hrunning => exec_next_congr (State.command_takes hrunning .softReset true rfl rfl _), State.holdBusy_iff,
    fun s hphase => ⟨s.drained_iff, fun hnot => ?_, fun hdrained hbusy => ?_, fun hdrained hfree hheld => ?_,
      fun hdrained hfree hempty => ?_⟩⟩
  · show execSoftResetFlush s = _
    rw [execSoftResetFlush, hphase]
    dsimp only
    rw [hnot, if_neg Bool.false_ne_true]
  · rw [exec_softResetFlush hphase hdrained, State.order_of_busy { s with phase := .softReset .flush } .fullFlush hbusy]
  · rw [exec_softResetFlush hphase hdrained, State.order_of_free { s with phase := .softReset .flush } .fullFlush hfree]
    exact congrArg (fun t => Host.Outcome.next (State.handOver t)) (State.begin_fullFlush_of_held hheld)
  · rw [exec_softResetFlush hphase hdrained, State.order_of_free { s with phase := .softReset .flush } .fullFlush hfree]
    exact congrArg (fun t => Host.Outcome.next (State.handOver t))
      (State.begin_fullFlush_of_empty ((s.holdBusy_eq_false_iff).1 hfree).1 rfl hempty)

/-- Settles O33. -/
theorem softResetResumeResetsContexts : Obligations.SoftResetResumeResetsContexts := by
  intro s n hphase hrelease horders
  refine ⟨{ (s.softResetScans.resetCursors).raise (softResetDoneEvent n) with phase := .running, highWater := 0 }, ?_, rfl,
    fun i => s.softResetScans_get i, fun a => s.resetCursors_get a⟩
  show execSoftResetResume s = _
  rw [execSoftResetResume, hphase]
  dsimp only
  rw [hrelease, horders]
  rfl

end Sys2Proof.Machine
end

