-- ==== Sys2Proof/Proofs/ResetAndSaves.lean ====
section
/-! PROOF. The values after power-on, the fall of RESETN (R160), a save from its command to its end (R155 to R157), and the
channels that a phase or work keeps shut (R50, R98, R110). -/

namespace Sys2Proof.Machine

/-! Reset -/

theorem reset_slots (k : SlotIx) : State.reset.slotStatus k = .blank ∧ State.reset.slotUses k = 0 := by
  obtain ⟨a, ha⟩ | ⟨i, hi⟩ | h12 := SlotIx.names k
  · rw [State.slotStatus_aperture _ ha, State.slotUses_aperture _ ha,
      show State.reset.apSlots[a] = Slot.blank from Vector.getElem_replicate a.isLt]
    exact ⟨rfl, rfl⟩
  · rw [State.slotStatus_surface _ hi, State.slotUses_surface _ hi,
      show State.reset.sfSlots[i] = Slot.blank from Vector.getElem_replicate i.isLt]
    exact ⟨rfl, rfl⟩
  · rw [State.slotStatus_settings _ h12, State.slotUses_settings _ h12]
    exact ⟨rfl, rfl⟩

/-- Settles O8: each table by its one value, the mask kind by kind. -/
theorem resetValues : Obligations.ResetValues :=
  ⟨rfl, rfl, fun k => by cases k <;> rfl, rfl, rfl, rfl,
    fun i => ⟨State.reset_surfaces_get i, State.reset_scans_get i⟩,
    fun a => ⟨State.reset_apertures_get a, Vector.getElem_replicate a.isLt⟩,
    rfl, rfl, rfl, State.reset_table_get, rfl, rfl, rfl, rfl, reset_slots, rfl⟩

/-! The fall of RESETN (R50, R153, R160) -/

theorem exec_resetnFall {s : State} (h : s.resetnHigh = true) : exec .resetnFall s = .next s.lineReset := by
  show Host.Outcome.next (if _ then _ else _) = _
  rw [if_pos h]

theorem Port.cut_eq (p : Port) : p.cut = if p = .idle then .idle else .ignored := by
  cases p with
  | idle => rfl
  | receiving l => rfl
  | ignored => rfl
  | responding l m => rfl

/-- Settles O10. -/
theorem resetnFallAbandonsWork : Obligations.ResetnFallAbandonsWork := by
  intro s hhigh
  obtain ⟨hmode, hsurfaces, hcursors, hevents, hseq, hmask, hwrite, hread, hsaving⟩ := s.lineReset_same
  exact ⟨s.lineReset, exec_resetnFall hhigh, rfl, rfl, rfl, rfl, rfl, rfl, rfl, rfl, rfl, rfl, s.lineReset_table_get, rfl,
    rfl, rfl, rfl, rfl, s.lineReset_scans_get, s.lineReset_apertures_get, hsaving, s.port.cut_eq, hevents, hseq, hmask, hmode,
    hsurfaces, hcursors, hwrite, hread⟩

/-! Saves (R155 to R157) -/

theorem exec_profileSave {s : State} (hrunning : s.phase = .running) (b : Byte) :
    exec (.profileSave b) s = .next ((s.profileSave b).sent [0x60, b]) :=
  exec_next_congr (State.command_takes hrunning (.profileSave b) true rfl rfl _)

theorem slotIx_eq_none {b : Byte} (h : 12 < b.toNat) : slotIx b = none := by
  rw [slotIx, dif_neg (by omega)]

theorem State.profileSave_of_none {s : State} {b : Byte} (hsaving : s.saving = none) (h : slotIx b = none) :
    s.profileSave b = s.refuse .range := by
  rw [State.profileSave, hsaving, h]
  rfl

theorem State.profileSave_of_some {s : State} {b : Byte} {k : SlotIx} (hsaving : s.saving = none) (h : slotIx b = some k) :
    s.profileSave b = if 3 ≤ s.slotUses k then s.refuse .exhausted else (s.saveSlot k).done := by
  rw [State.profileSave, hsaving, h]
  rfl

/-- Where a save is cut, its slot is DAMAGED, every use count is as it was, and so is every image. -/
theorem State.abortSave_cut {s : State} {k : SlotIx} (hsaving : s.saving = some k) (huses : s.slotUses k ≠ 0) {t : State}
    (hap : t.apSlots = s.abortSave.apSlots) (hsf : t.sfSlots = s.abortSave.sfSlots) (hset : t.setSlot = s.abortSave.setSlot) :
    t.slotStatus k = .damaged ∧ (∀ j, t.slotUses j = s.slotUses j) ∧ (∀ j, j ≠ k → t.slotStatus j = s.slotStatus j)
      ∧ ImagesKept s t := by
  refine ⟨?_, fun j => ?_, fun j hjk => ?_, ?_⟩
  · rw [State.slotStatus_congr hap hsf hset, State.abortSave_slotStatus, if_pos hsaving, if_neg huses]
  · rw [State.slotUses_congr hap hsf hset, State.abortSave_slotUses]
  · rw [State.slotStatus_congr hap hsf hset, State.abortSave_slotStatus, if_neg]
    rw [hsaving, Option.some.injEq]
    exact hjk.symm
  · obtain ⟨himagesAp, himagesSf, himageSet⟩ := s.abortSave_imagesKept
    rw [ImagesKept, hap, hsf, hset]
    exact ⟨himagesAp, himagesSf, himageSet⟩

theorem exec_profileProgrammingComplete {s : State} {k : SlotIx} (hsaving : s.saving = some k) (ok : Bool) :
    exec (.profileProgrammingComplete ok) s
      = .next (State.raise { s.setSlotCheck k ok with saving := none } (profileDoneEvent k ok)) := by
  show execProfileProgrammingComplete ok s = _
  rw [execProfileProgrammingComplete, hsaving]

/-- Settles O30: the checks of the command, and the three ends of a save. -/
theorem profileSaveStartsAndEnds : Obligations.ProfileSaveStartsAndEnds := by
  refine ⟨fun s b hrunning => ⟨fun hsaving => ?_, fun hsaving hb => ?_, fun k hsaving hb huses => ?_,
    fun k hsaving hb huses => ?_⟩, fun s k hsaving huses => ⟨fun ok => ?_, ?_, fun hhigh => ?_⟩⟩
  · rw [exec_profileSave hrunning, State.profileSave, if_pos (Option.isSome_iff_ne_none.2 hsaving)]
    rfl
  · rw [exec_profileSave hrunning, State.profileSave_of_none hsaving (slotIx_eq_none hb)]
    rfl
  · rw [exec_profileSave hrunning, State.profileSave_of_some hsaving (slotIx_of_toNat b k hb), if_pos huses]
    rfl
  · have hsave : exec (.profileSave b) s = .next ((s.saveSlot k).setPort (.responding [0x60, b] [0x00])) := by
      rw [exec_profileSave hrunning, State.profileSave_of_some hsaving (slotIx_of_toNat b k hb), if_neg (Nat.not_le.2 huses)]
      rfl
    obtain ⟨hcount, hstatus⟩ := s.saveSlot_slot k
    obtain ⟨himagesAp, himagesSf, himageSet⟩ := s.saveSlot_images k
    refine ⟨_, hsave, ?_, hcount, hstatus, fun j hjk => s.saveSlot_other hjk, himagesAp, himagesSf, himageSet⟩
    exact congrArg (State.setPort · (.responding [0x60, b] [0x00])) (s.saveSlot_eq k)
  · refine ⟨_, exec_profileProgrammingComplete hsaving ok, rfl, ?_, fun j => s.setSlotCheck_slotUses k ok j, fun j hjk => ?_,
      s.setSlotCheck_imagesKept k ok, ?_, ?_⟩
    · exact (s.setSlotCheck_slotStatus k ok k).trans (by rw [if_pos rfl, if_neg huses])
    · exact (s.setSlotCheck_slotStatus k ok j).trans (if_neg hjk)
    · rw [s.setSlotCheck_eq k ok]
      rfl
    · rw [s.setSlotCheck_eq k ok]
      rfl
  · exact ⟨s.unpowered, rfl, rfl, rfl, State.abortSave_cut hsaving huses rfl rfl rfl⟩
  · obtain ⟨_, _, _, hevents, _, _, _, _, hnone⟩ := s.lineReset_same
    obtain ⟨hstatus, hcounts, hothers, himages⟩ := State.abortSave_cut hsaving huses (t := s.lineReset) rfl rfl rfl
    exact ⟨s.lineReset, exec_resetnFall hhigh, hnone, hstatus, hcounts, hothers, himages, hevents⟩

/-! Channels that are shut (R50, R98, R110) -/

theorem State.scannerBusy_eq_false_iff (s : State) : s.scannerBusy = false ↔
    (∀ (e : EntryIx) (en : Entry), s.table[e] = some en → ¬ (en.route = .scanner ∧ en.state = .issuing))
      ∧ (∀ rel, s.release = some rel →
          (∀ i e d, rel.work ≠ .step i e d ∧ rel.work ≠ .restart i e d) ∧ ∀ i, rel.work ≠ .finish i)
      ∧ ∀ i, .finish i ∉ s.orders := by
  rw [State.scannerBusy, Bool.or_eq_false_iff, Bool.or_eq_false_iff, List.any_eq_false, List.any_eq_false, and_assoc]
  refine and_congr ⟨fun h e en he => ?_, fun h e _ => ?_⟩ (and_congr ?_ ⟨fun h i hi => ?_, fun h o ho => ?_⟩)
  · have := h e (List.mem_finRange e)
    rw [State.entryIs, he] at this
    simpa using this
  · rw [State.entryIs]
    cases he : s.table[e] with
    | none => exact Bool.false_ne_true
    | some en => simpa using h e en he
  · match s.release with
    | none => simp
    | some ⟨.step j e d, n, l⟩ => simp
    | some ⟨.restart j e d, n, l⟩ => simp
    | some ⟨.finish j, n, l⟩ => simp
    | some ⟨.stall j, n, l⟩ => simp
    | some ⟨.fullFlush, n, l⟩ => simp
  · exact absurd rfl (h _ hi)
  · cases o with
    | finish i => exact absurd ho (h i)
    | stall i => exact Bool.false_ne_true
    | fullFlush => exact Bool.false_ne_true

theorem State.readOpen_iff (s : State) : s.readOpen = true ↔ s.phase = .running ∧ s.refusedRead = none
    ∧ s.scannerBusy = false := by
  simp only [State.readOpen, Bool.and_eq_true, beq_iff_eq, Option.isNone_iff_eq_none, Bool.not_eq_true', and_assoc]

/-- What keeps a request from being the head one is the other request that stands there. -/
theorem getD_of_other {α : Type} [DecidableEq α] {head : Option α} {r : α} (h : (head.isSome && head != some r) = true) :
    some (head.getD r) = head := by
  cases head with
  | none => cases h
  | some x => rfl

theorem getD_of_not_other {α : Type} [DecidableEq α] {head : Option α} {r : α} (h : ¬ (head.isSome && head != some r) = true) :
    head.getD r = r := by
  cases head with
  | none => rfl
  | some x => simpa using h

/-- Settles O31. -/
theorem requestsWaitWhileTheirChannelIsShut : Obligations.RequestsWaitWhileTheirChannelIsShut := by
  refine ⟨fun s => ⟨s.writeOpen_iff, ?_⟩, fun s hoff hshut => ⟨fun w => ?_, ?_⟩, fun s hoff hshut => ⟨fun r pick => ?_,
    fun pick => ?_⟩⟩
  · rw [s.readOpen_iff, s.scannerBusy_eq_false_iff]
  · show Host.Outcome.next (s.headWriteArrives w) = _
    rw [State.headWriteArrives, if_neg (by rw [beq_iff_eq]; exact hoff)]
    split
    · rename_i hother
      rw [getD_of_other hother]
    · rename_i hother
      rw [hshut, if_neg Bool.false_ne_true, getD_of_not_other hother]
  · show Host.Outcome.next _ = _
    cases hhead : s.headWrite with
    | none => rfl
    | some w => dsimp only; rw [hshut, if_neg Bool.false_ne_true]
  · show Host.Outcome.next (s.headReadArrives r pick) = _
    rw [State.headReadArrives, if_neg (by rw [beq_iff_eq]; exact hoff)]
    split
    · rename_i hother
      rw [getD_of_other hother]
    · rename_i hother
      rw [hshut, if_neg Bool.false_ne_true, getD_of_not_other hother]
  · show Host.Outcome.next _ = _
    cases hhead : s.headRead with
    | none => rfl
    | some r => dsimp only; rw [hshut, if_neg Bool.false_ne_true]

end Sys2Proof.Machine
end

