-- ==== Sys2Proof/Proofs/Placements.lean ====
section
/-! PROOF. Where pixels land: the orientation of a view (R54, R55), the band (R93), the cursor in its window (R69), and the
placement lists entry by entry (R56, R68). -/

namespace Sys2Proof.Machine

/-! Orientation (R54, R55) -/

theorem placeAt_eq (f : ApertureFields) (r : SurfaceRec) (x y : Nat) :
    let x' := if f.flipH then (if f.exchange then r.height else r.width) - 1 - x else x
    let y' := if f.flipV then (if f.exchange then r.width else r.height) - 1 - y else y
    let row := if f.exchange then x' else y'
    let col := if f.exchange then y' else x'
    placeAt f r x y = ⟨x, y, row, col, r.base.toNat + row * r.pitch + col * (if r.format = .s16 then 2 else 4)⟩ := by
  rw [← StoredFormat.size_eq]
  rfl

/-- A flip of `n` positions. -/
theorem flip_lt {flip : Bool} {n x : Nat} (h : x < n) : (if flip = true then n - 1 - x else x) < n := by
  split <;> omega

theorem flip_injective {flip : Bool} {n x x' : Nat} (h : x < n) (h' : x' < n)
    (heq : (if flip = true then n - 1 - x else x) = if flip = true then n - 1 - x' else x') : x = x' := by
  split at heq <;> omega

theorem placeAt_inside (f : ApertureFields) (r : SurfaceRec) {x y : Nat} (hx : x < viewWidth f r) (hy : y < viewHeight f r) :
    (placeAt f r x y).row < r.height ∧ (placeAt f r x y).col < r.width := by
  have hx' := flip_lt (flip := f.flipH) hx
  have hy' := flip_lt (flip := f.flipV) hy
  simp only [placeAt]
  cases he : f.exchange with
  | false =>
    simp only [viewWidth, viewHeight, he, Bool.false_eq_true, if_false] at hx' hy' ⊢
    exact ⟨hy', hx'⟩
  | true =>
    simp only [viewWidth, viewHeight, he, if_true] at hx' hy' ⊢
    exact ⟨hx', hy'⟩

theorem placeAt_injective (f : ApertureFields) (r : SurfaceRec) {x y x' y' : Nat} (hx : x < viewWidth f r)
    (hy : y < viewHeight f r) (hx' : x' < viewWidth f r) (hy' : y' < viewHeight f r)
    (hrow : (placeAt f r x y).row = (placeAt f r x' y').row) (hcol : (placeAt f r x y).col = (placeAt f r x' y').col) :
    x = x' ∧ y = y' := by
  simp only [placeAt] at hrow hcol
  cases he : f.exchange with
  | false =>
    simp only [he, Bool.false_eq_true, if_false] at hrow hcol
    exact ⟨flip_injective hx hx' hcol, flip_injective hy hy' hrow⟩
  | true =>
    simp only [he, if_true] at hrow hcol
    exact ⟨flip_injective hx hx' hrow, flip_injective hy hy' hcol⟩

/-! Bands (R93) -/

theorem rotate_eq {x o h : Nat} (hx : x < h) (ho : o < h) : (x + o) % h = if x + o < h then x + o else x + o - h := by
  split
  · exact Nat.mod_eq_of_lt ‹_›
  · rw [Nat.mod_eq_sub_mod (by omega), Nat.mod_eq_of_lt (by omega)]

theorem rotateBack_eq {x o h : Nat} (hx : x < h) (ho : o < h) : (x + h - o) % h = if o ≤ x then x - o else x + h - o := by
  split
  · rw [Nat.mod_eq_sub_mod (by omega), Nat.mod_eq_of_lt (by omega)]
    omega
  · exact Nat.mod_eq_of_lt (by omega)

theorem SurfaceRec.bandOk_iff (r : SurfaceRec) (b : Band) : r.bandOk b = true ↔ 2 ≤ b.height
    ∧ b.height ≤ r.lastRow - r.firstRow + 1 ∧ b.offset < b.height ∧ r.firstRow ≤ b.top
    ∧ b.top + b.height - 1 ≤ r.lastRow := by
  simp only [SurfaceRec.bandOk, Bool.and_eq_true, decide_eq_true_eq, and_assoc]

theorem SurfaceRec.inScanRange_iff (r : SurfaceRec) (n : Nat) : r.inScanRange n = true ↔ r.firstRow ≤ n ∧ n ≤ r.lastRow := by
  simp only [SurfaceRec.inScanRange, Bool.and_eq_true, decide_eq_true_eq]

theorem Band.covers_iff (b : Band) (n : Nat) : b.covers n = true ↔ b.top ≤ n ∧ n < b.top + b.height := by
  simp only [Band.covers, Bool.and_eq_true, decide_eq_true_eq]

theorem memoryRow_of_covered {b : Band} {n : Nat} (h : b.covers n = true) (ho : b.offset < b.height) :
    memoryRow (some b) n
      = b.top + if n - b.top + b.offset < b.height then n - b.top + b.offset else n - b.top + b.offset - b.height := by
  obtain ⟨htop, hbottom⟩ := (b.covers_iff n).1 h
  rw [memoryRow, if_pos h, rotate_eq (by omega) ho]

theorem displayRow_of_covered {b : Band} {n : Nat} (h : b.covers n = true) (ho : b.offset < b.height) :
    displayRow (some b) n
      = b.top + if b.offset ≤ n - b.top then n - b.top - b.offset else n - b.top + b.height - b.offset := by
  obtain ⟨htop, hbottom⟩ := (b.covers_iff n).1 h
  rw [displayRow, if_pos h, rotateBack_eq (by omega) ho]

theorem memoryRow_of_not_covered {b : Band} {n : Nat} (h : ¬ b.covers n = true) : memoryRow (some b) n = n := if_neg h

theorem displayRow_of_not_covered {b : Band} {n : Nat} (h : ¬ b.covers n = true) : displayRow (some b) n = n := if_neg h

theorem memoryRow_covered {b : Band} {n : Nat} (h : b.covers n = true) (ho : b.offset < b.height) :
    b.covers (memoryRow (some b) n) = true := by
  rw [memoryRow_of_covered h ho, Band.covers_iff]
  have := (b.covers_iff n).1 h
  split <;> omega

theorem displayRow_covered {b : Band} {n : Nat} (h : b.covers n = true) (ho : b.offset < b.height) :
    b.covers (displayRow (some b) n) = true := by
  rw [displayRow_of_covered h ho, Band.covers_iff]
  have := (b.covers_iff n).1 h
  split <;> omega

theorem displayRow_memoryRow {b : Band} (ho : b.offset < b.height) (n : Nat) :
    displayRow (some b) (memoryRow (some b) n) = n := by
  by_cases h : b.covers n = true
  · have hn := (b.covers_iff n).1 h
    rw [displayRow_of_covered (memoryRow_covered h ho) ho, memoryRow_of_covered h ho]
    split <;> split <;> omega
  · rw [memoryRow_of_not_covered h, displayRow_of_not_covered h]

theorem memoryRow_displayRow {b : Band} (ho : b.offset < b.height) (n : Nat) :
    memoryRow (some b) (displayRow (some b) n) = n := by
  by_cases h : b.covers n = true
  · have hn := (b.covers_iff n).1 h
    rw [memoryRow_of_covered (displayRow_covered h ho) ho, displayRow_of_covered h ho]
    split <;> split <;> omega
  · rw [displayRow_of_not_covered h, memoryRow_of_not_covered h]

theorem SurfaceRec.inScanRange_of_covered {r : SurfaceRec} {b : Band} (hb : r.bandOk b = true) {n : Nat}
    (h : b.covers n = true) : r.inScanRange n = true := by
  obtain ⟨-, -, -, hfirst, hlast⟩ := (r.bandOk_iff b).1 hb
  have := (b.covers_iff n).1 h
  exact (r.inScanRange_iff n).2 (by omega)

/-- Settles O54: flips are one to one in their range, and a band rotates the rows that it covers. -/
theorem orientationAndBandAreOneToOne : Obligations.OrientationAndBandAreOneToOne := by
  refine ⟨placeAt_eq, fun f r x y x' y' hx hy hx' hy' => ?_, fun r b n hb => ?_⟩
  · obtain ⟨hrow, hcol⟩ := placeAt_inside f r hx hy
    exact ⟨hrow, hcol, placeAt_injective f r hx hy hx' hy'⟩
  · obtain ⟨htwo, -, ho, -, -⟩ := (r.bandOk_iff b).1 hb
    have hcovers : b.covers n = true ↔ b.top ≤ n ∧ n ≤ b.top + b.height - 1 := by rw [b.covers_iff]; omega
    refine ⟨?_, ?_, displayRow_memoryRow ho n, memoryRow_displayRow ho n, ?_, ?_, fun hzero => ?_, rfl, rfl⟩
    · simp only [memoryRow, hcovers]
    · simp only [displayRow, hcovers]
    · by_cases h : b.covers n = true
      · rw [SurfaceRec.inScanRange_of_covered hb h, SurfaceRec.inScanRange_of_covered hb (displayRow_covered h ho)]
      · rw [displayRow_of_not_covered h]
    · by_cases h : b.covers n = true
      · rw [SurfaceRec.inScanRange_of_covered hb h, SurfaceRec.inScanRange_of_covered hb (memoryRow_covered h ho)]
      · rw [memoryRow_of_not_covered h]
    · by_cases h : b.covers n = true
      · have hn := (b.covers_iff n).1 h
        rw [memoryRow_of_covered h ho, hzero]
        split <;> omega
      · exact memoryRow_of_not_covered h

/-! The cursor (R69) -/

theorem Cursor.advance_of_exhausted {c : Cursor} (h : c.exhausted = true) (w : Window) (ov : Overflow) : c.advance w ov = c := by
  rw [Cursor.advance, if_pos h]

theorem cursorAfter_of_exhausted (w : Window) (ov : Overflow) (n : Nat) {c : Cursor} (h : c.exhausted = true) :
    cursorAfter w ov n c = c := by
  induction n with
  | zero => rfl
  | succ n ih => rw [cursorAfter, c.advance_of_exhausted h, ih]

theorem cursorAfter_succ (w : Window) (ov : Overflow) (n : Nat) (c : Cursor) :
    cursorAfter w ov (n + 1) c = (cursorAfter w ov n c).advance w ov := by
  induction n generalizing c with
  | zero => rfl
  | succ n ih => exact ih (c.advance w ov)

theorem Cursor.advance_of_running {c : Cursor} (h : c.exhausted = false) (w : Window) (ov : Overflow) :
    c.advance w ov = if c.col < w.colLast then { c with col := c.col + 1 }
      else if c.row < w.rowLast then { c with col := w.colFirst, row := c.row + 1 }
      else { c with col := w.colFirst, row := w.rowFirst, exhausted := ov == .discard } := by
  rw [Cursor.advance, h, if_neg Bool.false_ne_true]
  rfl

theorem divMod_succ_of_lt {k n : Nat} (h : k % n + 1 < n) : (k + 1) / n = k / n ∧ (k + 1) % n = k % n + 1 := by
  refine (Nat.div_mod_unique (by omega)).2 ⟨?_, h⟩
  have := Nat.mod_add_div k n
  omega

theorem divMod_succ_of_last {k n : Nat} (hn : 0 < n) (h : k % n + 1 = n) : (k + 1) / n = k / n + 1 ∧ (k + 1) % n = 0 := by
  refine (Nat.div_mod_unique hn).2 ⟨?_, hn⟩
  have := Nat.mod_add_div k n
  rw [Nat.mul_add]
  omega

/-- The pass of a window, row by row. -/
theorem cursorAfter_start {w : Window} (hcol : w.colFirst ≤ w.colLast) (hrow : w.rowFirst ≤ w.rowLast) (ov : Overflow) (k : Nat)
    (hk : k < (w.colLast - w.colFirst + 1) * (w.rowLast - w.rowFirst + 1)) :
    cursorAfter w ov k (Cursor.start w)
      = ⟨w.colFirst + k % (w.colLast - w.colFirst + 1), w.rowFirst + k / (w.colLast - w.colFirst + 1), false, false⟩ := by
  induction k with
  | zero => simp [cursorAfter, Cursor.start]
  | succ k ih =>
    rw [cursorAfter_succ, ih (by omega), Cursor.advance_of_running rfl]
    dsimp only
    have hmod := Nat.mod_lt k (show 0 < w.colLast - w.colFirst + 1 by omega)
    by_cases hlast : k % (w.colLast - w.colFirst + 1) + 1 < w.colLast - w.colFirst + 1
    · obtain ⟨hdiv, hmod'⟩ := divMod_succ_of_lt hlast
      rw [if_pos (by omega), hdiv, hmod']
      rfl
    · obtain ⟨hdiv, hmod'⟩ := divMod_succ_of_last (n := w.colLast - w.colFirst + 1) (k := k) (by omega) (by omega)
      have hrows : (k + 1) / (w.colLast - w.colFirst + 1) < w.rowLast - w.rowFirst + 1 := Nat.div_lt_of_lt_mul hk
      rw [if_neg (by omega), if_pos (by omega), hdiv, hmod']
      rfl

/-- Settles O55: row by row to the last position, and what comes behind it. -/
theorem cursorPassesWindow : Obligations.CursorPassesWindow := by
  intro w ov hcol hrow
  refine ⟨fun n c h => cursorAfter_of_exhausted w ov n h, fun c => rfl, fun n c h => ?_, ?_,
    cursorAfter_start hcol hrow ov⟩
  · rw [cursorAfter, Cursor.advance_of_running h]
  · have hlast : (w.colLast - w.colFirst + 1) * (w.rowLast - w.rowFirst + 1)
        = (w.colLast - w.colFirst + (w.colLast - w.colFirst + 1) * (w.rowLast - w.rowFirst)) + 1 := by
      rw [Nat.mul_add]; omega
    obtain ⟨hdiv, hmod⟩ := (Nat.div_mod_unique (a := w.colLast - w.colFirst + (w.colLast - w.colFirst + 1) * (w.rowLast - w.rowFirst))
      (show 0 < w.colLast - w.colFirst + 1 by omega)).2 ⟨rfl, Nat.lt_succ_self _⟩
    rw [hlast, cursorAfter_succ, cursorAfter_start hcol hrow ov _ (by omega), hdiv, hmod, Cursor.advance_of_running rfl]
    dsimp only
    rw [if_neg (by omega), if_neg (by omega)]

/-! Placement lists (R56, R68) -/

theorem cursorWalk_eq (w : Window) (ov : Overflow) (n : Nat) (c : Cursor) :
    cursorWalk w ov n c = (List.range n).map fun k =>
      if (cursorAfter w ov k c).exhausted then none else some ((cursorAfter w ov k c).col, (cursorAfter w ov k c).row) := by
  induction n generalizing c with
  | zero => rfl
  | succ n ih =>
    rw [cursorWalk, ih, List.range_succ_eq_map, List.map_cons, List.map_map]
    rfl

theorem streamCursor_write (f : ApertureFields) (w : WriteReq) (c : Cursor) :
    streamCursor f (writeAccess w) c = cursorFor f w.addr c := by
  simp only [streamCursor, inRestartRegion, decide_eq_true_eq]
  rfl

theorem streamCursor_read (f : ApertureFields) (r : ReadReq) (c : Cursor) :
    streamCursor f (readAccess r) c = cursorFor f r.addr c := by
  simp only [streamCursor, inRestartRegion, decide_eq_true_eq]
  rfl

/-- The stream placement list, pixel by pixel (R68). -/
theorem streamPlacement_eq (f : ApertureFields) (r : SurfaceRec) (q : Access) (addr : Addr) (c : Cursor)
    (hstart : streamCursor f q c = cursorFor f addr c) :
    streamPlacement f r q c = (List.range (pixelCount f q)).map fun k =>
      ⟨none, k * f.format.size, if (cursorMet f addr c k).exhausted then none
        else some (placeAt f r (cursorMet f addr c k).col (cursorMet f addr c k).row)⟩ := by
  rw [streamPlacement, hstart, cursorWalk_eq]
  refine List.ext_getElem? fun k => ?_
  rw [List.getElem?_mapIdx, List.getElem?_map, List.getElem?_map]
  by_cases hk : k < pixelCount f q
  · rw [List.getElem?_range hk]
    have hmet : cursorAfter f.window f.overflow k (cursorFor f addr c) = cursorMet f addr c k := rfl
    simp only [Option.map_some, hmet]
    obtain ⟨col, row, exhausted, dropped⟩ := cursorMet f addr c k
    cases exhausted <;> rfl
  · rw [List.getElem?_eq_none (by rw [List.length_range]; omega)]
    rfl

end Sys2Proof.Machine
end

