-- ==== Sys2Proof/Proofs/WriteCommands.lean ====
section
/-! PROOF. The write at the head of the write channel (Chapters 3 and 8): how its fragments are decided, what its consideration
does by route, and what its acceptance does to cursors and events. -/

namespace Sys2Proof.Machine

/-! Hold decisions (R111) -/

theorem State.decideAll_cons_of_held (s : State) (earlier : List Frag) {f : Frag} (fs : List Frag)
    (h : s.holdDecision earlier f = true) :
    s.decideAll earlier (f :: fs) = ⟨true, f⟩ :: s.decideAll (earlier ++ [f]) fs := by
  simp only [State.decideAll, h, if_true]

theorem State.decideAll_cons_of_direct (s : State) (earlier : List Frag) {f : Frag} (fs : List Frag)
    (h : s.holdDecision earlier f = false) :
    s.decideAll earlier (f :: fs) = ⟨false, f⟩ :: s.decideAll earlier fs := by
  simp only [State.decideAll, h, Bool.false_eq_true, if_false]

theorem State.rowAhead_of_scanning {s : State} {f : Frag} (hscanning : s.scans[f.surface].state = .scanning)
    (hrow : s.surfaces[f.surface].inScanRange f.row = true) :
    s.rowAhead f.surface f.row = if s.scans[f.surface].c ≤ displayRow s.scans[f.surface].active f.row then true else false := by
  rw [State.rowAhead, hscanning, hrow]
  simp

theorem State.holdDecision_eq (s : State) (earlier : List Frag) (f : Frag) :
    s.holdDecision earlier f =
      (if s.surfaces[f.surface].policy = .pass ∨ s.surfaces[f.surface].scanner = none then false
      else if s.scans[f.surface].state ≠ .scanning then false
      else if f.row < s.surfaces[f.surface].firstRow ∨ s.surfaces[f.surface].lastRow < f.row then false
      else if ∃ g ∈ s.queue ++ earlier, g.surface = f.surface ∧ g.row = f.row then true
      else if s.scans[f.surface].c ≤ displayRow s.scans[f.surface].active f.row then true
      else false) := by
  have hsame : (sameRow s.queue f || sameRow earlier f) = true ↔ ∃ g ∈ s.queue ++ earlier, g.surface = f.surface ∧ g.row = f.row := by
    rw [Bool.or_eq_true, sameRow_iff, sameRow_iff]
    simp only [List.mem_append, or_and_right, exists_or]
  have hrange : (!s.surfaces[f.surface].inScanRange f.row) = true
      ↔ f.row < s.surfaces[f.surface].firstRow ∨ s.surfaces[f.surface].lastRow < f.row := by
    rw [Bool.not_eq_true', Bool.eq_false_iff, ne_eq, SurfaceRec.inScanRange_iff]
    omega
  rw [State.holdDecision]
  refine ite_congr (by rw [Bool.or_eq_true, beq_iff_eq, Option.isNone_iff_eq_none]) (fun _ => rfl) fun _ => ?_
  refine ite_congr (by rw [bne_iff_ne]) (fun _ => rfl) fun hscanning => ?_
  refine ite_congr (propext hrange) (fun _ => rfl) fun hrow => ?_
  refine ite_congr (propext hsame) (fun _ => rfl) fun _ => ?_
  refine State.rowAhead_of_scanning (not_not.1 hscanning) ?_
  rw [← hrange, Bool.not_eq_true', Bool.not_eq_false] at hrow
  exact hrow

/-- Settles O38: line by line, fragment by fragment, and by the hold law. -/
theorem holdDecisionTable : Obligations.HoldDecisionTable := by
  refine ⟨State.holdDecision_eq, fun s earlier => ⟨rfl, fun f fs => ⟨s.decideAll_cons_of_held earlier fs,
    s.decideAll_cons_of_direct earlier fs⟩⟩, fun ds => List.countP_eq_length_filter, fun s earlier f hhold hearlier => ?_⟩
  obtain ⟨hahead, -⟩ := hhold
  rw [State.holdDecision_eq_standsAhead hahead hearlier, State.standsAhead_iff, SurfaceRec.inScanRange_iff,
    Option.isSome_iff_ne_none]
  tauto

/-! Fragments that join, together -/

theorem State.foldl_join_highWater (l : List Frag) (s : State) : (l.foldl State.join s).highWater
    = if l = [] then s.highWater else max s.highWater (s.queue.length + l.length) := by
  induction l generalizing s with
  | nil => rfl
  | cons f fs ih =>
    rw [List.foldl_cons, ih, State.join_highWater, State.join_queue, if_neg (List.cons_ne_nil f fs)]
    split
    · rename_i hnil
      rw [hnil]
      rfl
    · simp only [List.length_append, List.length_cons, List.length_nil]
      omega

theorem State.foldl_join_apertures_get (l : List Frag) (s : State) (a : ApertureIx) : (l.foldl State.join s).apertures[a]
    = { s.apertures[a] with held := s.apertures[a].held + originCount a l } := by
  induction l generalizing s with
  | nil => rfl
  | cons f fs ih =>
    have hcount : originCount a (f :: fs) = originCount a [f] + originCount a fs := originCount_append a [f] fs
    obtain ⟨hstate, hfields⟩ := s.join_state_fields f a
    rw [List.foldl_cons, ih, State.join_held, hcount]
    dsimp only
    rw [hstate, hfields, Nat.add_assoc]

theorem State.foldl_join_eq (l : List Frag) (s : State) : l.foldl State.join s = { s with
    queue := (l.foldl State.join s).queue, highWater := (l.foldl State.join s).highWater
    apertures := (l.foldl State.join s).apertures } := by
  induction l generalizing s with
  | nil => rfl
  | cons f fs ih =>
    rw [List.foldl_cons]
    exact (ih _).trans (by rw [State.join_eq])

/-- What the handling of fragments `ds` leaves where no order waits (R60, R35): the held ones join up to the first that is
issued directly; behind the last one the write is answered. -/
structure Handled (s t : State) (q : Requester) (g : Tag) (ds : List PendingFrag) : Prop where
  queue : t.queue = s.queue ++ (ds.takeWhile (·.hold)).map (·.frag)
  highWater : t.highWater = if ds.takeWhile (·.hold) = [] then s.highWater else max s.highWater t.queue.length
  held : ∀ a : ApertureIx, t.apertures[a] = { s.apertures[a] with
    held := s.apertures[a].held + originCount a ((ds.takeWhile (·.hold)).map (·.frag)) }
  answered : ds.all (·.hold) = true → t.writeJob = none ∧ t.writeResp = some ⟨q, g, .okay⟩
  waiting : ds.all (·.hold) = false → t.writeResp = s.writeResp
    ∧ t.writeJob = some (.fragments q g (ds.dropWhile (·.hold)))
  same : t = { s with
    queue := t.queue, highWater := t.highWater, apertures := t.apertures, writeJob := t.writeJob, writeResp := t.writeResp }

theorem dropWhile_hold_eq_nil_iff (ds : List PendingFrag) : ds.dropWhile (·.hold) = [] ↔ ds.all (·.hold) = true := by
  rw [List.dropWhile_eq_nil_iff, List.all_eq_true]

theorem Handled.of_joined {s u t : State} {q : Requester} {g : Tag} {ds : List PendingFrag}
    (hu : u = ((ds.takeWhile (·.hold)).map (·.frag)).foldl State.join s)
    (ht : t = { u with writeJob := t.writeJob, writeResp := t.writeResp })
    (hanswered : ds.all (·.hold) = true → t.writeJob = none ∧ t.writeResp = some ⟨q, g, .okay⟩)
    (hwaiting : ds.all (·.hold) = false → t.writeResp = s.writeResp
      ∧ t.writeJob = some (.fragments q g (ds.dropWhile (·.hold)))) : Handled s t q g ds := by
  have hqueue : t.queue = s.queue ++ (ds.takeWhile (·.hold)).map (·.frag) := by
    rw [show t.queue = u.queue by rw [ht], hu]
    exact State.foldl_join_queue _ _
  refine ⟨hqueue, ?_, fun a => ?_, hanswered, hwaiting, ?_⟩
  · rw [hqueue, show t.highWater = u.highWater by rw [ht], hu]
    refine (State.foldl_join_highWater _ _).trans ?_
    rw [List.length_append]
    simp only [List.map_eq_nil_iff]
  · rw [show t.apertures = u.apertures by rw [ht], hu]
    exact State.foldl_join_apertures_get _ _ a
  · have hsame := State.foldl_join_eq ((ds.takeWhile (·.hold)).map (·.frag)) s
    rw [← hu] at hsame
    have hq : t.queue = u.queue := by rw [ht]
    have hh : t.highWater = u.highWater := by rw [ht]
    have ha : t.apertures = u.apertures := by rw [ht]
    rw [hq, hh, ha]
    exact ht.trans (congrArg (fun v : State => { v with writeJob := t.writeJob, writeResp := t.writeResp }) hsame)

theorem State.handle_handled {s : State} (horders : s.orders = []) (q : Requester) (g : Tag) (ds : List PendingFrag) :
    Handled s (State.handle q g ds s) q g ds := by
  have hhandle := State.handle_eq q g ds s
  dsimp only at hhandle
  have hjoined := State.foldl_join_eq ((ds.takeWhile (·.hold)).map (·.frag)) s
  generalize hu : ((ds.takeWhile (·.hold)).map (·.frag)).foldl State.join s = u at hhandle hjoined
  rw [hhandle]
  split
  · rename_i hnil
    have hall := (dropWhile_hold_eq_nil_iff ds).1 hnil
    have hnone : (u.answerWrite q g .okay).orders = [] := (show u.orders = s.orders by rw [hjoined]).trans horders
    rw [show State.takeOrders u.orders (u.answerWrite q g .okay) = u.answerWrite q g .okay from
      State.takeOrders_of_none _ hnone]
    exact .of_joined hu.symm rfl (fun _ => ⟨rfl, rfl⟩) fun hnot => absurd hall (by rw [hnot]; exact Bool.false_ne_true)
  · rename_i hcons
    refine .of_joined hu.symm rfl (fun hall => absurd ((dropWhile_hold_eq_nil_iff ds).2 hall) hcons) fun _ => ⟨?_, rfl⟩
    show u.writeResp = s.writeResp
    rw [hjoined]

/-! The consideration of a write (R34, R43) -/

theorem exec_considersWrite {c : Instr} {s : State} {w : WriteReq} (h : ConsidersWrite c s w) :
    exec c s = .next (s.considerWrite w) := by
  obtain ⟨hopen, ⟨rfl, hhead⟩ | ⟨rfl, hhead⟩⟩ := h
  · show Host.Outcome.next (s.headWriteArrives w) = _
    obtain ⟨hrunning, -⟩ := s.writeOpen_iff.1 hopen
    rw [State.headWriteArrives, hrunning, if_neg (by decide), if_neg, if_pos hopen]
    obtain hnone | hsome := hhead
    · rw [hnone]; exact Bool.false_ne_true
    · rw [hsome]; simp
  · show Host.Outcome.next _ = _
    rw [hhead]
    dsimp only
    rw [if_pos hopen]

theorem State.classify_write_ne_scanner (s : State) (w : WriteReq) (i : SurfaceIx) :
    s.classify (writeAccess w) ≠ .scanner i := fun h => nomatch (s.classify_scanner h).2.1

/-- A write that is given a plan is considered with it against the room of the hold queue. -/
theorem State.considerWrite_of_planned {s : State} {w : WriteReq} {p : Planned} (h : s.planOf w = some p) :
    s.considerWrite w = s.considerFrags w p.surface p.through p.plan := by
  rw [State.planOf] at h
  rw [State.considerWrite]
  cases hclass : s.classify (writeAccess w) with
  | malformed | refused unit detail | transparent | scanner i => rw [hclass] at h; cases h
  | mapped a | stream a | backing i => rw [hclass] at h; cases h; rfl

theorem State.freeEntries_eq (s : State) : s.freeEntries = 256 - s.queue.length := rfl

theorem State.answerWrite_of_free {s : State} (hjob : s.writeJob = none) (q : Requester) (t : Tag) (st : RespStatus) :
    s.answerWrite q t st = { s with writeResp := some ⟨q, t, st⟩ } := by
  rw [State.answerWrite, ← hjob]

/-- Settles O35. -/
theorem transparentRefusedAndWaitingWrites : Obligations.TransparentRefusedAndWaitingWrites := by
  intro c s w hconsiders
  obtain ⟨-, hjob, -, -⟩ := s.writeOpen_iff.1 hconsiders.1
  rw [exec_considersWrite hconsiders]
  refine ⟨fun hclass => ?_, fun unit detail hclass => ?_, fun hclass => ?_, fun p hp hfull => ⟨fun hepisode => ?_,
    fun hepisode => ?_⟩⟩
  · rw [State.considerWrite, hclass]
    rfl
  · rw [State.considerWrite, hclass]
    exact exec_next_congr (State.answerWrite_of_free
      (s := s.takeWrite.raise (refusedEvent w.addr w.requester unit detail)) hjob _ _ _)
  · rw [State.considerWrite, hclass]
    exact exec_next_congr (State.answerWrite_of_free (s := s.takeWrite) hjob _ _ _)
  · rw [State.considerWrite_of_planned hp, State.considerFrags_of_full _ _ _ _ _ hfull]
    refine exec_next_congr ?_
    simp only [hepisode, Bool.not_true, State.raiseIf, Bool.false_eq_true, if_false]
  · rw [State.considerWrite_of_planned hp, State.considerFrags_of_full _ _ _ _ _ hfull, hepisode]
    rfl

theorem State.acceptPlan_handled {s : State} (horders : s.orders = []) (w : WriteReq) (through : Option ApertureIx)
    (plan : WritePlan) : Handled (s.acceptPlan w through plan)
      (State.handle w.requester w.tag (s.decideAll [] plan.frags) (s.acceptPlan w through plan)) w.requester w.tag
      (s.decideAll [] plan.frags) :=
  State.handle_handled (by rw [State.acceptPlan_eq]; exact horders) _ _ _

/-- Settles O36: the handling of its fragments, in the state that the acceptance has prepared. -/
theorem acceptedWriteJoinsOrIssues : Obligations.AcceptedWriteJoinsOrIssues := by
  intro c s w p ds hconsiders hp hds hroom horders
  subst hds
  obtain ⟨-, -, hresp, -⟩ := s.writeOpen_iff.1 hconsiders.1
  rw [exec_considersWrite hconsiders, State.considerWrite_of_planned hp, State.considerFrags_of_room _ _ _ _ _ hroom]
  have haccepted := s.acceptPlan_eq w p.through p.plan
  obtain ⟨hqueue, hmark, hheld, hanswered, hwaiting, hsame⟩ := State.acceptPlan_handled horders w p.through p.plan
  generalize State.handle w.requester w.tag (s.decideAll [] p.plan.frags) (s.acceptPlan w p.through p.plan) = t at *
  generalize s.acceptPlan w p.through p.plan = u at *
  have hq : u.queue = s.queue := by rw [haccepted]
  have hm : u.highWater = s.highWater := by rw [haccepted]
  have ha : u.apertures = s.apertures := by rw [haccepted]
  have hr : u.writeResp = s.writeResp := by rw [haccepted]
  refine ⟨t, rfl, ?_, ?_, by rw [← hq]; exact hqueue, by rw [← hm]; exact hmark, fun a => by rw [← ha]; exact hheld a,
    hanswered, fun hnot => ⟨?_, (hwaiting hnot).2⟩, ?_⟩
  · exact (show t.headWrite = u.headWrite by rw [hsame]).trans (by rw [haccepted])
  · exact (show t.episode = u.episode by rw [hsame]).trans (by rw [haccepted])
  · exact (hwaiting hnot).1.trans (hr.trans hresp)
  · have hc : t.cursors = u.cursors := by rw [hsame]
    have he : t.events = u.events := by rw [hsame]
    have hn : t.seqCounter = u.seqCounter := by rw [hsame]
    rw [hc, he, hn]
    exact hsame.trans (congrArg (fun v : State => { v with
      queue := t.queue, highWater := t.highWater, apertures := t.apertures, writeJob := t.writeJob
      writeResp := t.writeResp }) haccepted)

/-! Pixels that are dropped (R57, R70, R88) -/

/-- A pixel's strobes are partial when some and not all of its bytes are strobed (R57). -/
theorem strobeClass_partially_iff (l : List WByte) : strobeClass l = .partially ↔ partly l = true := by
  have hnot : (l.any fun b => !b.strobe) = !l.all (·.strobe) := by simp [List.not_all_eq_any_not]
  have hsome : l.any (·.strobe) = !l.all fun b => !b.strobe := by simp [List.not_all_eq_any_not]
  rw [strobeClass, partly, hnot, hsome]
  cases l.all (·.strobe) with
  | true => simp
  | false => cases l.all fun b => !b.strobe with
    | true => simp
    | false => simp

theorem placedBytes_drops (kind : ApertureKind) (c : Conv) (l : List WByte) :
    (placedBytes kind c l).2 = (partly l && !(kind == .mapped && identityFormats c)) := by
  rw [placedBytes]
  cases hclass : strobeClass l with
  | full | none =>
    have hnot : partly l = false := by
      rw [Bool.eq_false_iff, ne_eq, ← strobeClass_partially_iff, hclass]
      nofun
    rw [hnot]
    rfl
  | partially =>
    rw [(strobeClass_partially_iff l).1 hclass]
    cases kind == .mapped && identityFormats c with
    | true => rfl
    | false => rfl

theorem pixelBytes_eq (w : WriteReq) (size k : Nat) : pixelBytes w (k * size) size = upstreamPixel w size k := by
  rw [Nat.mul_comm]
  rfl

/-! The cursor and the events of an acceptance (R67, R71, R89) -/

theorem any_range_map {α : Type} (n : Nat) (g : Nat → α) (p : α → Bool) :
    ((List.range n).map g).any p = (List.range n).any fun k => p (g k) := by
  rw [List.any_map]
  rfl

theorem any_and_right {α : Type} (l : List α) (p : α → Bool) (b : Bool) : (l.any fun x => p x && b) = (b && l.any p) := by
  cases b with
  | true => simp only [Bool.and_true, Bool.true_and]
  | false => simp

theorem dropsPartial_mapped {f : ApertureFields} (hkind : f.kind = .mapped) (r : SurfaceRec) (w : WriteReq) :
    dropsPartial f r w (mappedPlacement f r (writeAccess w)) = (decide (f.format.size ≠ r.format.size)
      && (List.range (8 * (w.lenM1.val + 1) / f.format.size)).any fun k => partly (upstreamPixel w f.format.size k)) := by
  have hidentity : (!(f.kind == .mapped && identityFormats (convOf f r))) = decide (f.format.size ≠ r.format.size) := by
    rw [hkind]
    by_cases h : f.format.size = r.format.size <;> simp [identityFormats, convOf, h]
  rw [dropsPartial, mappedPlacement]
  dsimp only
  rw [any_range_map, ← any_and_right]
  simp only [placedBytes_drops, hidentity, pixelBytes_eq, Option.isSome_some, Bool.true_and]
  rfl

/-- Whether a stream write meets an EXHAUSTED cursor (R71). -/
def streamExhausts (f : ApertureFields) (w : WriteReq) (c : Cursor) : Bool :=
  (List.range (8 * (w.lenM1.val + 1) / f.format.size)).any fun k => (cursorMet f w.addr c k).exhausted

/-- Whether a stream write drops a partly strobed pixel before exhaustion (R70). -/
def streamDrops (f : ApertureFields) (w : WriteReq) (c : Cursor) : Bool :=
  (List.range (8 * (w.lenM1.val + 1) / f.format.size)).any fun k =>
    !(cursorMet f w.addr c k).exhausted && partly (upstreamPixel w f.format.size k)

theorem isSome_ite_none {α : Type} (b : Bool) (x : α) : (if b then none else some x).isSome = !b := by cases b <;> rfl

theorem isNone_ite_none {α : Type} (b : Bool) (x : α) : (if b then none else some x).isNone = b := by cases b <;> rfl

theorem dropsPartial_stream {f : ApertureFields} (hkind : f.kind = .stream) (r : SurfaceRec) (w : WriteReq) (c : Cursor) :
    dropsPartial f r w (streamPlacement f r (writeAccess w) c) = streamDrops f w c := by
  rw [dropsPartial, streamPlacement_eq f r _ w.addr c (streamCursor_write f w c), any_range_map]
  simp only [placedBytes_drops, pixelBytes_eq, isSome_ite_none, hkind]
  simp only [show (ApertureKind.stream == ApertureKind.mapped) = false from rfl, Bool.false_and, Bool.not_false, Bool.and_true]
  rfl

theorem streamPlacement_exhausts (f : ApertureFields) (r : SurfaceRec) (w : WriteReq) (c : Cursor) :
    ((streamPlacement f r (writeAccess w) c).any fun e => e.place.isNone) = streamExhausts f w c := by
  rw [streamPlacement_eq f r _ w.addr c (streamCursor_write f w c), any_range_map]
  simp only [isNone_ite_none]
  rfl

/-- The cursor that a stream write leaves (R67, R69, R71). -/
def streamWriteCursor (f : ApertureFields) (w : WriteReq) (c : Cursor) : Cursor :=
  let after := cursorAfter f.window f.overflow (8 * (w.lenM1.val + 1) / f.format.size) (cursorFor f w.addr c)
  { after with dropReported := after.dropReported || streamExhausts f w c }

theorem streamWritePlan_cursor (a : ApertureIx) (f : ApertureFields) (r : SurfaceRec) (w : WriteReq) (c : Cursor) :
    (streamWritePlan a f r w c).cursor = some (streamWriteCursor f w c) := by
  rw [streamWritePlan]
  dsimp only
  rw [streamPlacement_exhausts, streamCursorAfter, streamCursor_write]
  rfl

theorem streamWritePlan_exhaustedDrop (a : ApertureIx) (f : ApertureFields) (r : SurfaceRec) (w : WriteReq) (c : Cursor) :
    (streamWritePlan a f r w c).exhaustedDrop = (streamExhausts f w c && !(cursorFor f w.addr c).dropReported) := by
  rw [streamWritePlan]
  dsimp only
  rw [streamPlacement_exhausts, streamCursor_write]

theorem State.acceptPlan_cursors_of_none (s : State) (w : WriteReq) (through : Option ApertureIx) {plan : WritePlan}
    (h : plan.cursor = none) : (s.acceptPlan w through plan).cursors = s.cursors := by
  cases through with
  | none => rfl
  | some a =>
    rw [State.acceptPlan, State.acceptThrough, h]
    simp

theorem State.acceptPlan_cursors_of_some (s : State) (w : WriteReq) (a : ApertureIx) {plan : WritePlan} {c : Cursor}
    (h : plan.cursor = some c) : (s.acceptPlan w (some a) plan).cursors = s.cursors.set a c := by
  rw [State.acceptPlan, State.acceptThrough, h]
  simp [State.setCursor]

/-- Numbering and storing depend on the event queue alone. -/
theorem State.raiseIf_events_congr {s t : State} (he : t.events = s.events) (hn : t.seqCounter = s.seqCounter) (c : Bool)
    (b : EventBody) : (t.raiseIf c b).events = (s.raiseIf c b).events ∧ (t.raiseIf c b).seqCounter = (s.raiseIf c b).seqCounter := by
  cases c with
  | false => exact ⟨he, hn⟩
  | true =>
    constructor <;> simp only [State.raiseIf, State.raise, if_true, he, hn]

theorem State.acceptPlan_events (s : State) (w : WriteReq) (a : ApertureIx) (plan : WritePlan) :
    (s.acceptPlan w (some a) plan).events = ((s.raiseIf plan.partialDrop (partialEvent a s.apertures[a].fields.kind w)).raiseIf
        plan.exhaustedDrop (exhaustedEvent a w)).events
      ∧ (s.acceptPlan w (some a) plan).seqCounter = ((s.raiseIf plan.partialDrop
        (partialEvent a s.apertures[a].fields.kind w)).raiseIf plan.exhaustedDrop (exhaustedEvent a w)).seqCounter := by
  rw [State.acceptPlan, State.acceptThrough]
  cases plan.cursor with
  | none =>
    obtain ⟨he, hn⟩ := State.raiseIf_events_congr (s := s) (t := s.takeWrite) rfl rfl plan.partialDrop
      (partialEvent a s.apertures[a].fields.kind w)
    exact State.raiseIf_events_congr he hn _ _
  | some c =>
    obtain ⟨he, hn⟩ := State.raiseIf_events_congr (s := s) (t := s.takeWrite.setCursor a c) rfl rfl plan.partialDrop
      (partialEvent a s.apertures[a].fields.kind w)
    exact State.raiseIf_events_congr he hn _ _

theorem State.planOf_mapped {s : State} {w : WriteReq} {p : Planned} (hp : s.planOf w = some p) {a : ApertureIx}
    (hclass : s.classify (writeAccess w) = .mapped a) :
    p = ⟨s.apertures[a].fields.surface, some a, mappedWritePlan a s.apertures[a].fields (s.surfaceOf a) w⟩ := by
  rw [State.planOf, hclass] at hp
  exact (Option.some.inj hp).symm

theorem State.planOf_stream {s : State} {w : WriteReq} {p : Planned} (hp : s.planOf w = some p) {a : ApertureIx}
    (hclass : s.classify (writeAccess w) = .stream a) :
    p = ⟨s.apertures[a].fields.surface, some a,
      streamWritePlan a s.apertures[a].fields (s.surfaceOf a) w s.cursors[a]⟩ := by
  rw [State.planOf, hclass] at hp
  exact (Option.some.inj hp).symm

theorem State.planOf_backing {s : State} {w : WriteReq} {p : Planned} (hp : s.planOf w = some p) {i : SurfaceIx}
    (hclass : s.classify (writeAccess w) = .backing i) : p = ⟨i, none, backingWritePlan i s.surfaces[i] w⟩ := by
  rw [State.planOf, hclass] at hp
  exact (Option.some.inj hp).symm

/-- Settles O37: what the acceptance prepares, route by route; the handling of the fragments touches neither. -/
theorem acceptedWriteCursorAndEvents : Obligations.AcceptedWriteCursorAndEvents := by
  intro c s w p hconsiders hp hroom horders
  rw [exec_considersWrite hconsiders, State.considerWrite_of_planned hp, State.considerFrags_of_room _ _ _ _ _ hroom]
  have hsame := (State.acceptPlan_handled horders w p.through p.plan).same
  refine ⟨_, rfl, ?_⟩
  rw [State.handOver_cursors, State.handOver_events, State.handOver_seqCounter]
  generalize State.handle w.requester w.tag (s.decideAll [] p.plan.frags) (s.acceptPlan w p.through p.plan) = t at *
  rw [show t.cursors = (s.acceptPlan w p.through p.plan).cursors by rw [hsame],
    show t.events = (s.acceptPlan w p.through p.plan).events by rw [hsame],
    show t.seqCounter = (s.acceptPlan w p.through p.plan).seqCounter by rw [hsame]]
  refine ⟨fun a hclass => ?_, fun a hclass => ?_, fun i hclass => ?_⟩
  · obtain ⟨-, hkind⟩ := s.classify_stream hclass
    obtain rfl := State.planOf_stream hp hclass
    dsimp only
    obtain ⟨he, hn⟩ := s.acceptPlan_events w a (streamWritePlan a s.apertures[a].fields (s.surfaceOf a) w s.cursors[a])
    rw [streamWritePlan_exhaustedDrop, show (streamWritePlan a s.apertures[a].fields (s.surfaceOf a) w s.cursors[a]).partialDrop
      = streamDrops s.apertures[a].fields w s.cursors[a] from dropsPartial_stream hkind _ _ _, hkind] at he hn
    exact ⟨s.acceptPlan_cursors_of_some w a (streamWritePlan_cursor _ _ _ _ _), he, hn⟩
  · obtain ⟨-, hkind⟩ := s.classify_mapped hclass
    obtain rfl := State.planOf_mapped hp hclass
    obtain ⟨he, hn⟩ := s.acceptPlan_events w a (mappedWritePlan a s.apertures[a].fields (s.surfaceOf a) w)
    rw [show (mappedWritePlan a s.apertures[a].fields (s.surfaceOf a) w).partialDrop = _ from dropsPartial_mapped hkind _ _,
      hkind] at he hn
    exact ⟨s.acceptPlan_cursors_of_none w (some a) rfl, he, hn⟩
  · obtain rfl := State.planOf_backing hp hclass
    exact ⟨rfl, rfl, rfl⟩

end Sys2Proof.Machine
end

