-- ==== Sys2Proof/Proofs/ReadCommands.lean ====
section
/-! PROOF. The read at the head of the read channel (Chapters 3, 7 and 9): refused, waiting, or accepted with its entry, and the
scan step of a scanner read. -/

namespace Sys2Proof.Machine

/-! Frames and steps (R95 to R97) -/

/-- The events of a frame opening (R104). -/
def State.frameEvents (s : State) (i : SurfaceIx) (req : ReadReq) (d : Nat) (restarted : Bool) : State :=
  (s.raiseIf restarted (frameEvent .scanRestart i req (s.scans[i].frame + 1) d)).raiseIf s.surfaces[i].notify
    (frameEvent .frameOpen i req (s.scans[i].frame + 1) d)

theorem State.frameEvents_congr {s t : State} (hevents : t.events = s.events) (hseq : t.seqCounter = s.seqCounter)
    (hscans : t.scans = s.scans) (hsurfaces : t.surfaces = s.surfaces) (i : SurfaceIx) (req : ReadReq) (d : Nat)
    (restarted : Bool) : (t.frameEvents i req d restarted).events = (s.frameEvents i req d restarted).events
      ∧ (t.frameEvents i req d restarted).seqCounter = (s.frameEvents i req d restarted).seqCounter := by
  rw [State.frameEvents, State.frameEvents, hscans, hsurfaces]
  obtain ⟨he, hn⟩ := State.raiseIf_events_congr hevents hseq restarted
    (frameEvent .scanRestart i req (s.scans[i].frame + 1) d)
  exact State.raiseIf_events_congr he hn _ _

theorem State.openFrame_touches (s : State) (i : SurfaceIx) (req : ReadReq) (d : Nat) (restarted : Bool) :
    s.openFrame i req d restarted = { s with
      scans := s.scans.set i (s.scans[i].openFrame s.surfaces[i] d)
      events := (s.frameEvents i req d restarted).events
      seqCounter := (s.frameEvents i req d restarted).seqCounter } := by
  rw [State.openFrame, State.frameEvents]
  cases restarted <;> cases s.surfaces[i].notify <;> rfl

/-- A frame opening for the scanner read in entry `e`, whose fragment reads are then formed under the new band (R95). -/
theorem State.openFrame_formScanner {s : State} {e : EntryIx} {en : Entry} (h : s.table[e] = some en) (i : SurfaceIx)
    (req : ReadReq) (d : Nat) (restarted : Bool) :
    (s.openFrame i req d restarted).formScanner i e = { s with
      scans := s.scans.set i (s.scans[i].openFrame s.surfaces[i] d)
      table := s.table.set e (some { en with reads := scannerReads s.surfaces[i] (appliedBand s.scans[i]) (readAccess en.req) })
      events := (s.frameEvents i req d restarted).events
      seqCounter := (s.frameEvents i req d restarted).seqCounter } := by
  rw [State.openFrame_touches]
  refine (State.formScanner_of_some { s with
    scans := s.scans.set i (s.scans[i].openFrame s.surfaces[i] d)
    events := (s.frameEvents i req d restarted).events
    seqCounter := (s.frameEvents i req d restarted).seqCounter } i h).trans ?_
  have hscan : (s.scans.set i (s.scans[i].openFrame s.surfaces[i] d))[i] = s.scans[i].openFrame s.surfaces[i] d :=
    Vector.getElem_set_self i.isLt
  simp only [State.setEntry, hscan]
  rfl

theorem State.complete_step_of_some {s : State} {e : EntryIx} {en : Entry} (h : s.table[e] = some en) (i : SurfaceIx)
    (d n : Nat) (l : List ApertureIx) :
    s.complete ⟨.step i e d, n, l⟩ = { s with
      release := none
      scans := s.scans.set i { s.scans[i] with c := d, timer := timerStart s.surfaces[i] }
      table := s.table.set e (some { en with reads := scannerReads s.surfaces[i] s.scans[i].active (readAccess en.req) }) } := by
  refine (State.formScanner_of_some (State.setScan { s with release := none } i (s.scans[i].stepTo s.surfaces[i] d)) i h).trans ?_
  have hscan : (s.scans.set i (s.scans[i].stepTo s.surfaces[i] d))[i] = s.scans[i].stepTo s.surfaces[i] d :=
    Vector.getElem_set_self i.isLt
  simp only [State.setEntry, State.setScan, hscan]
  rfl

theorem State.complete_step_of_none {s : State} {e : EntryIx} (h : s.table[e] = none) (i : SurfaceIx) (d n : Nat)
    (l : List ApertureIx) :
    s.complete ⟨.step i e d, n, l⟩ = { s with
      release := none
      scans := s.scans.set i { s.scans[i] with c := d, timer := timerStart s.surfaces[i] } } :=
  State.formScanner_of_none (State.setScan { s with release := none } i (s.scans[i].stepTo s.surfaces[i] d)) i h

theorem State.complete_restart_of_some {s : State} {e : EntryIx} {en : Entry} (h : s.table[e] = some en) (i : SurfaceIx)
    (d n : Nat) (l : List ApertureIx) :
    s.complete ⟨.restart i e d, n, l⟩ = { s with
      release := none
      scans := s.scans.set i (s.scans[i].openFrame s.surfaces[i] d)
      table := s.table.set e (some { en with reads := scannerReads s.surfaces[i] (appliedBand s.scans[i]) (readAccess en.req) })
      events := (s.frameEvents i en.req d true).events
      seqCounter := (s.frameEvents i en.req d true).seqCounter } := by
  have hopen := State.openFrame_formScanner (s := { s with release := none }) h i en.req d true
  rw [State.complete]
  simp only [h]
  refine hopen.trans ?_
  rw [State.frameEvents, State.frameEvents]
  cases s.surfaces[i].notify <;> rfl

theorem State.complete_restart_of_none {s : State} {e : EntryIx} (h : s.table[e] = none) (i : SurfaceIx) (d n : Nat)
    (l : List ApertureIx) : s.complete ⟨.restart i e d, n, l⟩ = { s with release := none } := by
  rw [State.complete]
  simp only [h]

theorem timerStart_eq (r : SurfaceRec) : timerStart r = if r.timeout = 0 then none else some (r.timeout * 400) := rfl

/-! The consideration of a read (R36) -/

theorem exec_considersRead {c : Instr} {s : State} {r : ReadReq} {pick : Nat} (h : ConsidersRead c s r pick) :
    exec c s = .next (s.considerRead r pick) := by
  obtain ⟨hopen, ⟨rfl, hhead⟩ | ⟨rfl, hhead⟩⟩ := h
  · show Host.Outcome.next (s.headReadArrives r pick) = _
    obtain ⟨hrunning, -⟩ := s.readOpen_iff.1 hopen
    rw [State.headReadArrives, hrunning, if_neg (by decide), if_neg, if_pos hopen]
    obtain hnone | hsome := hhead
    · rw [hnone]; exact Bool.false_ne_true
    · rw [hsome]; simp
  · show Host.Outcome.next _ = _
    rw [hhead]
    dsimp only
    rw [if_pos hopen]

/-- The routes of accepted reads (R43). -/
def Class.routed : Class → Prop
  | .malformed => False
  | .refused _ _ => False
  | _ => True

theorem State.considerRead_of_waits {s : State} {r : ReadReq} (hrouted : (s.classify (readAccess r)).routed)
    (hwaits : s.stepWaits (s.classify (readAccess r)) r = true) (pick : Nat) :
    s.considerRead r pick = { s with headRead := some r } := by
  rw [State.considerRead]
  cases hclass : s.classify (readAccess r) with
  | malformed | refused unit detail => rw [hclass] at hrouted; exact hrouted.elim
  | transparent | mapped a | stream a | backing i | scanner i =>
    rw [hclass] at hwaits
    exact if_pos hwaits

theorem State.considerRead_of_full {s : State} {r : ReadReq} (hrouted : (s.classify (readAccess r)).routed) {pick : Nat}
    (hpick : s.pickEntry pick = none) : s.considerRead r pick = { s with headRead := some r } := by
  rw [State.considerRead, hpick]
  cases hclass : s.classify (readAccess r) with
  | malformed | refused unit detail => rw [hclass] at hrouted; exact hrouted.elim
  | transparent | mapped a | stream a | backing i | scanner i => exact ite_self _

theorem State.considerRead_of_accepted {s : State} {r : ReadReq} {cls : Class} (hclass : s.classify (readAccess r) = cls)
    (hrouted : cls.routed) (hwaits : s.stepWaits cls r = false) {pick : Nat} {e : EntryIx} (hpick : s.pickEntry pick = some e) :
    s.considerRead r pick = (s.acceptRoute cls r e).handOver := by
  rw [State.considerRead, hclass, hpick]
  cases cls with
  | malformed | refused unit detail => exact hrouted.elim
  | transparent | mapped a | stream a | backing i | scanner i => exact if_neg (by rw [hwaits]; exact Bool.false_ne_true)

theorem State.pickEntry_eq_none {s : State} (h : ∀ e : EntryIx, s.table[e] ≠ none ∨ ∃ p, (e, p) ∈ s.abandonedTags)
    (pick : Nat) : s.pickEntry pick = none := by
  cases hpick : s.pickEntry pick with
  | none => rfl
  | some e =>
    obtain ⟨hfree, hfresh⟩ := State.pickEntry_some hpick
    obtain hused | ⟨p, hp⟩ := h e
    · exact absurd hfree hused
    · exact absurd rfl (hfresh _ hp)

theorem trackedRead_iff (r : SurfaceRec) (q : Access) : trackedRead r q = true ↔
    r.firstRow ≤ (q.low - r.base.toNat) / r.pitch ∧ (q.low - r.base.toNat) / r.pitch ≤ r.lastRow := by
  rw [trackedRead, SurfaceRec.inScanRange_iff]
  rfl

theorem trackedRead_eq_false {r : SurfaceRec} {q : Access}
    (h : (q.low - r.base.toNat) / r.pitch < r.firstRow ∨ r.lastRow < (q.low - r.base.toNat) / r.pitch) :
    trackedRead r q = false := by
  rw [Bool.eq_false_iff, ne_eq, trackedRead_iff]
  omega

/-- Settles O39. -/
theorem transparentRefusedAndWaitingReads : Obligations.TransparentRefusedAndWaitingReads := by
  intro c s r pick hconsiders
  rw [exec_considersRead hconsiders]
  refine ⟨fun e hclass hpick => ?_, fun unit detail hclass => ?_, fun hclass => ?_, fun hmalformed hrefused hnone => ?_,
    fun i hclass hbusy hfirst hlast => ?_⟩
  · rw [State.considerRead_of_accepted hclass trivial rfl hpick]
    rfl
  · rw [State.considerRead, hclass]
    rfl
  · rw [State.considerRead, hclass]
  · refine exec_next_congr (State.considerRead_of_full ?_ (State.pickEntry_eq_none hnone pick))
    cases hclass : s.classify (readAccess r) with
    | malformed => exact absurd hclass hmalformed
    | refused unit detail => exact absurd hclass (hrefused unit detail)
    | transparent | mapped a | stream a | backing i | scanner i => trivial
  · refine exec_next_congr (State.considerRead_of_waits ?_ ?_ pick)
    · rw [hclass]; trivial
    · rw [hclass, State.stepWaits, (trackedRead_iff _ _).2 ⟨hfirst, hlast⟩, hbusy]
      rfl

theorem newEntry_eq (req : ReadReq) (route : Route) (a : Option ApertureIx) (i : Option SurfaceIx) (conv : Option Conv)
    (placement : List PlaceEntry) (reads : List FragRead) :
    newEntry req route a i conv placement reads
      = ⟨req, route, a, i, conv, placement, reads, false, if reads = [] then .responding else .issuing⟩ := by
  cases reads <;> rfl

/-- Settles O40. -/
theorem apertureAndBackingReadsTaken : Obligations.ApertureAndBackingReadsTaken := by
  intro c s r pick e hconsiders hpick
  rw [exec_considersRead hconsiders]
  dsimp only
  refine ⟨(State.pickEntry_some hpick).1, fun a hclass => ?_, fun a hclass => ?_, fun i hclass => ?_⟩
  · rw [State.considerRead_of_accepted hclass trivial rfl hpick, State.acceptRoute, mappedEntry, newEntry_eq]
    rfl
  · rw [State.considerRead_of_accepted hclass trivial rfl hpick, State.acceptRoute, streamEntry, newEntry_eq]
    rfl
  · rw [State.considerRead_of_accepted hclass trivial rfl hpick, State.acceptRoute, newEntry_eq]
    rfl

/-! Scanner reads (R92 to R97) -/

theorem State.stepWaits_of_free {s : State} (hfree : s.holdBusy = false) (cls : Class) (r : ReadReq) :
    s.stepWaits cls r = false := by
  cases cls with
  | scanner i => exact (congrArg (trackedRead s.surfaces[i] (readAccess r) && ·) hfree).trans (Bool.and_false _)
  | malformed | refused unit detail | transparent | mapped a | stream a | backing i => rfl

theorem State.acceptRead_twice (s : State) (e : EntryIx) (en en' : Entry) :
    { s.acceptRead e en with table := (s.acceptRead e en).table.set e (some en') } = s.acceptRead e en' := by
  simp only [State.acceptRead, State.setEntry, Vector.set_set]

/-- What the entry of a scanner read holds once its fragment reads are formed under `band`. -/
theorem scannerEntry_formed (i : SurfaceIx) (r : ReadReq) (reads : List FragRead) :
    { scannerEntry i r with reads := reads } = (⟨r, .scanner, none, some i, none, [], reads, false, .issuing⟩ : Entry) := rfl

/-- Settles O41. -/
theorem scannerReadOpensFrame : Obligations.ScannerReadOpensFrame := by
  intro c s r pick e i hconsiders hclass hpick
  rw [exec_considersRead hconsiders]
  dsimp only
  refine ⟨fun hfirst hlast hstate hfree => ?_, fun huntracked => ?_⟩
  · rw [State.considerRead_of_accepted hclass trivial (State.stepWaits_of_free hfree _ _) hpick,
      State.acceptRoute_of_tracked ((trackedRead_iff _ _).2 ⟨hfirst, hlast⟩)]
    have hstep : (s.acceptRead e (scannerEntry i r)).scanStep i e r
        = ((s.acceptRead e (scannerEntry i r)).openFrame i r (scanRow s.surfaces[i] (readAccess r)) false).formScanner i e := by
      rw [State.scanStep]
      exact if_pos (bne_iff_ne.2 hstate)
    refine ⟨_, rfl, ?_⟩
    rw [hstep, State.openFrame_formScanner (s.acceptRead_table_self e _)]
    refine ⟨?_, fun hquiet => ?_, fun hnotify => ?_⟩
    · simp only [State.acceptRead, State.setEntry, Vector.set_set]
      rfl
    · obtain ⟨he, hn⟩ := State.frameEvents_congr (s := s) (t := s.acceptRead e (scannerEntry i r)) rfl rfl rfl rfl i r
        (scanRow s.surfaces[i] (readAccess r)) false
      refine ⟨he.trans ?_, hn.trans ?_⟩ <;> rw [State.frameEvents, hquiet] <;> rfl
    · obtain ⟨he, hn⟩ := State.frameEvents_congr (s := s) (t := s.acceptRead e (scannerEntry i r)) rfl rfl rfl rfl i r
        (scanRow s.surfaces[i] (readAccess r)) false
      refine ⟨hn.trans ?_, he.trans ?_⟩ <;> rw [State.frameEvents, hnotify] <;> rfl
  · have hnot := trackedRead_eq_false huntracked
    rw [State.considerRead_of_accepted hclass trivial (by rw [State.stepWaits, hnot]; rfl) hpick,
      State.acceptRoute_of_untracked hnot]
    rfl

theorem State.takes_step_iff (s : State) (i : SurfaceIx) (e : EntryIx) (d : Nat) (f : Frag) :
    s.takes (.step i e d) f = true ↔ f.surface = i ∧ s.scans[i].c ≤ displayRow s.scans[i].active f.row
      ∧ displayRow s.scans[i].active f.row < d := by
  simp only [State.takes, Bool.and_eq_true, beq_iff_eq, decide_eq_true_eq, and_assoc]

/-- Settles O42. -/
theorem scannerReadStepsOrRestarts : Obligations.ScannerReadStepsOrRestarts := by
  intro c s r pick e i hconsiders hclass hpick hscanning hfree
  obtain ⟨hrelease, -⟩ := (s.holdBusy_eq_false_iff).1 hfree
  rw [exec_considersRead hconsiders]
  dsimp only
  intro hfirst hlast
  rw [State.considerRead_of_accepted hclass trivial (State.stepWaits_of_free hfree _ _) hpick,
    State.acceptRoute_of_tracked ((trackedRead_iff _ _).2 ⟨hfirst, hlast⟩)]
  have hstep : (s.acceptRead e (scannerEntry i r)).scanStep i e r
      = if scanRow s.surfaces[i] (readAccess r) < s.scans[i].c
        then (s.acceptRead e (scannerEntry i r)).begin (.restart i e (scanRow s.surfaces[i] (readAccess r)))
        else (s.acceptRead e (scannerEntry i r)).begin (.step i e (scanRow s.surfaces[i] (readAccess r))) := by
    rw [State.scanStep]
    exact if_neg (by rw [bne_iff_ne, not_not]; exact hscanning)
  have hrow : scanRow s.surfaces[i] (readAccess r)
    = ((readAccess r).low - s.surfaces[i].base.toNat) / s.surfaces[i].pitch := rfl
  rw [hstep, hrow]
  have htable := s.acceptRead_table_self e (scannerEntry i r)
  refine ⟨fun hle hnone => ?_, fun hle hpassed => ?_, fun hlt hnone => ?_, fun hlt hheld => ?_⟩
  · rw [if_neg (Nat.not_lt.2 hle), State.begin_of_none, State.complete_step_of_some htable]
    · refine exec_next_congr (congrArg State.handOver ?_)
      simp only [State.acceptRead, State.setEntry, Vector.set_set]
      rw [← hrelease]
      rfl
    · rw [List.any_eq_false]
      exact fun f hf => by rw [State.takes_step_iff]; exact hnone f hf
  · rw [if_neg (Nat.not_lt.2 hle), State.begin_of_any]
    · rfl
    · obtain ⟨f, hf, hpass⟩ := hpassed
      exact List.any_eq_true.2 ⟨f, hf, (State.takes_step_iff _ _ _ _ _).2 hpass⟩
  · rw [if_pos hlt, State.begin_of_none _ _ ((any_surface_eq_false_iff _ i).2 hnone), State.complete_restart_of_some htable]
    obtain ⟨he, hn⟩ := State.frameEvents_congr (s := s) (t := s.acceptRead e (scannerEntry i r)) rfl rfl rfl rfl i
      (scannerEntry i r).req (((readAccess r).low - s.surfaces[i].base.toNat) / s.surfaces[i].pitch) true
    rw [he, hn]
    refine exec_next_congr (congrArg State.handOver ?_)
    simp only [State.acceptRead, State.setEntry, Vector.set_set]
    rw [← hrelease]
    rfl
  · rw [if_pos hlt, State.begin_of_any _ _ ((any_surface_iff _ i).2 hheld)]
    rfl

end Sys2Proof.Machine
end

