-- ==== Sys2Proof/Proofs/EntriesStay.lean ====
section
/-! PROOF. An accepted read stays in its entry with its own fields (R36, R124): what each operation leaves of an entry in use, and
so each command. -/

namespace Sys2Proof.Machine

/-! What stays of an entry -/

/-- The fields that an entry has from its acceptance to its response are the same in `en'` as in `en`, and its error flag is not
taken back. -/
structure SameRead (en en' : Entry) : Prop where
  req : en'.req = en.req
  route : en'.route = en.route
  aperture : en'.aperture = en.aperture
  conv : en'.conv = en.conv
  placement : en'.placement = en.placement
  surface : en'.surface = en.surface
  error : en.error = true → en'.error = true

theorem SameRead.refl (en : Entry) : SameRead en en := ⟨rfl, rfl, rfl, rfl, rfl, rfl, id⟩

theorem SameRead.with_reads (en : Entry) (reads : List FragRead) (st : EntryState) :
    SameRead en { en with reads := reads, state := st } := ⟨rfl, rfl, rfl, rfl, rfl, rfl, id⟩

theorem SameRead.trans {en en' en'' : Entry} (h : SameRead en en') (h' : SameRead en' en'') : SameRead en en'' :=
  ⟨h'.req.trans h.req, h'.route.trans h.route, h'.aperture.trans h.aperture, h'.conv.trans h.conv,
    h'.placement.trans h.placement, h'.surface.trans h.surface, fun he => h'.error (h.error he)⟩

/-- Where entry `e` is in use in `s`, the same read is in it in `t`. -/
def Stays (e : EntryIx) (s t : State) : Prop :=
  ∀ en, s.table[e] = some en → ∃ en', t.table[e] = some en' ∧ SameRead en en'

theorem Stays.of_table {s t : State} (h : t.table = s.table) (e : EntryIx) : Stays e s t :=
  fun en he => ⟨en, by rw [h]; exact he, .refl en⟩

theorem Stays.refl (e : EntryIx) (s : State) : Stays e s s := .of_table rfl e

theorem Stays.trans {e : EntryIx} {s t u : State} (h : Stays e s t) (h' : Stays e t u) : Stays e s u := by
  intro en he
  obtain ⟨en', he', hsame⟩ := h en he
  obtain ⟨en'', he'', hsame'⟩ := h' en' he'
  exact ⟨en'', he'', hsame.trans hsame'⟩

/-- An entry is replaced by one with the same read. -/
theorem Stays.setEntry {s : State} {d : EntryIx} {en en' : Entry} (hd : s.table[d] = some en) (h : SameRead en en')
    (e : EntryIx) : Stays e s (s.setEntry d (some en')) := by
  intro x he
  rw [State.setEntry_table_get]
  split
  · rename_i hde
    subst hde
    obtain rfl := Option.some.inj (hd.symm.trans he)
    exact ⟨en', rfl, h⟩
  · exact ⟨x, he, .refl x⟩

/-- Another entry is filled or freed. -/
theorem Stays.setOther {s : State} {d e : EntryIx} (h : d ≠ e) (en : Option Entry) : Stays e s (s.setEntry d en) := by
  intro x he
  rw [State.setEntry_table_get, if_neg h]
  exact ⟨x, he, .refl x⟩

theorem Stays.fillEntry {s : State} {d : EntryIx} (hfree : s.table[d] = none) (en : Entry) (e : EntryIx) :
    Stays e s (s.setEntry d (some en)) := by
  by_cases h : d = e
  · subst h
    exact fun x he => nomatch hfree.symm.trans he
  · exact .setOther h _

/-! The works of the hold queue -/

theorem Stays.formScanner (s : State) (i : SurfaceIx) (d e : EntryIx) : Stays e s (s.formScanner i d) := by
  cases hd : s.table[d] with
  | none => rw [s.formScanner_of_none i hd]; exact .refl e s
  | some en => rw [s.formScanner_of_some i hd]; exact .setEntry hd (.with_reads en _ _) e

theorem Stays.openFrame (s : State) (i : SurfaceIx) (req : ReadReq) (d : Nat) (restarted : Bool) (e : EntryIx) :
    Stays e s (s.openFrame i req d restarted) := .of_table (by rw [State.openFrame_eq]) e

theorem Stays.complete (s : State) (rel : Release) (e : EntryIx) : Stays e s (s.complete rel) := by
  obtain ⟨w, n, l⟩ := rel
  cases w with
  | step i d _ =>
    refine Stays.trans (t := State.setScan { s with release := none } i (s.scans[i].stepTo s.surfaces[i] _)) ?_ (.formScanner _ i d e)
    exact .of_table rfl e
  | restart i d _ =>
    cases hd : s.table[d] with
    | none => rw [State.complete_restart_of_none hd]; exact .of_table rfl e
    | some en =>
      rw [State.complete_restart_of_some hd]
      refine Stays.trans (t := s.setEntry d (some { en with
        reads := scannerReads s.surfaces[i] (appliedBand s.scans[i]) (readAccess en.req) })) ?_ (.of_table rfl e)
      exact .setEntry hd (.with_reads en _ _) e
  | finish i => exact .of_table rfl e
  | stall i => exact .of_table rfl e
  | fullFlush =>
    rw [State.complete]
    dsimp only
    split <;> exact .of_table rfl e

theorem Stays.begin (s : State) (w : Work) (e : EntryIx) : Stays e s (s.begin w) := by
  cases h : s.queue.any (s.takes w) with
  | true => rw [s.begin_of_any w h]; exact .of_table rfl e
  | false => rw [s.begin_of_none w h]; exact .complete s _ e

theorem Stays.takeOrder (s : State) (o : Order) (e : EntryIx) : Stays e s (s.takeOrder o) := by
  unfold State.takeOrder
  split
  · split
    · exact .begin s _ e
    · exact .refl e s
  · split
    · exact .begin s _ e
    · exact .refl e s
  · exact .begin s _ e

theorem Stays.takeOrders (l : List Order) (s : State) (e : EntryIx) : Stays e s (State.takeOrders l s) := by
  induction l generalizing s with
  | nil => exact .of_table rfl e
  | cons o os ih =>
    have hfirst := Stays.takeOrder s o e
    unfold State.takeOrders
    dsimp only
    split
    · exact hfirst.trans (.of_table rfl e)
    · exact hfirst.trans (ih _)

theorem Stays.order (s : State) (o : Order) (e : EntryIx) : Stays e s (s.order o) := by
  unfold State.order
  split
  · exact .of_table rfl e
  · exact .takeOrder s o e

theorem Stays.handOver {e : EntryIx} {s t : State} (h : Stays e s t) : Stays e s t.handOver :=
  h.trans (.of_table (by rw [State.handOver_eq]) e)

theorem Stays.handle (q : Requester) (t : Tag) (l : List PendingFrag) (s : State) (e : EntryIx) :
    Stays e s (State.handle q t l s) := by
  induction l generalizing s with
  | nil => exact Stays.trans (t := s.answerWrite q t .okay) (.of_table rfl e) (.takeOrders _ _ e)
  | cons p ps ih =>
    rw [State.handle]
    split
    · exact Stays.trans (.of_table (s.join_table p.frag) e) (ih _)
    · exact .of_table rfl e

/-! The upstream port -/

theorem Stays.considerFrags (s : State) (w : WriteReq) (i : SurfaceIx) (through : Option ApertureIx) (plan : WritePlan)
    (e : EntryIx) : Stays e s (s.considerFrags w i through plan) := by
  by_cases h : heldNeed (s.decideAll [] plan.frags) ≤ s.freeEntries
  · rw [s.considerFrags_of_room w i through plan h]
    exact (Stays.trans (.of_table (by rw [State.acceptPlan_eq]) e) (.handle _ _ _ _ e)).handOver
  · rw [s.considerFrags_of_full w i through plan (by omega)]
    exact .of_table (s.raiseIf_table _ _) e

theorem Stays.considerWrite (s : State) (w : WriteReq) (e : EntryIx) : Stays e s (s.considerWrite w) := by
  unfold State.considerWrite
  split
  · exact .of_table rfl e
  · exact .of_table rfl e
  · refine Stays.handOver ?_
    exact .of_table rfl e
  all_goals exact .considerFrags s w _ _ _ e

theorem Stays.acceptRead {s : State} {d : EntryIx} (hfree : s.table[d] = none) (en : Entry) (e : EntryIx) :
    Stays e s (s.acceptRead d en) :=
  (Stays.fillEntry hfree en e).trans (.of_table rfl e)

theorem Stays.scanStep (s : State) (i : SurfaceIx) (d : EntryIx) (req : ReadReq) (e : EntryIx) :
    Stays e s (s.scanStep i d req) := by
  unfold State.scanStep
  dsimp only
  split
  · exact (Stays.openFrame s i req _ false e).trans (.formScanner _ i d e)
  split
  · exact .begin s _ e
  · exact .begin s _ e

theorem Stays.acceptRoute {s : State} {d : EntryIx} (hfree : s.table[d] = none) (cls : Class) (req : ReadReq) (e : EntryIx) :
    Stays e s (s.acceptRoute cls req d) := by
  cases cls with
  | malformed | refused unit detail => exact .refl e s
  | transparent | mapped a | backing i => exact .acceptRead hfree _ e
  | stream a => exact (Stays.acceptRead hfree _ e).trans (.of_table rfl e)
  | scanner i =>
    cases htracked : trackedRead s.surfaces[i] (readAccess req) with
    | true =>
      rw [State.acceptRoute_of_tracked htracked]
      exact (Stays.acceptRead hfree _ e).trans (.scanStep _ i d req e)
    | false =>
      rw [State.acceptRoute_of_untracked htracked]
      exact .acceptRead hfree _ e

theorem Stays.considerRead (s : State) (req : ReadReq) (pick : Nat) (e : EntryIx) : Stays e s (s.considerRead req pick) := by
  unfold State.considerRead
  split
  · exact .of_table rfl e
  · exact .of_table rfl e
  split
  · exact .of_table rfl e
  split
  · exact .of_table rfl e
  · rename_i d hpick
    exact (Stays.acceptRoute (State.pickEntry_some hpick).1 _ req e).handOver

theorem Stays.respondEntry (s : State) {d e : EntryIx} (h : d ≠ e) : Stays e s (s.respondEntry d) := by
  unfold State.respondEntry
  split
  · exact .refl e s
  split
  · exact (Stays.setOther h none).trans (.of_table rfl e)
  · exact .refl e s

theorem Stays.respondRefused (s : State) (e : EntryIx) : Stays e s s.respondRefused := by
  unfold State.respondRefused
  split
  · exact .refl e s
  split <;> exact .of_table rfl e

/-! The downstream port -/

theorem Stays.issueRead (s : State) (d e : EntryIx) : Stays e s (s.issueRead d) := by
  unfold State.issueRead
  split
  · exact .refl e s
  rename_i en hd
  split
  · exact .refl e s
  split
  · exact .refl e s
  · rename_i n _ _ fr _
    refine Stays.trans (t := s.setEntry d (some (en.issue n s.queue))) (.setEntry hd (.with_reads en _ _) e) ?_
    obtain hkept | ⟨i, hordered⟩ := State.finishAt_cases (s.setEntry d (some (en.issue n s.queue))) en fr
    · rw [hkept]; exact .refl e _
    · rw [hordered]; exact .order _ _ e

theorem Stays.issueHeld (s : State) (rel : Release) (e : EntryIx) : Stays e s (s.issueHeld rel) := by
  unfold State.issueHeld
  split
  · exact .refl e s
  rename_i f _
  dsimp only
  have hleaves : ∀ r : Release, Stays e s (State.leaves { s with
      release := some r, outstanding := s.outstanding ++ [DsWrite.fragment f] } rel.work f) :=
    fun r => .of_table (by rw [State.leaves_eq]) e
  split
  · exact hleaves _
  · exact ((hleaves _).trans (.complete _ _ e)).trans (.takeOrders _ _ e)

theorem Stays.strayReturn (s : State) (d : EntryIx) (p : ReadPos) (e : EntryIx) : Stays e s (s.strayReturn d p) := by
  unfold State.strayReturn
  split <;> exact .of_table rfl e

theorem Stays.joinReturn {s : State} {d : EntryIx} {en : Entry} (hd : s.table[d] = some en) (p : ReadPos) (error : Bool)
    (data : List Byte) (e : EntryIx) : Stays e s (s.joinReturn d en p error data) := by
  have hsame : SameRead en (en.returned p.val error data) :=
    ⟨rfl, rfl, rfl, rfl, rfl, rfl, fun he => (congrArg (· || error) he).trans (Bool.true_or _)⟩
  exact (Stays.setEntry hd hsame e).trans (.of_table (State.raiseIf_table _ _ _) e)

/-! The management port -/

theorem State.modeSet_table (s : State) (m : Byte) : (s.modeSet m).state.table = s.table := by
  unfold State.modeSet
  split
  · split <;> rfl
  · split <;> rfl

theorem State.surfaceWrite_table (s : State) (b : Byte) (l : List Byte) : (s.surfaceWrite b l).state.table = s.table := by
  unfold State.surfaceWrite
  split
  · rfl
  split
  · rfl
  split
  · rfl
  split <;> rfl

theorem State.bandSet_table (s : State) (b : Byte) (l : List Byte) : (s.bandSet b l).state.table = s.table := by
  unfold State.bandSet
  split
  · rfl
  split
  · rfl
  split
  · rfl
  · rfl
  · rfl
  · split <;> rfl

theorem State.apertureWrite_table (s : State) (b : Byte) (l : List Byte) : (s.apertureWrite b l).state.table = s.table := by
  unfold State.apertureWrite
  split
  · rfl
  split
  · rfl
  split <;> rfl

theorem State.apertureOpen_table (s : State) (b : Byte) : (s.apertureOpen b).state.table = s.table := by
  unfold State.apertureOpen
  split
  · rfl
  split <;> rfl

theorem State.apertureClose_table (s : State) (b : Byte) : (s.apertureClose b).state.table = s.table := by
  unfold State.apertureClose
  split
  · rfl
  split
  · rfl
  split <;> rfl

theorem State.windowSet_table (s : State) (b : Byte) (l : List Byte) : (s.windowSet b l).state.table = s.table := by
  unfold State.windowSet
  split
  · rfl
  dsimp only
  split
  · rfl
  split
  · rfl
  split <;> rfl

theorem State.eventRead_table (s : State) : s.eventRead.state.table = s.table := by
  unfold State.eventRead
  split <;> rfl

theorem State.alertMaskCommand_table (s : State) (action : Byte) (mask : BitVec 16) :
    (s.alertMaskCommand action mask).state.table = s.table := by
  unfold State.alertMaskCommand
  split
  · rfl
  split
  · split <;> rfl
  · rfl

theorem State.profileSave_table (s : State) (b : Byte) : (s.profileSave b).state.table = s.table := by
  unfold State.profileSave
  split
  · rfl
  split
  · rfl
  split
  · rfl
  · show (s.saveSlot _).table = s.table
    rw [State.saveSlot_eq]

theorem State.readUnit_table {α : Type} (s : State) (ix : Option α) (bytes : α → List Byte) :
    (s.readUnit ix bytes).state.table = s.table := by
  cases ix <;> rfl

/-- A transaction leaves the table as its command's effect does. -/
theorem State.command_table {s : State} (c : Instr) (gated complete waits : Bool) {body : Answer}
    (h : body.state.table = s.table) : (s.command c gated complete waits body).table = s.table :=
  State.command_keeps (P := fun t => t.table = s.table) (fun _ _ hu => hu) rfl c gated complete waits body fun _ _ _ => h

theorem State.resumePort_table (s : State) : s.resumePort.table = s.table := by
  unfold State.resumePort
  split
  · split
    · exact State.command_table _ _ _ _ (s.modeSet_table _)
    · exact State.command_table _ _ _ _ (s.surfaceWrite_table _ _)
    · exact State.command_table _ _ _ _ (s.apertureClose_table _)
    · rfl
  · rfl

theorem Stays.issueWrite (s : State) (e : EntryIx) : Stays e s s.issueWrite := by
  unfold State.issueWrite
  split
  · exact .refl e s
  · exact .of_table rfl e
  · exact (Stays.handle _ _ _ s e).trans (.of_table (State.resumePort_table _) e)
  · rename_i p ps _
    refine Stays.trans (Stays.trans (t := { s with outstanding := s.outstanding ++ [DsWrite.fragment p.frag] })
      (.of_table rfl e) (.handle _ _ _ _ e)) (.of_table (State.resumePort_table _) e)

/-! Every command -/

/-- Settles O43: command by command. -/
theorem acceptedReadStaysUntilAnswered : Obligations.AcceptedReadStaysUntilAnswered := by
  intro c s t e en _ ht he hanswer hfall hloss hon
  have hstays : ∀ u : State, Stays e s u → Host.Outcome.next (φ := Fault) (ρ := Refusal) u = .next t → Stays e s t :=
    fun u hu h => by cases h; exact hu
  have hsame : ∀ u : State, u.table = s.table → Host.Outcome.next (φ := Fault) (ρ := Refusal) u = .next t → Stays e s t :=
    fun u hu => hstays u (.of_table hu e)
  suffices h : Stays e s t by
    obtain ⟨en', he', hreq, hroute, haperture, hconv, hplacement, hsurface, herror⟩ := h en he
    exact ⟨en', he', hreq, hroute, haperture, hconv, hplacement, hsurface, herror⟩
  cases c with
  | powerOn cut => exact absurd rfl (hon cut)
  | powerLoss => exact absurd rfl hloss
  | resetnFall => exact absurd rfl hfall
  | resetnRise cut =>
    refine hsame _ ?_ ht
    split
    · rw [State.load_eq]
      rfl
    · rfl
  | loadPhaseEnd =>
    refine hsame _ ?_ ht
    split
    · rw [State.runLoad_eq]
    · rfl
  | headWriteConsidered w =>
    refine hstays _ ?_ ht
    unfold State.headWriteArrives
    split
    · exact .refl e s
    split
    · exact .refl e s
    split
    · exact .considerWrite s w e
    · exact .of_table rfl e
  | waitingWriteReconsidered =>
    refine hstays _ ?_ ht
    split
    · exact .refl e s
    split
    · exact .considerWrite s _ e
    · exact .refl e s
  | writeResponse =>
    refine hsame _ ?_ ht
    split <;> rfl
  | headReadConsidered r pick =>
    refine hstays _ ?_ ht
    unfold State.headReadArrives
    split
    · exact .refl e s
    split
    · exact .refl e s
    split
    · exact .considerRead s r pick e
    · exact .of_table rfl e
  | headReadReconsidered pick =>
    refine hstays _ ?_ ht
    split
    · exact .refl e s
    split
    · exact .considerRead s _ pick e
    · exact .refl e s
  | fragmentReadIssue =>
    refine hstays _ ?_ ht
    split
    · split
      · exact .refl e s
      · exact (Stays.trans (t := s.passRequest .readTracker) (.of_table rfl e) (.issueRead _ _ e)).handOver
    · exact .refl e s
  | downstreamWriteIssue src =>
    refine hstays _ ?_ ht
    split
    · refine Stays.handOver (Stays.trans (t := s.passRequest (formerOf src)) (.of_table rfl e) ?_)
      cases src with
      | writeChannel => exact .issueWrite _ e
      | holdQueue =>
        show Stays e _ (State.issueRelease _)
        unfold State.issueRelease
        split
        · exact .refl e _
        · exact .issueHeld _ _ e
    · exact .refl e s
  | downstreamReadReturn d p error data =>
    refine hstays _ ?_ ht
    split
    · exact .refl e s
    split
    · exact .strayReturn s d p e
    rename_i hd
    split
    · exact .joinReturn hd p error data e
    · exact .strayReturn s d p e
  | downstreamWriteResponse error =>
    refine hsame _ ?_ ht
    split
    · rfl
    split
    · rfl
    · exact State.raiseIf_table _ _ _
  | readResponse who =>
    refine hstays _ ?_ ht
    cases who with
    | entry d => exact .respondEntry s fun hde => hanswer (by rw [hde])
    | refused => exact .respondRefused s e
  | scanTimerExpiry i =>
    refine hstays _ ?_ ht
    split
    · exact (Stays.order s _ e).handOver
    · exact .refl e s
  | profileProgrammingComplete ok =>
    refine hsame _ ?_ ht
    split
    · rfl
    · rw [State.setSlotCheck_eq]
      rfl
  | shortTransaction bytes =>
    refine hsame _ ?_ ht
    obtain hkept | ⟨p, hset⟩ := s.gather_cases bytes.received bytes.ended
    · rw [hkept]
    · rw [hset]
      rfl
  | unknownCommand code | ident | modeRead | eventCount | profileRead =>
    exact hsame _ (State.command_table _ _ _ _ rfl) ht
  | modeSet m => exact hsame _ (State.command_table _ _ _ _ (s.modeSet_table m)) ht
  | surfaceWrite index record => exact hsame _ (State.command_table _ _ _ _ (s.surfaceWrite_table index record)) ht
  | surfaceRead index | scanRead index | apertureRead index | cursorRead index =>
    exact hsame _ (State.command_table _ _ _ _ (s.readUnit_table _ _)) ht
  | bandSet index block => exact hsame _ (State.command_table _ _ _ _ (s.bandSet_table index block)) ht
  | apertureWrite index record => exact hsame _ (State.command_table _ _ _ _ (s.apertureWrite_table index record)) ht
  | apertureOpen index => exact hsame _ (State.command_table _ _ _ _ (s.apertureOpen_table index)) ht
  | apertureClose index => exact hsame _ (State.command_table _ _ _ _ (s.apertureClose_table index)) ht
  | windowSet index window => exact hsame _ (State.command_table _ _ _ _ (s.windowSet_table index window)) ht
  | holdRead | softReset => exact hsame _ (State.command_table _ _ _ _ rfl) ht
  | eventRead => exact hsame _ (State.command_table _ _ _ _ s.eventRead_table) ht
  | alertMaskRead mask => exact hsame _ (State.command_table _ _ _ _ (s.alertMaskCommand_table 0 mask)) ht
  | alertMaskWrite action mask => exact hsame _ (State.command_table _ _ _ _ (s.alertMaskCommand_table action mask)) ht
  | profileSave slot => exact hsame _ (State.command_table _ _ _ _ (s.profileSave_table slot)) ht
  | softResetFlush =>
    refine hstays _ ?_ ht
    split
    · split
      · exact (Stays.trans (t := { s with phase := .softReset .flush }) (.of_table rfl e) (.order _ _ e)).handOver
      · exact .refl e s
    · exact .refl e s
  | softResetResume =>
    refine hsame _ ?_ ht
    split
    · split <;> rfl
    · rfl

end Sys2Proof.Machine
end

