-- ==== Sys2Proof/Proofs/PortOrder.lean ====
section
/-! PROOF. The order in which the downstream port issues requests (R39), and the issue of fragment reads with the finish of a
frame (R99, R126, R128). -/

namespace Sys2Proof.Machine

/-! The order of hand-over (R39) -/

theorem isHanded_iff_group (s : State) (b : Former) : s.isHanded b = true ↔ ∃ group ∈ s.handed, b ∈ group := by
  rw [State.isHanded, List.any_eq_true]
  simp only [List.contains_iff_mem]

theorem State.handOver_form (s : State) : ∃ new : List Former,
    s.handOver = { s with handed := s.handed ++ if new = [] then [] else [new] }
      ∧ new.Nodup ∧ ∀ b, b ∈ new ↔ s.formed b = true ∧ ∀ group ∈ s.handed, b ∉ group := by
  refine ⟨formers.filter fun b => s.formed b && !s.isHanded b, ?_, List.Nodup.filter _ (by decide), fun b => ?_⟩
  · rw [← s.handOver_handed, State.handOver_eq]
  · have hall : b ∈ formers := by cases b <;> decide
    rw [List.mem_filter, Bool.and_eq_true, Bool.not_eq_true', Bool.eq_false_iff, ne_eq, isHanded_iff_group]
    simp only [hall, true_and, not_exists, not_and]

theorem State.issuingEntry_some {s : State} {e : EntryIx} (h : s.issuingEntry = some e) :
    ∃ older newer en, s.taken = older ++ e :: newer ∧ s.table[e] = some en ∧ en.state = .issuing
      ∧ ∀ e' ∈ older, ∀ en', s.table[e'] = some en' → en'.state ≠ .issuing := by
  rw [State.issuingEntry_eq, List.find?_eq_some_iff_append] at h
  obtain ⟨hissuing, older, newer, htaken, holder⟩ := h
  obtain ⟨en, he, hstate⟩ := (s.issuing_iff e).1 hissuing
  refine ⟨older, newer, en, htaken, he, hstate, fun e' he' en' hen' hstate' => ?_⟩
  have := holder e' he'
  rw [(s.issuing_iff e').2 ⟨en', hen', hstate'⟩] at this
  cases this

theorem State.issuingEntry_none {s : State} {e : EntryIx} (h : s.issuingEntry = none) (hmem : e ∈ s.taken) {en : Entry}
    (he : s.table[e] = some en) : en.state ≠ .issuing := by
  rw [State.issuingEntry_eq, List.find?_eq_none] at h
  exact fun hstate => h e hmem ((s.issuing_iff e).2 ⟨en, he, hstate⟩)

theorem Work.scanStep_eq_some_iff (w : Work) (e : EntryIx) (d : Nat) :
    w.scanStep = some (e, d) ↔ ∃ i, w = .step i e d ∨ w = .restart i e d := by
  cases w with
  | step i e' d' | restart i e' d' => simp [Work.scanStep]
  | finish i | stall i | fullFlush => simp [Work.scanStep]

theorem State.stepPending_iff_release (s : State) (e : EntryIx) : s.stepPending e = true ↔
    ∃ rel, s.release = some rel ∧ ∃ i d, rel.work = .step i e d ∨ rel.work = .restart i e d := by
  simp only [State.stepPending_iff, State.stepEntry, Option.bind_eq_some_iff, Work.scanStep_eq_some_iff]
  exact ⟨fun ⟨d, rel, hrel, i, hw⟩ => ⟨rel, hrel, i, d, hw⟩, fun ⟨rel, hrel, i, d, hw⟩ => ⟨d, rel, hrel, i, hw⟩⟩

theorem State.mayIssue_iff (s : State) (b : Former) : s.mayIssue b = true ↔
    (∃ first rest, s.handed = first :: rest ∧ b ∈ first)
      ∨ ∃ second rest, s.handed = [.readTracker] :: second :: rest ∧ b ∈ second := by
  rw [State.mayIssue]
  split
  · rename_i hnil
    rw [hnil]
    simp
  · rename_i second rest hhanded
    rw [hhanded, Bool.or_eq_true, beq_iff_eq, List.contains_iff_mem]
    simp
  · rename_i first rest hother hhanded
    rw [hhanded, List.contains_iff_mem]
    refine ⟨fun h => .inl ⟨first, rest, rfl, h⟩, ?_⟩
    rintro (⟨first', rest', heq, h⟩ | ⟨second, rest', heq, h⟩)
    · obtain ⟨rfl, -⟩ := List.cons.inj heq
      exact h
    · obtain ⟨hfirst, hrest⟩ := List.cons.inj heq
      exact (hother second rest' hfirst hrest).elim

theorem State.passRequest_filters (s : State) (b : Former) :
    s.passRequest b = { s with handed := (s.handed.map (·.filter (· ≠ b))).filter (· ≠ []) } := by
  have hbne : (fun c : Former => c != b) = fun c => decide (c ≠ b) := by funext c; cases c <;> cases b <;> rfl
  have hne : (fun l : List Former => l != []) = fun l => decide (l ≠ []) := by funext l; cases l <;> rfl
  rw [State.passRequest, hbne, hne]

theorem DsWrite.fragment_form (f : Frag) : ∃ lanes : List Lane,
    DsWrite.fragment f = ⟨f.block, .incrementing, 3, f.requester, lanes, some f.surface⟩
      ∧ lanes.length = 32 ∧ ∀ k : Fin 32, lanes[k.val]? = some (match f.cells[k] with
        | none => ⟨false, none⟩
        | some x => ⟨true, some x⟩) := by
  refine ⟨f.cells.toList.map fun c => ⟨c.isSome, c⟩, rfl, ?_, fun k => ?_⟩
  · rw [List.length_map, Vector.length_toList]
  · rw [List.getElem?_map, List.getElem?_eq_getElem (by rw [Vector.length_toList]; exact k.isLt), Vector.getElem_toList,
      Option.map_some]
    show some (Lane.mk f.cells[k].isSome f.cells[k]) = _
    cases f.cells[k] <;> rfl

theorem exec_writeChannel {s : State} (h : s.mayIssue .writeChannel = true) :
    exec (.downstreamWriteIssue .writeChannel) s = .next (s.passRequest .writeChannel).issueWrite.handOver :=
  exec_next_congr (if_pos h)

theorem exec_holdQueue {s : State} (h : s.mayIssue .holdQueue = true) :
    exec (.downstreamWriteIssue .holdQueue) s = .next (s.passRequest .holdQueue).issueRelease.handOver :=
  exec_next_congr (if_pos h)

theorem exec_downstreamWriteIssue_of_not {s : State} {src : WriteSource} (h : s.mayIssue (formerOf src) = false) :
    exec (.downstreamWriteIssue src) s = .next s := by
  show Host.Outcome.next (if _ then _ else _) = _
  rw [h, if_neg Bool.false_ne_true]

theorem exec_fragmentReadIssue_of_not {s : State} (h : s.mayIssue .readTracker = false) :
    exec .fragmentReadIssue s = .next s := by
  show Host.Outcome.next (if _ then _ else _) = _
  rw [h, if_neg Bool.false_ne_true]

/-- Settles O44. -/
theorem requestsAreIssuedInHandOverOrder : Obligations.RequestsAreIssuedInHandOverOrder := by
  refine ⟨State.handOver_form, fun s => ⟨s.formed_writeChannel_iff, s.formed_holdQueue_iff, s.formed_readTracker_iff⟩,
    fun s e => ⟨State.issuingEntry_some, fun h hmem en he => State.issuingEntry_none h hmem he, s.stepPending_iff_release e⟩,
    fun s b => ⟨s.mayIssue_iff b, fun hnot => ⟨fun hb => ?_, fun hb => ?_, fun hb => ?_⟩⟩, State.passRequest_filters, fun w => rfl,
    DsWrite.fragment_form⟩
  · subst hb; exact exec_downstreamWriteIssue_of_not hnot
  · subst hb; exact exec_downstreamWriteIssue_of_not hnot
  · subst hb; exact exec_fragmentReadIssue_of_not hnot

/-! The issue of a fragment read (R126, R128) -/

theorem exec_fragmentReadIssue {s : State} {e : EntryIx} (hmay : s.mayIssue .readTracker = true)
    (he : s.issuingEntry = some e) (hstep : s.stepPending e = false) :
    exec .fragmentReadIssue s = .next ((s.passRequest .readTracker).issueRead e).handOver := by
  show Host.Outcome.next (if _ then _ else _) = _
  rw [if_pos hmay, (s.readToIssue_eq_some_iff e).2 ⟨he, hstep⟩]

theorem Entry.nextRead_eq_some_iff (en : Entry) (n : Nat) : en.nextRead = some n ↔
    (∃ x, en.reads[n]? = some x ∧ x.status = .unissued)
      ∧ ∀ (m : Nat) (x : FragRead), m < n → en.reads[m]? = some x → x.status ≠ .unissued := by
  rw [Entry.nextRead, List.findIdx?_eq_some_iff_getElem]
  constructor
  · rintro ⟨hlt, hn, hbefore⟩
    refine ⟨⟨_, List.getElem?_eq_getElem hlt, beq_iff_eq.1 hn⟩, fun m x hm hx hstatus => ?_⟩
    obtain ⟨hm', rfl⟩ := List.getElem?_eq_some_iff.1 hx
    exact hbefore m hm (beq_iff_eq.2 hstatus)
  · rintro ⟨⟨x, hx, hstatus⟩, hbefore⟩
    obtain ⟨hlt, rfl⟩ := List.getElem?_eq_some_iff.1 hx
    exact ⟨hlt, beq_iff_eq.2 hstatus, fun m hm h => hbefore m _ hm (List.getElem?_eq_getElem (by omega)) (beq_iff_eq.1 h)⟩

theorem Entry.nextRead_eq_none_iff (en : Entry) : en.nextRead = none ↔ ∀ x ∈ en.reads, x.status ≠ .unissued := by
  rw [Entry.nextRead, List.findIdx?_eq_none_iff]
  simp only [beq_eq_false_iff_ne]

theorem Route.forwards_iff (route : Route) : route.forwards = true ↔ route = .mapped ∨ route = .stream ∨ route = .backing := by
  cases route <;> decide

theorem FragRead.issue_eq (fr : FragRead) (route : Route) (queue : List Frag) : fr.issue route queue = { fr with
    status := .issued
    snapshot := if route = .mapped ∨ route = .stream ∨ route = .backing then some (forwardQuery queue fr.addr) else none } := by
  simp only [FragRead.issue, Route.forwards_iff]

theorem modify_of_getElem? {α : Type} {l : List α} {n : Nat} {x : α} (h : l[n]? = some x) (g : α → α) :
    l.modify n g = l.set n (g x) := by
  rw [List.modify_eq_set_getElem?, h]
  rfl

/-- What the issue of its read at `n` makes of an entry (R126, R128). -/
theorem Entry.issue_form {en : Entry} {n : Nat} {fr : FragRead} (hfr : en.reads[n]? = some fr) (queue : List Frag) :
    en.issue n queue = { en with reads := (en.issue n queue).reads, state := (en.issue n queue).state }
      ∧ (en.issue n queue).reads = en.reads.set n { fr with
          status := .issued
          snapshot := if en.route = .mapped ∨ en.route = .stream ∨ en.route = .backing
            then some (forwardQuery queue fr.addr) else none }
      ∧ ((∃ x ∈ (en.issue n queue).reads, x.status = .unissued) → (en.issue n queue).state = .issuing)
      ∧ ((∀ x ∈ (en.issue n queue).reads, x.status ≠ .unissued) → (en.issue n queue).state = .waiting) := by
  refine ⟨rfl, ?_, fun ⟨x, hx, hstatus⟩ => ?_, fun hall => ?_⟩
  · show en.reads.modify n _ = _
    rw [modify_of_getElem? hfr, FragRead.issue_eq]
  · exact if_pos (List.any_eq_true.2 ⟨x, hx, by rw [hstatus]; rfl⟩)
  · refine if_neg fun hany => ?_
    obtain ⟨x, hx, hstatus⟩ := List.any_eq_true.1 hany
    exact hall x hx (beq_iff_eq.1 hstatus)

/-- The issue of the read that comes next, but for the finish that it may order. -/
theorem exec_fragmentReadIssue_of_next {s : State} {e : EntryIx} {en : Entry} {n : Nat} {fr : FragRead}
    (hmay : s.mayIssue .readTracker = true) (he : s.issuingEntry = some e) (hstep : s.stepPending e = false)
    (hen : s.table[e] = some en) (hn : en.nextRead = some n) (hfr : en.reads[n]? = some fr) :
    exec .fragmentReadIssue s = .next (State.finishAt
      { s.passRequest .readTracker with table := s.table.set e (some (en.issue n s.queue)) } en fr).handOver := by
  rw [exec_fragmentReadIssue hmay he hstep,
    State.issueRead_of_next (s := s.passRequest .readTracker) hen hn hfr]
  rfl

/-- Settles O45. -/
theorem fragmentReadIssueTakesSnapshot : Obligations.FragmentReadIssueTakesSnapshot := by
  refine ⟨Entry.nextRead_eq_some_iff, Entry.nextRead_eq_none_iff, fun s e en n fr hmay he hstep hen hn hfr hnot => ?_⟩
  obtain ⟨hform, hreads, hissuing, hwaiting⟩ := Entry.issue_form hfr s.queue
  refine ⟨en.issue n s.queue, ?_, hform, hreads, hissuing, hwaiting⟩
  rw [exec_fragmentReadIssue_of_next hmay he hstep hen hn hfr]
  refine exec_next_congr (congrArg State.handOver ?_)
  rw [State.finishAt]
  cases hsurface : en.surface with
  | none => rfl
  | some i =>
    refine if_neg ?_
    rw [Bool.and_eq_true, beq_iff_eq]
    rintro ⟨hfinishes, hscanning⟩
    obtain hplain | hstate := hnot
    · rw [hfinishes] at hplain; cases hplain
    · exact hstate i hsurface hscanning

/-- Settles O46: the order of a finish, taken at once or waiting. -/
theorem finishingReadFinishesFrame : Obligations.FinishingReadFinishesFrame := by
  intro s e en n fr i hmay he hstep hen hn hfr hfinishes hsurface hscanning
  obtain ⟨hform, hreads, hissuing, hwaiting⟩ := Entry.issue_form hfr s.queue
  rw [exec_fragmentReadIssue_of_next hmay he hstep hen hn hfr]
  generalize en.issue n s.queue = en' at *
  have hfinish : State.finishAt { s.passRequest .readTracker with table := s.table.set e (some en') } en fr
      = State.order { s.passRequest .readTracker with table := s.table.set e (some en') } (.finish i) := by
    rw [State.finishAt, hsurface]
    exact if_pos (by rw [hfinishes, Bool.true_and, beq_iff_eq]; exact hscanning)
  rw [hfinish]
  refine ⟨en', _, rfl, ?_, hform, hreads, hissuing, hwaiting, fun hfree hnone => ?_, fun hfree hheld => ?_, fun hbusy => ?_⟩
  · cases hbusy : s.holdBusy with
    | true => rw [State.order_of_busy _ _ (by exact hbusy)]
    | false =>
      rw [State.order_of_free _ _ (by exact hbusy), State.takeOrder_finish (by exact hscanning)]
      by_cases hheld : ∃ f ∈ s.queue, f.surface = i
      · rw [State.begin_finish_of_held (by exact hheld)]
      · rw [State.begin_finish_of_free (by exact ((s.holdBusy_eq_false_iff).1 hbusy).1)
          (by exact fun f hf h => hheld ⟨f, hf, h⟩)]
  · rw [State.order_of_free _ _ (by exact hfree), State.takeOrder_finish (by exact hscanning),
      State.begin_finish_of_free (by exact ((s.holdBusy_eq_false_iff).1 hfree).1) (by exact hnone)]
    exact ⟨rfl, ((s.holdBusy_eq_false_iff).1 hfree).1, rfl⟩
  · rw [State.order_of_free _ _ (by exact hfree), State.takeOrder_finish (by exact hscanning),
      State.begin_finish_of_held (by exact hheld)]
    exact ⟨rfl, rfl, rfl⟩
  · rw [State.order_of_busy _ _ (by exact hbusy)]
    exact ⟨rfl, rfl, rfl⟩

end Sys2Proof.Machine
end

