-- ==== Sys2Proof/Proofs/Commuting.lean ====
section
/-! PROOF. Fields that an operation neither reads nor depends on may be set before it or behind it: the port and the waiting
orders for the works of the hold queue, the requests at the downstream port for the commands that wait in the management port. -/

namespace Sys2Proof.Machine

/-! The port and the orders, through the works of the hold queue -/

/-- The state with another transaction in the port and other waiting orders. -/
def State.aside (s : State) (p : Port) (l : List Order) : State := { s with port := p, orders := l }

theorem State.complete_aside (s : State) (rel : Release) (p : Port) (l : List Order) :
    (s.aside p l).complete rel = (s.complete rel).aside p l := by
  obtain ⟨w, n, origins⟩ := rel
  cases w with
  | step i e d =>
    cases h : s.table[e] with
    | none => rw [State.complete_step_of_none h, State.complete_step_of_none (s := s.aside p l) h]; rfl
    | some en => rw [State.complete_step_of_some h, State.complete_step_of_some (s := s.aside p l) h]; rfl
  | restart i e d =>
    cases h : s.table[e] with
    | none => rw [State.complete_restart_of_none h, State.complete_restart_of_none (s := s.aside p l) h]; rfl
    | some en =>
      obtain ⟨he, hn⟩ := State.frameEvents_congr (s := s) (t := s.aside p l) rfl rfl rfl rfl i en.req d true
      rw [State.complete_restart_of_some h, State.complete_restart_of_some (s := s.aside p l) h, he, hn]
      rfl
  | finish i | stall i => rfl
  | fullFlush =>
    simp only [State.complete, State.aside]
    split <;> rfl

theorem State.begin_aside (s : State) (w : Work) (p : Port) (l : List Order) : (s.aside p l).begin w = (s.begin w).aside p l := by
  cases h : s.queue.any (s.takes w) with
  | true =>
    rw [s.begin_of_any w h, (s.aside p l).begin_of_any w h]
    rfl
  | false =>
    rw [s.begin_of_none w h, (s.aside p l).begin_of_none w h, State.complete_aside]

theorem State.takeOrder_aside (s : State) (o : Order) (p : Port) (l : List Order) :
    (s.aside p l).takeOrder o = (s.takeOrder o).aside p l := by
  cases o with
  | finish i =>
    by_cases h : s.scans[i].state = .scanning
    · rw [State.takeOrder_finish h, State.takeOrder_finish (s := s.aside p l) h, State.begin_aside]
    · rw [State.takeOrder_finish_of_not h, State.takeOrder_finish_of_not (s := s.aside p l) h]
  | stall i =>
    by_cases h : s.scans[i].state = .scanning ∧ s.scans[i].timer ≠ none
    · rw [State.takeOrder_stall h.1 h.2, State.takeOrder_stall (s := s.aside p l) h.1 h.2, State.begin_aside]
    · rw [State.takeOrder_stall_of_not h, State.takeOrder_stall_of_not (s := s.aside p l) h]
  | fullFlush => exact s.begin_aside .fullFlush p l

theorem State.takeOrders_cons (s : State) (o : Order) (os : List Order) : State.takeOrders (o :: os) s =
    if (s.takeOrder o).release.isSome = true then { s.takeOrder o with orders := os }
    else State.takeOrders os (s.takeOrder o) := rfl

/-- The orders that are taken are those of the list; those that the state holds are not looked at. -/
theorem State.takeOrders_aside (os : List Order) (s : State) (p : Port) (l : List Order) :
    State.takeOrders os (s.aside p l) = { State.takeOrders os s with port := p } := by
  induction os generalizing s with
  | nil => rfl
  | cons o os ih =>
    rw [State.takeOrders_cons, State.takeOrders_cons, State.takeOrder_aside]
    by_cases h : (s.takeOrder o).release.isSome = true
    · rw [if_pos h, if_pos (by exact h)]
      rfl
    · rw [if_neg h, if_neg (by exact h), ih]

theorem State.join_aside (s : State) (f : Frag) (p : Port) (l : List Order) : (s.aside p l).join f = (s.join f).aside p l := by
  obtain ⟨i, row, block, cells, origin, q⟩ := f
  cases origin <;> rfl

theorem State.foldl_join_aside (fs : List Frag) (s : State) (p : Port) (l : List Order) :
    fs.foldl State.join (s.aside p l) = (fs.foldl State.join s).aside p l := by
  induction fs generalizing s with
  | nil => rfl
  | cons f fs ih => rw [List.foldl_cons, List.foldl_cons, State.join_aside, ih]

/-- The handling of the fragments of a write, with the orders that it takes at its end named. -/
theorem State.handle_of_all {ds : List PendingFrag} (h : ds.all (·.hold) = true) (q : Requester) (g : Tag) (s : State) :
    State.handle q g ds s = State.takeOrders s.orders (((ds.map (·.frag)).foldl State.join s).answerWrite q g .okay) := by
  have hhold : ∀ p ∈ ds, p.hold = true := List.all_eq_true.1 h
  have hhandle := State.handle_eq q g ds s
  dsimp only at hhandle
  rw [hhandle, if_pos ((dropWhile_hold_eq_nil_iff ds).2 h), List.takeWhile_eq_self_iff.2 hhold, State.foldl_join_eq]

theorem State.handle_of_direct {ds : List PendingFrag} (h : ds.all (·.hold) = false) (q : Requester) (g : Tag) (s : State) :
    State.handle q g ds s = { ((ds.takeWhile (·.hold)).map (·.frag)).foldl State.join s with
      writeJob := some (.fragments q g (ds.dropWhile (·.hold))) } := by
  have hhandle := State.handle_eq q g ds s
  dsimp only at hhandle
  rw [hhandle, if_neg]
  rw [dropWhile_hold_eq_nil_iff, h]
  exact Bool.false_ne_true

theorem State.handle_with_port (q : Requester) (g : Tag) (ds : List PendingFrag) (s : State) (p : Port) :
    State.handle q g ds { s with port := p } = { State.handle q g ds s with port := p } := by
  cases h : ds.all (·.hold) with
  | true =>
    rw [State.handle_of_all h, State.handle_of_all h]
    rw [show ({ s with port := p } : State) = s.aside p s.orders from rfl, State.foldl_join_aside]
    exact State.takeOrders_aside _ (State.answerWrite _ q g .okay) p s.orders
  | false =>
    rw [State.handle_of_direct h, State.handle_of_direct h,
      show ({ s with port := p } : State) = s.aside p s.orders from rfl, State.foldl_join_aside, State.foldl_join_eq]
    rfl

/-! Requests at the port -/

/-- What a block has formed does not depend on the port, nor does what it hands over. -/
theorem State.handOver_with_port (s : State) (p : Port) : State.handOver { s with port := p } = { s.handOver with port := p } := by
  have h : (State.handOver { s with port := p }).handed = s.handOver.handed := by
    rw [State.handOver_handed, State.handOver_handed]
    rfl
  rw [State.handOver_eq, h, s.handOver_eq]

/-- A state is known from what it is once its requests are handed over, and from the requests that stood at the port before. -/
theorem State.eq_of_handOver_eq {s t : State} (h : s.handOver = t.handOver) (hhanded : s.handed = t.handed) : s = t := by
  have hs : s = { s.handOver with handed := s.handed } := by rw [s.handOver_eq]
  rw [hs, h, hhanded, t.handOver_eq]

/-- A command that leaves alone what the blocks have formed, and does not look at what stands at the port, may come before the
hand-over or behind it. -/
theorem State.handOver_comm (f : State → State) {s : State} (hf : ∀ h, f { s with handed := h } = { f s with handed := h })
    (hsame : SameRequests s (f s)) : (f s).handOver = f s.handOver := by
  have hfilter : (fun b => (f s).formed b && !(f s).isHanded b) = fun b => s.formed b && !s.isHanded b := by
    funext b
    rw [hsame.formed b, State.isHanded, State.isHanded, hsame.handed]
  have hnew : (f s).handOver.handed = s.handOver.handed := by
    rw [State.handOver_handed, State.handOver_handed, hsame.handed, hfilter]
  calc (f s).handOver = { f s with handed := (f s).handOver.handed } := (f s).handOver_eq
    _ = { f s with handed := s.handOver.handed } := by rw [hnew]
    _ = f { s with handed := s.handOver.handed } := (hf _).symm
    _ = f s.handOver := by rw [← s.handOver_eq]

/-! The commands that wait in the management port -/

/-- An answer over the state with other requests at the port. -/
def Answer.withHanded (a : Answer) (h : List (List Former)) : Answer := ⟨a.status, a.bytes, { a.state with handed := h }⟩

theorem State.command_with_handed (s : State) (h : List (List Former)) (c : Instr) (gated complete waits : Bool)
    {body body' : Answer} (hbody : body' = body.withHanded h) :
    State.command { s with handed := h } c gated complete waits body'
      = { s.command c gated complete waits body with handed := h } := by
  subst hbody
  unfold State.command
  dsimp only
  split
  · rfl
  · rfl
  cases complete with
  | false => rfl
  | true =>
    simp only [Bool.not_true, Bool.false_eq_true, if_false]
    by_cases hbusy : (gated && s.busy) = true
    · rw [if_pos hbusy, if_pos (by exact hbusy)]
      rfl
    · rw [if_neg hbusy, if_neg (by exact hbusy)]
      cases waits <;> rfl

theorem State.modeSet_with_handed (s : State) (m : Byte) (h : List (List Former)) :
    State.modeSet { s with handed := h } m = (s.modeSet m).withHanded h := by
  simp only [State.modeSet]
  by_cases hzero : m.toNat = 0
  · rw [if_pos hzero, if_pos hzero]
    by_cases hopen : (apertureIndices.any s.claims || !s.queue.isEmpty) = true
    · rw [if_pos hopen, if_pos (by exact hopen)]
      rfl
    · rw [if_neg hopen, if_neg (by exact hopen)]
      rfl
  · rw [if_neg hzero, if_neg hzero]
    split <;> rfl

theorem State.surfaceWrite_with_handed (s : State) (b : Byte) (l : List Byte) (h : List (List Former)) :
    State.surfaceWrite { s with handed := h } b l = (s.surfaceWrite b l).withHanded h := by
  simp only [State.surfaceWrite]
  cases surfaceIx b with
  | none => rfl
  | some i =>
    dsimp only
    by_cases huse : s.surfaceInUse i = true
    · rw [if_pos huse, if_pos (by exact huse)]
      rfl
    · rw [if_neg huse, if_neg (by exact huse)]
      cases parseSurface l with
      | none => rfl
      | some r =>
        dsimp only
        by_cases hfits : s.surfaceFits i r = true
        · rw [if_pos hfits, if_pos (by exact hfits)]
          rfl
        · rw [if_neg hfits, if_neg (by exact hfits)]
          rfl

theorem State.apertureClose_with_handed (s : State) (b : Byte) (h : List (List Former)) :
    State.apertureClose { s with handed := h } b = (s.apertureClose b).withHanded h := by
  simp only [State.apertureClose]
  cases apertureIx b with
  | none => rfl
  | some a =>
    dsimp only
    split
    · rfl
    split
    · rfl
    · rfl

/-- The commands that wait for an accepted write (R12, R29, R42; log entry 36). -/
def WaitingCommand (c : Instr) : Prop :=
  (∃ m, c = .modeSet m) ∨ (∃ b, c = .apertureClose b) ∨ ∃ b record, c = .surfaceWrite b record

/-- The state that a command which waits in the management port leaves when it comes again. -/
def State.retake (c : Instr) (s : State) : State :=
  match c with
  | .modeSet m => s.takeModeSet m
  | .surfaceWrite b l => s.takeSurfaceWrite b l
  | .apertureClose b => s.takeApertureClose b
  | _ => s

theorem exec_waitingCommand {c : Instr} (hc : WaitingCommand c) (s : State) : exec c s = .next (s.retake c) := by
  obtain ⟨m, rfl⟩ | ⟨b, rfl⟩ | ⟨b, l, rfl⟩ := hc <;> rfl

theorem State.resumePort_of_receiving {s : State} {l : List Byte} (hport : s.port = .receiving l) :
    s.resumePort = s.retake (decodeTransaction l) := by
  unfold State.resumePort
  rw [hport]
  dsimp only
  split
  · rename_i h; rw [h]; rfl
  · rename_i h; rw [h]; rfl
  · rename_i h; rw [h]; rfl
  · rename_i hmode hsurface haperture
    unfold State.retake
    split
    · rename_i m h; exact absurd h (hmode m)
    · rename_i b r h; exact absurd h (hsurface b r)
    · rename_i b h; exact absurd h (haperture b)
    · rfl

theorem State.retake_with_handed (s : State) (c : Instr) (h : List (List Former)) :
    State.retake c { s with handed := h } = { s.retake c with handed := h } := by
  unfold State.retake
  split
  · exact State.command_with_handed s h _ true true _ (s.modeSet_with_handed _ h)
  · exact State.command_with_handed s h _ true _ _ (s.surfaceWrite_with_handed _ _ h)
  · exact State.command_with_handed s h _ true true _ (s.apertureClose_with_handed _ h)
  · rfl

/-- A transaction leaves the requests as its command's effect does. -/
theorem SameRequests.command {s : State} (c : Instr) (gated complete waits : Bool) {body : Answer}
    (h : SameRequests s body.state) : SameRequests s (s.command c gated complete waits body) :=
  State.command_keeps (P := SameRequests s) (fun _ _ hu => hu.trans ⟨rfl, rfl, rfl, rfl, rfl⟩) (.refl s) c gated complete waits body
    fun _ _ _ => h

theorem SameRequests.modeSet (s : State) (m : Byte) : SameRequests s (s.modeSet m).state := by
  unfold State.modeSet
  split
  · split <;> exact ⟨rfl, rfl, rfl, rfl, rfl⟩
  · split <;> exact ⟨rfl, rfl, rfl, rfl, rfl⟩

theorem SameRequests.surfaceWrite (s : State) (b : Byte) (l : List Byte) : SameRequests s (s.surfaceWrite b l).state := by
  unfold State.surfaceWrite
  split
  · exact .refl s
  split
  · exact .refl s
  split
  · exact .refl s
  split <;> exact ⟨rfl, rfl, rfl, rfl, rfl⟩

theorem SameRequests.apertureClose (s : State) (b : Byte) : SameRequests s (s.apertureClose b).state := by
  unfold State.apertureClose
  split
  · exact .refl s
  split
  · exact .refl s
  split
  · refine ⟨rfl, rfl, rfl, rfl, ?_⟩
    show (s.release.map _).map _ = _
    rw [Option.map_map]
    rfl
  · exact ⟨rfl, rfl, rfl, rfl, rfl⟩

theorem SameRequests.retake (s : State) (c : Instr) : SameRequests s (s.retake c) := by
  unfold State.retake
  split
  · exact .command _ _ _ _ (.modeSet s _)
  · exact .command _ _ _ _ (.surfaceWrite s _ _)
  · exact .command _ _ _ _ (.apertureClose s _)
  · exact .refl s

/-- A command that waited may execute before the hand-over or behind it. -/
theorem State.retake_handOver (s : State) (c : Instr) : (s.retake c).handOver = s.handOver.retake c :=
  State.handOver_comm (State.retake c) (fun h => s.retake_with_handed c h) (.retake s c)

/-! Held entries that leave, with other orders -/

theorem State.leaves_aside (s : State) (w : Work) (f : Frag) (p : Port) (l : List Order) :
    (s.aside p l).leaves w f = (s.leaves w f).aside p l := by
  cases ho : f.origin with
  | backing => rw [s.leaves_of_backing w ho, (s.aside p l).leaves_of_backing w ho]; rfl
  | aperture a =>
    by_cases hd : s.drains a
    · rw [s.leaves_of_drains w ho hd, (s.aside p l).leaves_of_drains w ho hd]; rfl
    · rw [s.leaves_of_aperture w ho hd, (s.aside p l).leaves_of_aperture w ho hd]; rfl

theorem State.afterIssue_aside (s : State) (rel : Release) (f : Frag) (p : Port) (l : List Order) :
    (s.aside p l).afterIssue rel f = (s.afterIssue rel f).aside p l :=
  State.leaves_aside { s with release := some (rel.count f.origin), outstanding := s.outstanding ++ [DsWrite.fragment f] }
    rel.work f p l

end Sys2Proof.Machine
end

