-- ==== Sys2Proof/Proofs/WriteIssues.lean ====
section
/-! PROOF. What the issue of a write does (R39, R60, R117): of the write channel's request, and of a held entry with the end of
the work that releases it. -/

namespace Sys2Proof.Machine

/-! The write channel's request (R60) -/

theorem State.issueWrite_of_transparent {s : State} {w : WriteReq} (h : s.writeJob = some (.transparent w)) :
    s.issueWrite = { s with
      outstanding := s.outstanding ++ [.transparent w], writeJob := none
      writeResp := some ⟨w.requester, w.tag, .okay⟩ } := by
  rw [State.issueWrite, h]
  rfl

/-- The state in which the memory controller has taken a fragment, and those behind it are handled. -/
def State.afterFragment (s : State) (q : Requester) (g : Tag) (p : PendingFrag) (ps : List PendingFrag) : State :=
  State.handle q g ps { s with outstanding := s.outstanding ++ [DsWrite.fragment p.frag] }

theorem State.issueWrite_of_fragments {s : State} {q : Requester} {g : Tag} {p : PendingFrag} {ps : List PendingFrag}
    (h : s.writeJob = some (.fragments q g (p :: ps))) : s.issueWrite = (s.afterFragment q g p ps).resumePort := by
  unfold State.issueWrite
  split <;> rename_i heq <;> cases h.symm.trans heq
  rfl

theorem State.afterFragment_port (s : State) (q : Requester) (g : Tag) (p : PendingFrag) (ps : List PendingFrag) :
    (s.afterFragment q g p ps).port = s.port := by
  rw [State.afterFragment, State.handle_touches]

theorem State.afterFragment_with_port (s : State) (q : Requester) (g : Tag) (p : PendingFrag) (ps : List PendingFrag)
    (port : Port) : State.afterFragment { s with port := port } q g p ps = { s.afterFragment q g p ps with port := port } :=
  State.handle_with_port q g ps { s with outstanding := s.outstanding ++ [DsWrite.fragment p.frag] } port

theorem exec_fragment {s : State} {q : Requester} {g : Tag} {p : PendingFrag} {ps : List PendingFrag}
    (hmay : s.mayIssue .writeChannel = true) (hjob : s.writeJob = some (.fragments q g (p :: ps))) :
    exec (.downstreamWriteIssue .writeChannel) s
      = .next ((s.passRequest .writeChannel).afterFragment q g p ps).resumePort.handOver := by
  rw [exec_writeChannel hmay, State.issueWrite_of_fragments (s := s.passRequest .writeChannel) hjob]

theorem State.afterFragment_resumePort {s : State} (hport : ∀ l, s.port ≠ .receiving l) (q : Requester) (g : Tag)
    (p : PendingFrag) (ps : List PendingFrag) : (s.afterFragment q g p ps).resumePort = s.afterFragment q g p ps :=
  State.resumePort_of_not_receiving _ fun l => by rw [State.afterFragment_port]; exact hport l

theorem exec_fragment_of_quiet {s : State} {q : Requester} {g : Tag} {p : PendingFrag} {ps : List PendingFrag}
    (hmay : s.mayIssue .writeChannel = true) (hjob : s.writeJob = some (.fragments q g (p :: ps)))
    (hport : ∀ l, s.port ≠ .receiving l) :
    exec (.downstreamWriteIssue .writeChannel) s
      = .next ((s.passRequest .writeChannel).afterFragment q g p ps).handOver := by
  rw [exec_fragment hmay hjob, State.afterFragment_resumePort (s := s.passRequest .writeChannel) hport]

/-- A command that waits in the port comes again once the fragments are handled; so the issue goes as without it, and then the
command executes. -/
theorem exec_fragment_then_waiting {s u : State} {l : List Byte} {q : Requester} {g : Tag} {p : PendingFrag}
    {ps : List PendingFrag} (hmay : s.mayIssue .writeChannel = true) (hjob : s.writeJob = some (.fragments q g (p :: ps)))
    (hport : s.port = .receiving l) (hu : exec (.downstreamWriteIssue .writeChannel) { s with port := .idle } = .next u) :
    exec (.downstreamWriteIssue .writeChannel) s = .next (State.retake (decodeTransaction l) { u with port := s.port }) := by
  have hv : ((s.passRequest .writeChannel).afterFragment q g p ps).port = .receiving l :=
    (State.afterFragment_port _ _ _ _ _).trans hport
  have hidle : u = { ((s.passRequest .writeChannel).afterFragment q g p ps).handOver with port := .idle } := by
    rw [exec_fragment_of_quiet (s := { s with port := .idle }) hmay hjob nofun] at hu
    cases hu
    rw [show State.passRequest { s with port := .idle } .writeChannel
      = { s.passRequest .writeChannel with port := .idle } from rfl, State.afterFragment_with_port, State.handOver_with_port]
  have hback : ({ u with port := s.port } : State) = ((s.passRequest .writeChannel).afterFragment q g p ps).handOver := by
    rw [hidle, hport, State.handOver_eq, ← hv]
  rw [exec_fragment hmay hjob, State.resumePort_of_receiving hv, State.retake_handOver, hback]

theorem decodeTransaction_of_short {l : List Byte} (h : shortBytes l = true) : decodeTransaction l = .shortTransaction ⟨l, true⟩ := by
  cases l with
  | nil => rfl
  | cons code params =>
    unfold decodeTransaction
    exact if_pos h

/-- Settles O47. -/
theorem writeChannelIssuesInOrder : Obligations.WriteChannelIssuesInOrder := by
  refine ⟨fun s w hmay hjob => ?_, fun s q g p ps hmay hjob horders hport => ?_,
    fun s u l c q g p ps hmay hjob hport hdecode hu => ?_⟩
  · rw [exec_writeChannel hmay, State.issueWrite_of_transparent (s := s.passRequest .writeChannel) hjob]
    rfl
  · rw [exec_fragment_of_quiet hmay hjob hport]
    obtain ⟨hqueue, hmark, hheld, hanswered, hwaiting, hsame⟩ := State.handle_handled
      (s := { s.passRequest .writeChannel with outstanding := s.outstanding ++ [DsWrite.fragment p.frag] }) horders q g ps
    refine ⟨_, rfl, ?_, hqueue, hmark, hheld, hanswered, hwaiting, ?_⟩
    · rw [State.afterFragment, State.handle_touches]
      rfl
    · have houtstanding : ((s.passRequest .writeChannel).afterFragment q g p ps).outstanding
          = s.outstanding ++ [DsWrite.fragment p.frag] := by
        rw [State.afterFragment, State.handle_touches]
        rfl
      rw [houtstanding]
      exact hsame
  · rw [exec_fragment_then_waiting hmay hjob hport hu, hdecode]
    refine ⟨fun hc => (exec_waitingCommand hc _).symm, fun hshort => ?_⟩
    rw [← hdecode, decodeTransaction_of_short hshort]
    rfl

/-! The issue of a held entry (R117) -/

theorem exec_heldEntry {s : State} {rel : Release} (hmay : s.mayIssue .holdQueue = true) (hrel : s.release = some rel) :
    exec (.downstreamWriteIssue .holdQueue) s = .next ((s.passRequest .holdQueue).issueHeld rel).handOver := by
  have hissue : (s.passRequest .holdQueue).issueRelease = (s.passRequest .holdQueue).issueHeld rel := by
    rw [State.issueRelease, show (s.passRequest .holdQueue).release = some rel from hrel]
  rw [exec_holdQueue hmay, hissue]

/-- Settles O48. -/
theorem heldEntryIssued : Obligations.HeldEntryIssued := by
  intro s rel older newer f hmay hrel hqueue holder hf hmore
  obtain ⟨-, hissue⟩ := State.issueHeld_of_takes (s.passRequest .holdQueue) rel hqueue holder hf
  rw [if_pos (by rw [List.any_eq_true]; exact hmore)] at hissue
  refine ⟨(s.passRequest .holdQueue).afterIssue rel f, ?_, State.afterIssue_entryLeaves _ rel f,
    State.afterIssue_release _ rel f, State.afterIssue_eq _ rel hqueue holder hf⟩
  rw [exec_heldEntry hmay hrel, hissue]

/-- The issue of the last entry of a work: the work is completed, and then the orders are taken. -/
theorem exec_lastHeld {s : State} {rel : Release} {older newer : List Frag} {f : Frag} (hmay : s.mayIssue .holdQueue = true)
    (hrel : s.release = some rel) (hqueue : s.queue = older ++ f :: newer)
    (hothers : ∀ g ∈ older ++ newer, s.takes rel.work g = false) (hf : s.takes rel.work f = true) :
    exec (.downstreamWriteIssue .holdQueue) s = .next (State.takeOrders s.orders
      (((s.passRequest .holdQueue).afterIssue rel f).complete (rel.count f.origin))).handOver := by
  obtain ⟨-, hissue⟩ := State.issueHeld_of_takes (s.passRequest .holdQueue) rel hqueue
    (fun g hg => hothers g (List.mem_append_left _ hg)) hf
  rw [if_neg] at hissue
  · rw [exec_heldEntry hmay hrel, hissue]
    rfl
  · rw [Bool.not_eq_true, List.any_eq_false]
    intro g hg
    rw [show (s.passRequest .holdQueue).takes rel.work g = false from hothers g (List.mem_append_right _ hg)]
    exact Bool.false_ne_true

theorem State.complete_flush_of_phase {s : State} (hrelease : s.release = none) (hphase : s.phase = .softReset .flush) (n : Nat)
    (l : List ApertureIx) : s.complete ⟨.fullFlush, n, l⟩ = { s with highWater := 0, phase := .softReset (.flushed n) } := by
  rw [State.complete, State.with_release_none hrelease]
  dsimp only
  rw [hphase]

theorem State.complete_flush_of_not {s : State} (hrelease : s.release = none) (hphase : s.phase ≠ .softReset .flush) (n : Nat)
    (l : List ApertureIx) : s.complete ⟨.fullFlush, n, l⟩ = s := by
  rw [State.complete, State.with_release_none hrelease]
  dsimp only
  split
  · exact absurd ‹_› hphase
  · rfl

/-- Settles O49: the entry leaves, and the work that it ends is completed, work by work. -/
theorem lastHeldEntryCompletesWork : Obligations.LastHeldEntryCompletesWork := by
  intro s rel older newer f hmay hrel hqueue hothers hf horders
  have hafter := State.afterIssue_eq (s.passRequest .holdQueue) rel hqueue
    (fun g hg => hothers g (List.mem_append_left _ hg)) hf
  have hleaves := State.afterIssue_entryLeaves (s.passRequest .holdQueue) rel f
  refine ⟨{ (s.passRequest .holdQueue).afterIssue rel f with release := none },
    ((s.passRequest .holdQueue).afterIssue rel f).complete (rel.count f.origin), ?_, hleaves, ?_, ?_⟩
  · have hnone : (((s.passRequest .holdQueue).afterIssue rel f).complete (rel.count f.origin)).orders = [] := by
      rw [State.complete_eq, hafter]
      exact horders
    have hkept := State.takeOrders_of_none _ hnone
    rw [hnone] at hkept
    rw [exec_lastHeld hmay hrel hqueue hothers hf, horders, hkept]
  · exact congrArg (fun u : State => { u with release := none }) hafter
  rw [State.complete_without_release]
  obtain ⟨hscans, hsurfaces, htable, hphase⟩ : ((s.passRequest .holdQueue).afterIssue rel f).scans = s.scans
      ∧ ((s.passRequest .holdQueue).afterIssue rel f).surfaces = s.surfaces
      ∧ ((s.passRequest .holdQueue).afterIssue rel f).table = s.table
      ∧ ((s.passRequest .holdQueue).afterIssue rel f).phase = s.phase := by
    rw [hafter]
    exact ⟨rfl, rfl, rfl, rfl⟩
  clear hafter hleaves
  obtain ⟨v, hv, hrelease⟩ : ∃ v : State, { (s.passRequest .holdQueue).afterIssue rel f with release := none } = v
      ∧ v.release = none := ⟨_, rfl, rfl⟩
  replace hscans : v.scans = s.scans := by rw [← hv]; exact hscans
  replace hsurfaces : v.surfaces = s.surfaces := by rw [← hv]; exact hsurfaces
  replace htable : v.table = s.table := by rw [← hv]; exact htable
  replace hphase : v.phase = s.phase := by rw [← hv]; exact hphase
  rw [hv]
  clear hv
  obtain ⟨w, n, l⟩ := rel
  refine ⟨fun i e d hw => ⟨fun he => ?_, fun en he => ?_⟩, fun i e d hw => ⟨fun he => ?_, fun en he => ?_⟩, fun i hw => ?_,
    fun i hw => ?_, fun hw => ⟨fun hflush => ?_, fun hnot => ?_⟩⟩
  all_goals
    dsimp only at hw
    subst hw
    rw [Release.count]
  · rw [State.complete_step_of_none (s := v) (by rw [htable]; exact he), hscans, hsurfaces, ← hrelease]
    rfl
  · rw [State.complete_step_of_some (s := v) (by rw [htable]; exact he), hscans, hsurfaces, htable, ← hrelease]
    rfl
  · rw [State.complete_restart_of_none (s := v) (by rw [htable]; exact he), ← hrelease]
  · rw [State.complete_restart_of_some (s := v) (by rw [htable]; exact he), State.frameEvents, hscans, hsurfaces, htable,
      ← hrelease]
    rfl
  · show State.setScan { v with release := none } i v.scans[i].finished = _
    rw [State.setScan, hscans, ← hrelease]
    rfl
  · show State.raise (State.setScan { v with release := none } i v.scans[i].stalled) (stallEvent i v.scans[i]) = _
    rw [State.setScan, hscans, ← hrelease]
    rfl
  · exact State.complete_flush_of_phase hrelease (hphase.trans hflush) _ _
  · exact State.complete_flush_of_not hrelease (by rw [hphase]; exact hnot) _ _

/-! Orders that wait for a work (R110) -/

end Sys2Proof.Machine
end

