-- ==== Sys2Proof/Proofs/WaitingOrders.lean ====
section
/-! PROOF. The orders that wait while the hold queue is at work, and are taken where its work ends (R110). -/

namespace Sys2Proof.Machine

/-! Orders set aside -/

theorem State.takeOrders_with_orders (os : List Order) (s : State) (l : List Order) :
    State.takeOrders os { s with orders := l } = State.takeOrders os s := by
  have h : State.takeOrders os { s with orders := l } = { State.takeOrders os s with port := s.port } :=
    State.takeOrders_aside os s s.port l
  rw [h, State.takeOrders_eq os s]

theorem State.foldl_join_with_orders (fs : List Frag) (s : State) (l : List Order) :
    fs.foldl State.join { s with orders := l } = { fs.foldl State.join s with orders := l } := by
  have h : fs.foldl State.join { s with orders := l } = (fs.foldl State.join s).aside s.port l :=
    State.foldl_join_aside fs s s.port l
  rw [h, State.aside, State.foldl_join_eq fs s]

theorem State.afterIssue_with_orders (s : State) (rel : Release) (f : Frag) (l : List Order) :
    State.afterIssue { s with orders := l } rel f = { s.afterIssue rel f with orders := l } := by
  have h : State.afterIssue { s with orders := l } rel f = (s.afterIssue rel f).aside s.port l :=
    s.afterIssue_aside rel f s.port l
  rw [h, State.aside, State.afterIssue, State.leaves_eq]

theorem State.complete_with_orders (s : State) (rel : Release) (l : List Order) :
    State.complete { s with orders := l } rel = { s.complete rel with orders := l } := by
  have h : State.complete { s with orders := l } rel = (s.complete rel).aside s.port l := s.complete_aside rel s.port l
  rw [h, State.aside, State.complete_eq]

/-! The end of a write, and of a work -/

/-- The orders are taken behind the last fragment of a write that is handled. -/
theorem State.afterFragment_takes {ps : List PendingFrag} (hall : ps.all (·.hold) = true) (s : State) (q : Requester) (g : Tag)
    (p : PendingFrag) :
    s.afterFragment q g p ps = State.takeOrders s.orders (State.afterFragment { s with orders := [] } q g p ps) := by
  have hempty : State.afterFragment { s with orders := [] } q g p ps
      = { (((ps.map (·.frag)).foldl State.join { s with outstanding := s.outstanding ++ [DsWrite.fragment p.frag] }).answerWrite
          q g .okay) with orders := [] } := by
    rw [State.afterFragment, State.handle_of_all hall, State.takeOrders_nil]
    exact congrArg (fun u : State => { u.answerWrite q g .okay with orders := [] })
      (State.foldl_join_with_orders (ps.map (·.frag)) { s with outstanding := s.outstanding ++ [DsWrite.fragment p.frag] } [])
  rw [hempty, State.takeOrders_with_orders, State.afterFragment, State.handle_of_all hall]

/-- With a fragment left to issue the orders go on waiting. -/
theorem State.afterFragment_keeps {ps : List PendingFrag} (hdirect : ps.all (·.hold) = false) (s : State) (q : Requester) (g : Tag)
    (p : PendingFrag) :
    s.afterFragment q g p ps = { State.afterFragment { s with orders := [] } q g p ps with orders := s.orders } := by
  have hjoin := State.foldl_join_with_orders ((ps.takeWhile (·.hold)).map (·.frag))
    { s with outstanding := s.outstanding ++ [DsWrite.fragment p.frag] } []
  rw [State.afterFragment, State.afterFragment, State.handle_of_direct hdirect, State.handle_of_direct hdirect, hjoin,
    State.foldl_join_eq]

theorem State.afterFragment_handed (s : State) (q : Requester) (g : Tag) (p : PendingFrag) (ps : List PendingFrag) :
    (s.afterFragment q g p ps).handed = s.handed := by
  rw [State.afterFragment, State.handle_touches]

/-! Orders that take or leave the work at once (R99, R101) -/

theorem State.takeOrders_cons_of_work {s : State} {o : Order} (h : (s.takeOrder o).release ≠ none) (os : List Order) :
    State.takeOrders (o :: os) s = { s.takeOrder o with orders := os } := by
  rw [State.takeOrders_cons, if_pos (Option.isSome_iff_ne_none.2 h)]

theorem State.takeOrders_cons_of_none {s : State} {o : Order} (h : (s.takeOrder o).release = none) (os : List Order) :
    State.takeOrders (o :: os) s = State.takeOrders os (s.takeOrder o) := by
  rw [State.takeOrders_cons, h]
  rfl

/-- Settles O50: where a write's handling ends, where a work ends, and order by order. -/
theorem waitingOrdersAreTakenInOrder : Obligations.WaitingOrdersAreTakenInOrder := by
  refine ⟨fun s u q g p ps hmay hjob hport hu hhanded => ?_, fun s u rel older newer f hmay hrel hqueue hothers hf hu hhanded => ?_,
    State.takeOrders_nil, fun s o os => ⟨fun h => State.takeOrders_cons_of_work h os, fun h => State.takeOrders_cons_of_none h os⟩,
    fun s i hrelease => ⟨fun hstate => ⟨State.takeOrder_finish_of_not hstate, State.takeOrder_stall_of_not fun h => hstate h.1⟩,
      fun htimer => State.takeOrder_stall_of_not fun h => h.2 htimer, fun hstate hheld => ⟨?_, fun htimer => ?_⟩,
      fun hstate hfree => ⟨?_, fun htimer => ?_⟩⟩,
    fun s hrelease hphase => ⟨fun hheld => State.begin_fullFlush_of_held hheld,
      fun hempty => State.begin_fullFlush_of_empty hrelease hphase hempty⟩⟩
  · rw [exec_fragment_of_quiet (s := { s with orders := [] }) hmay hjob hport, Host.Outcome.next.injEq] at hu
    have heq := State.eq_of_handOver_eq hu ((State.afterFragment_handed _ _ _ _ _).trans hhanded.symm)
    rw [exec_fragment_of_quiet hmay hjob hport, ← heq]
    exact ⟨fun hall => exec_next_congr (congrArg State.handOver ((s.passRequest .writeChannel).afterFragment_takes hall q g p)),
      fun hdirect => exec_next_congr (congrArg State.handOver ((s.passRequest .writeChannel).afterFragment_keeps hdirect q g p))⟩
  · have holder : ∀ h ∈ older, s.takes rel.work h = false := fun h hh => hothers h (List.mem_append_left _ hh)
    rw [exec_lastHeld (s := { s with orders := [] }) hmay hrel hqueue hothers hf, Host.Outcome.next.injEq,
      State.takeOrders_nil] at hu
    have hsplit : ({ (State.afterIssue (State.passRequest { s with orders := [] } .holdQueue) rel f).complete
        (rel.count f.origin) with orders := [] } : State)
        = { ((s.passRequest .holdQueue).afterIssue rel f).complete (rel.count f.origin) with orders := [] } := by
      rw [show State.passRequest { s with orders := [] } .holdQueue = { s.passRequest .holdQueue with orders := [] } from rfl,
        State.afterIssue_with_orders, State.complete_with_orders]
    rw [hsplit] at hu
    have hkept : (((s.passRequest .holdQueue).afterIssue rel f).complete (rel.count f.origin)).handed
        = (s.passRequest .holdQueue).handed := by
      rw [State.complete_eq, State.afterIssue_eq (s.passRequest .holdQueue) rel hqueue holder hf]
    have heq := State.eq_of_handOver_eq hu (hkept.trans hhanded.symm)
    rw [exec_lastHeld hmay hrel hqueue hothers hf, ← heq]
    exact exec_next_congr (congrArg State.handOver (State.takeOrders_with_orders _ _ _).symm)
  · rw [State.takeOrder_finish hstate, State.begin_finish_of_held hheld]
  · rw [State.takeOrder_stall hstate htimer, State.begin_stall_of_held hheld]
  · rw [State.takeOrder_finish hstate, State.begin_finish_of_free hrelease hfree]
  · rw [State.takeOrder_stall hstate htimer, State.begin_stall_of_free hrelease hfree]

end Sys2Proof.Machine
end

