-- ==== Sys2Proof/Proofs/MemoryAnswers.lean ====
section
/-! PROOF. What memory answers (R40, R48 to R50, R130, R133), and the responses that leave the upstream port (R35, R37, R131). -/

namespace Sys2Proof.Machine

/-! Returns of memory (R130) -/

/-- What the return of the read at `p` makes of an entry. -/
theorem Entry.returned_form {en : Entry} {n : Nat} {fr : FragRead} (hfr : en.reads[n]? = some fr) (error : Bool)
    (data : List Byte) :
    (en.returned n error data).reads = en.reads.set n { fr with
        status := .returned, data := if !error && !en.error then some (merged fr data) else none }
      ∧ ((∀ x ∈ (en.returned n error data).reads, x.status = .returned) → (en.returned n error data).state = .responding)
      ∧ ((∃ x ∈ (en.returned n error data).reads, x.status ≠ .returned) → (en.returned n error data).state = en.state) := by
  refine ⟨modify_of_getElem? hfr _, fun hall => ?_, fun ⟨x, hx, hstatus⟩ => ?_⟩
  · exact if_pos (List.all_eq_true.2 fun x hx => by rw [hall x hx]; rfl)
  · refine if_neg fun hall => hstatus ?_
    have := List.all_eq_true.1 hall x hx
    rwa [beq_iff_eq] at this

theorem exec_return_joined {s : State} (hoff : s.phase ≠ .off) {e : EntryIx} {p : ReadPos} {en : Entry} {fr : FragRead}
    (hen : s.table[e] = some en) (hfr : en.reads[p.val]? = some fr) (hissued : fr.status = .issued) (error : Bool)
    (data : List Byte) :
    exec (.downstreamReadReturn e p error data) s = .next (s.joinReturn e en p error data) := by
  show Host.Outcome.next (if _ then _ else _) = _
  rw [if_neg (by rw [beq_iff_eq]; exact hoff), hen]
  dsimp only
  rw [if_pos ((en.awaits_iff p).2 ⟨fr, hfr, hissued⟩)]

/-- A return that no fragment read in flight waits for. -/
theorem exec_return_stray {s : State} (hoff : s.phase ≠ .off) {e : EntryIx} {p : ReadPos}
    (hnone : ∀ en fr, s.table[e] = some en → en.reads[p.val]? = some fr → fr.status ≠ .issued) (error : Bool)
    (data : List Byte) : exec (.downstreamReadReturn e p error data) s = .next (s.strayReturn e p) := by
  show Host.Outcome.next (if _ then _ else _) = _
  rw [if_neg (by rw [beq_iff_eq]; exact hoff)]
  cases hen : s.table[e] with
  | none => rfl
  | some en =>
    dsimp only
    rw [if_neg]
    rw [en.awaits_iff p]
    rintro ⟨fr, hfr, hissued⟩
    exact hnone en fr hen hfr hissued

/-- Settles O51. -/
theorem memoryAnswersAreJoined : Obligations.MemoryAnswersAreJoined := by
  refine ⟨fun s e p data hoff => ⟨fun en fr hen hfr hissued => ⟨?_, ?_⟩, fun hen hmem error => ?_, fun hnone hmem error => ?_⟩,
    fun s => ⟨fun error habandoned => ?_, fun w ws hzero hws => ?_, fun w ws hzero hws => ?_⟩⟩
  · obtain ⟨hreads, hall, hsome⟩ := Entry.returned_form hfr false data
    refine ⟨en.returned p.val false data, ?_, ?_, ?_, hall, hsome⟩
    · rw [exec_return_joined hoff hen hfr hissued]
      rfl
    · rw [Entry.returned, Bool.or_false]
    · rw [hreads]
      cases en.error <;> rfl
  · obtain ⟨hreads, hall, hsome⟩ := Entry.returned_form hfr true data
    refine ⟨en.returned p.val true data, ?_, ?_, hreads, hall, hsome⟩
    · rw [exec_return_joined hoff hen hfr hissued, State.joinReturn]
      cases en.error <;> rfl
    · rw [Entry.returned, Bool.or_true]
  · rw [exec_return_stray hoff (fun en fr hen' => nomatch hen.symm.trans hen'), State.strayReturn,
      if_pos (List.contains_iff_mem.2 hmem)]
  · rw [exec_return_stray hoff hnone, State.strayReturn, if_neg (by rw [List.contains_iff_mem]; exact hmem)]
    rfl
  · exact exec_next_congr (if_pos habandoned)
  · refine exec_next_congr ?_
    rw [if_neg (by omega), hws]
    rfl
  · refine exec_next_congr ?_
    rw [if_neg (by omega), hws]
    rfl

/-! Responses (R35, R37, R131) -/

theorem sameIds_iff (a b : ReadReq) : sameIds a b = true ↔ a.requester = b.requester ∧ a.tag = b.tag := by
  rw [sameIds, Bool.and_eq_true, beq_iff_eq, beq_iff_eq]

theorem State.entryMatches_iff (s : State) (r : ReadReq) (e : EntryIx) : s.entryMatches r e = true ↔
    ∃ en, s.table[e] = some en ∧ en.req.requester = r.requester ∧ en.req.tag = r.tag := by
  rw [State.entryMatches]
  cases s.table[e] with
  | none => simp
  | some en => simp [sameIds_iff]

theorem State.earlierWaits_iff (s : State) (e : EntryIx) (r : ReadReq) : s.earlierWaits e r = true ↔
    ∃ e' ∈ s.taken.takeWhile (· != e), ∃ en', s.table[e'] = some en' ∧ en'.req.requester = r.requester
      ∧ en'.req.tag = r.tag := by
  rw [State.earlierWaits, List.any_eq_true]
  simp only [State.entryMatches_iff]

theorem exec_respondEntry (s : State) (e : EntryIx) : exec (.readResponse (.entry e)) s = .next (s.respondEntry e) := rfl

theorem exec_respondRefused (s : State) : exec (.readResponse .refused) s = .next s.respondRefused := rfl

theorem State.respondEntry_of_some {s : State} {e : EntryIx} {en : Entry} (hen : s.table[e] = some en) : s.respondEntry e =
    if (en.state == .responding && !s.earlierWaits e en.req) = true then
      { s.setEntry e none with taken := s.taken.erase e, upRead := some en.response } else s := by
  simp only [State.respondEntry, hen]

theorem State.respondRefused_of_some {s : State} {r : ReadReq} (hr : s.refusedRead = some r) : s.respondRefused =
    if entryIndices.any (s.entryMatches r) = true then s
    else { s with refusedRead := none, upRead := some (refusedResp r) } := by
  simp only [State.respondRefused, hr]

theorem State.any_entryMatches_iff (s : State) (r : ReadReq) : entryIndices.any (s.entryMatches r) = true ↔
    ∃ (e : EntryIx) (en : Entry), s.table[e] = some en ∧ en.req.requester = r.requester ∧ en.req.tag = r.tag := by
  rw [List.any_eq_true]
  simp only [State.entryMatches_iff]
  exact ⟨fun ⟨e, _, h⟩ => ⟨e, h⟩, fun ⟨e, h⟩ => ⟨e, List.mem_finRange e, h⟩⟩

/-- Settles O52. -/
theorem responsesAreGivenInOrder : Obligations.ResponsesAreGivenInOrder := by
  intro s
  refine ⟨fun r hr => ?_, fun e en hen hstate hfirst => ?_, fun e en hen hwaits => ?_, fun r hr hmatch => ?_,
    fun r hr hnone => ?_⟩
  · refine exec_next_congr ?_
    rw [hr]
  · rw [exec_respondEntry, State.respondEntry_of_some hen, if_pos]
    · rfl
    · rw [hstate, Bool.and_eq_true, Bool.not_eq_true', Bool.eq_false_iff, ne_eq, State.earlierWaits_iff]
      refine ⟨rfl, ?_⟩
      rintro ⟨e', he', en', hen', hsame⟩
      exact hfirst e' he' en' hen' hsame
  · rw [exec_respondEntry, State.respondEntry_of_some hen, if_neg]
    rw [Bool.and_eq_true, beq_iff_eq, Bool.not_eq_true', Bool.eq_false_iff, ne_eq, State.earlierWaits_iff]
    rintro ⟨hstate, hnot⟩
    obtain hother | hearlier := hwaits
    · exact hother hstate
    · exact hnot hearlier
  · rw [exec_respondRefused, State.respondRefused_of_some hr, if_pos ((s.any_entryMatches_iff r).2 hmatch)]
  · rw [exec_respondRefused, State.respondRefused_of_some hr, if_neg]
    · rfl
    · rw [s.any_entryMatches_iff r]
      rintro ⟨e, en, hen, hsame⟩
      exact hnone e en hen hsame

end Sys2Proof.Machine
end

