-- ==== Sys2Proof/Proofs/Classification.lean ====
section
/-! PROOF. The route classifier (Chapter 3): the covered range, the owner of an address, and the checks of a request in their
order. -/

namespace Sys2Proof.Machine

/-! The covered range (R33) -/

theorem Access.low_of_incrementing {q : Access} (h : q.burst = .incrementing) : q.low = q.addr / 8 * 8 := by rw [Access.low, h]

theorem Access.high_of_incrementing {q : Access} (h : q.burst = .incrementing) : q.high = q.addr / 8 * 8 + 8 * q.len - 1 := by
  rw [Access.high, Access.low_of_incrementing h, Access.size, h]

theorem Access.range_of_fixed {q : Access} (h : q.burst = .fixed) : q.low = q.addr / 8 * 8 ∧ q.high = q.addr / 8 * 8 + 7 := by
  have hlow : q.low = q.addr / 8 * 8 := by rw [Access.low, h]
  refine ⟨hlow, ?_⟩
  rw [Access.high, hlow, Access.size, h]
  rfl

theorem Access.range_of_wrapping {q : Access} (h : q.burst = .wrapping) : q.low = q.addr / (8 * q.len) * (8 * q.len)
    ∧ q.high = q.addr / (8 * q.len) * (8 * q.len) + 8 * q.len - 1 := by
  have hlow : q.low = q.addr / (8 * q.len) * (8 * q.len) := by rw [Access.low, h]
  refine ⟨hlow, ?_⟩
  rw [Access.high, hlow, Access.size, h]

theorem Access.malformed_iff (q : Access) : q.malformed = true ↔ (q.burst = .incrementing ∧ 2 ^ 40 ≤ q.high)
    ∨ (q.burst = .wrapping ∧ ¬ (q.len = 2 ∨ q.len = 4 ∨ q.len = 8 ∨ q.len = 16)) := by
  rw [Access.malformed]
  cases q.burst with
  | incrementing => simp
  | fixed => simp
  | wrapping =>
    simp
    tauto

/-! The owner of an address (R10, R21, R43) -/

theorem overlap_true_iff (low stop low' stop' : Nat) :
    overlap low stop low' stop' = true ↔ ∃ x, low ≤ x ∧ x < stop ∧ low' ≤ x ∧ x < stop' := by
  rw [← Bool.not_eq_false, overlap_eq_false_iff]
  simp only [not_forall, not_not]

/-- Two units do not claim one address (R10, R21). -/
theorem State.claimedBy_disjoint {s : State} (hdisjoint : s.disjointClaims) {u u' : EventUnit} {low stop low' stop' : Nat}
    (h : s.ClaimedBy u low stop) (h' : s.ClaimedBy u' low' stop') (hne : u ≠ u') : overlap low stop low' stop' = false := by
  obtain ⟨hsurfaces, hmixed, hapertures⟩ := hdisjoint
  cases u with
  | slot k => exact h.elim
  | aperture a =>
    obtain ⟨hopen, rfl, rfl⟩ := h
    cases u' with
    | slot k => exact h'.elim
    | aperture b =>
      obtain ⟨hopen', rfl, rfl⟩ := h'
      exact hapertures a b (fun hab => hne (by rw [hab])) ((s.claims_iff a).2 hopen) ((s.claims_iff b).2 hopen')
    | surface j =>
      obtain ⟨hdefined, rfl, rfl⟩ := h'
      rw [overlap_comm]
      exact hmixed j a hdefined ((s.claims_iff a).2 hopen)
  | surface i =>
    obtain ⟨hdefined, rfl, rfl⟩ := h
    cases u' with
    | slot k => exact h'.elim
    | aperture b =>
      obtain ⟨hopen, rfl, rfl⟩ := h'
      exact hmixed i b hdefined ((s.claims_iff b).2 hopen)
    | surface j =>
      obtain ⟨hdefined', rfl, rfl⟩ := h'
      exact hsurfaces i j (fun hij => hne (by rw [hij])) hdefined hdefined'

/-- An address has at most one owner. -/
theorem State.owner_unique {s : State} (hdisjoint : s.disjointClaims) {u u' : EventUnit} {low stop low' stop' x : Nat}
    (h : s.ClaimedBy u low stop) (hx : low ≤ x ∧ x < stop) (h' : s.ClaimedBy u' low' stop') (hx' : low' ≤ x ∧ x < stop') :
    u = u' := by
  by_contra hne
  exact (overlap_eq_false_iff _ _ _ _).1 (State.claimedBy_disjoint hdisjoint h h' hne) x ⟨hx.1, hx.2, hx'.1, hx'.2⟩

theorem State.claimedBy_aperture {s : State} {a : ApertureIx} (h : s.apertures[a].state ≠ .closed) :
    s.ClaimedBy (.aperture a) s.apertures[a].fields.low (s.apertureEnd a) := ⟨h, rfl, rfl⟩

theorem State.claimedBy_surface {s : State} {i : SurfaceIx} (h : s.surfaces[i].defined = true) :
    s.ClaimedBy (.surface i) s.surfaces[i].low s.surfaces[i].stop := ⟨h, rfl, rfl⟩

theorem State.apertureAt_claims {s : State} {st : ApertureState} (hst : st ≠ .closed) {x : Nat} {a : ApertureIx}
    (h : s.apertureAt st x = some a) : s.ClaimedBy (.aperture a) s.apertures[a].fields.low (s.apertureEnd a)
      ∧ s.apertures[a].fields.low ≤ x ∧ x < s.apertureEnd a := by
  obtain ⟨hstate, hx⟩ := State.apertureAt_some h
  exact ⟨State.claimedBy_aperture (by rw [hstate]; exact hst), hx⟩

/-- Where a unit claims the address, no other aperture is found there. -/
theorem State.apertureAt_eq_none {s : State} (hdisjoint : s.disjointClaims) {u : EventUnit} {low stop x : Nat}
    (h : s.ClaimedBy u low stop) (hx : low ≤ x ∧ x < stop) {st : ApertureState} (hst : st ≠ .closed)
    (hother : ∀ a, u = .aperture a → s.apertures[a].state ≠ st) : s.apertureAt st x = none := by
  cases hat : s.apertureAt st x with
  | none => rfl
  | some b =>
    obtain ⟨hclaims, hb⟩ := State.apertureAt_claims hst hat
    exact absurd (State.apertureAt_some hat).1 (hother b (State.owner_unique hdisjoint h hx hclaims hb))

theorem State.apertureAt_eq_some {s : State} (hdisjoint : s.disjointClaims) {a : ApertureIx} {x : Nat}
    (hopen : s.apertures[a].state ≠ .closed) (hx : s.apertures[a].fields.low ≤ x ∧ x < s.apertureEnd a) :
    s.apertureAt s.apertures[a].state x = some a := by
  cases hat : s.apertureAt s.apertures[a].state x with
  | none =>
    rw [State.apertureAt, List.find?_eq_none] at hat
    refine absurd ?_ (hat a (List.mem_finRange a))
    rw [State.apertureHas, Bool.and_eq_true, Bool.and_eq_true, decide_eq_true_eq, decide_eq_true_eq, beq_iff_eq]
    exact ⟨rfl, hx⟩
  | some b =>
    obtain ⟨hclaims, hb⟩ := State.apertureAt_claims hopen hat
    cases State.owner_unique hdisjoint hclaims hb (State.claimedBy_aperture hopen) hx
    rfl

theorem SurfaceRec.owns_iff (r : SurfaceRec) (x : Nat) : r.owns x = true ↔ r.defined = true ∧ r.low ≤ x ∧ x < r.stop := by
  rw [SurfaceRec.owns, Bool.and_eq_true, Bool.and_eq_true, decide_eq_true_eq, decide_eq_true_eq, and_assoc]

theorem State.surfaceAt_eq_some {s : State} (hdisjoint : s.disjointClaims) {i : SurfaceIx} {x : Nat}
    (hdefined : s.surfaces[i].defined = true) (hx : s.surfaces[i].low ≤ x ∧ x < s.surfaces[i].stop) :
    s.surfaceAt x = some i := by
  cases hat : s.surfaceAt x with
  | none =>
    rw [State.surfaceAt, List.find?_eq_none] at hat
    exact absurd ((s.surfaces[i].owns_iff x).2 ⟨hdefined, hx⟩) (hat i (List.mem_finRange i))
  | some j =>
    obtain ⟨hj, hxj⟩ := State.surfaceAt_some hat
    cases State.owner_unique hdisjoint (State.claimedBy_surface hj) hxj (State.claimedBy_surface hdefined) hx
    rfl

/-! Claims that a request reaches into (R43 step 4) -/

theorem lowestClaim_eq_none_iff (l : List Claim) : lowestClaim l = none ↔ l = [] := by
  cases l with
  | nil => exact ⟨fun _ => rfl, fun _ => rfl⟩
  | cons c cs =>
    rw [lowestClaim]
    cases lowestClaim cs with
    | none => simp
    | some d =>
      dsimp only
      split <;> simp

theorem lowestClaim_some {l : List Claim} {c : Claim} (h : lowestClaim l = some c) : c ∈ l ∧ ∀ d ∈ l, c.low ≤ d.low := by
  induction l generalizing c with
  | nil => cases h
  | cons x xs ih =>
    rw [lowestClaim] at h
    cases hxs : lowestClaim xs with
    | none =>
      rw [hxs] at h
      cases h
      rw [(lowestClaim_eq_none_iff xs).1 hxs]
      exact ⟨List.mem_singleton_self x, fun d hd => by rw [List.mem_singleton.1 hd]⟩
    | some y =>
      obtain ⟨hy, hlowest⟩ := ih hxs
      rw [hxs] at h
      dsimp only at h
      split at h <;> cases h
      · refine ⟨List.mem_cons_self, fun d hd => ?_⟩
        obtain rfl | hd := List.mem_cons.1 hd
        · exact Nat.le_refl _
        · exact Nat.le_trans ‹_› (hlowest d hd)
      · refine ⟨List.mem_cons_of_mem x hy, fun d hd => ?_⟩
        obtain rfl | hd := List.mem_cons.1 hd
        · omega
        · exact hlowest d hd

theorem State.mem_claimList_iff (s : State) (c : Claim) : c ∈ s.claimList ↔ s.ClaimedBy c.owner c.low c.stop := by
  obtain ⟨low, stop, owner⟩ := c
  rw [State.claimList, List.mem_append, List.mem_map, List.mem_map]
  constructor
  · rintro (⟨a, ha, h⟩ | ⟨i, hi, h⟩)
    · cases h
      exact State.claimedBy_aperture ((s.claims_iff a).1 (List.mem_filter.1 ha).2)
    · cases h
      exact State.claimedBy_surface (List.mem_filter.1 hi).2
  · intro h
    cases owner with
    | slot k => exact h.elim
    | aperture a =>
      obtain ⟨hopen, rfl, rfl⟩ := h
      exact .inl ⟨a, List.mem_filter.2 ⟨List.mem_finRange a, (s.claims_iff a).2 hopen⟩, rfl⟩
    | surface i =>
      obtain ⟨hdefined, rfl, rfl⟩ := h
      exact .inr ⟨i, List.mem_filter.2 ⟨List.mem_finRange i, hdefined⟩, rfl⟩

/-- A request reaches into a range when they share an address. -/
theorem reaches_iff (q : Access) (c : Claim) : overlap q.low (q.high + 1) c.low c.stop = true ↔
    ∃ x, q.low ≤ x ∧ x ≤ q.high ∧ c.low ≤ x ∧ x < c.stop := by
  rw [overlap_true_iff]
  exact exists_congr fun x => by omega

theorem State.reachedClaim_none {s : State} {q : Access}
    (h : ∀ u low stop, s.ClaimedBy u low stop → ¬ ∃ x, q.low ≤ x ∧ x ≤ q.high ∧ low ≤ x ∧ x < stop) :
    s.reachedClaim q = none := by
  rw [State.reachedClaim, lowestClaim_eq_none_iff, List.filter_eq_nil_iff]
  intro c hc
  rw [reaches_iff]
  exact h c.owner c.low c.stop ((s.mem_claimList_iff c).1 hc)

/-- The claim reached is the one that begins at the lowest address: claims that begin together are one. -/
theorem State.reachedClaim_owner {s : State} (hdisjoint : s.disjointClaims) {q : Access} {u : EventUnit} {low stop : Nat}
    (hu : s.ClaimedBy u low stop) (hreach : ∃ x, q.low ≤ x ∧ x ≤ q.high ∧ low ≤ x ∧ x < stop)
    (hlowest : ∀ u' low' stop', s.ClaimedBy u' low' stop' → (∃ x, q.low ≤ x ∧ x ≤ q.high ∧ low' ≤ x ∧ x < stop') → low ≤ low') :
    ∃ c, s.reachedClaim q = some c ∧ c.owner = u := by
  have hmem : (⟨low, stop, u⟩ : Claim) ∈ s.claimList.filter fun c => overlap q.low (q.high + 1) c.low c.stop :=
    List.mem_filter.2 ⟨(s.mem_claimList_iff _).2 hu, (reaches_iff q _).2 hreach⟩
  cases hc : s.reachedClaim q with
  | none =>
    rw [State.reachedClaim, lowestClaim_eq_none_iff] at hc
    rw [hc] at hmem
    cases hmem
  | some c =>
    obtain ⟨hcmem, hcmin⟩ := lowestClaim_some hc
    obtain ⟨hclist, hcreach⟩ := List.mem_filter.1 hcmem
    have hcclaims := (s.mem_claimList_iff c).1 hclist
    have hcreach' := (reaches_iff q c).1 hcreach
    have hle : c.low ≤ low := hcmin _ hmem
    have hge : low ≤ c.low := hlowest _ _ _ hcclaims hcreach'
    obtain ⟨x, -, -, hx, hx'⟩ := hreach
    obtain ⟨y, -, -, hy, hy'⟩ := hcreach'
    exact ⟨c, rfl, State.owner_unique hdisjoint hcclaims (x := low) ⟨hle, by omega⟩ hu ⟨Nat.le_refl _, by omega⟩⟩

/-! The checks in their order (R44, R45) -/

theorem not_filterPasses_iff (f : ApertureFields) (q : Requester) :
    (!filterPasses f q) = true ↔ f.filter.any (fun ids => !ids.contains q) = true := by
  rw [filterPasses]
  cases f.filter <;> rfl

theorem burst_ne_incrementing_iff (b : Burst) : (b != .incrementing) = true ↔ b = .fixed ∨ b = .wrapping := by
  cases b <;> decide

/-- A request that starts aligned in a mapped aperture reaches beyond its view (R53). -/
theorem beyondView_iff (f : ApertureFields) (r : SurfaceRec) {q : Access} (hlen : 1 ≤ q.len) (hlow : f.base.toNat ≤ q.addr)
    (hburst : q.burst = .incrementing) (haligned : q.addr % 8 = 0) :
    (f.kind == .mapped && decide (viewExtent f r ≤ q.high - f.low)) = true ↔
      f.kind = .mapped ∧ f.base.toNat + r.width * r.height * (if f.format = .u16 then 2 else 4) ≤ q.high := by
  rw [Bool.and_eq_true, beq_iff_eq, decide_eq_true_eq, viewExtent_eq, ApertureFields.low, Access.high_of_incrementing hburst]
  refine and_congr_right fun _ => ?_
  generalize r.width * r.height * (if f.format = .u16 then 2 else 4) = extent
  omega

theorem State.classifyAperture_eq (s : State) (a : ApertureIx) {q : Access} (hlen : 1 ≤ q.len)
    (hlow : s.apertures[a].fields.base.toNat ≤ q.addr) :
    let f := s.apertures[a].fields
    let r := s.surfaces[f.surface]
    s.classifyAperture a q =
      if s.apertureEnd a ≤ q.high then .refused (.aperture a) .crossesEdge
      else if f.filter.any (fun ids => !ids.contains q.requester) = true then .refused (.aperture a) .filtered
      else if q.burst = .fixed ∨ q.burst = .wrapping then .refused (.aperture a) .burstKind
      else if q.addr % 8 ≠ 0 then .refused (.aperture a) .misaligned
      else if f.kind = .mapped ∧ f.base.toNat + r.width * r.height * (if f.format = .u16 then 2 else 4) ≤ q.high then
        .refused (.aperture a) .beyondView
      else if f.kind = .mapped then .mapped a else .stream a := by
  intro f r
  rw [State.classifyAperture]
  refine ite_congr rfl (fun _ => rfl) fun _ => ?_
  refine ite_congr (propext (not_filterPasses_iff f q.requester)) (fun _ => rfl) fun _ => ?_
  refine ite_congr (propext (burst_ne_incrementing_iff q.burst)) (fun _ => rfl) fun hburst => ?_
  refine ite_congr (propext bne_iff_ne) (fun _ => rfl) fun haligned => ?_
  have hincrementing : q.burst = .incrementing := by
    cases hb : q.burst with
    | incrementing => rfl
    | fixed | wrapping => rw [hb] at hburst; simp at hburst
  refine ite_congr (propext (beyondView_iff f r hlen hlow hincrementing (not_not.1 haligned))) (fun _ => rfl) fun _ => ?_
  show (match f.kind with
    | .mapped => Class.mapped a
    | .stream => Class.stream a) = _
  cases f.kind <;> rfl

theorem State.classifyBacking_eq (s : State) (i : SurfaceIx) (q : Access) :
    s.classifyBacking i q =
      if s.surfaces[i].base.toNat + s.surfaces[i].pitch * s.surfaces[i].height ≤ q.high then
        .refused (.surface i) .crossesEdge
      else if q.burst = .fixed ∨ q.burst = .wrapping then .refused (.surface i) .burstKind
      else if q.write = false ∧ s.surfaces[i].scanner = some q.requester then .scanner i
      else .backing i := by
  rw [State.classifyBacking]
  refine ite_congr rfl (fun _ => rfl) fun _ => ?_
  refine ite_congr (propext (burst_ne_incrementing_iff q.burst)) (fun _ => rfl) fun _ => ?_
  refine ite_congr (propext ?_) (fun _ => rfl) fun _ => rfl
  rw [Bool.and_eq_true, Bool.not_eq_true', beq_iff_eq]

theorem State.classify_of_malformed {s : State} {q : Access} (hmode : s.mode = .engaged) (h : q.malformed = true) :
    s.classify q = .malformed := by
  rw [State.classify, hmode]
  exact if_pos h

section
variable {s : State} {q : Access} (hmode : s.mode = .engaged) (hformed : q.malformed = false)
include hmode hformed

theorem State.classify_of_opened {a : ApertureIx} (h : s.apertureAt .opened q.addr = some a) :
    s.classify q = s.classifyAperture a q := by
  simp only [State.classify, hmode, hformed, h, Bool.false_eq_true, if_false]

theorem State.classify_of_draining (hopened : s.apertureAt .opened q.addr = none) {a : ApertureIx}
    (h : s.apertureAt .draining q.addr = some a) : s.classify q = .refused (.aperture a) .draining := by
  simp only [State.classify, hmode, hformed, hopened, h, Bool.false_eq_true, if_false]

theorem State.classify_of_surface (hopened : s.apertureAt .opened q.addr = none)
    (hdraining : s.apertureAt .draining q.addr = none) {i : SurfaceIx} (h : s.surfaceAt q.addr = some i) :
    s.classify q = s.classifyBacking i q := by
  simp only [State.classify, hmode, hformed, hopened, hdraining, h, Bool.false_eq_true, if_false]

theorem State.classify_of_reached (hopened : s.apertureAt .opened q.addr = none)
    (hdraining : s.apertureAt .draining q.addr = none) (hsurface : s.surfaceAt q.addr = none) {c : Claim}
    (h : s.reachedClaim q = some c) : s.classify q = .refused c.owner .crossesEdge := by
  simp only [State.classify, hmode, hformed, hopened, hdraining, hsurface, h, Bool.false_eq_true, if_false]

theorem State.classify_of_unclaimed (hopened : s.apertureAt .opened q.addr = none)
    (hdraining : s.apertureAt .draining q.addr = none) (hsurface : s.surfaceAt q.addr = none)
    (h : s.reachedClaim q = none) : s.classify q = .transparent := by
  simp only [State.classify, hmode, hformed, hopened, hdraining, hsurface, h, Bool.false_eq_true, if_false]

end

/-- Where no unit claims the start, nothing is found there. -/
theorem State.nothingAt_of_unclaimed {s : State} {x : Nat}
    (h : ∀ u low stop, s.ClaimedBy u low stop → ¬ (low ≤ x ∧ x < stop)) :
    s.apertureAt .opened x = none ∧ s.apertureAt .draining x = none ∧ s.surfaceAt x = none := by
  have hnone : ∀ st, st ≠ .closed → s.apertureAt st x = none := by
    intro st hst
    cases hat : s.apertureAt st x with
    | none => rfl
    | some a =>
      obtain ⟨hclaims, hx⟩ := State.apertureAt_claims hst hat
      exact absurd hx (h _ _ _ hclaims)
  refine ⟨hnone _ nofun, hnone _ nofun, ?_⟩
  cases hat : s.surfaceAt x with
  | none => rfl
  | some i =>
    obtain ⟨hdefined, hx⟩ := State.surfaceAt_some hat
    exact absurd hx (h _ _ _ (State.claimedBy_surface hdefined))

/-- Settles O34: by the owner of the start, and by the claims that the request reaches into. -/
theorem requestsAreClassifiedInOrder : Obligations.RequestsAreClassifiedInOrder := by
  refine ⟨fun _ => rfl, fun _ => rfl, fun q _ => ⟨fun h => ⟨Access.low_of_incrementing h, Access.high_of_incrementing h⟩,
    Access.range_of_fixed, Access.range_of_wrapping, q.malformed_iff⟩, State.classify_of_bypass,
    fun s q => State.classify_of_malformed, fun s q hmode hformed hlen hdisjoint => ⟨fun a hlow hhigh => ?_,
      fun i hdefined hlow hhigh => ?_, fun hstart => ⟨fun u low stop hu hreach hlowest => ?_, fun hnone => ?_⟩⟩⟩
  · refine ⟨fun hopened => ?_, fun hdraining => ?_⟩
    · have hat := State.apertureAt_eq_some hdisjoint (by rw [hopened]; nofun) ⟨hlow, hhigh⟩
      rw [hopened] at hat
      rw [State.classify_of_opened hmode hformed hat]
      exact s.classifyAperture_eq a hlen hlow
    · have hclosed : s.apertures[a].state ≠ .closed := by rw [hdraining]; nofun
      have hat := State.apertureAt_eq_some hdisjoint hclosed ⟨hlow, hhigh⟩
      rw [hdraining] at hat
      refine State.classify_of_draining hmode hformed ?_ hat
      refine State.apertureAt_eq_none hdisjoint (State.claimedBy_aperture hclosed) ⟨hlow, hhigh⟩ nofun fun b hb => ?_
      cases hb
      rw [hdraining]
      nofun
  · have hclaims := State.claimedBy_surface hdefined
    rw [State.classify_of_surface hmode hformed
      (State.apertureAt_eq_none hdisjoint hclaims ⟨hlow, hhigh⟩ nofun fun _ h => nomatch h)
      (State.apertureAt_eq_none hdisjoint hclaims ⟨hlow, hhigh⟩ nofun fun _ h => nomatch h)
      (State.surfaceAt_eq_some hdisjoint hdefined ⟨hlow, hhigh⟩)]
    exact s.classifyBacking_eq i q
  · obtain ⟨hopened, hdraining, hsurface⟩ := State.nothingAt_of_unclaimed hstart
    obtain ⟨c, hc, howner⟩ := State.reachedClaim_owner hdisjoint hu hreach hlowest
    rw [State.classify_of_reached hmode hformed hopened hdraining hsurface hc, howner]
  · obtain ⟨hopened, hdraining, hsurface⟩ := State.nothingAt_of_unclaimed hstart
    exact State.classify_of_unclaimed hmode hformed hopened hdraining hsurface (State.reachedClaim_none hnone)

end Sys2Proof.Machine
end

