-- ==== Sys2Proof/Proofs/Transactions.lean ====
section
/-! PROOF. The bytes of a transaction and the command they name (section 11.6). -/

namespace Sys2Proof.Machine

/-! Complete, over-long and unknown transactions (R144, R145) -/

/-- A code with no parameter count names no command. -/
theorem selectCommand_of_unknown {code : Byte} (h : paramCount code = none) (params : List Byte) :
    selectCommand code params = .unknownCommand code := by
  have hcode : ∀ n : Nat, (paramCount (BitVec.ofNat 8 n)).isSome = true → code.toNat ≠ n := fun n hn heq => by
    rw [← heq, BitVec.ofNat_toNat, BitVec.setWidth_eq, h] at hn
    cases hn
  unfold selectCommand
  split
  case h_21 => rfl
  all_goals
    rename_i heq
    exact absurd heq (hcode _ (by decide))

theorem decodeTransaction_of_unknown {code : Byte} (h : paramCount code = none) (params : List Byte) :
    decodeTransaction (code :: params) = .unknownCommand code := by
  have hshort : shortBytes (code :: params) = false := by rw [shortBytes, h]
  rw [decodeTransaction, hshort]
  exact selectCommand_of_unknown h _

theorem shortBytes_iff {code : Byte} {n : Nat} (h : paramCount code = some n) (params : List Byte) :
    shortBytes (code :: params) = true ↔ params.length < n := by
  rw [shortBytes, h]
  exact decide_eq_true_iff

/-- Enough parameter bytes: the command that the code selects, with as many as it takes. -/
theorem decodeTransaction_of_enough {code : Byte} {n : Nat} (h : paramCount code = some n) {params : List Byte}
    (hlen : n ≤ params.length) : decodeTransaction (code :: params) = selectCommand code (params.take n) := by
  rw [decodeTransaction, if_neg (by rw [shortBytes_iff h]; omega), h]
  rfl

theorem decodeTransaction_of_exact {code : Byte} {params : List Byte} (h : paramCount code = some params.length) :
    decodeTransaction (code :: params) = selectCommand code params := by
  rw [decodeTransaction_of_enough h (Nat.le_refl _), List.take_length]

theorem decodeTransaction_take {code : Byte} {n : Nat} (h : paramCount code = some n) {params : List Byte}
    (hlen : n ≤ params.length) : decodeTransaction (code :: params) = decodeTransaction (code :: params.take n) := by
  have htake : (params.take n).length = n := List.length_take_of_le hlen
  rw [decodeTransaction_of_enough h hlen, decodeTransaction_of_exact (by rw [h, htake])]

/-! Commands that carry bytes -/

theorem decodeTransaction_block {code index : Byte} {l : List Byte} {n : Nat} (h : paramCount code = some (n + 1))
    (hlen : l.length = n) : decodeTransaction (code :: index :: l) = selectCommand code (index :: l) :=
  decodeTransaction_of_exact (by rw [h, List.length_cons, hlen])

theorem decodeTransaction_surfaceWrite (b : Byte) {l : List Byte} (h : l.length = 27) :
    decodeTransaction (0x20 :: b :: l) = .surfaceWrite b l := decodeTransaction_block (by decide) h

theorem decodeTransaction_bandSet (b : Byte) {l : List Byte} (h : l.length = 7) :
    decodeTransaction (0x22 :: b :: l) = .bandSet b l := decodeTransaction_block (by decide) h

theorem decodeTransaction_apertureWrite (b : Byte) {l : List Byte} (h : l.length = 18) :
    decodeTransaction (0x30 :: b :: l) = .apertureWrite b l := decodeTransaction_block (by decide) h

theorem decodeTransaction_windowSet (b : Byte) {l : List Byte} (h : l.length = 8) :
    decodeTransaction (0x34 :: b :: l) = .windowSet b l := decodeTransaction_block (by decide) h

/-- The action byte of ALERT-MASK tells its two rows apart (log entry 32). -/
theorem decodeTransaction_alertMaskRead (high low : Byte) :
    decodeTransaction [0x52, 0x00, high, low] = .alertMaskRead (high ++ low) := rfl

theorem decodeTransaction_alertMaskWrite {b : Byte} (h : b ≠ 0x00) (high low : Byte) :
    decodeTransaction [0x52, b, high, low] = .alertMaskWrite b (high ++ low) :=
  (decodeTransaction_block (n := 2) (by decide) rfl).trans (if_neg h)

theorem word2_append (mask : BitVec 16) : (mask >>> 8).setWidth 8 ++ mask.setWidth 8 = mask := by
  refine BitVec.eq_of_getLsbD_eq fun i hi => ?_
  rw [BitVec.getLsbD_append, BitVec.getLsbD_setWidth, BitVec.getLsbD_setWidth, BitVec.getLsbD_ushiftRight]
  by_cases hlow : i < 8
  · simp [hlow]
  · have hi' : i - 8 < 8 := by omega
    simp [hlow, hi', Nat.add_sub_cancel' (Nat.le_of_not_lt hlow)]

/-- A command's own bytes name it. -/
theorem decodeTransaction_wire {c : Instr} (hformed : c.wellFormed = true)
    (h : gatedCommand c = true ∨ c = .ident ∨ ∃ b, c = .unknownCommand b) : decodeTransaction c.wire = c := by
  obtain hgated | rfl | ⟨b, rfl⟩ := h
  · cases c with
    | surfaceWrite b l => exact decodeTransaction_surfaceWrite b (beq_iff_eq.1 hformed)
    | bandSet b l => exact decodeTransaction_bandSet b (beq_iff_eq.1 hformed)
    | apertureWrite b l => exact decodeTransaction_apertureWrite b (beq_iff_eq.1 hformed)
    | windowSet b l => exact decodeTransaction_windowSet b (beq_iff_eq.1 hformed)
    | alertMaskRead mask => exact (decodeTransaction_alertMaskRead _ _).trans (congrArg _ (word2_append mask))
    | alertMaskWrite b mask =>
      exact (decodeTransaction_alertMaskWrite (bne_iff_ne.1 hformed) _ _).trans (congrArg _ (word2_append mask))
    | modeSet | modeRead | surfaceRead | scanRead | apertureRead | apertureOpen | apertureClose | cursorRead | holdRead
    | eventRead | eventCount | profileSave | profileRead | softReset => rfl
    | _ => cases hgated
  · rfl
  · exact decodeTransaction_of_unknown (Option.isNone_iff_eq_none.1 hformed) []

/-! The bytes that the part clocks out -/

theorem State.sdoByte_of_responding {s : State} {received response : List Byte} (h : s.port = .responding received response)
    (k : Nat) : s.sdoByte k = response.getD k 0xFF := by rw [State.sdoByte, h]

theorem State.sdoByte_of_silent {s : State} (h : ∀ received response, s.port ≠ .responding received response) (k : Nat) :
    s.sdoByte k = 0xFF := by
  rw [State.sdoByte]
  split
  · exact absurd ‹s.port = _› (h _ _)
  · rfl

/-- Settles O17: by the code table, and by the number of parameter bytes that a code takes. -/
theorem transactionBytesNameCommands : Obligations.TransactionBytesNameCommands := by
  refine ⟨fun b l => ?_, ?_, fun code params => ⟨fun h => decodeTransaction_of_unknown h params, fun n h => ⟨fun hlen => ?_,
    decodeTransaction_take h⟩⟩, rfl, fun c => decodeTransaction_wire, fun s received response k hport => ⟨fun b hb => ?_,
    fun hk => ?_⟩, fun s k h => State.sdoByte_of_silent h k⟩
  · exact ⟨rfl, rfl, rfl, decodeTransaction_surfaceWrite b, rfl, decodeTransaction_bandSet b, rfl,
      decodeTransaction_apertureWrite b, rfl, rfl, rfl, decodeTransaction_windowSet b, rfl, rfl, rfl, rfl,
      fun high low => ⟨decodeTransaction_alertMaskRead high low, fun h => decodeTransaction_alertMaskWrite h high low⟩,
      rfl, rfl, rfl⟩
  · decide
  · exact decodeTransaction_of_short ((shortBytes_iff h params).2 hlen)
  · rw [State.sdoByte_of_responding hport, List.getD_eq_getElem?_getD, hb]
    rfl
  · rw [State.sdoByte_of_responding hport, List.getD_eq_default _ _ hk]

end Sys2Proof.Machine
end

