-- ==== Sys2Proof/Proofs/Layouts.lean ====
section
/-! PROOF. Numbers on the management port, and the layouts that the part sends (R144, section 11.6). -/

namespace Sys2Proof.Machine

/-! Numbers, most significant byte first -/

theorem beBytes_three (n : Nat) : beBytes 3 n = [BitVec.ofNat 8 (n / 65536), BitVec.ofNat 8 (n / 256), BitVec.ofNat 8 n] := by
  simp [beBytes]

theorem beBytes_five (n : Nat) : beBytes 5 n = [BitVec.ofNat 8 (n / 4294967296), BitVec.ofNat 8 (n / 16777216),
    BitVec.ofNat 8 (n / 65536), BitVec.ofNat 8 (n / 256), BitVec.ofNat 8 n] := by
  simp [beBytes]

theorem length_beBytes (k n : Nat) : (beBytes k n).length = k := by
  induction k with
  | zero => rfl
  | succ k ih => rw [beBytes, List.length_cons, ih]

theorem foldl_bytes (a : Nat) (l : List Byte) : l.foldl (fun n b => n * 256 + b.toNat) a = a * 256 ^ l.length + beNat l := by
  induction l generalizing a with
  | nil => simp [beNat]
  | cons b l ih =>
    rw [beNat, List.foldl_cons, List.foldl_cons, ih, ih, List.length_cons, Nat.pow_succ]
    ring

theorem beNat_cons (b : Byte) (l : List Byte) : beNat (b :: l) = b.toNat * 256 ^ l.length + beNat l := by
  rw [beNat, List.foldl_cons, foldl_bytes, Nat.zero_mul, Nat.zero_add]

theorem beNat_concat (l : List Byte) (b : Byte) : beNat (l ++ [b]) = beNat l * 256 + b.toNat := by
  rw [beNat, List.foldl_append]
  rfl

theorem beNat_lt (l : List Byte) : beNat l < 256 ^ l.length := by
  induction l with
  | nil => exact Nat.one_pos
  | cons b l ih =>
    rw [beNat_cons, List.length_cons, Nat.pow_succ]
    have hb : (b.toNat + 1) * 256 ^ l.length ≤ 256 * 256 ^ l.length := Nat.mul_le_mul_right _ b.isLt
    rw [Nat.add_mul] at hb
    omega

/-- Bytes above the `k` sent are dropped. -/
theorem beBytes_add_mul (k a n : Nat) : beBytes k (a * 256 ^ k + n) = beBytes k n := by
  induction k generalizing a with
  | zero => rfl
  | succ k ih =>
    have hsplit : a * 256 ^ (k + 1) = a * 256 * 256 ^ k := by ring
    rw [beBytes, beBytes, hsplit, ih, Nat.add_comm (a * 256 * 256 ^ k), Nat.add_mul_div_right _ _ (Nat.pos_of_neZero _)]
    congr 1
    apply BitVec.eq_of_toNat_eq
    rw [BitVec.toNat_ofNat, BitVec.toNat_ofNat]
    omega

/-- The bytes of the number that bytes spell are those bytes. -/
theorem beBytes_beNat (l : List Byte) : beBytes l.length (beNat l) = l := by
  induction l with
  | nil => rfl
  | cons b l ih =>
    rw [List.length_cons, beNat_cons, beBytes, beBytes_add_mul, ih, Nat.add_comm,
      Nat.add_mul_div_right _ _ (Nat.pos_of_neZero _), Nat.div_eq_of_lt (beNat_lt l), Nat.zero_add, BitVec.ofNat_toNat,
      BitVec.setWidth_eq]

/-! Fields of a layout -/

theorem length_take_drop {l : List Byte} {start n : Nat} (h : start + n ≤ l.length) : ((l.drop start).take n).length = n := by
  rw [List.length_take, List.length_drop]
  omega

theorem beBytes_field {l : List Byte} {start n : Nat} (h : start + n ≤ l.length) :
    beBytes n (field l start n) = (l.drop start).take n := by
  have hbytes := beBytes_beNat ((l.drop start).take n)
  rw [length_take_drop h] at hbytes
  exact hbytes

theorem field_lt {l : List Byte} {start n : Nat} (h : start + n ≤ l.length) : field l start n < 256 ^ n := by
  have hlt := beNat_lt ((l.drop start).take n)
  rw [length_take_drop h] at hlt
  exact hlt

theorem field_zero (l : List Byte) (start : Nat) : field l start 0 = 0 := rfl

theorem field_succ {l : List Byte} {start n : Nat} (h : start + n < l.length) :
    field l start (n + 1) = field l start n * 256 + (l.getD (start + n) 0).toNat := by
  have hget : (l.drop start)[n]? = some (l.getD (start + n) 0) := by
    rw [List.getElem?_drop, List.getD_eq_getElem _ _ h, List.getElem?_eq_getElem h]
  rw [field, List.take_add_one, hget]
  exact beNat_concat _ _

theorem field_one {l : List Byte} {k : Nat} (h : k < l.length) : field l k 1 = (l.getD k 0).toNat := by
  rw [field_succ (by exact h), field_zero, Nat.zero_mul, Nat.zero_add]
  rfl

theorem field_two {l : List Byte} {k : Nat} (h : k + 1 < l.length) :
    field l k 2 = (l.getD k 0).toNat * 256 + (l.getD (k + 1) 0).toNat := by
  rw [field_succ h, field_one (by omega)]

theorem field_drop (l : List Byte) (n start len : Nat) : field (l.drop n) start len = field l (n + start) len := by
  rw [field, field, List.drop_drop]

/-! Layouts that the part sends -/

theorem surfaceBytes_layout (r : SurfaceRec) : surfaceBytes r =
    BitVec.ofNat 8 (bitAt r.defined 0 + bitAt (r.format == .s32) 1 + bitAt r.scanner.isSome 2 + bitAt (r.policy == .trail) 3
        + bitAt r.notify 4)
      :: BitVec.ofNat 8 (r.scanner.getD 0).toNat
      :: (beBytes 5 r.base.toNat ++ beBytes 3 r.pitch ++ beBytes 2 r.width ++ beBytes 2 r.height
        ++ beBytes 2 r.firstRow ++ beBytes 2 r.lastRow ++ beBytes 2 r.timeout ++ optBandBytes r.band) := by
  rw [surfaceBytes, beBytes_one, beBytes_one]
  rfl

/-- The four IDs of a filter fill two bytes. -/
theorem filterBytes_layout (ids : List Requester) : filterBytes ids =
    [BitVec.ofNat 8 ((ids.getD 0 0).toNat * 16 + (ids.getD 1 0).toNat),
      BitVec.ofNat 8 ((ids.getD 2 0).toNat * 16 + (ids.getD 3 0).toNat)] := by
  rw [filterBytes, beBytes_two]
  have h2 := (ids.getD 2 0).isLt
  have h3 := (ids.getD 3 0).isLt
  generalize (ids.getD 0 0).toNat = id0
  generalize (ids.getD 1 0).toNat = id1
  generalize (ids.getD 2 0).toNat = id2 at *
  generalize (ids.getD 3 0).toNat = id3 at *
  congr 1
  · congr 1
    omega
  · congr 1
    apply BitVec.eq_of_toNat_eq
    rw [BitVec.toNat_ofNat, BitVec.toNat_ofNat]
    omega

theorem optBandBytes_none : optBandBytes none = List.replicate 7 0 := by decide

theorem bandBytes_layout (b : Band) : bandBytes b = (1 : Byte) :: (beBytes 2 b.top ++ beBytes 2 b.height ++ beBytes 2 b.offset) := rfl

end Sys2Proof.Machine
end

