-- ==== Sys2Proof/Proofs/OfferedLayouts.lean ====
section
/-! PROOF. What an offered layout is read as (R144, section 11.6). -/

namespace Sys2Proof.Machine

/-- Neighbouring pieces of a layout. -/
theorem slice_append (l : List Byte) (start m n : Nat) :
    (l.drop start).take m ++ (l.drop (start + m)).take n = (l.drop start).take (m + n) := by
  rw [List.take_add, List.drop_drop]

/-! Bands and windows -/

theorem field_of_two {l : List Byte} {k n : Nat} (h : (l.drop k).take 2 = beBytes 2 n) (hn : n < 65536) : field l k 2 = n := by
  rw [field, h, beBytes_two, beNat_cons, beNat_cons, BitVec.toNat_ofNat, BitVec.toNat_ofNat]
  simp only [List.length_cons, List.length_nil, beNat, List.foldl_nil]
  omega

theorem parseBand_bandBytes {b : Band} (htop : b.top < 65536) (hheight : b.height < 65536) (hoffset : b.offset < 65536) :
    parseBand (bandBytes b) = .band b := by
  have hband : parseBand (bandBytes b) = .band ⟨field (bandBytes b) 1 2, field (bandBytes b) 3 2, field (bandBytes b) 5 2⟩ := rfl
  rw [hband, field_of_two rfl htop, field_of_two rfl hheight, field_of_two rfl hoffset]

theorem parseWindow_windowBytes {w : Window} (hcolFirst : w.colFirst < 65536) (hcolLast : w.colLast < 65536)
    (hrowFirst : w.rowFirst < 65536) (hrowLast : w.rowLast < 65536) : parseWindow (windowBytes w) = w := by
  rw [parseWindow, field_of_two rfl hcolFirst, field_of_two rfl hcolLast, field_of_two rfl hrowFirst, field_of_two rfl hrowLast]

/-- The kind of a band block is its first byte. -/
theorem parseBand_kind (k : Byte) (l : List Byte) : field (k :: l) 0 1 = k.toNat :=
  field_one (by rw [List.length_cons]; omega)

theorem parseBand_bad {k : Byte} (h : 3 ≤ k.toNat) (l : List Byte) : parseBand (k :: l) = .bad := by
  unfold parseBand
  rw [parseBand_kind]
  split
  case h_4 => rfl
  all_goals omega

/-- What a block of seven bytes is read as sends the same seven bytes back, when it is a band. -/
theorem bandBytes_of_parseBand {l : List Byte} (hlen : l.length = 7) {b : Band} (h : parseBand l = .band b) : bandBytes b = l := by
  have hkind : field l 0 1 = 1 := by
    unfold parseBand at h
    split at h
    case h_2 => assumption
    all_goals cases h
  have hfields : b = ⟨field l 1 2, field l 3 2, field l 5 2⟩ := by
    unfold parseBand at h
    rw [hkind] at h
    exact (BandBlock.band.inj h).symm
  have hhead : beBytes 1 1 = (l.drop 0).take 1 := by rw [← beBytes_field (by omega), hkind]
  rw [bandBytes, hfields, hhead, beBytes_field (by omega), beBytes_field (by omega), beBytes_field (by omega),
    slice_append l 0 1 2, slice_append l 0 3 2, slice_append l 0 5 2]
  exact List.take_of_length_le (by rw [List.drop_zero]; omega)

theorem field_of_parseBand_absent {l : List Byte} (h : parseBand l = .absent) : field l 0 1 = 0 := by
  unfold parseBand at h
  split at h
  case h_1 => assumption
  all_goals cases h

/-- Only bands of kind 00h and 01h stand in a surface record. -/
theorem parseBand_refused_iff (l : List Byte) : (parseBand l = .remove ∨ parseBand l = .bad) ↔ 2 ≤ field l 0 1 := by
  unfold parseBand
  split
  case h_1 h | h_2 h | h_3 h => rw [h]; simp
  case h_4 h0 h1 h2 =>
    refine ⟨fun _ => ?_, fun _ => .inr rfl⟩
    have hne0 : field l 0 1 ≠ 0 := h0
    have hne1 : field l 0 1 ≠ 1 := h1
    omega

/-! Surface records -/

/-- The record that a layout with the defined bit offers, with a band. -/
def offeredSurface (l : List Byte) (band : Option Band) : SurfaceRec :=
  { defined := true
    format := if bitOf l 0 1 then .s32 else .s16
    scanner := if bitOf l 0 2 then some (BitVec.ofNat 4 (field l 1 1)) else none
    policy := if bitOf l 0 3 then .trail else .pass
    notify := bitOf l 0 4
    base := BitVec.ofNat 40 (field l 2 5)
    pitch := field l 7 3
    width := field l 10 2
    height := field l 12 2
    firstRow := field l 14 2
    lastRow := field l 16 2
    timeout := field l 18 2
    band := band }

/-- Whether a bit of the first two bytes that has no meaning is set. -/
def surfaceBitsBad (l : List Byte) : Bool := bitOf l 0 5 || bitOf l 0 6 || bitOf l 0 7 || decide (16 ≤ field l 1 1)

theorem parseSurface_of_undefined {l : List Byte} (h : bitOf l 0 0 = false) : parseSurface l = some SurfaceRec.cleared := by
  rw [parseSurface, h]
  rfl

theorem parseSurface_of_bad {l : List Byte} (h : bitOf l 0 0 = true) (hbad : surfaceBitsBad l = true) : parseSurface l = none := by
  rw [parseSurface, h]
  exact (if_neg nofun).trans (if_pos hbad)

section
variable {l : List Byte} (h : bitOf l 0 0 = true) (hgood : surfaceBitsBad l = false)
include h hgood

theorem parseSurface_of_absent (hband : parseBand (l.drop 20) = .absent) : parseSurface l = some (offeredSurface l none) := by
  simp only [surfaceBitsBad] at hgood
  simp only [parseSurface, h, hgood, hband, Bool.not_true, Bool.false_eq_true, if_false, offeredSurface]

theorem parseSurface_of_band {b : Band} (hband : parseBand (l.drop 20) = .band b) :
    parseSurface l = some (offeredSurface l (some b)) := by
  simp only [surfaceBitsBad] at hgood
  simp only [parseSurface, h, hgood, hband, Bool.not_true, Bool.false_eq_true, if_false, offeredSurface]

theorem parseSurface_of_refused (hband : parseBand (l.drop 20) = .remove ∨ parseBand (l.drop 20) = .bad) :
    parseSurface l = none := by
  simp only [surfaceBitsBad] at hgood
  obtain hband | hband := hband <;>
    simp only [parseSurface, h, hgood, hband, Bool.not_true, Bool.false_eq_true, if_false]

end

theorem parseSurface_eq_none_iff {l : List Byte} (h : bitOf l 0 0 = true) :
    parseSurface l = none ↔ surfaceBitsBad l = true ∨ 2 ≤ field (l.drop 20) 0 1 := by
  rw [← parseBand_refused_iff]
  cases hbad : surfaceBitsBad l with
  | true => simp [parseSurface_of_bad h hbad]
  | false =>
    cases hband : parseBand (l.drop 20) with
    | absent => simp [parseSurface_of_absent h hbad hband]
    | band b => simp [parseSurface_of_band h hbad hband]
    | remove => simp [parseSurface_of_refused h hbad (.inl hband)]
    | bad => simp [parseSurface_of_refused h hbad (.inr hband)]

theorem parseSurface_some {l : List Byte} (h : bitOf l 0 0 = true) {r : SurfaceRec} (hr : parseSurface l = some r) :
    surfaceBitsBad l = false ∧ ∃ band, r = offeredSurface l band
      ∧ ((band = none ∧ parseBand (l.drop 20) = .absent) ∨ ∃ b, band = some b ∧ parseBand (l.drop 20) = .band b) := by
  cases hbad : surfaceBitsBad l with
  | true => cases (parseSurface_of_bad h hbad).symm.trans hr
  | false =>
    cases hband : parseBand (l.drop 20) with
    | absent =>
      cases (parseSurface_of_absent h hbad hband).symm.trans hr
      exact ⟨rfl, none, rfl, .inl ⟨rfl, rfl⟩⟩
    | band b =>
      cases (parseSurface_of_band h hbad hband).symm.trans hr
      exact ⟨rfl, some b, rfl, .inr ⟨b, rfl, rfl⟩⟩
    | remove => cases (parseSurface_of_refused h hbad (.inl hband)).symm.trans hr
    | bad => cases (parseSurface_of_refused h hbad (.inr hband)).symm.trans hr

theorem byte_of_five_bits (flags : Byte) (h5 : flags.getLsbD 5 = false) (h6 : flags.getLsbD 6 = false)
    (h7 : flags.getLsbD 7 = false) :
    BitVec.ofNat 8 (bitAt (flags.getLsbD 0) 0 + bitAt (flags.getLsbD 1) 1 + bitAt (flags.getLsbD 2) 2
      + bitAt (flags.getLsbD 3) 3 + bitAt (flags.getLsbD 4) 4) = flags := by
  revert flags
  decide

theorem high_bits_iff (flags : Byte) :
    (flags.getLsbD 5 || flags.getLsbD 6 || flags.getLsbD 7) = true ↔ 32 ≤ flags.toNat := by
  revert flags
  decide

theorem surfaceBitsBad_iff (flags id : Byte) (l : List Byte) :
    surfaceBitsBad (flags :: id :: l) = true ↔ 32 ≤ flags.toNat ∨ 16 ≤ id.toNat := by
  rw [surfaceBitsBad, Bool.or_eq_true, decide_eq_true_eq, field_one (by simp only [List.length_cons]; omega)]
  exact or_congr_left (high_bits_iff flags)

/-- An offered record is sent back as it was offered, up to the bytes of an absent scanner and band. -/
theorem surfaceBytes_offered {flags id : Byte} {l : List Byte} (hlen : l.length = 25) (h0 : flags.getLsbD 0 = true)
    (hgood : surfaceBitsBad (flags :: id :: l) = false) (band : Option Band) :
    surfaceBytes (offeredSurface (flags :: id :: l) band) =
      flags :: BitVec.ofNat 8 ((offeredSurface (flags :: id :: l) band).scanner.getD 0).toNat
        :: (l.take 18 ++ optBandBytes band) := by
  have hlen' : (flags :: id :: l).length = 27 := by rw [List.length_cons, List.length_cons, hlen]
  have hbits : (flags.getLsbD 5 = false ∧ flags.getLsbD 6 = false) ∧ flags.getLsbD 7 = false := by
    simp only [surfaceBitsBad, Bool.or_eq_false_iff] at hgood
    exact hgood.1
  have hflags := byte_of_five_bits flags hbits.1.1 hbits.1.2 hbits.2
  have hs32 : ∀ b : Bool, ((if b then StoredFormat.s32 else .s16) == .s32) = b := by decide
  have htrail : ∀ b : Bool, ((if b then TearPolicy.trail else .pass) == .trail) = b := by decide
  have hsome : ∀ b : Bool, (if b then some (BitVec.ofNat 4 (field (flags :: id :: l) 1 1)) else none).isSome = b := by
    intro b
    cases b <;> rfl
  have hbase : (BitVec.ofNat 40 (field (flags :: id :: l) 2 5)).toNat = field (flags :: id :: l) 2 5 := by
    rw [BitVec.toNat_ofNat]
    exact Nat.mod_eq_of_lt (field_lt (by omega))
  rw [surfaceBytes_layout]
  simp only [offeredSurface, hs32, htrail, hsome, hbase, beBytes_field, hlen', Nat.reduceAdd, Nat.reduceLeDiff]
  rw [slice_append _ 2 5 3, slice_append _ 2 8 2, slice_append _ 2 10 2, slice_append _ 2 12 2, slice_append _ 2 14 2,
    slice_append _ 2 16 2]
  congr 1
  rw [h0] at hflags
  exact hflags

/-- The byte of a present scanner is the one offered. -/
theorem scannerByte_offered {l : List Byte} {id : Byte} (hid : field l 1 1 = id.toNat) (hgood : surfaceBitsBad l = false)
    {band : Option Band} (h : (offeredSurface l band).scanner ≠ none) :
    BitVec.ofNat 8 ((offeredSurface l band).scanner.getD 0).toNat = id := by
  have hlt : id.toNat < 16 := by
    simp only [surfaceBitsBad, Bool.or_eq_false_iff, decide_eq_false_iff_not, hid] at hgood
    exact Nat.lt_of_not_le hgood.2
  have hscanner : (offeredSurface l band).scanner = some (BitVec.ofNat 4 id.toNat) := by
    rw [← hid]
    unfold offeredSurface at h ⊢
    exact if_pos (by by_contra hbit; exact h (if_neg hbit))
  apply BitVec.eq_of_toNat_eq
  rw [hscanner, Option.getD_some, BitVec.toNat_ofNat, BitVec.toNat_ofNat]
  omega

/-- The bytes of an offered record from the third on, as they are sent back. -/
theorem surfaceTail_offered {l : List Byte} (hlen : l.length = 25) {band : Option Band}
    (hband : (band = none ∧ parseBand (l.drop 18) = .absent) ∨ ∃ b, band = some b ∧ parseBand (l.drop 18) = .band b)
    {k : Nat} (hk : k ≤ 18 ∨ band ≠ none) : (l.take 18 ++ optBandBytes band)[k]? = l[k]? := by
  have htake : (l.take 18).length = 18 := List.length_take_of_le (by omega)
  obtain ⟨rfl, habsent⟩ | ⟨b, rfl, hb⟩ := hband
  · have hk' : k ≤ 18 := hk.resolve_right (not_not_intro rfl)
    obtain hlt | rfl := Nat.lt_or_eq_of_le hk'
    · rw [List.getElem?_append_left (by omega), List.getElem?_take_of_lt hlt]
    · have hzero := field_of_parseBand_absent habsent
      rw [field_drop, field_one (by omega), List.getD_eq_getElem _ _ (by omega)] at hzero
      rw [List.getElem?_append_right (by omega), htake, List.getElem?_eq_getElem (l := l) (by omega : 18 < l.length)]
      exact congrArg some (BitVec.eq_of_toNat_eq (y := 0#8) hzero).symm
  · have hbytes : optBandBytes (some b) = l.drop 18 :=
      bandBytes_of_parseBand (by rw [List.length_drop, hlen]) hb
    rw [hbytes, List.take_append_drop]

/-! Aperture records -/

/-- The record that a layout in its ranges offers. -/
def offeredAperture (l : List Byte) (expansion : Expansion) (surface : SurfaceIx) : ApertureFields :=
  { kind := if bitOf l 0 0 then .stream else .mapped
    exchange := bitOf l 0 1
    flipH := bitOf l 0 2
    flipV := bitOf l 0 3
    format := if bitOf l 0 4 then .u32 else .u16
    reduction := if bitOf l 0 5 then .round else .truncate
    overflow := if bitOf l 0 6 then .wrap else .discard
    openAtStart := bitOf l 0 7
    expansion := expansion
    filter := if field l 1 1 / 16 = 0 then none else some (filterIds (field l 1 1 / 16) (field l 2 2))
    base := BitVec.ofNat 40 (field l 4 5)
    surface := surface
    window := parseWindow (l.drop 10) }

/-- The ranges of base, window and filter length. -/
def apertureRangesOk (l : List Byte) : Bool :=
  field l 4 5 % 4096 == 0 && windowInRange (parseWindow (l.drop 10)) && decide (field l 1 1 / 16 ≤ 4)

theorem parseAperture_of_ok {l : List Byte} {x : Expansion} (hx : parseExpansion (field l 1 1 % 16) = some x)
    (hsurface : field l 9 1 < 4) (hok : apertureRangesOk l = true) :
    parseAperture l = some (offeredAperture l x ⟨field l 9 1, hsurface⟩) := by
  rw [apertureRangesOk] at hok
  simp only [parseAperture, hx, hsurface, hok, dif_pos, if_pos, offeredAperture]

theorem parseAperture_of_expansion {l : List Byte} (hx : parseExpansion (field l 1 1 % 16) = none) : parseAperture l = none := by
  simp only [parseAperture, hx]

theorem parseAperture_of_surface {l : List Byte} (h : ¬ field l 9 1 < 4) : parseAperture l = none := by
  unfold parseAperture
  dsimp only
  split
  · rfl
  · exact dif_neg h

theorem parseAperture_of_ranges {l : List Byte} (h : apertureRangesOk l = false) : parseAperture l = none := by
  rw [apertureRangesOk] at h
  unfold parseAperture
  dsimp only
  split
  · rfl
  · split
    · exact if_neg (by rw [h]; nofun)
    · rfl

theorem parseAperture_cases (l : List Byte) :
    (parseAperture l = none ∧ (parseExpansion (field l 1 1 % 16) = none ∨ 4 ≤ field l 9 1 ∨ apertureRangesOk l = false))
    ∨ ∃ x surface, parseAperture l = some (offeredAperture l x surface) ∧ parseExpansion (field l 1 1 % 16) = some x
        ∧ surface.val = field l 9 1 ∧ apertureRangesOk l = true := by
  cases hx : parseExpansion (field l 1 1 % 16) with
  | none => exact .inl ⟨parseAperture_of_expansion hx, .inl rfl⟩
  | some x =>
    by_cases hsurface : field l 9 1 < 4
    · cases hok : apertureRangesOk l with
      | false => exact .inl ⟨parseAperture_of_ranges hok, .inr (.inr rfl)⟩
      | true => exact .inr ⟨x, _, parseAperture_of_ok hx hsurface hok, rfl, rfl, rfl⟩
    · exact .inl ⟨parseAperture_of_surface hsurface, .inr (.inl (Nat.le_of_not_lt hsurface))⟩

theorem parseExpansion_none_iff (n : Nat) : parseExpansion n = none ↔ 3 ≤ n := by
  unfold parseExpansion
  split
  case h_4 h0 h1 h2 =>
    have hne0 : n ≠ 0 := h0
    have hne1 : n ≠ 1 := h1
    have hne2 : n ≠ 2 := h2
    exact ⟨fun _ => by omega, fun _ => rfl⟩
  all_goals simp

theorem expansionCode_of_parseExpansion {n : Nat} {x : Expansion} (h : parseExpansion n = some x) : expansionCode x = n := by
  unfold parseExpansion at h
  split at h <;> cases h <;> rfl

theorem parseAperture_eq_none_iff (l : List Byte) : parseAperture l = none ↔
    3 ≤ field l 1 1 % 16 ∨ 4 ≤ field l 9 1 ∨ apertureRangesOk l = false := by
  rw [← parseExpansion_none_iff]
  obtain ⟨hnone, hwhy⟩ | ⟨x, surface, hsome, hx, hsurface, hok⟩ := parseAperture_cases l
  · exact ⟨fun _ => hwhy, fun _ => hnone⟩
  · rw [hsome, hx, hok, ← hsurface]
    simp

theorem parseAperture_some {l : List Byte} {f : ApertureFields} (h : parseAperture l = some f) :
    ∃ x surface, f = offeredAperture l x surface ∧ parseExpansion (field l 1 1 % 16) = some x
        ∧ surface.val = field l 9 1 ∧ apertureRangesOk l = true := by
  obtain ⟨hnone, -⟩ | ⟨x, surface, hsome, hrest⟩ := parseAperture_cases l
  · cases hnone.symm.trans h
  · exact ⟨x, surface, Option.some.inj (h.symm.trans hsome), hrest⟩

theorem apertureRangesOk_eq_false_iff {l : List Byte} (hlen : l.length = 18) : apertureRangesOk l = false ↔
    5 ≤ (l.getD 1 0).toNat / 16 ∨ (l.getD 7 0).toNat % 16 ≠ 0 ∨ (l.getD 8 0).toNat ≠ 0
      ∨ windowInRange (parseWindow (l.drop 10)) = false := by
  have hbase : field l 4 5 % 4096 = (l.getD 7 0).toNat % 16 * 256 + (l.getD 8 0).toNat := by
    have hlow := (l.getD 8 0).isLt
    rw [field_succ (by omega), field_succ (by omega)]
    simp only [Nat.reduceAdd]
    omega
  rw [apertureRangesOk, Bool.and_eq_false_iff, Bool.and_eq_false_iff, beq_eq_false_iff_ne, decide_eq_false_iff_not, hbase,
    field_one (by omega)]
  constructor
  · rintro ((h | h) | h)
    · omega
    · exact .inr (.inr (.inr h))
    · omega
  · rintro (h | h | h | h)
    · omega
    · omega
    · omega
    · exact .inl (.inr h)

theorem filterIds_eq {l : List Byte} (hlen : l.length = 18) (n : Nat) : filterIds n (field l 2 2) =
    ([(l.getD 2 0).toNat / 16, (l.getD 2 0).toNat, (l.getD 3 0).toNat / 16, (l.getD 3 0).toNat].take n).map
      (BitVec.ofNat 4) := by
  have hlow := (l.getD 3 0).isLt
  rw [filterIds, List.map_take, field_two (by omega)]
  generalize (l.getD 2 0).toNat = a
  generalize (l.getD 3 0).toNat = b at *
  congr 1
  simp only [List.map_cons, List.map_nil, List.cons.injEq, and_true, ← BitVec.toNat_inj, BitVec.toNat_ofNat]
  omega

theorem byte_of_eight_bits (b : Byte) :
    BitVec.ofNat 8 (bitAt (b.getLsbD 0) 0 + bitAt (b.getLsbD 1) 1 + bitAt (b.getLsbD 2) 2 + bitAt (b.getLsbD 3) 3
      + bitAt (b.getLsbD 4) 4 + bitAt (b.getLsbD 5) 5 + bitAt (b.getLsbD 6) 6 + bitAt (b.getLsbD 7) 7) = b := by
  revert b
  decide

theorem flagsByte_offered (l : List Byte) (x : Expansion) (surface : SurfaceIx) :
    let f := offeredAperture l x surface
    BitVec.ofNat 8 (bitAt (f.kind == .stream) 0 + bitAt f.exchange 1 + bitAt f.flipH 2 + bitAt f.flipV 3
      + bitAt (f.format == .u32) 4 + bitAt (f.reduction == .round) 5 + bitAt (f.overflow == .wrap) 6 + bitAt f.openAtStart 7)
      = l.getD 0 0 := by
  have hstream : ∀ b : Bool, ((if b then ApertureKind.stream else .mapped) == .stream) = b := by decide
  have hu32 : ∀ b : Bool, ((if b then UpFormat.u32 else .u16) == .u32) = b := by decide
  have hround : ∀ b : Bool, ((if b then Reduction.round else .truncate) == .round) = b := by decide
  have hwrap : ∀ b : Bool, ((if b then Overflow.wrap else .discard) == .wrap) = b := by decide
  simp only [offeredAperture, hstream, hu32, hround, hwrap]
  exact byte_of_eight_bits (l.getD 0 0)

/-- The expansion and the filter length share a byte. -/
theorem expansionByte_offered {l : List Byte} (hlen : l.length = 18) {x : Expansion}
    (hx : parseExpansion (field l 1 1 % 16) = some x) (hok : apertureRangesOk l = true) (surface : SurfaceIx) :
    let f := offeredAperture l x surface
    BitVec.ofNat 8 (expansionCode f.expansion + 16 * (f.filter.getD []).length) = l.getD 1 0 := by
  have hle : field l 1 1 / 16 ≤ 4 := by
    rw [apertureRangesOk, Bool.and_eq_true, decide_eq_true_eq] at hok
    exact hok.2
  have hfilter : ((offeredAperture l x surface).filter.getD []).length = field l 1 1 / 16 := by
    unfold offeredAperture
    dsimp only
    split
    · exact Eq.symm ‹_ = 0›
    · simp [filterIds]
      omega
  have hbyte := field_one (l := l) (k := 1) (by omega)
  intro f
  rw [hfilter, show f.expansion = x from rfl, expansionCode_of_parseExpansion hx, Nat.mod_add_div, hbyte, BitVec.ofNat_toNat,
    BitVec.setWidth_eq]

theorem apertureBytes_layout (f : ApertureFields) (st : ApertureState) (held : Nat) : apertureBytes f st held =
    BitVec.ofNat 8 (bitAt (f.kind == .stream) 0 + bitAt f.exchange 1 + bitAt f.flipH 2 + bitAt f.flipV 3
        + bitAt (f.format == .u32) 4 + bitAt (f.reduction == .round) 5 + bitAt (f.overflow == .wrap) 6 + bitAt f.openAtStart 7)
      :: BitVec.ofNat 8 (expansionCode f.expansion + 16 * (f.filter.getD []).length)
      :: (filterBytes (f.filter.getD []) ++ (beBytes 5 f.base.toNat ++ beBytes 1 f.surface.val ++ beBytes 2 f.window.colFirst
        ++ beBytes 2 f.window.colLast ++ beBytes 2 f.window.rowFirst ++ beBytes 2 f.window.rowLast)
        ++ (beBytes 1 (apertureStateCode st) ++ beBytes 2 held)) := by
  rw [apertureBytes, beBytes_one, beBytes_one, windowBytes]
  simp only [List.append_assoc, List.cons_append, List.nil_append]

/-- An offered record is sent back as it was offered, but for the bytes of the filter. -/
theorem apertureBytes_offered {l : List Byte} (hlen : l.length = 18) {x : Expansion} {surface : SurfaceIx}
    (hx : parseExpansion (field l 1 1 % 16) = some x) (hsurface : surface.val = field l 9 1)
    (hok : apertureRangesOk l = true) :
    let f := offeredAperture l x surface
    apertureBytes f .closed 0 = l.getD 0 0 :: l.getD 1 0 :: (filterBytes (f.filter.getD []) ++ (l.drop 4).take 14
      ++ (beBytes 1 0 ++ beBytes 2 0)) := by
  intro f
  have hbase : f.base.toNat = field l 4 5 := by
    rw [show f.base = BitVec.ofNat 40 (field l 4 5) from rfl, BitVec.toNat_ofNat]
    exact Nat.mod_eq_of_lt (field_lt (by omega))
  have hwindow : f.window = ⟨field l 10 2, field l 12 2, field l 14 2, field l 16 2⟩ := by
    rw [show f.window = parseWindow (l.drop 10) from rfl, parseWindow, field_drop, field_drop, field_drop, field_drop]
  rw [apertureBytes_layout, flagsByte_offered, expansionByte_offered hlen hx hok, hbase, hwindow,
    show f.surface.val = field l 9 1 from hsurface]
  simp only [beBytes_field, hlen, Nat.reduceAdd, Nat.reduceLeDiff]
  rw [slice_append _ 4 5 1, slice_append _ 4 6 2, slice_append _ 4 8 2, slice_append _ 4 10 2, slice_append _ 4 12 2]
  rfl

theorem apertureBytes_offered_getElem? {l : List Byte} (hlen : l.length = 18) {f : ApertureFields}
    (h : parseAperture l = some f) {k : Nat} (h2 : k ≠ 2) (h3 : k ≠ 3) (hk : k < 18) :
    (apertureBytes f .closed 0)[k]? = l[k]? := by
  obtain ⟨x, surface, rfl, hx, hsurface, hok⟩ := parseAperture_some h
  rw [apertureBytes_offered hlen hx hsurface hok, filterBytes_layout]
  match k, h2, h3 with
  | 0, _, _ | 1, _, _ =>
    rw [List.getElem?_eq_getElem (l := l) (by omega), ← List.getD_eq_getElem _ 0 (by omega)]
    rfl
  | k + 4, _, _ =>
    have htake : k < ((l.drop 4).take 14).length := by
      rw [List.length_take, List.length_drop]
      omega
    show (((l.drop 4).take 14) ++ (beBytes 1 0 ++ beBytes 2 0))[k]? = _
    rw [List.getElem?_append_left htake, List.getElem?_take_of_lt (by omega), List.getElem?_drop, Nat.add_comm]

theorem filter_offered {l : List Byte} (hlen : l.length = 18) {f : ApertureFields} (h : parseAperture l = some f) :
    f.filter = if (l.getD 1 0).toNat / 16 = 0 then none else some
      (([(l.getD 2 0).toNat / 16, (l.getD 2 0).toNat, (l.getD 3 0).toNat / 16, (l.getD 3 0).toNat].take
        ((l.getD 1 0).toNat / 16)).map (BitVec.ofNat 4)) := by
  obtain ⟨x, surface, rfl, -⟩ := parseAperture_some h
  rw [← filterIds_eq hlen, ← field_one (l := l) (k := 1) (by omega)]
  rfl

theorem parseAperture_refused_iff {l : List Byte} (hlen : l.length = 18) : parseAperture l = none ↔
    3 ≤ (l.getD 1 0).toNat % 16 ∨ 5 ≤ (l.getD 1 0).toNat / 16 ∨ 4 ≤ (l.getD 9 0).toNat ∨ (l.getD 7 0).toNat % 16 ≠ 0
      ∨ (l.getD 8 0).toNat ≠ 0 ∨ windowInRange (parseWindow (l.drop 10)) = false := by
  rw [parseAperture_eq_none_iff, apertureRangesOk_eq_false_iff hlen, field_one (by omega), field_one (by omega)]
  tauto

section
variable {flags id : Byte} {l : List Byte} (hlen : l.length = 25) (h0 : flags.getLsbD 0 = true)
include hlen h0

theorem parseSurface_refused_iff :
    parseSurface (flags :: id :: l) = none ↔ 32 ≤ flags.toNat ∨ 16 ≤ id.toNat ∨ 2 ≤ (l.getD 18 0).toNat := by
  have hkind : field ((flags :: id :: l).drop 20) 0 1 = (l.getD 18 0).toNat := by
    rw [field_drop, field_one (by simp only [List.length_cons]; omega)]
    rfl
  rw [parseSurface_eq_none_iff (by exact h0), surfaceBitsBad_iff, hkind, or_assoc]

theorem parseSurface_sends_back {r : SurfaceRec} (hr : parseSurface (flags :: id :: l) = some r) :
    r.defined = true ∧ (r.scanner ≠ none → (surfaceBytes r)[1]? = some id)
      ∧ ∀ k, k ≠ 1 → (k ≤ 20 ∨ r.band ≠ none) → (surfaceBytes r)[k]? = (flags :: id :: l)[k]? := by
  obtain ⟨hgood, band, rfl, hband⟩ := parseSurface_some (by exact h0) hr
  have hid : field (flags :: id :: l) 1 1 = id.toNat := field_one (by simp only [List.length_cons]; omega)
  rw [surfaceBytes_offered hlen h0 hgood]
  refine ⟨rfl, fun hscanner => congrArg some (scannerByte_offered hid hgood hscanner), fun k h1 hk => ?_⟩
  match k, h1 with
  | 0, _ => rfl
  | k + 2, _ => exact surfaceTail_offered hlen hband (hk.imp_left fun h => by omega)

end

/-- Settles O18: the layouts sent, byte by byte, and the layouts read, by the fields they are cut into. -/
theorem layoutsOfTheManagementPort : Obligations.LayoutsOfTheManagementPort := by
  unfold Obligations.LayoutsOfTheManagementPort
  intro one two base bit band
  have htwo : ∀ n, beBytes 2 n = two n := beBytes_two
  have hbase : ∀ x : Addr, beBytes 5 x.toNat = base x := fun x => beBytes_five x.toNat
  have hband : ∀ b, optBandBytes b = band b := fun b => by
    cases b with
    | none => exact optBandBytes_none
    | some b => rw [optBandBytes, bandBytes_layout, htwo, htwo, htwo]
  refine ⟨fun r => ?_, fun f st held => ?_, fun c => ?_, fun c => ?_, fun e => ?_, rfl, rfl, rfl, rfl, rfl, rfl, rfl, rfl,
    fun n => rfl, fun b htop hheight hoffset => ?_, fun l => ⟨rfl, rfl, fun k hk => parseBand_bad hk l⟩,
    fun w hcolFirst hcolLast hrowFirst hrowLast => ?_, fun flags id l hlen => ⟨fun h0 => parseSurface_of_undefined (by exact h0),
      fun h0 => ⟨parseSurface_refused_iff hlen h0, fun r => parseSurface_sends_back hlen h0⟩⟩,
    fun l hlen => ⟨parseAperture_refused_iff hlen, fun f hf => ⟨filter_offered hlen hf, fun k h2 h3 hk =>
      apertureBytes_offered_getElem? hlen hf h2 h3 hk⟩⟩⟩
  · rw [surfaceBytes_layout, hbase, beBytes_three, htwo, htwo, htwo, htwo, htwo, hband]
    rfl
  · intro id
    rw [apertureBytes_layout, filterBytes_layout, hbase, htwo, htwo, htwo, htwo, htwo, beBytes_one, beBytes_one]
    cases st <;> cases f.expansion <;> rfl
  · rw [scanBytes, htwo, htwo, hband, beBytes_one, htwo]
    simp only [List.append_assoc, List.cons_append, List.nil_append]
    congr 1
    · cases c.state <;> rfl
    · congr 4
      · cases c.pendingBand with
        | none => exact optBandBytes_none
        | band b => exact hband (some b)
        | remove => rfl
      · cases c.timer <;> rfl
  · rw [cursorBytes, htwo, htwo, beBytes_one]
    rfl
  · rw [eventBytes, hbase, htwo, htwo, htwo, beBytes_one, beBytes_one, beBytes_one, beBytes_one, beBytes_one]
    cases e.body.unit with
    | none => rfl
    | some u => cases u <;> rfl
  · rw [← htwo, ← htwo, ← htwo, ← bandBytes_layout]
    exact parseBand_bandBytes htop hheight hoffset
  · rw [← htwo, ← htwo, ← htwo, ← htwo]
    exact parseWindow_windowBytes hcolFirst hcolLast hrowFirst hrowLast

end Sys2Proof.Machine
end

