-- ==== Sys2Proof/Proofs/PlacedPixels.lean ====
section
/-! PROOF. The pixels of a placement list lie in the surface, each within one 32-byte block of its row (R52, R55, R68). -/

namespace Sys2Proof.Machine

/-! Pixels and blocks (R55) -/

/-- A place within the surface, at the address of its row and column. -/
def SurfaceRec.Holds (r : SurfaceRec) (p : Place) : Prop :=
  p.row < r.height ∧ p.col < r.width ∧ p.addr = r.pixelAddr p.row p.col

theorem SurfaceRec.holds_placeAt {f : ApertureFields} {r : SurfaceRec} {x y : Nat} (hx : x < viewWidth f r)
    (hy : y < viewHeight f r) : r.Holds (placeAt f r x y) := by
  obtain ⟨hrow, hcol⟩ := placeAt_inside f r hx hy
  exact ⟨hrow, hcol, rfl⟩

theorem StoredFormat.size_cases (f : StoredFormat) : f.size = 2 ∨ f.size = 4 := by cases f <;> decide

theorem UpFormat.size_cases (f : UpFormat) : f.size = 2 ∨ f.size = 4 := by cases f <;> decide

/-- Rows start at multiples of 64 bytes, so a pixel does not cross a block. -/
theorem SurfaceRec.pixelAddr_in_block {r : SurfaceRec} (hr : r.fieldsOk = true) (row col : Nat) :
    r.pixelAddr row col % 32 + r.format.size ≤ 32 := by
  obtain ⟨hbase, -, -, hpitch, -⟩ := r.fieldsOk_iff.1 hr
  obtain ⟨m, hm⟩ := Nat.dvd_of_mod_eq_zero hpitch
  have hrow : row * r.pitch = 64 * (row * m) := by rw [hm]; ring
  rw [SurfaceRec.pixelAddr, SurfaceRec.low, hrow]
  obtain hsize | hsize := r.format.size_cases <;> rw [hsize] <;> omega

section
variable {r : SurfaceRec} (hr : r.fieldsOk = true) {p : Place} (hp : r.Holds p)
include hr hp

theorem SurfaceRec.Holds.in_block : p.addr % 32 + r.format.size ≤ 32 := by
  rw [hp.2.2]
  exact SurfaceRec.pixelAddr_in_block hr p.row p.col

theorem SurfaceRec.Holds.below_pitch : p.col * r.format.size + r.format.size ≤ r.pitch := by
  obtain ⟨-, -, -, -, -, -, -, -, -, hwidth, -⟩ := r.fieldsOk_iff.1 hr
  rw [← StoredFormat.size_eq] at hwidth
  calc p.col * r.format.size + r.format.size = (p.col + 1) * r.format.size := by ring
    _ ≤ r.width * r.format.size := Nat.mul_le_mul_right _ hp.2.1
    _ ≤ r.pitch := hwidth

theorem SurfaceRec.Holds.addr_lt : p.addr < 2 ^ 40 := by
  obtain ⟨-, -, -, -, -, -, -, -, -, -, hstop, -⟩ := r.fieldsOk_iff.1 hr
  have hcol := hp.below_pitch hr
  have hrow : (p.row + 1) * r.pitch ≤ r.height * r.pitch := Nat.mul_le_mul_right _ hp.1
  have hsize := r.format.size_cases
  rw [Nat.mul_comm r.height, Nat.add_mul] at hrow
  rw [hp.2.2, SurfaceRec.pixelAddr, SurfaceRec.low]
  omega

/-- The block of a pixel begins in the pixel's row. -/
theorem SurfaceRec.Holds.row_of_block : p.row = r.rowOf (blockOf p.addr) := by
  obtain ⟨hbase, hpos, -, hpitch, -⟩ := r.fieldsOk_iff.1 hr
  obtain ⟨m, hm⟩ := Nat.dvd_of_mod_eq_zero hpitch
  have hrow : p.row * r.pitch = 64 * (p.row * m) := by rw [hm]; ring
  have hcol := hp.below_pitch hr
  have hsize := r.format.size_cases
  have hblock : blockOf p.addr - r.low = p.col * r.format.size / 32 * 32 + r.pitch * p.row := by
    rw [hp.2.2, SurfaceRec.pixelAddr, SurfaceRec.low, Nat.mul_comm r.pitch, hrow, blockOf]
    omega
  rw [SurfaceRec.rowOf, hblock, Nat.add_mul_div_left _ _ (by omega), Nat.div_eq_of_lt (by omega), Nat.zero_add]

end

/-! The lists of requests through an aperture (R52, R68) -/

theorem viewWidth_mul_viewHeight (f : ApertureFields) (r : SurfaceRec) :
    viewWidth f r * viewHeight f r = r.width * r.height := by
  rw [viewWidth, viewHeight]
  split
  · exact Nat.mul_comm _ _
  · rfl

/-- A mapped request that ends in the view names pixels of the view only. -/
theorem ThroughAperture.pixel_in_view {s : State} {a : ApertureIx} {q : Access} (h : ThroughAperture s a q)
    (hkind : s.apertures[a].fields.kind = .mapped) {k : Nat} (hk : k < 8 * q.len / s.apertures[a].fields.format.size) :
    let f := s.apertures[a].fields
    let i := (q.addr - f.base.toNat) / f.format.size + k
    i % viewWidth f (s.surfaceOf a) < viewWidth f (s.surfaceOf a)
      ∧ i / viewWidth f (s.surfaceOf a) < viewHeight f (s.surfaceOf a) := by
  intro f i
  have hview := h.view hkind
  have hlow := h.low
  have hhigh := Access.high_of_incrementing h.burst
  have haligned := h.aligned
  have hin : i < viewWidth f (s.surfaceOf a) * viewHeight f (s.surfaceOf a) := by
    rw [viewWidth_mul_viewHeight]
    rw [viewExtent_eq, ← UpFormat.size_eq] at hview
    rw [ApertureFields.low] at hlow hview
    generalize (s.surfaceOf a).width * (s.surfaceOf a).height = pixels at hview
    show (q.addr - s.apertures[a].fields.base.toNat) / s.apertures[a].fields.format.size + k < pixels
    obtain hsize | hsize := s.apertures[a].fields.format.size_cases <;> rw [hsize] at hk hview ⊢ <;> omega
  have hwidth : 0 < viewWidth f (s.surfaceOf a) := by
    refine Nat.pos_of_ne_zero fun hzero => ?_
    rw [hzero, Nat.zero_mul] at hin
    exact Nat.not_lt_zero _ hin
  exact ⟨Nat.mod_lt _ hwidth, Nat.div_lt_of_lt_mul hin⟩

/-- A running cursor in its window names a pixel of the view. -/
theorem Cursor.in_view {f : ApertureFields} {r : SurfaceRec} (hview : windowInView f r f.window = true) {c : Cursor}
    (hc : c.within f.window = true) (hrunning : c.exhausted = false) : c.col < viewWidth f r ∧ c.row < viewHeight f r := by
  obtain ⟨hcol, hrow⟩ := (windowInView_iff f r f.window).1 hview
  simp only [Cursor.within, hrunning, Bool.false_or, Bool.and_eq_true, decide_eq_true_eq] at hc
  rw [viewWidth, viewHeight]
  omega

theorem cursorMet_within {f : ApertureFields} (hvalid : f.valid = true) (addr : Addr) {c : Cursor}
    (hc : c.within f.window = true) (k : Nat) : (cursorMet f addr c k).within f.window = true := by
  have hrange := ApertureFields.windowInRange_of_valid hvalid
  have hstart : (cursorFor f addr c).within f.window = true := by
    rw [cursorFor]
    split
    · exact Cursor.start_within hrange
    · exact hc
  simp only [windowInRange, Bool.and_eq_true, decide_eq_true_eq] at hrange
  exact Cursor.after_within hrange.1.2 hrange.2 _ _ hstart

/-- Every place of a mapped placement list lies in the surface. -/
theorem ThroughAperture.mappedPlacement_holds {s : State} {a : ApertureIx} {q : Access} (hthrough : ThroughAperture s a q)
    (hkind : s.apertures[a].fields.kind = .mapped) {e : PlaceEntry}
    (he : e ∈ mappedPlacement s.apertures[a].fields (s.surfaceOf a) q) {p : Place} (hp : e.place = some p) :
    (s.surfaceOf a).Holds p := by
  obtain ⟨k, hk, rfl⟩ := List.mem_map.1 he
  obtain ⟨hx, hy⟩ := hthrough.pixel_in_view hkind (List.mem_range.1 hk)
  have hlow : q.low = q.addr := by
    have haligned := hthrough.aligned
    rw [Access.low_of_incrementing hthrough.burst]
    omega
  rw [← Option.some.inj hp, hlow]
  exact SurfaceRec.holds_placeAt hx hy

theorem TablesOk.aperture {s : State} (h : TablesOk s) (a : ApertureIx) :
    ApertureOk s.apertures[a] (s.surfaceOf a) s.cursors[a] s.apSlots[a].image := ((tablesOk_iff s).1 h).2.1 a

section
variable {s : State} (h : TablesOk s) {a : ApertureIx} {q : Access} (hthrough : ThroughAperture s a q)
include h hthrough

theorem ThroughAperture.surface_fieldsOk : (s.surfaceOf a).fieldsOk = true := by
  have hopen : s.apertures[a].state ≠ .closed := by rw [hthrough.opened]; nofun
  rw [← SurfaceRec.valid_of_defined ((h.aperture a).defined hopen)]
  exact (((tablesOk_iff s).1 h).1 _).valid

/-- A running pixel of a stream request lies in the surface. -/
theorem ThroughAperture.cursor_holds (hkind : s.apertures[a].fields.kind = .stream) (addr : Addr) (k : Nat)
    (hrunning : (cursorMet s.apertures[a].fields addr s.cursors[a] k).exhausted = false) :
    (s.surfaceOf a).Holds (placeAt s.apertures[a].fields (s.surfaceOf a)
      (cursorMet s.apertures[a].fields addr s.cursors[a] k).col (cursorMet s.apertures[a].fields addr s.cursors[a] k).row) := by
  have hok := h.aperture a
  have hopen : s.apertures[a].state ≠ .closed := by rw [hthrough.opened]; nofun
  have hwithin := cursorMet_within hok.valid addr (hok.within hopen hkind) k
  obtain ⟨hcol, hrow⟩ := Cursor.in_view (hok.view hopen hkind) hwithin hrunning
  exact SurfaceRec.holds_placeAt hcol hrow

/-- Every place of a stream placement list lies in the surface. -/
theorem ThroughAperture.streamPlacement_holds (hkind : s.apertures[a].fields.kind = .stream) {addr : Addr}
    (hstart : streamCursor s.apertures[a].fields q s.cursors[a] = cursorFor s.apertures[a].fields addr s.cursors[a])
    {e : PlaceEntry} (he : e ∈ streamPlacement s.apertures[a].fields (s.surfaceOf a) q s.cursors[a]) {p : Place}
    (hp : e.place = some p) : (s.surfaceOf a).Holds p := by
  rw [streamPlacement_eq _ _ _ addr _ hstart] at he
  obtain ⟨k, -, rfl⟩ := List.mem_map.1 he
  cases hx : (cursorMet s.apertures[a].fields addr s.cursors[a] k).exhausted with
  | true =>
    rw [hx] at hp
    cases hp
  | false =>
    rw [hx] at hp
    rw [← Option.some.inj hp]
    exact hthrough.cursor_holds h hkind addr k hx

end

end Sys2Proof.Machine
end

