-- ==== Sys2Proof/Proofs/WrittenBytes.lean ====
section
/-! PROOF. The fragments of a write hold the last byte placed at each position (R57, R59, R60, R62, R72). -/

namespace Sys2Proof.Machine

/-! The bytes of a piece -/

/-- The writes of a piece laid from address `a` on. -/
def pieceWrites (a : Nat) : List (Option Byte) → List (Nat × Byte)
  | [] => []
  | none :: bs => pieceWrites (a + 1) bs
  | some v :: bs => (a, v) :: pieceWrites (a + 1) bs

theorem mem_pieceWrites {a : Nat} {bs : List (Option Byte)} {p : Nat × Byte} (h : p ∈ pieceWrites a bs) :
    a ≤ p.1 ∧ p.1 < a + bs.length := by
  induction bs generalizing a with
  | nil => cases h
  | cons b bs ih =>
    cases b with
    | none =>
      have hp := ih h
      rw [List.length_cons]
      omega
    | some v =>
      rw [List.length_cons]
      obtain rfl | h := List.mem_cons.1 h
      · exact ⟨Nat.le_refl _, by omega⟩
      · have hp := ih h
        omega

theorem lastWrite_nil (x : Nat) : lastWrite [] x = none := rfl

/-- Later writes hide earlier ones. -/
theorem lastWrite_append (l m : List (Nat × Byte)) (x : Nat) : lastWrite (l ++ m) x = (lastWrite m x).or (lastWrite l x) := by
  rw [lastWrite, lastWrite, lastWrite, List.reverse_append, List.find?_append]
  cases m.reverse.find? fun p => decide (p.1 = x) <;> rfl

theorem lastWrite_singleton (a : Nat) (v : Byte) (x : Nat) : lastWrite [(a, v)] x = if a = x then some v else none := by
  rw [lastWrite, List.reverse_singleton, List.find?_singleton]
  by_cases h : a = x <;> simp [h]

theorem lastWrite_eq_none {l : List (Nat × Byte)} {x : Nat} (h : ∀ p ∈ l, p.1 ≠ x) : lastWrite l x = none := by
  rw [lastWrite, Option.map_eq_none_iff, List.find?_eq_none]
  intro p hp
  rw [decide_eq_true_eq]
  exact h p (List.mem_reverse.1 hp)

/-- A piece writes each of its bytes once. -/
theorem lastWrite_pieceWrites (a : Nat) (bs : List (Option Byte)) (x : Nat) :
    lastWrite (pieceWrites a bs) x = if a ≤ x then bs[x - a]?.join else none := by
  induction bs generalizing a with
  | nil => simp [pieceWrites, lastWrite_nil]
  | cons b bs ih =>
    have hrest : (lastWrite (pieceWrites (a + 1) bs) x) = if a < x then bs[x - a - 1]?.join else none := by
      rw [ih, Nat.sub_sub]
      rfl
    cases b with
    | none =>
      rw [pieceWrites, hrest]
      obtain hlt | rfl | hgt := Nat.lt_trichotomy a x
      · rw [if_pos hlt, if_pos hlt.le, List.getElem?_cons, if_neg (by omega)]
      · simp
      · rw [if_neg (by omega), if_neg (by omega)]
    | some v =>
      rw [pieceWrites, ← List.singleton_append, lastWrite_append, lastWrite_singleton, hrest]
      obtain hlt | rfl | hgt := Nat.lt_trichotomy a x
      · rw [if_pos hlt, if_neg (by omega), if_pos hlt.le, List.getElem?_cons, if_neg (by omega), Option.or_none]
      · simp
      · rw [if_neg (by omega), if_neg (by omega), if_neg (by omega), Option.or_none]

/-! A piece joins the fragments -/

/-- What laying a piece in its block leaves at a position of that block. -/
theorem lay_lastWrite {cells : Cells} {l : List (Nat × Byte)} {block a : Nat} (hblock : block = blockOf a)
    (hcells : ∀ k : Fin 32, cells[k] = lastWrite l (block + k.val)) (bs : List (Option Byte)) (k : Fin 32) :
    (cells.lay (positionOf a) bs)[k] = lastWrite (l ++ pieceWrites a bs) (block + k.val) := by
  have hlay := Cells.lay_getElem bs cells (positionOf a) k.val k.isLt
  have hpos : (positionOf a ≤ k.val) = (a ≤ block + k.val) := by
    rw [hblock, blockOf, positionOf]
    exact propext ⟨fun h => by omega, fun h => by omega⟩
  have hindex : block + k.val - a = k.val - positionOf a := by
    rw [hblock, blockOf, positionOf]
    omega
  have hk : cells[k.val] = lastWrite l (block + k.val) := hcells k
  rw [lastWrite_append, lastWrite_pieceWrites, hindex, ← hk]
  refine hlay.trans ?_
  simp only [hpos]
  split
  · rfl
  · rw [Option.none_or]

/-- A piece writes nothing in another block. -/
theorem lastWrite_other_block {a : Nat} {bs : List (Option Byte)} (hfit : a % 32 + bs.length ≤ 32) {block : Nat}
    (haligned : block % 32 = 0) (hne : block ≠ blockOf a) (k : Fin 32) :
    lastWrite (pieceWrites a bs) (block + k.val) = none := by
  refine lastWrite_eq_none fun p hp heq => hne ?_
  have hrange := mem_pieceWrites hp
  have hk := k.isLt
  rw [blockOf]
  omega

theorem FragmentsOf.nil (i : SurfaceIx) (r : SurfaceRec) (o : Origin) (q : Requester) : FragmentsOf [] i r o q [] :=
  ⟨rfl, nofun⟩

/-- One more piece: the fragments hold its bytes too. -/
theorem FragmentsOf.addPiece {frags : List Frag} {i : SurfaceIx} {r : SurfaceRec} {o : Origin} {q : Requester}
    {writes : List (Nat × Byte)} (h : FragmentsOf frags i r o q writes) {a : Nat} (ha : a < 2 ^ 40)
    {bs : List (Option Byte)} (hfit : a % 32 + bs.length ≤ 32) (hne : pieceWrites a bs ≠ []) {row : Nat}
    (hrow : row = r.rowOf (blockOf a)) :
    FragmentsOf (addPiece ⟨i, row, BitVec.ofNat 40 (blockOf a), Cells.empty, o, q⟩ (positionOf a) bs frags) i r o q
      (writes ++ pieceWrites a bs) := by
  obtain ⟨hblocks, hfrags⟩ := h
  have hblock : (BitVec.ofNat 40 (blockOf a)).toNat = blockOf a := ofNat40_toNat (blockOf_lt ha)
  have hkey : ∀ g ∈ frags, decide (g.block = BitVec.ofNat 40 (blockOf a)) = true ↔ g.block.toNat = blockOf a := fun g _ => by
    rw [decide_eq_true_eq, ← BitVec.toNat_inj, hblock]
  have hnew : ((writes ++ pieceWrites a bs).map fun p => p.1 / 32 * 32).eraseDups
      = (writes.map fun p => p.1 / 32 * 32).eraseDups
        ++ if blockOf a ∈ writes.map (fun p => p.1 / 32 * 32) then [] else [blockOf a] := by
    rw [List.map_append]
    refine eraseDups_append_of_const _ _ _ (by rwa [ne_eq, List.map_eq_nil_iff]) fun y hy => ?_
    obtain ⟨p, hp, rfl⟩ := List.mem_map.1 hy
    have hrange := mem_pieceWrites hp
    rw [blockOf]
    omega
  have hmem : blockOf a ∈ frags.map (·.block.toNat) ↔ blockOf a ∈ writes.map (fun p => p.1 / 32 * 32) := by
    rw [hblocks, List.mem_eraseDups]
  have halign : ∀ g ∈ frags, g.block.toNat % 32 = 0 := fun g hg => by
    have hin : g.block.toNat ∈ (writes.map fun p => p.1 / 32 * 32) := by
      rw [← List.mem_eraseDups, ← hblocks]
      exact List.mem_map_of_mem hg
    obtain ⟨x, -, hx⟩ := List.mem_map.1 hin
    omega
  have hother : ∀ g ∈ frags, g.block.toNat ≠ blockOf a → ∀ k : Fin 32,
      g.cells[k] = lastWrite (writes ++ pieceWrites a bs) (g.block.toNat + k.val) := fun g hg hk k => by
    rw [lastWrite_append, lastWrite_other_block hfit (halign g hg) hk, Option.none_or]
    exact (hfrags g hg).2.2.2.2 k
  rw [addPiece_eq]
  by_cases hin : blockOf a ∈ frags.map (·.block.toNat)
  · rw [joinFirst_of_mem _ _ (·.block.toNat) hkey (by rw [hblocks]; exact eraseDups_nodup _) hin]
    refine ⟨?_, fun g hg => ?_⟩
    · rw [hnew, if_pos (hmem.1 hin), List.append_nil, ← hblocks, List.map_map]
      refine List.map_congr_left fun g _ => ?_
      simp only [Function.comp]
      split <;> rfl
    · obtain ⟨g₀, hg₀, rfl⟩ := List.mem_map.1 hg
      obtain ⟨hsurface, horigin, hrequester, hrow₀, hcells⟩ := hfrags g₀ hg₀
      by_cases hk : g₀.block.toNat = blockOf a
      · rw [if_pos ((hkey g₀ hg₀).2 hk)]
        exact ⟨hsurface, horigin, hrequester, hrow₀, lay_lastWrite hk hcells bs⟩
      · rw [if_neg fun hd => hk ((hkey g₀ hg₀).1 hd)]
        exact ⟨hsurface, horigin, hrequester, hrow₀, hother g₀ hg₀ hk⟩
  · rw [joinFirst_of_none]
    · refine ⟨?_, fun g hg => ?_⟩
      · rw [hnew, if_neg fun h => hin (hmem.2 h), List.map_append, hblocks, List.map_singleton, hblock]
      · obtain hg | hg := List.mem_append.1 hg
        · obtain ⟨hsurface, horigin, hrequester, hrow₀, -⟩ := hfrags g hg
          exact ⟨hsurface, horigin, hrequester, hrow₀, hother g hg fun he => hin (he ▸ List.mem_map_of_mem hg)⟩
        · rw [List.mem_singleton.1 hg]
          refine ⟨rfl, rfl, rfl, by rw [hblock]; exact hrow, lay_lastWrite (l := writes) hblock (fun k => ?_) bs⟩
          have hnone : lastWrite writes ((BitVec.ofNat 40 (blockOf a)).toNat + k.val) = none := by
            refine lastWrite_eq_none fun p hp heq => hin (hmem.2 (List.mem_map.2 ⟨p, hp, ?_⟩))
            have hk := k.isLt
            rw [hblock, blockOf] at heq
            rw [blockOf]
            omega
          exact (Cells.empty_getElem _ k.isLt).trans hnone.symm
    · intro g hg
      rw [Bool.eq_false_iff]
      exact fun hd => hin ((hkey g hg).1 hd ▸ List.mem_map_of_mem hg)

/-- Fragments built up entry by entry hold the bytes of all entries, in order. -/
theorem FragmentsOf.foldl {α : Type} {i : SurfaceIx} {r : SurfaceRec} {o : Origin} {q : Requester}
    (g : List Frag → α → List Frag) (wr : α → List (Nat × Byte)) (l : List α)
    (hstep : ∀ x ∈ l, ∀ frags writes, FragmentsOf frags i r o q writes → FragmentsOf (g frags x) i r o q (writes ++ wr x)) :
    FragmentsOf (l.foldl g []) i r o q (l.flatMap wr) := by
  induction l using List.reverseRecOn with
  | nil => exact FragmentsOf.nil i r o q
  | append_singleton l x ih =>
    rw [List.foldl_append, List.flatMap_append, List.flatMap_singleton]
    exact hstep x (List.mem_append_right _ (List.mem_singleton_self x)) _ _
      (ih fun y hy => hstep y (List.mem_append_left _ hy))

end Sys2Proof.Machine
end

