-- ==== Sys2Proof/Proofs/WriteFragments.lean ====
section
/-! PROOF. The fragments of a write by route (R57, R59 to R62, R70, R72). -/

namespace Sys2Proof.Machine

/-! The bytes of a pixel (R57, R70) -/

theorem toStored_length {c : Conv} {l : List Byte} (h : l.length = c.up.size) : (toStored c l).length = c.stored.size := by
  obtain ⟨up, stored, x, y⟩ := c
  cases up <;> cases stored
  case u16.s16 | u32.s32 => exact h
  case u16.s32 | u32.s16 => rfl

theorem pieceWrites_map_some (a : Nat) (l : List Byte) :
    pieceWrites a (l.map some) = l.mapIdx fun j v => (a + j, v) := by
  induction l generalizing a with
  | nil => rfl
  | cons b l ih =>
    rw [List.map_cons, pieceWrites, ih, List.mapIdx_cons]
    simp only [Nat.add_zero, Nat.add_assoc, Nat.add_comm 1]

theorem pieceWrites_strobed (a n : Nat) (l : List WByte) :
    pieceWrites (a + n) (l.map fun b => if b.strobe then some b.data else none)
      = ((l.zipIdx n).filter (·.1.strobe)).map fun p => (a + p.2, p.1.data) := by
  induction l generalizing n with
  | nil => rfl
  | cons b l ih =>
    rw [List.map_cons, List.zipIdx_cons, List.filter_cons]
    cases b.strobe with
    | true =>
      rw [if_pos rfl, if_pos rfl, pieceWrites, List.map_cons, Nat.add_assoc, ih]
    | false =>
      rw [if_neg nofun, if_neg nofun, pieceWrites, Nat.add_assoc, ih]

theorem pieceWrites_ne_nil {v : Byte} {bs : List (Option Byte)} (h : some v ∈ bs) (a : Nat) : pieceWrites a bs ≠ [] := by
  induction bs generalizing a with
  | nil => cases h
  | cons b bs ih =>
    cases b with
    | some u => nofun
    | none =>
      obtain h | h := List.mem_cons.1 h
      · cases h
      · exact ih h (a + 1)

section
variable {kind : ApertureKind} {c : Conv} {l : List WByte}

theorem placedBytes_of_full (h : ∀ b ∈ l, b.strobe = true) :
    (placedBytes kind c l).1 = some ((toStored c (l.map (·.data))).map some) := by
  have hclass : strobeClass l = .full := if_pos (List.all_eq_true.2 h)
  rw [placedBytes, hclass]

theorem placedBytes_of_partial (h : ¬ ∀ b ∈ l, b.strobe = true) (hidentity : kind = .mapped ∧ c.up.size = c.stored.size) :
    (∀ b ∈ l, b.strobe = false) ∧ (placedBytes kind c l).1 = none
    ∨ (∃ b ∈ l, b.strobe = true)
      ∧ (placedBytes kind c l).1 = some (l.map fun b => if b.strobe then some b.data else none) := by
  have hnotall : ¬ (l.all (·.strobe)) = true := fun hall => h (List.all_eq_true.1 hall)
  have hmay : (kind == .mapped && identityFormats c) = true := by
    rw [Bool.and_eq_true, beq_iff_eq, identityFormats, beq_iff_eq]
    exact hidentity
  by_cases hnone : (l.all fun b => !b.strobe) = true
  · have hclass : strobeClass l = .none := (if_neg hnotall).trans (if_pos hnone)
    refine .inl ⟨fun b hb => Bool.not_eq_true' _ ▸ List.all_eq_true.1 hnone b hb, ?_⟩
    rw [placedBytes, hclass]
  · have hclass : strobeClass l = .partially := (if_neg hnotall).trans (if_neg hnone)
    refine .inr ⟨?_, ?_⟩
    · by_contra hall
      refine hnone (List.all_eq_true.2 fun b hb => ?_)
      rw [Bool.not_eq_true', Bool.eq_false_iff]
      exact fun hstrobe => hall ⟨b, hb, hstrobe⟩
    · rw [placedBytes, hclass]
      exact congrArg Prod.fst (if_pos hmay)

theorem placedBytes_of_dropped (h : ¬ ∀ b ∈ l, b.strobe = true) (hidentity : ¬ (kind = .mapped ∧ c.up.size = c.stored.size)) :
    (placedBytes kind c l).1 = none := by
  have hnotall : ¬ (l.all (·.strobe)) = true := fun hall => h (List.all_eq_true.1 hall)
  have hmay : ¬ (kind == .mapped && identityFormats c) = true := by
    rw [Bool.and_eq_true, beq_iff_eq, identityFormats, beq_iff_eq]
    exact hidentity
  by_cases hnone : (l.all fun b => !b.strobe) = true
  · have hclass : strobeClass l = .none := (if_neg hnotall).trans (if_pos hnone)
    rw [placedBytes, hclass]
  · have hclass : strobeClass l = .partially := (if_neg hnotall).trans (if_neg hnone)
    rw [placedBytes, hclass]
    exact congrArg Prod.fst (if_neg hmay)

/-- A pixel that places no bytes writes none. -/
theorem pixelWrites_of_none (h : (placedBytes kind c l).1 = none) (x : Nat) : pixelWrites kind c x l = [] := by
  by_cases hfull : ∀ b ∈ l, b.strobe = true
  · rw [placedBytes_of_full hfull] at h
    cases h
  rw [pixelWrites, if_neg hfull]
  by_cases hidentity : kind = .mapped ∧ c.up.size = c.stored.size
  · rw [if_pos hidentity]
    obtain ⟨hnone, -⟩ | ⟨-, hsome⟩ := placedBytes_of_partial hfull hidentity
    · rw [List.map_eq_nil_iff, List.filter_eq_nil_iff]
      intro p hp
      rw [hnone _ (List.fst_mem_of_mem_zipIdx hp)]
      nofun
    · rw [h] at hsome
      cases hsome
  · exact if_neg hidentity

/-- A pixel that places bytes writes them, as many as a stored pixel has. -/
theorem pixelWrites_of_some (hlen : l.length = c.up.size) {bs : List (Option Byte)} (h : (placedBytes kind c l).1 = some bs)
    (x : Nat) : pixelWrites kind c x l = pieceWrites x bs ∧ bs.length = c.stored.size ∧ pieceWrites x bs ≠ [] := by
  by_cases hfull : ∀ b ∈ l, b.strobe = true
  · rw [placedBytes_of_full hfull] at h
    have hlen' := toStored_length (c := c) (l := l.map (·.data)) (by rw [List.length_map, hlen])
    cases Option.some.inj h
    refine ⟨by rw [pixelWrites, if_pos hfull, pieceWrites_map_some], by rw [List.length_map, hlen'], ?_⟩
    have hpos : 0 < (toStored c (l.map (·.data))).length := by
      have hsize := c.stored.size_cases
      omega
    exact pieceWrites_ne_nil (List.mem_map_of_mem (List.getElem_mem hpos)) x
  · by_cases hidentity : kind = .mapped ∧ c.up.size = c.stored.size
    · obtain ⟨-, hnone⟩ | ⟨⟨b, hb, hstrobe⟩, hsome⟩ := placedBytes_of_partial hfull hidentity
      · rw [h] at hnone
        cases hnone
      · cases Option.some.inj (h.symm.trans hsome)
        refine ⟨?_, by rw [List.length_map, hlen, hidentity.2], ?_⟩
        · rw [pixelWrites, if_neg hfull, if_pos hidentity]
          exact (pieceWrites_strobed x 0 l).symm
        · exact pieceWrites_ne_nil (v := b.data) (List.mem_map.2 ⟨b, hb, if_pos hstrobe⟩) x
    · rw [placedBytes_of_dropped hfull hidentity] at h
      cases h

end

theorem pixelBytes_length (w : WriteReq) (off size : Nat) : (pixelBytes w off size).length = size := by
  rw [pixelBytes, List.length_map, List.length_range]

/-! Writes through an aperture -/

/-- What an entry of the placement list of a write places. -/
def entryWrites (f : ApertureFields) (r : SurfaceRec) (w : WriteReq) (e : PlaceEntry) : List (Nat × Byte) :=
  e.place.elim [] fun p => pixelWrites f.kind (convOf f r) p.addr (pixelBytes w e.off f.format.size)

/-- One step of the cutting of a write. -/
def cutStep (a : ApertureIx) (f : ApertureFields) (r : SurfaceRec) (w : WriteReq) (frags : List Frag) (e : PlaceEntry) :
    List Frag :=
  e.place.elim frags fun p => (placedBytes f.kind (convOf f r) (pixelBytes w e.off f.format.size)).1.elim frags fun bytes =>
    addPiece ⟨f.surface, p.row, BitVec.ofNat 40 (blockOf p.addr), Cells.empty, .aperture a, w.requester⟩
      (positionOf p.addr) bytes frags

theorem cutWrite_eq (a : ApertureIx) (f : ApertureFields) (r : SurfaceRec) (w : WriteReq) (l : List PlaceEntry) :
    cutWrite a f r w l = l.foldl (cutStep a f r w) [] := by
  rw [cutWrite]
  congr 1
  funext frags e
  rw [cutStep]
  cases e.place with
  | none => rfl
  | some p =>
    dsimp only [Option.elim]
    cases (placedBytes f.kind (convOf f r) (pixelBytes w e.off f.format.size)).1 <;> rfl

theorem cutWrite_fragmentsOf {r : SurfaceRec} (hr : r.fieldsOk = true) (a : ApertureIx) (f : ApertureFields) (w : WriteReq)
    {l : List PlaceEntry} (hl : ∀ e ∈ l, ∀ p, e.place = some p → r.Holds p) :
    FragmentsOf (cutWrite a f r w l) f.surface r (.aperture a) w.requester (l.flatMap (entryWrites f r w)) := by
  rw [cutWrite_eq]
  refine FragmentsOf.foldl _ _ l fun e he frags writes h => ?_
  rw [cutStep, entryWrites]
  cases hp : e.place with
  | none =>
    dsimp only [Option.elim]
    rwa [List.append_nil]
  | some p =>
    have hholds := hl e he p hp
    dsimp only [Option.elim]
    cases hbytes : (placedBytes f.kind (convOf f r) (pixelBytes w e.off f.format.size)).1 with
    | none =>
      rw [pixelWrites_of_none hbytes, List.append_nil]
      exact h
    | some bs =>
      obtain ⟨hwrites, hlen, hne⟩ := pixelWrites_of_some (c := convOf f r)
        (l := pixelBytes w e.off f.format.size) (pixelBytes_length w e.off f.format.size) hbytes p.addr
      rw [hwrites]
      exact h.addPiece (hholds.addr_lt hr) (by rw [hlen]; exact hholds.in_block hr) hne (hholds.row_of_block hr)

theorem mappedWrites_eq {f : ApertureFields} (hkind : f.kind = .mapped) (r : SurfaceRec) {w : WriteReq}
    (hlow : (writeAccess w).low = w.addr.toNat) :
    mappedWrites f r w = (mappedPlacement f r (writeAccess w)).flatMap (entryWrites f r w) := by
  rw [mappedWrites, mappedPlacement, List.flatMap_map]
  refine List.flatMap_congr fun k _ => ?_
  rw [entryWrites, hlow, hkind]
  dsimp only [Option.elim]
  rw [pixelBytes_eq]
  rfl

theorem streamWrites_eq {f : ApertureFields} (hkind : f.kind = .stream) (r : SurfaceRec) (w : WriteReq) (c : Cursor) :
    streamWrites f r w c = (streamPlacement f r (writeAccess w) c).flatMap (entryWrites f r w) := by
  rw [streamWrites, streamPlacement_eq f r _ w.addr c (streamCursor_write f w c), List.flatMap_map]
  refine List.flatMap_congr fun k _ => ?_
  rw [entryWrites, hkind]
  dsimp only
  cases (cursorMet f w.addr c k).exhausted with
  | true => rfl
  | false =>
    dsimp only [Option.elim, Bool.false_eq_true, if_false]
    rw [pixelBytes_eq]
    rfl

/-! Writes to the backing range -/

/-- A request to a surface covers whole beats within the surface. -/
theorem ToSurface.covers {s : State} {i : SurfaceIx} {q : Access} (h : ToSurface s i q)
    (hvalid : s.surfaces[i].valid = true) : q.size = 8 * q.len ∧ q.low = q.addr / 8 * 8 ∧ q.low + q.size ≤ 2 ^ 40 := by
  have hstop := SurfaceRec.stop_le_of_valid hvalid h.defined
  have hhigh := h.high
  have hlow := Access.low_of_incrementing h.burst
  have hsize : q.size = 8 * q.len := by rw [Access.size, h.burst]
  refine ⟨hsize, hlow, ?_⟩
  rw [Access.high_of_incrementing h.burst] at hhigh
  rw [addrSpace] at hstop
  omega

/-- The block of an address lies in the address's row. -/
theorem SurfaceRec.rowOf_blockOf {r : SurfaceRec} (hr : r.fieldsOk = true) {a : Nat} (ha : r.low ≤ a) :
    r.rowOf (blockOf a) = r.rowOf a := by
  obtain ⟨hbase, -, -, hpitch, -⟩ := r.fieldsOk_iff.1 hr
  obtain ⟨m, hm⟩ := Nat.dvd_of_mod_eq_zero hpitch
  rw [SurfaceRec.low] at ha
  have hblock : blockOf a - r.base.toNat = (a - r.base.toNat) / 32 * 32 := by
    rw [blockOf]
    omega
  have hpitch' : r.pitch = 32 * (2 * m) := by rw [hm]; ring
  rw [SurfaceRec.rowOf, SurfaceRec.rowOf, SurfaceRec.low, hblock, hpitch', Nat.mul_comm _ 32,
    Nat.mul_div_mul_left _ _ (by decide), Nat.div_div_eq_div_mul]

/-- What byte `j` of a backing write places. -/
def byteWrites (w : WriteReq) (j : Nat) : List (Nat × Byte) :=
  if (writeByte w j).strobe then [((writeAccess w).low + j, (writeByte w j).data)] else []

theorem backingWrites_eq {w : WriteReq} (hlow : (writeAccess w).low = w.addr.toNat / 8 * 8)
    (hsize : (writeAccess w).size = 8 * (w.lenM1.val + 1)) :
    backingWrites w = (List.range (writeAccess w).size).flatMap (byteWrites w) := by
  rw [backingWrites, List.filterMap_eq_flatMap_toList, hsize]
  refine List.flatMap_congr fun j _ => ?_
  rw [byteWrites, writeByte, hlow]
  dsimp only
  split <;> rfl

theorem backingFrags_fragmentsOf {r : SurfaceRec} (hr : r.fieldsOk = true) (i : SurfaceIx) {w : WriteReq}
    (hlow : r.low ≤ (writeAccess w).low) (hend : (writeAccess w).low + (writeAccess w).size ≤ 2 ^ 40) :
    FragmentsOf (backingFrags i r w) i r .backing w.requester ((List.range (writeAccess w).size).flatMap (byteWrites w)) := by
  rw [backingFrags]
  refine FragmentsOf.foldl _ _ _ fun j hj frags writes h => ?_
  have hj := List.mem_range.1 hj
  rw [byteWrites]
  split
  · exact h.addPiece (bs := [some (writeByte w j).data]) (by omega) (by rw [List.length_singleton]; omega) nofun
      (SurfaceRec.rowOf_blockOf hr (by omega)).symm
  · rwa [List.append_nil]

/-! The blocks of a mapped write -/

/-- Fragments of a mapped write: one for each block, each with a byte. -/
def MappedFrags (a : ApertureIx) (i : SurfaceIx) (q : Requester) (frags : List Frag) : Prop :=
  (frags.map (·.block)).Nodup ∧ ∀ g ∈ frags, g.origin = .aperture a ∧ g.surface = i ∧ g.requester = q
    ∧ ∃ k : Fin 32, g.cells[k] ≠ none

theorem addPiece_length_le (new : Frag) (pos : Nat) (bs : List (Option Byte)) (l : List Frag) :
    (addPiece new pos bs l).length ≤ l.length + 1 := by
  induction l with
  | nil => exact Nat.le_refl _
  | cons g gs ih =>
    rw [addPiece]
    split
    · exact Nat.le_succ _
    · exact Nat.succ_le_succ ih

/-- A byte laid stays laid. -/
theorem lay_ne_none {cells : Cells} {k : Fin 32} (h : cells[k] ≠ none) (pos : Nat) (bs : List (Option Byte)) :
    (cells.lay pos bs)[k] ≠ none := by
  have hlay := Cells.lay_getElem bs cells pos k.val k.isLt
  have hk : cells[k.val] ≠ none := h
  refine fun hnone => hk ?_
  rw [← Fin.getElem_fin, hnone] at hlay
  split at hlay
  · exact (Option.or_eq_none_iff.1 hlay.symm).2
  · exact hlay.symm

/-- A piece within a block lays its bytes. -/
theorem lay_of_mem {cells : Cells} {pos : Nat} {bs : List (Option Byte)} (hfit : pos + bs.length ≤ 32) {v : Byte}
    (h : some v ∈ bs) : ∃ k : Fin 32, (cells.lay pos bs)[k] ≠ none := by
  obtain ⟨j, hj, hv⟩ := List.getElem_of_mem h
  refine ⟨⟨pos + j, by omega⟩, ?_⟩
  have hlay := Cells.lay_getElem bs cells pos (pos + j) (by omega)
  rw [if_pos (by omega), Nat.add_sub_cancel_left, List.getElem?_eq_getElem hj, hv] at hlay
  rw [Fin.getElem_fin, hlay]
  nofun

theorem MappedFrags.addPiece {a : ApertureIx} {i : SurfaceIx} {q : Requester} {frags : List Frag}
    (h : MappedFrags a i q frags) {pos : Nat} {bs : List (Option Byte)} (hfit : pos + bs.length ≤ 32) {v : Byte}
    (hv : some v ∈ bs) (row : Nat) (block : Addr) :
    MappedFrags a i q (addPiece ⟨i, row, block, Cells.empty, .aperture a, q⟩ pos bs frags) := by
  obtain ⟨hnodup, hfrags⟩ := h
  rw [addPiece_eq]
  by_cases hin : block ∈ frags.map (·.block)
  · rw [joinFirst_of_mem _ _ Frag.block (fun g _ => decide_eq_true_iff) hnodup hin]
    refine ⟨?_, fun g hg => ?_⟩
    · have hblocks : (frags.map fun g => if decide (g.block = block) = true then { g with cells := g.cells.lay pos bs } else g).map
          (·.block) = frags.map (·.block) := by
        rw [List.map_map]
        refine List.map_congr_left fun g _ => ?_
        simp only [Function.comp]
        split <;> rfl
      rwa [hblocks]
    · obtain ⟨g₀, hg₀, rfl⟩ := List.mem_map.1 hg
      obtain ⟨horigin, hsurface, hrequester, k, hk⟩ := hfrags g₀ hg₀
      split
      · exact ⟨horigin, hsurface, hrequester, k, lay_ne_none hk pos bs⟩
      · exact ⟨horigin, hsurface, hrequester, k, hk⟩
  · have hout : ∀ g ∈ frags, decide (g.block = block) = false := fun g hg =>
      decide_eq_false fun he => hin (he ▸ List.mem_map_of_mem hg)
    rw [joinFirst_of_none _ _ hout]
    refine ⟨?_, fun g hg => ?_⟩
    · rw [List.map_append, List.map_singleton, List.nodup_append]
      refine ⟨hnodup, List.nodup_singleton _, fun b hb c hc => ?_⟩
      rw [List.mem_singleton.1 hc]
      rintro rfl
      exact hin hb
    · obtain hg | hg := List.mem_append.1 hg
      · exact hfrags g hg
      · rw [List.mem_singleton.1 hg]
        exact ⟨rfl, rfl, rfl, lay_of_mem hfit hv⟩

theorem pieceWrites_eq_nil {bs : List (Option Byte)} (h : ∀ v, some v ∉ bs) (a : Nat) : pieceWrites a bs = [] := by
  induction bs generalizing a with
  | nil => rfl
  | cons b bs ih =>
    cases b with
    | some v => exact absurd List.mem_cons_self (h v)
    | none => exact ih (fun v hv => h v (List.mem_cons_of_mem _ hv)) (a + 1)

theorem cutStep_mappedFrags {r : SurfaceRec} (hr : r.fieldsOk = true) {a : ApertureIx} {f : ApertureFields} {w : WriteReq}
    {e : PlaceEntry} (he : ∀ p, e.place = some p → p.addr = r.pixelAddr p.row p.col) {frags : List Frag}
    (h : MappedFrags a f.surface w.requester frags) : MappedFrags a f.surface w.requester (cutStep a f r w frags e) := by
  rw [cutStep]
  cases hp : e.place with
  | none => exact h
  | some p =>
    dsimp only [Option.elim]
    cases hbytes : (placedBytes f.kind (convOf f r) (pixelBytes w e.off f.format.size)).1 with
    | none => exact h
    | some bs =>
      obtain ⟨-, hlen, hne⟩ := pixelWrites_of_some (c := convOf f r)
        (l := pixelBytes w e.off f.format.size) (pixelBytes_length w e.off f.format.size) hbytes p.addr
      have hfit : positionOf p.addr + bs.length ≤ 32 := by
        rw [hlen, he p hp]
        exact SurfaceRec.pixelAddr_in_block hr p.row p.col
      obtain ⟨v, hv⟩ : ∃ v, some v ∈ bs := by
        by_contra hnone
        exact hne (pieceWrites_eq_nil (fun v hv => hnone ⟨v, hv⟩) _)
      exact h.addPiece hfit hv p.row _

theorem cutStep_length_le (a : ApertureIx) (f : ApertureFields) (r : SurfaceRec) (w : WriteReq) (frags : List Frag)
    (e : PlaceEntry) : (cutStep a f r w frags e).length ≤ frags.length + 1 := by
  rw [cutStep]
  cases e.place with
  | none => exact Nat.le_succ _
  | some p =>
    dsimp only [Option.elim]
    cases (placedBytes f.kind (convOf f r) (pixelBytes w e.off f.format.size)).1 with
    | none => exact Nat.le_succ _
    | some bs => exact addPiece_length_le _ _ _ _

/-- A mapped write has at most 64 fragments, also where it reaches beyond the view. -/
theorem mappedWritePlan_frags {r : SurfaceRec} (hr : r.fieldsOk = true) (a : ApertureIx) (f : ApertureFields) (w : WriteReq) :
    MappedFrags a f.surface w.requester (mappedWritePlan a f r w).frags ∧ (mappedWritePlan a f r w).frags.length ≤ 64 := by
  have hcut : (mappedWritePlan a f r w).frags = (mappedPlacement f r (writeAccess w)).foldl (cutStep a f r w) [] :=
    cutWrite_eq a f r w _
  have hplaces : ∀ e ∈ mappedPlacement f r (writeAccess w), ∀ p, e.place = some p → p.addr = r.pixelAddr p.row p.col := by
    intro e he p hp
    obtain ⟨k, -, rfl⟩ := List.mem_map.1 he
    rw [← Option.some.inj hp]
    rfl
  rw [hcut]
  refine ⟨List.foldlRecOn _ _ ⟨List.nodup_nil, nofun⟩ fun frags h e he => cutStep_mappedFrags hr (hplaces e he) h, ?_⟩
  calc ((mappedPlacement f r (writeAccess w)).foldl (cutStep a f r w) []).length
      ≤ (mappedPlacement f r (writeAccess w)).length := by
        simpa using foldl_length_le (cutStep a f r w) (cutStep_length_le a f r w) (mappedPlacement f r (writeAccess w)) []
    _ = 8 * (writeAccess w).len / f.format.size := mappedPlacement_length f r _
    _ ≤ 64 := pixels_le _ (by show w.lenM1.val + 1 ≤ 16; omega)

/-- Settles O56: through the placement lists of the routes, piece by piece. -/
theorem fragmentsHoldTheBytesWritten : Obligations.FragmentsHoldTheBytesWritten := by
  refine ⟨fun s w p htables hp => ⟨fun a hclass => ?_, fun a hclass => ?_, fun i hclass => ?_⟩,
    fun a f r w frags hr hfrags => ?_⟩
  · obtain ⟨hthrough, hkind⟩ := State.classify_mapped hclass
    have hlow : (writeAccess w).low = w.addr.toNat := by
      have haligned : w.addr.toNat % 8 = 0 := hthrough.aligned
      rw [Access.low_of_incrementing hthrough.burst]
      show w.addr.toNat / 8 * 8 = w.addr.toNat
      omega
    rw [State.planOf_mapped hp hclass, mappedWrites_eq hkind _ hlow]
    exact ⟨rfl, rfl, cutWrite_fragmentsOf (hthrough.surface_fieldsOk htables) a _ w
      fun e he p hp => hthrough.mappedPlacement_holds hkind he hp⟩
  · obtain ⟨hthrough, hkind⟩ := State.classify_stream hclass
    rw [State.planOf_stream hp hclass, streamWrites_eq hkind]
    exact ⟨rfl, rfl, cutWrite_fragmentsOf (hthrough.surface_fieldsOk htables) a _ w
      fun e he p hp => hthrough.streamPlacement_holds htables hkind (streamCursor_write _ w _) he hp⟩
  · have hto := State.classify_backing hclass
    have hvalid := (((tablesOk_iff s).1 htables).1 i).valid
    obtain ⟨hsize, hlow, hend⟩ := hto.covers hvalid
    have hr : s.surfaces[i].fieldsOk = true := by rw [← SurfaceRec.valid_of_defined hto.defined]; exact hvalid
    obtain ⟨hbase, -⟩ := (SurfaceRec.fieldsOk_iff _).1 hr
    have hfirst := hto.low
    rw [State.planOf_backing hp hclass, backingWrites_eq hlow hsize]
    refine ⟨rfl, rfl, backingFrags_fragmentsOf hr i ?_ hend⟩
    rw [SurfaceRec.low] at hfirst ⊢
    omega
  · obtain ⟨⟨hnodup, hall⟩, hlength⟩ := mappedWritePlan_frags hr a f w
    rw [hfrags]
    exact ⟨hnodup, hlength, hall⟩

end Sys2Proof.Machine
end

