-- ==== Sys2Proof/Proofs/FetchedReads.lean ====
section
/-! PROOF. The fragment reads of a read by route, and those of a scanner read row by row (R56, R58, R59, R61, R62, R68, R94,
R99). -/

namespace Sys2Proof.Machine

/-! Placement lists, entry by entry -/

theorem mappedPlacement_getElem? (f : ApertureFields) (r : SurfaceRec) {q : Access} (hlow : q.low = q.addr) {k : Nat}
    (hk : k < 8 * q.len / f.format.size) :
    let i := (q.addr - f.base.toNat) / f.format.size + k
    (mappedPlacement f r q)[k]? = some ⟨some (q.addr - f.base.toNat + f.format.size * k), f.format.size * k,
      some (placeAt f r (i % viewWidth f r) (i / viewWidth f r))⟩ := by
  rw [mappedPlacement, List.getElem?_map, List.getElem?_range hk, Option.map_some, hlow, Nat.mul_comm f.format.size k]
  rfl

theorem streamPlacement_getElem? (f : ApertureFields) (r : SurfaceRec) (req : ReadReq) (c : Cursor) {k : Nat}
    (hk : k < 8 * (req.lenM1.val + 1) / f.format.size) :
    let m := cursorMet f req.addr c k
    (streamPlacement f r (readAccess req) c)[k]? = some ⟨none, f.format.size * k,
      if m.exhausted then none else some (placeAt f r m.col m.row)⟩ := by
  have hrange : (List.range (pixelCount f (readAccess req)))[k]? = some k := List.getElem?_range hk
  rw [streamPlacement_eq f r _ req.addr c (streamCursor_read f req c), List.getElem?_map, hrange, Option.map_some,
    Nat.mul_comm f.format.size k]

/-! Reads through an aperture -/

/-- Reads built up entry by entry fetch the bytes of all entries, in order. -/
theorem ReadsOf.foldl {α : Type} (g : List FragRead → α → List FragRead) (needs : α → List Nat) (l : List α)
    (hstep : ∀ x ∈ l, ∀ reads addrs, ReadsOf reads addrs → ReadsOf (g reads x) (addrs ++ needs x)) :
    ReadsOf (l.foldl g []) (l.flatMap needs) := by
  induction l using List.reverseRecOn with
  | nil => exact ReadsOf.nil
  | append_singleton l x ih =>
    rw [List.foldl_append, List.flatMap_append, List.flatMap_singleton]
    exact hstep x (List.mem_append_right _ (List.mem_singleton_self x)) _ _
      (ih fun y hy => hstep y (List.mem_append_left _ hy))

/-- The addresses of the stored bytes of an entry's pixel. -/
def entryBytes (r : SurfaceRec) (e : PlaceEntry) : List Nat :=
  e.place.elim [] fun p => (List.range r.format.size).map (p.addr + ·)

theorem cutReads_readsOf {r : SurfaceRec} (hr : r.fieldsOk = true) {l : List PlaceEntry}
    (hl : ∀ e ∈ l, ∀ p, e.place = some p → r.Holds p) : ReadsOf (cutReads r l) (l.flatMap (entryBytes r)) := by
  rw [cutReads]
  refine ReadsOf.foldl _ _ l fun e he reads addrs h => ?_
  rw [entryBytes]
  cases hp : e.place with
  | none =>
    dsimp only [Option.elim]
    rwa [List.append_nil]
  | some p =>
    have hholds := hl e he p hp
    have hsize := r.format.size_cases
    exact h.addRead (hholds.addr_lt hr) (by omega) (hholds.in_block hr)

/-! Scanner reads -/

theorem SurfaceRec.memoryRow_lt {r : SurfaceRec} (hr : r.fieldsOk = true) {band : Option Band}
    (hband : r.optBandOk band = true) {e : Nat} (he : e < r.height) : memoryRow band e < r.height := by
  obtain ⟨-, -, -, -, -, -, -, -, -, -, -, -, hlast, -⟩ := r.fieldsOk_iff.1 hr
  cases band with
  | none => exact he
  | some b =>
    by_cases hcovers : b.covers e = true
    · have hoffset := ((r.bandOk_iff b).1 hband).2.2.1
      have hrow := SurfaceRec.inScanRange_of_covered (r := r) hband (memoryRow_covered hcovers hoffset)
      have hle := ((r.inScanRange_iff _).1 hrow).2
      omega
    · rw [memoryRow_of_not_covered hcovers]
      exact he

section
variable {r : SurfaceRec} (hr : r.fieldsOk = true) {q : Access} (hlow : r.base.toNat ≤ q.addr)
  (hhigh : q.high < r.base.toNat + r.pitch * r.height) (hburst : q.burst = .incrementing) (hlen : 1 ≤ q.len)
include hr hlow hhigh hburst hlen

/-- A row that the read touches holds some of its bytes, in whole beats. -/
theorem scannerPiece_range {e : Nat} (hfirst : (q.low - r.base.toNat) / r.pitch ≤ e)
    (hlast : e ≤ (q.high - r.base.toNat) / r.pitch) :
    let rowLow := r.base.toNat + e * r.pitch
    let first := max q.low rowLow
    let stop := min (q.high + 1) (rowLow + r.pitch)
    e < r.height ∧ first < stop ∧ first - rowLow < r.pitch ∧ (stop - first) % 8 = 0 := by
  obtain ⟨hbase, hpitch, -, haligned, -⟩ := r.fieldsOk_iff.1 hr
  obtain ⟨m, hm⟩ := Nat.dvd_of_mod_eq_zero haligned
  have hrow : e * r.pitch = 64 * (e * m) := by rw [hm]; ring
  have hqlow := Access.low_of_incrementing hburst
  have hqhigh := Access.high_of_incrementing hburst
  have hbelow : e * r.pitch ≤ q.high - r.base.toNat := (Nat.le_div_iff_mul_le (by omega)).1 hlast
  have habove : q.low - r.base.toNat < (e + 1) * r.pitch := Nat.lt_mul_of_div_lt (Nat.lt_succ_of_le hfirst) (by omega)
  rw [Nat.add_mul] at habove
  intro rowLow first stop
  refine ⟨?_, by omega, by omega, by omega⟩
  refine Nat.lt_of_mul_lt_mul_right (a := r.pitch) ?_
  rw [Nat.mul_comm r.height]
  omega

/-- The piece of a scanner read in a row that it touches. -/
theorem scannerPiece_addr {band : Option Band} (hband : r.optBandOk band = true) {e : Nat}
    (hfirst : (q.low - r.base.toNat) / r.pitch ≤ e) (hlast : e ≤ (q.high - r.base.toNat) / r.pitch) :
    (scannerPiece r band q e).addr.toNat = r.base.toNat + memoryRow band e * r.pitch
      + (max q.low (r.base.toNat + e * r.pitch) - (r.base.toNat + e * r.pitch)) := by
  obtain ⟨he, -, hbelow, -⟩ := scannerPiece_range hr hlow hhigh hburst hlen hfirst hlast
  obtain ⟨-, -, -, -, -, -, -, -, -, -, hstop, -⟩ := r.fieldsOk_iff.1 hr
  have hrow : (memoryRow band e + 1) * r.pitch ≤ r.height * r.pitch :=
    Nat.mul_le_mul_right _ (SurfaceRec.memoryRow_lt hr hband he)
  rw [Nat.add_mul, Nat.mul_comm r.height] at hrow
  exact ofNat40_toNat (by rw [SurfaceRec.low]; omega)

theorem scannerPiece_beats (band : Option Band) {e : Nat} (hfirst : (q.low - r.base.toNat) / r.pitch ≤ e)
    (hlast : e ≤ (q.high - r.base.toNat) / r.pitch) :
    8 * (scannerPiece r band q e).beats = min (q.high + 1) (r.base.toNat + (e + 1) * r.pitch)
      - max q.low (r.base.toNat + e * r.pitch) := by
  obtain ⟨-, hstop, -, hbeats⟩ := scannerPiece_range hr hlow hhigh hburst hlen hfirst hlast
  have hpiece : (scannerPiece r band q e).beats
      = (min (q.high + 1) (r.base.toNat + e * r.pitch + r.pitch) - (r.base.toNat + e * r.pitch)
        - (max q.low (r.base.toNat + e * r.pitch) - (r.base.toNat + e * r.pitch))) / 8 := rfl
  rw [hpiece, Nat.add_mul, Nat.one_mul, ← Nat.add_assoc]
  omega

/-- The piece that covers the finishing byte, if the read is tracked (R99). -/
theorem scannerPiece_finishes_iff (band : Option Band) {e : Nat} (hfirst : (q.low - r.base.toNat) / r.pitch ≤ e)
    (hlast : e ≤ (q.high - r.base.toNat) / r.pitch) :
    let d := (q.low - r.base.toNat) / r.pitch
    let first := max q.low (r.base.toNat + e * r.pitch)
    let stop := min (q.high + 1) (r.base.toNat + (e + 1) * r.pitch)
    let last := r.base.toNat + r.lastRow * r.pitch + r.width * r.format.size - 1
    (scannerPiece r band q e).finishes = true ↔
      r.firstRow ≤ d ∧ d ≤ r.lastRow ∧ e = r.lastRow ∧ first ≤ last ∧ last < stop := by
  intro d first stop last
  obtain ⟨-, hstop, -, -⟩ := scannerPiece_range hr hlow hhigh hburst hlen hfirst hlast
  obtain ⟨-, -, -, -, hwidth, -⟩ := r.fieldsOk_iff.1 hr
  have hpixels : 1 ≤ r.width * r.format.size := by
    have hsize := r.format.size_cases
    exact Nat.mul_pos hwidth (by omega)
  have hpiece : (scannerPiece r band q e).finishes = (trackedRead r q && e == r.lastRow
      && decide (max q.low (r.base.toNat + e * r.pitch) - (r.base.toNat + e * r.pitch) ≤ r.width * r.format.size - 1)
      && decide (r.width * r.format.size - 1
        < min (q.high + 1) (r.base.toNat + e * r.pitch + r.pitch) - (r.base.toNat + e * r.pitch))) := rfl
  have hnext : r.base.toNat + (e + 1) * r.pitch = r.base.toNat + e * r.pitch + r.pitch := by ring
  rw [hpiece, Bool.and_eq_true, Bool.and_eq_true, Bool.and_eq_true, decide_eq_true_eq, decide_eq_true_eq, beq_iff_eq,
    trackedRead_iff]
  simp only [stop, hnext, first, last, d]
  constructor
  · rintro ⟨⟨⟨⟨hfirstRow, hlastRow⟩, rfl⟩, hbegins⟩, hends⟩
    exact ⟨hfirstRow, hlastRow, rfl, by omega, by omega⟩
  · rintro ⟨hfirstRow, hlastRow, rfl, hbegins, hends⟩
    exact ⟨⟨⟨⟨hfirstRow, hlastRow⟩, rfl⟩, by omega⟩, by omega⟩

end

/-- Settles O57: entry by entry, piece by piece, row by row. -/
theorem readsFetchTheBytesNeeded : Obligations.ReadsFetchTheBytesNeeded := by
  refine ⟨fun f r q k haligned hburst hk => ⟨mappedPlacement_length f r q, ?_⟩, fun f r req c k hk =>
    ⟨streamPlacement_length f r (readAccess req) c, streamPlacement_getElem? f r req c hk⟩, fun s req htables => ?_,
    fun r band q k hr hband hlow hhigh hburst hlen => ⟨?_, fun he => ?_⟩⟩
  · refine mappedPlacement_getElem? f r ?_ hk
    rw [Access.low_of_incrementing hburst]
    omega
  · intro bytes
    have hbytes : ∀ (r : SurfaceRec) (l : List PlaceEntry), bytes r l = l.flatMap (entryBytes r) := fun r l => by
      refine List.flatMap_congr fun e _ => ?_
      rw [entryBytes, StoredFormat.size_eq]
      cases e.place <;> rfl
    refine ⟨fun a hclass => ?_, fun a hclass => ?_, fun i hclass => ?_⟩
    · obtain ⟨hthrough, hkind⟩ := State.classify_mapped hclass
      intro l
      rw [hbytes]
      exact cutReads_readsOf (hthrough.surface_fieldsOk htables) fun e he p hp => hthrough.mappedPlacement_holds hkind he hp
    · obtain ⟨hthrough, hkind⟩ := State.classify_stream hclass
      intro l
      rw [hbytes]
      exact cutReads_readsOf (hthrough.surface_fieldsOk htables)
        fun e he p hp => hthrough.streamPlacement_holds htables hkind (streamCursor_read _ req _) he hp
    · obtain ⟨hsize, hlow, hend⟩ := (State.classify_backing hclass).covered (((tablesOk_iff s).1 htables).1 i).valid
      have hreads := backingReads_readsOf hend
      rwa [hsize, hlow] at hreads
  · rw [scannerReads, List.length_map, List.length_range]
    rfl
  · have hd : (q.low - r.base.toNat) / r.pitch ≤ (q.low - r.base.toNat) / r.pitch + k := Nat.le_add_right _ _
    refine ⟨scannerPiece r band q ((q.low - r.base.toNat) / r.pitch + k), ?_, scannerPiece_addr hr hlow hhigh hburst hlen hband
      hd he, scannerPiece_beats hr hlow hhigh hburst hlen band hd he, rfl, ?_⟩
    · have hk : k < r.rowOf q.high - r.rowOf q.low + 1 := by
        rw [SurfaceRec.rowOf, SurfaceRec.rowOf, SurfaceRec.low]
        omega
      rw [scannerReads, List.getElem?_map, List.getElem?_range hk]
      rfl
    · rw [← StoredFormat.size_eq]
      exact scannerPiece_finishes_iff hr hlow hhigh hburst hlen band hd he

end Sys2Proof.Machine
end

