-- ==== Sys2Proof/Proofs/MergedBytes.lean ====
section
/-! PROOF. The merged bytes of a fragment read and the bytes of a response (R130, R131). -/

namespace Sys2Proof.Machine

/-! Merging (R130) -/

theorem merged_length (fr : FragRead) (data : List Byte) : (merged fr data).length = 8 * fr.beats := by
  rw [merged, List.length_map, List.length_range]

theorem returnedByte_of_lt {data : List Byte} {i : Nat} (h : i < data.length) : returnedByte data i = data[i] :=
  List.getD_eq_getElem _ _ h

theorem merged_of_no_snapshot {fr : FragRead} (h : fr.snapshot = none) {data : List Byte} (hlen : data.length = 8 * fr.beats) :
    merged fr data = data := by
  refine List.ext_getElem (by rw [merged_length, hlen]) fun i hi hi' => ?_
  simp only [merged, h, List.getElem_map, List.getElem_range]
  exact returnedByte_of_lt hi'

/-- The snapshot's byte where it covers the position, memory's elsewhere. -/
theorem merged_of_snapshot {fr : FragRead} {cells : Cells} (h : fr.snapshot = some cells) (data : List Byte)
    (hbeats : fr.beats = 4) (k : Fin 32) :
    (merged fr data)[k.val]? = some ((cells[k]).getD (returnedByte data k.val)) := by
  have hk : k.val < 8 * fr.beats := by omega
  have hcells : cells.toList.getD k.val none = cells[k] := by
    rw [List.getD_eq_getElem _ _ (by rw [Vector.length_toList]; exact k.isLt)]
    exact Vector.getElem_toList _
  rw [merged, List.getElem?_map, List.getElem?_range hk, Option.map_some, h]
  exact congrArg (fun c => some (Option.getD c (returnedByte data k.val))) hcells

/-! Responses (R131) -/

/-- Pieces of one length, one after the other. -/
theorem flatMap_pieces {α β : Type} {g : α → List β} {n : Nat} {l : List α} (h : ∀ x ∈ l, (g x).length = n) :
    (l.flatMap g).length = n * l.length
      ∧ ∀ (k : Nat) (x : α), l[k]? = some x → ((l.flatMap g).drop (n * k)).take n = g x := by
  induction l with
  | nil => exact ⟨rfl, nofun⟩
  | cons y l ih =>
    obtain ⟨hy, hl⟩ := List.forall_mem_cons.1 h
    obtain ⟨hlen, hpieces⟩ := ih hl
    rw [List.flatMap_cons]
    refine ⟨by rw [List.length_append, hy, hlen, List.length_cons]; ring, fun k x hx => ?_⟩
    cases k with
    | zero =>
      rw [Nat.mul_zero, List.drop_zero, ← hy, List.take_left]
      exact congrArg g (Option.some.inj hx)
    | succ k =>
      have hdrop : n * (k + 1) = (g y).length + n * k := by rw [hy]; ring
      rw [hdrop, List.drop_length_add_append]
      exact hpieces k x hx

theorem toUpstream_length {c : Conv} {l : List Byte} (h : l.length = c.stored.size) : (toUpstream c l).length = c.up.size := by
  obtain ⟨up, stored, x, y⟩ := c
  cases up <;> cases stored
  case u16.s16 | u32.s32 => exact h
  case u16.s32 | u32.s16 => rfl

theorem blockBytes_length {l : List Byte} {pos n : Nat} (h : pos + n ≤ l.length) : (blockBytes l pos n).length = n := by
  rw [blockBytes, List.length_take, List.length_drop]
  omega

theorem blockBytes_one {l : List Byte} {pos : Nat} (h : pos < l.length) : blockBytes l pos 1 = [l[pos]] := by
  rw [blockBytes, List.drop_eq_getElem_cons h]
  rfl

theorem Entry.responseBytes_of_transparent {en : Entry} (h : en.route = .transparent ∨ en.route = .scanner) :
    en.responseBytes = (en.reads.map fun fr => fr.data.getD []).flatten := by
  rw [Entry.responseBytes, ← List.flatMap_def]
  obtain h | h := h <;> rw [h]

theorem Entry.responseBytes_of_backing {en : Entry} (h : en.route = .backing) :
    en.responseBytes = (List.range (readAccess en.req).size).flatMap fun j =>
      blockBytes (en.block (blockOf ((readAccess en.req).low + j))) (positionOf ((readAccess en.req).low + j)) 1 := by
  rw [Entry.responseBytes, h]

theorem Entry.responseBytes_of_pixels {en : Entry} (h : en.route = .mapped ∨ en.route = .stream) {c : Conv}
    (hconv : en.conv = some c) : en.responseBytes = en.placement.flatMap (en.pixel c) := by
  rw [Entry.responseBytes]
  obtain h | h := h <;> rw [h, hconv]

section
variable {en : Entry} (hnodup : (en.reads.map (·.addr)).Nodup)
  (hdata : ∀ fr ∈ en.reads, ∃ d, fr.data = some d ∧ d.length = 32)
include hnodup

/-- A block is found in the one fragment read that fetched it. -/
theorem Entry.block_of_mem {fr : FragRead} (hfr : fr ∈ en.reads) {a : Nat} (hblock : fr.addr.toNat = a / 32 * 32) :
    en.block (blockOf a) = fr.data.getD [] := by
  have haddr : fr.addr = BitVec.ofNat 40 (blockOf a) := by
    rw [blockOf, ← hblock, BitVec.ofNat_toNat, BitVec.setWidth_eq]
  have hfind : en.reads.find? (fun g => g.addr = BitVec.ofNat 40 (blockOf a)) = some fr := by
    cases hf : en.reads.find? (fun g => g.addr = BitVec.ofNat 40 (blockOf a)) with
    | none => exact absurd (decide_eq_true haddr) (List.find?_eq_none.1 hf fr hfr)
    | some g =>
      have hg := List.find?_some hf
      rw [decide_eq_true_eq] at hg
      exact congrArg some (List.inj_on_of_nodup_map hnodup (List.mem_of_find?_eq_some hf) hfr (hg.trans haddr.symm))
  rw [Entry.block, hfind]

include hdata

theorem Entry.block_length {fr : FragRead} (hfr : fr ∈ en.reads) {a : Nat} (hblock : fr.addr.toNat = a / 32 * 32) :
    (en.block (blockOf a)).length = 32 := by
  obtain ⟨d, hd, hlen⟩ := hdata fr hfr
  rw [Entry.block_of_mem hnodup hfr hblock, hd]
  exact hlen

theorem Entry.backing_bytes (hroute : en.route = .backing)
    (hcovered : ∀ j, j < (readAccess en.req).size → ∃ fr ∈ en.reads, fr.addr.toNat = ((readAccess en.req).low + j) / 32 * 32) :
    en.responseBytes.length = (readAccess en.req).size
      ∧ ∀ j fr, j < (readAccess en.req).size → fr ∈ en.reads →
          fr.addr.toNat = ((readAccess en.req).low + j) / 32 * 32 →
          en.responseBytes[j]? = (fr.data.getD [])[((readAccess en.req).low + j) % 32]? := by
  have hone : ∀ j ∈ List.range (readAccess en.req).size, (blockBytes (en.block (blockOf ((readAccess en.req).low + j)))
      (positionOf ((readAccess en.req).low + j)) 1).length = 1 := by
    intro j hj
    obtain ⟨fr, hfr, hblock⟩ := hcovered j (List.mem_range.1 hj)
    refine blockBytes_length ?_
    rw [Entry.block_length hnodup hdata hfr hblock, positionOf]
    omega
  obtain ⟨hlen, hpieces⟩ := flatMap_pieces hone
  rw [Entry.responseBytes_of_backing hroute]
  refine ⟨by rw [hlen, List.length_range, Nat.one_mul], fun j fr hj hfr hblock => ?_⟩
  have hpiece := hpieces j j (List.getElem?_range hj)
  have hpos : ((readAccess en.req).low + j) % 32 < (en.block (blockOf ((readAccess en.req).low + j))).length := by
    rw [Entry.block_length hnodup hdata hfr hblock]
    omega
  rw [Nat.one_mul, positionOf, blockBytes_one hpos] at hpiece
  rw [← Entry.block_of_mem hnodup hfr hblock, List.getElem?_eq_getElem hpos, ← List.head?_drop]
  refine (List.head?_take.trans (if_neg Nat.one_ne_zero)).symm.trans ?_
  rw [hpiece]
  rfl

theorem Entry.pixel_bytes {c : Conv} (hroute : en.route = .mapped ∨ en.route = .stream) (hconv : en.conv = some c)
    (hplaces : ∀ e ∈ en.placement, ∀ p, e.place = some p → p.addr % 32 + c.stored.size ≤ 32
      ∧ ∃ fr ∈ en.reads, fr.addr.toNat = p.addr / 32 * 32) :
    en.responseBytes.length = c.up.size * en.placement.length
      ∧ ∀ k e, en.placement[k]? = some e →
          (e.place = none → (en.responseBytes.drop (c.up.size * k)).take c.up.size = List.replicate c.up.size 0)
          ∧ (∀ p fr, e.place = some p → fr ∈ en.reads → fr.addr.toNat = p.addr / 32 * 32 →
              (en.responseBytes.drop (c.up.size * k)).take c.up.size
                = toUpstream c (((fr.data.getD []).drop (p.addr % 32)).take c.stored.size)) := by
  have hsize : ∀ e ∈ en.placement, (en.pixel c e).length = c.up.size := by
    intro e he
    rw [Entry.pixel]
    cases hp : e.place with
    | none => exact List.length_replicate
    | some p =>
      obtain ⟨hfit, fr, hfr, hblock⟩ := hplaces e he p hp
      refine toUpstream_length (blockBytes_length ?_)
      rw [Entry.block_length hnodup hdata hfr hblock]
      exact hfit
  obtain ⟨hlen, hpieces⟩ := flatMap_pieces hsize
  rw [Entry.responseBytes_of_pixels hroute hconv]
  refine ⟨hlen, fun k e he => ⟨fun hnone => ?_, fun p fr hp hfr hblock => ?_⟩⟩
  · rw [hpieces k e he, Entry.pixel, hnone]
  · rw [hpieces k e he, Entry.pixel, hp, ← Entry.block_of_mem hnodup hfr hblock]
    rfl

end

/-- Settles O58: byte by byte for merging, and by route for the response. -/
theorem responsesCarryTheMergedBytes : Obligations.ResponsesCarryTheMergedBytes := by
  refine ⟨fun fr data hlen => ⟨merged_length fr data, fun h => merged_of_no_snapshot h hlen, fun cells h hbeats k => ?_⟩,
    fun en => Entry.responseBytes_of_transparent, fun en hnodup hdata => ⟨Entry.backing_bytes hnodup hdata,
      fun c => Entry.pixel_bytes hnodup hdata⟩⟩
  have hk : k.val < data.length := by omega
  rw [merged_of_snapshot h data hbeats, returnedByte_of_lt hk]
  cases cells[k] with
  | none => exact (List.getElem?_eq_getElem hk).symm
  | some b => rfl

end Sys2Proof.Machine
end
